-- ==== Sys2Proof/Word.lean ====
section
/-! DEFINITION. The widths of the block's values: bytes of the buffers and 32-bit register words (00_scope.md R16). -/

namespace Sys2Proof

/-- One byte of IN, of OUT or of a stream (00_scope.md R16, `u8`). -/
abbrev Byte := BitVec 8

/-- One 32-bit register word (00_scope.md R16, `u32`; 10_state.md R28). -/
abbrev Word := BitVec 32

end Sys2Proof
end

