-- ==== Sys2Proof/Syntax.lean ====
section
/-! DEFINITION. The instructions: one constructor for each row of spec/opcode_table.json, in the table's order. A row
whose mask leaves low bits free has those bits as its operand. -/

namespace Sys2Proof

/-- What the block interprets: command words (30_encoding.md R70) and, while it decodes a stream, block headers,
fixed-Huffman codes and the gzip member header (30_encoding.md R71 to R93). -/
inductive Instr where
  /-- CLEAR, CMD word 0 (46_commands.md R248). -/
  | clear
  /-- DEFLATE_COMPRESS, CMD word 1 (46_commands.md R243). -/
  | deflateCompress
  /-- DEFLATE_DECOMPRESS, CMD word 2 (46_commands.md R244). -/
  | deflateDecompress
  /-- GZIP_COMPRESS, CMD word 3 (46_commands.md R245). -/
  | gzipCompress
  /-- GZIP_DECOMPRESS, CMD word 4 (46_commands.md R246). -/
  | gzipDecompress
  /-- CRC32, CMD word 5 (46_commands.md R247). -/
  | crc32
  /-- Any other CMD word: OP in 6 to 15 or RSVD non-zero (46_commands.md R249). -/
  | reservedCmd (w : Word)
  /-- Block header with BTYPE = 00 (43_deflate_decoder.md R172). -/
  | blockStored (final : Bool)
  /-- Block header with BTYPE = 01 (43_deflate_decoder.md R173). -/
  | blockFixed (final : Bool)
  /-- Block header with BTYPE = 10 (43_deflate_decoder.md R174). -/
  | blockDynamicUnsupported (final : Bool)
  /-- Block header with BTYPE = 11 (43_deflate_decoder.md R174). -/
  | blockReserved (final : Bool)
  /-- 8-bit code 0011cccc: literals 0 to 15 (30_encoding.md R80). -/
  | lit0To15 (c : BitVec 4)
  /-- 8-bit code 01cccccc: literals 16 to 79 (30_encoding.md R80). -/
  | lit16To79 (c : BitVec 6)
  /-- 8-bit code 10cccccc: literals 80 to 143 (30_encoding.md R80). -/
  | lit80To143 (c : BitVec 6)
  /-- 9-bit code 11001cccc: literals 144 to 159 (30_encoding.md R80). -/
  | lit144To159 (c : BitVec 4)
  /-- 9-bit code 1101ccccc: literals 160 to 191 (30_encoding.md R80). -/
  | lit160To191 (c : BitVec 5)
  /-- 9-bit code 111cccccc: literals 192 to 255 (30_encoding.md R80). -/
  | lit192To255 (c : BitVec 6)
  /-- 7-bit code 0000000: symbol 256, end of block (30_encoding.md R80). -/
  | eob
  /-- 7-bit code 0000001: length symbol 257 (30_encoding.md R84). -/
  | len257
  /-- 7-bit code 000001c: length symbols 258, 259. -/
  | len258To259 (c : BitVec 1)
  /-- 7-bit code 00001cc: length symbols 260 to 263. -/
  | len260To263 (c : BitVec 2)
  /-- 7-bit code 0001ccc: length symbols 264 to 271. -/
  | len264To271 (c : BitVec 3)
  /-- 7-bit code 0010ccc: length symbols 272 to 279. -/
  | len272To279 (c : BitVec 3)
  /-- 8-bit code 110000cc: length symbols 280 to 283. -/
  | len280To283 (c : BitVec 2)
  /-- 8-bit code 1100010c: length symbols 284, 285. -/
  | len284To285 (c : BitVec 1)
  /-- 8-bit code 1100011c: symbols 286, 287, which are no symbols of the alphabet (30_encoding.md R83). -/
  | litlenInvalid (c : BitVec 1)
  /-- 5-bit code 0cccc: distance symbols 0 to 15 (30_encoding.md R82). -/
  | dist0To15 (c : BitVec 4)
  /-- 5-bit code 10ccc: distance symbols 16 to 23. -/
  | dist16To23 (c : BitVec 3)
  /-- 5-bit code 110cc: distance symbols 24 to 27. -/
  | dist24To27 (c : BitVec 2)
  /-- 5-bit code 1110c: distance symbols 28, 29. -/
  | dist28To29 (c : BitVec 1)
  /-- 5-bit code 1111c: 30 and 31, which name no distance symbol (30_encoding.md R82). -/
  | distInvalid (c : BitVec 1)
  /-- The 10-byte fixed gzip header with ID1, ID2 and CM as required (30_encoding.md R89); FLG, MTIME, XFL and OS are
  its operands. -/
  | gzipMember (flg : Byte) (mtime : Word) (xfl os : Byte)
deriving DecidableEq, Repr

/-- The five contexts in which bits are decoded (30_encoding.md, introduction): each has its own code. -/
inductive Space where
  /-- A word written to CMD. -/
  | cmd
  /-- A DEFLATE block header. -/
  | block
  /-- A fixed literal/length code. -/
  | litlen
  /-- A fixed distance code. -/
  | dist
  /-- A gzip member's fixed header. -/
  | gzip
deriving DecidableEq, Repr

/-- The context each instruction belongs to. -/
def Instr.space : Instr → Space
  | .clear => .cmd
  | .deflateCompress => .cmd
  | .deflateDecompress => .cmd
  | .gzipCompress => .cmd
  | .gzipDecompress => .cmd
  | .crc32 => .cmd
  | .reservedCmd _ => .cmd
  | .blockStored _ => .block
  | .blockFixed _ => .block
  | .blockDynamicUnsupported _ => .block
  | .blockReserved _ => .block
  | .lit0To15 _ => .litlen
  | .lit16To79 _ => .litlen
  | .lit80To143 _ => .litlen
  | .lit144To159 _ => .litlen
  | .lit160To191 _ => .litlen
  | .lit192To255 _ => .litlen
  | .eob => .litlen
  | .len257 => .litlen
  | .len258To259 _ => .litlen
  | .len260To263 _ => .litlen
  | .len264To271 _ => .litlen
  | .len272To279 _ => .litlen
  | .len280To283 _ => .litlen
  | .len284To285 _ => .litlen
  | .litlenInvalid _ => .litlen
  | .dist0To15 _ => .dist
  | .dist16To23 _ => .dist
  | .dist24To27 _ => .dist
  | .dist28To29 _ => .dist
  | .distInvalid _ => .dist
  | .gzipMember _ _ _ _ => .gzip

end Sys2Proof
end

