-- ==== Sys2Proof/WellFormed.lean ====
section
/-! DEFINITION. Which terms of `Instr` are instructions. Every operand but one has exactly the width of the bits its
encoding leaves free, so only RESERVED_CMD needs a check: its word is none of the six command words. -/

namespace Sys2Proof

/-- `w` is reserved as a CMD word: OP is in 6 to 15, or a bit of [31:4] is set (46_commands.md R249). -/
def reservedWord (w : Word) : Bool :=
  decide (6 ≤ (w.extractLsb' 0 4).toNat) || decide (w.extractLsb' 4 28 ≠ 0#28)

/-- A well-formed instruction. -/
def Instr.wf : Instr → Bool
  | .clear => true
  | .deflateCompress => true
  | .deflateDecompress => true
  | .gzipCompress => true
  | .gzipDecompress => true
  | .crc32 => true
  | .reservedCmd w => reservedWord w
  | .blockStored _ => true
  | .blockFixed _ => true
  | .blockDynamicUnsupported _ => true
  | .blockReserved _ => true
  | .lit0To15 _ => true
  | .lit16To79 _ => true
  | .lit80To143 _ => true
  | .lit144To159 _ => true
  | .lit160To191 _ => true
  | .lit192To255 _ => true
  | .eob => true
  | .len257 => true
  | .len258To259 _ => true
  | .len260To263 _ => true
  | .len264To271 _ => true
  | .len272To279 _ => true
  | .len280To283 _ => true
  | .len284To285 _ => true
  | .litlenInvalid _ => true
  | .dist0To15 _ => true
  | .dist16To23 _ => true
  | .dist24To27 _ => true
  | .dist28To29 _ => true
  | .distInvalid _ => true
  | .gzipMember _ _ _ _ => true

end Sys2Proof
end

