-- ==== Sys2Proof/Decode.lean ====
section
/-! DEFINITION. Decoding and encoding. A decoder reads stream bits, first bit first, and answers the instruction with
the bits after it, or nothing where the bits run out or name no instruction. The bits of a CMD word, of a block header
and of the gzip header come least significant first; the bits of a Huffman code come most significant first
(20_memory.md R51, 30_encoding.md R75). -/

namespace Sys2Proof

/-- Read `n` bits as a code, the first stream bit most significant (43_deflate_decoder.md R176: `c <- (c << 1) |
read_bits(1)`), starting from the bits `c` read already. -/
def takeMsb : Nat → Nat → List Bool → Option (Nat × List Bool)
  | 0, c, bs => some (c, bs)
  | _ + 1, _, [] => none
  | n + 1, c, b :: bs => takeMsb n (2 * c + b.toNat) bs

/-- Read `n` bits as a field, the first stream bit least significant (40_bit_io.md R115). -/
def takeLsb : Nat → List Bool → Option (Nat × List Bool)
  | 0, bs => some (0, bs)
  | _ + 1, [] => none
  | n + 1, b :: bs => (takeLsb n bs).map fun (v, rest) => (b.toNat + 2 * v, rest)

/-- The low `n` bits of `v` as a Huffman code is sent: most significant first (30_encoding.md R75). -/
def msbBits : Nat → Nat → List Bool
  | 0, _ => []
  | n + 1, v => v.testBit n :: msbBits n v

/-- The low `n` bits of `v` as a field is sent: least significant first (40_bit_io.md R110). -/
def lsbBits : Nat → Nat → List Bool
  | 0, _ => []
  | n + 1, v => v.testBit 0 :: lsbBits n (v / 2)

/-- The instruction of a CMD word (30_encoding.md R70): total, since every other word is RESERVED_CMD. -/
def decodeCmd (w : Word) : Instr :=
  if w = 0#32 then .clear
  else if w = 1#32 then .deflateCompress
  else if w = 2#32 then .deflateDecompress
  else if w = 3#32 then .gzipCompress
  else if w = 4#32 then .gzipDecompress
  else if w = 5#32 then .crc32
  else .reservedCmd w

/-- The instruction of a block header with the 2-bit field `btype` (30_encoding.md R72). -/
def decodeBtype (final : Bool) (btype : Nat) : Instr :=
  if btype = 0 then .blockStored final
  else if btype = 1 then .blockFixed final
  else if btype = 2 then .blockDynamicUnsupported final
  else .blockReserved final

/-- The instruction of a 7-bit code c7 ≤ 0x17, symbol 256 + c7 (30_encoding.md R93). -/
def decodeCode7 (c : Nat) : Instr :=
  if c = 0 then .eob
  else if c = 1 then .len257
  else if c < 4 then .len258To259 (BitVec.ofNat 1 c)
  else if c < 8 then .len260To263 (BitVec.ofNat 2 c)
  else if c < 16 then .len264To271 (BitVec.ofNat 3 c)
  else .len272To279 (BitVec.ofNat 3 c)

/-- The instruction of an 8-bit code c8 in [0x30, 0xC7] (30_encoding.md R93): literals 0 to 143, length symbols 280 to
285, and the codes of 286 and 287, which name no symbol (R83). -/
def decodeCode8 (c : Nat) : Instr :=
  if c < 0x40 then .lit0To15 (BitVec.ofNat 4 c)
  else if c < 0x80 then .lit16To79 (BitVec.ofNat 6 c)
  else if c < 0xC0 then .lit80To143 (BitVec.ofNat 6 c)
  else if c < 0xC4 then .len280To283 (BitVec.ofNat 2 c)
  else if c < 0xC6 then .len284To285 (BitVec.ofNat 1 c)
  else .litlenInvalid (BitVec.ofNat 1 c)

/-- The instruction of a 9-bit code c9 ≥ 0x190, literal 144 + (c9 − 0x190) (30_encoding.md R93). -/
def decodeCode9 (c : Nat) : Instr :=
  if c < 0x1A0 then .lit144To159 (BitVec.ofNat 4 c)
  else if c < 0x1C0 then .lit160To191 (BitVec.ofNat 5 c)
  else .lit192To255 (BitVec.ofNat 6 c)

/-- One literal/length code (30_encoding.md R93, 43_deflate_decoder.md R176): the code's leading bits tell its length.
The codes of 286 and 287 are recognised at their eighth bit (DEDUCED, log 15). -/
def decodeLitlen (bs : List Bool) : Option (Instr × List Bool) :=
  match takeMsb 7 0 bs with
  | none => none
  | some (c7, r7) =>
    if c7 ≤ 0x17 then some (decodeCode7 c7, r7)
    else
      match takeMsb 1 c7 r7 with
      | none => none
      | some (c8, r8) =>
        if 0x30 ≤ c8 ∧ c8 ≤ 0xC7 then some (decodeCode8 c8, r8)
        else
          match takeMsb 1 c8 r8 with
          | none => none
          | some (c9, r9) => if 0x190 ≤ c9 then some (decodeCode9 c9, r9) else none

/-- The instruction of a 5-bit distance code (30_encoding.md R82, 43_deflate_decoder.md R177). -/
def decodeCode5 (c : Nat) : Instr :=
  if c < 16 then .dist0To15 (BitVec.ofNat 4 c)
  else if c < 24 then .dist16To23 (BitVec.ofNat 3 c)
  else if c < 28 then .dist24To27 (BitVec.ofNat 2 c)
  else if c < 30 then .dist28To29 (BitVec.ofNat 1 c)
  else .distInvalid (BitVec.ofNat 1 c)

/-- The gzip member's fixed header (30_encoding.md R89): nothing unless ID1, ID2 and CM are 0x1f, 0x8b and 8
(44_gzip_framer.md R210); then FLG, MTIME little-endian, XFL and OS. -/
def decodeHeader (bs : List Bool) : Option (Instr × List Bool) := do
  let (magic, bs) ← takeLsb 24 bs
  if magic = 0x088B1F then
    let (flg, bs) ← takeLsb 8 bs
    let (mtime, bs) ← takeLsb 32 bs
    let (xfl, bs) ← takeLsb 8 bs
    let (os, bs) ← takeLsb 8 bs
    return (.gzipMember (BitVec.ofNat 8 flg) (BitVec.ofNat 32 mtime) (BitVec.ofNat 8 xfl) (BitVec.ofNat 8 os), bs)
  else none

/-- The decoder: the first instruction of a bit sequence in a context, and the bits after it. -/
def decode (sp : Space) (bs : List Bool) : Option (Instr × List Bool) :=
  match sp with
  | .cmd => (takeLsb 32 bs).map fun (v, rest) => (decodeCmd (BitVec.ofNat 32 v), rest)
  | .block => (takeLsb 3 bs).map fun (v, rest) => (decodeBtype (v.testBit 0) (v / 2), rest)
  | .litlen => decodeLitlen bs
  | .dist => (takeMsb 5 0 bs).map fun (c, rest) => (decodeCode5 c, rest)
  | .gzip => decodeHeader bs

/-- How many bits the decoder needs at most in a context. -/
def Space.window : Space → Nat
  | .cmd => 32
  | .block => 3
  | .litlen => 9
  | .dist => 5
  | .gzip => 80

/-- The encoder: an instruction's bits in stream order, from the encoding tables of 30_encoding.md R70, R72, R80, R82
and R89. -/
def encode : Instr → List Bool
  | .clear => lsbBits 32 0
  | .deflateCompress => lsbBits 32 1
  | .deflateDecompress => lsbBits 32 2
  | .gzipCompress => lsbBits 32 3
  | .gzipDecompress => lsbBits 32 4
  | .crc32 => lsbBits 32 5
  | .reservedCmd w => lsbBits 32 w.toNat
  | .blockStored final => final :: lsbBits 2 0
  | .blockFixed final => final :: lsbBits 2 1
  | .blockDynamicUnsupported final => final :: lsbBits 2 2
  | .blockReserved final => final :: lsbBits 2 3
  | .lit0To15 c => msbBits 8 (0x30 + c.toNat)
  | .lit16To79 c => msbBits 8 (0x40 + c.toNat)
  | .lit80To143 c => msbBits 8 (0x80 + c.toNat)
  | .lit144To159 c => msbBits 9 (0x190 + c.toNat)
  | .lit160To191 c => msbBits 9 (0x1A0 + c.toNat)
  | .lit192To255 c => msbBits 9 (0x1C0 + c.toNat)
  | .eob => msbBits 7 0
  | .len257 => msbBits 7 1
  | .len258To259 c => msbBits 7 (2 + c.toNat)
  | .len260To263 c => msbBits 7 (4 + c.toNat)
  | .len264To271 c => msbBits 7 (8 + c.toNat)
  | .len272To279 c => msbBits 7 (16 + c.toNat)
  | .len280To283 c => msbBits 8 (0xC0 + c.toNat)
  | .len284To285 c => msbBits 8 (0xC4 + c.toNat)
  | .litlenInvalid c => msbBits 8 (0xC6 + c.toNat)
  | .dist0To15 c => msbBits 5 c.toNat
  | .dist16To23 c => msbBits 5 (16 + c.toNat)
  | .dist24To27 c => msbBits 5 (24 + c.toNat)
  | .dist28To29 c => msbBits 5 (28 + c.toNat)
  | .distInvalid c => msbBits 5 (30 + c.toNat)
  | .gzipMember flg mtime xfl os =>
    lsbBits 24 0x088B1F ++ lsbBits 8 flg.toNat ++ lsbBits 32 mtime.toNat ++ lsbBits 8 xfl.toNat ++ lsbBits 8 os.toNat

/-- The context of a word numbered as the opcode table numbers it. A width that is not a whole number of bytes (3, 5,
7, 9) names its context. A one-byte word can belong to three contexts, and the convention of log 14 picks one: an even
value below 8 is a block header with BFINAL = 0, other values are the literal/length code they spell, and the values
that spell none (0x18 to 0x1F) are distance codes. -/
def tableSpace (nbits w : Nat) : Space :=
  if nbits = 32 then .cmd
  else if nbits = 24 ∨ nbits = 80 then .gzip
  else if nbits = 3 then .block
  else if nbits = 5 then .dist
  else if nbits = 8 then
    if w < 8 ∧ w % 2 = 0 then .block
    else if 0x18 ≤ w ∧ w < 0x20 then .dist
    else .litlen
  else .litlen

/-- The width of the literal/length code that a table word spells. -/
def tableCodeWidth (nbits w : Nat) : Nat :=
  if nbits = 8 then (if w < 0x18 then 7 else 8)
  else if nbits < 8 then 7
  else 9

/-- A table word's bits in stream order. -/
def tableBits (nbits w : Nat) : List Bool :=
  match tableSpace nbits w with
  | .cmd => lsbBits 32 w
  | .block => lsbBits 3 w
  | .litlen => msbBits (tableCodeWidth nbits w) w
  | .dist => msbBits 5 w
  | .gzip => lsbBits 80 w

/-- The instruction the decoder reads from a word numbered as spec/opcode_table.json numbers it (log 14). -/
def decodeTableWord (nbits w : Nat) : Option Instr :=
  (decode (tableSpace nbits w) (tableBits nbits w)).map fun p => p.1

end Sys2Proof
end

