-- ==== Sys2Proof/Config.lean ====
section
/-! DEFINITION. What an implementation fixes (the capacities and the pace) and the free values: constants with no
body, of which nothing can be proved but that they are what they are. -/

namespace Sys2Proof

/-- How far the step that takes a CMD write carries the command. 70_reset_and_hazards.md R311: how long a command
stays BUSY is unspecified and a model may complete every command in one step. DESIGN CHOICE (log 2): both readings. -/
inductive Pace where
  /-- The CMD write's step runs the engine to the command's end. -/
  | whole
  /-- The CMD write's step only starts the command; each later step is one engine step. -/
  | stepwise
deriving DecidableEq, Repr

/-- The parameters of one block (00_scope.md R14, U9, U26), carried in the state as data that no step changes. -/
structure Config where
  /-- `IN_CAP`. -/
  inCap : Nat
  /-- `OUT_CAP`; `none` is the unbounded output list of 00_scope.md R14. -/
  outCap : Option Nat
  /-- The duration parameter of U26. -/
  pace : Pace
deriving DecidableEq, Repr

namespace Config

/-- The legal parameters: each capacity is an integer in [1, 2^32 − 1], OUT_CAP possibly unbounded (00_scope.md R14). -/
def wf (c : Config) : Bool :=
  decide (1 ≤ c.inCap) && decide (c.inCap < 2 ^ 32) &&
    (match c.outCap with
     | none => true
     | some k => decide (1 ≤ k) && decide (k < 2 ^ 32))

/-- `offset` is below OUT_CAP, so a byte may be written there (60_exceptions.md R262). -/
def fits (c : Config) (offset : Nat) : Bool :=
  match c.outCap with
  | none => true
  | some k => decide (offset < k)

/-- FREE VALUE (logs 5 and 6): the byte at an offset of a buffer whose content is unspecified; the first argument
tells one unspecified content from another. -/
opaque freeByte : Nat → Nat → Byte

/-- FREE VALUE (logs 7 and 8): an unspecified register value, fresh for each value of the counter. -/
opaque freeWord : Nat → Word

/-- FREE VALUE (log 10): the entry of `prev` at an index that no insertion has written (10_state.md R38, U4). -/
opaque freeLink : Nat → Option Nat

end Config

end Sys2Proof
end

