-- ==== Sys2Proof/Machine/State.lean ====
section
/-! DEFINITION. The state of the block as plain data, the ways a run can stop, and the state after reset. Each field's
docstring names the rule that gives it; INVENTORY.md lists them all. -/

namespace Sys2Proof.Machine

/-- Sparse data by index: index and value pairs, indexes strictly rising. -/
abbrev Table (β : Type) := List (Nat × β)

/-- A byte buffer: a list of `Host.Cell`. An offset that is not listed holds a byte nothing has determined. -/
abbrev Memory := List Host.Cell

/-- The commands that can be running (10_state.md R25, BUSY(op)). CLEAR and the reserved commands end in the step that
starts them (46_commands.md R248, R249), so no state between steps has them running (log 20). -/
inductive Op where
  | deflateCompress
  | deflateDecompress
  | gzipCompress
  | gzipDecompress
  | crc32
deriving DecidableEq, Repr

/-- The command state machine (10_state.md R25), which plays the part of a program counter. -/
inductive CmdState where
  | idle
  | busy (op : Op)
deriving DecidableEq, Repr

/-- The errors a command can raise (60_exceptions.md R260). Code 0, OK, is no error. -/
inductive ErrKind where
  /-- Code 1. -/
  | malformedStream
  /-- Code 2. -/
  | unsupportedFeature
  /-- Code 3. -/
  | checksumMismatch
  /-- Code 4. -/
  | lengthMismatch
  /-- Code 5. -/
  | inputTooLarge
  /-- Code 6. -/
  | capacityExceeded
  /-- Code 7. -/
  | illegalCommand
deriving DecidableEq, Repr

/-- A token of the matcher (41_lz77_matcher.md R130; 00_scope.md R10). -/
inductive Token where
  | literal (b : Byte)
  | copy (length distance : Nat)
deriving DecidableEq, Repr

/-- Where the engine stands inside the running command's rule. -/
inductive Phase where
  /-- No command is running. -/
  | rest
  /-- GZIP_COMPRESS is about to write the member header (44_gzip_framer.md R201). -/
  | framing
  /-- The matcher runs; at the end of the input the block type is chosen (42_deflate_encoder.md R150). -/
  | matching
  /-- A fixed block is being written; the tokens still to write (42_deflate_encoder.md R157). -/
  | emitting (left : List Token)
  /-- The block is written; the flush and the results remain (42_deflate_encoder.md R150, 44_gzip_framer.md R200). -/
  | closing
  /-- GZIP_DECOMPRESS is about to read the member header (44_gzip_framer.md R210). -/
  | gzipHeader
  /-- The decoder is about to read a block header (43_deflate_decoder.md R171). -/
  | blockHeader
  /-- The decoder is about to read a literal/length code (43_deflate_decoder.md R173). -/
  | litlen
  /-- The decoder has a match length and is about to read a distance code (43_deflate_decoder.md R175). -/
  | dist (length : Nat)
  /-- CRC32 is about to checksum its input (46_commands.md R247). -/
  | checksum
deriving DecidableEq, Repr

/-- One action of the host (30_encoding.md R101, 20_memory.md R53 and R54, 70_reset_and_hazards.md R290). -/
inductive HostAction where
  /-- A register write of `width` bytes at a byte offset of REG. -/
  | writeReg (width offset : Nat) (value : Word)
  /-- A register read of `width` bytes at a byte offset of REG. -/
  | readReg (width offset : Nat)
  /-- A byte write to IN. -/
  | writeIn (offset : Nat) (value : Byte)
  /-- A byte read of IN. -/
  | readIn (offset : Nat)
  /-- A byte write to OUT, which has no meaning (20_memory.md R54). -/
  | writeOut (offset : Nat) (value : Byte)
  /-- A byte read of OUT. -/
  | readOut (offset : Nat)
  /-- The polling loop `WAIT`: STATUS reads until BUSY = 0. -/
  | wait
  /-- The reset event. -/
  | reset
deriving DecidableEq, Repr

/-- A pending host action: while the block is BUSY it lands after `after` further engine steps (log 3). -/
structure HostEvent where
  after : Nat
  action : HostAction
deriving DecidableEq, Repr

/-- The matcher's registers and arrays (10_state.md R23, R37, R38). -/
structure Matcher where
  /-- `pos`: the current input position. -/
  pos : Nat
  /-- `head`: an index that is not listed holds NIL. -/
  head : Table Nat
  /-- `prev`: an index that is not listed has not been written, and its content is a free value. -/
  prev : Table (Option Nat)
  /-- The tokens produced so far, first token first, kept until the block is written (42_deflate_encoder.md R151, U14;
  DESIGN CHOICE, log 29). -/
  tokens : List Token
deriving DecidableEq, Repr

/-- The state of the block. -/
structure State where
  /-- The parameters (00_scope.md R14); no step changes them. -/
  cfg : Config
  /-- `state` (10_state.md R25). -/
  cmdState : CmdState
  /-- STATUS.DONE (10_state.md R30). -/
  doneBit : Bool
  /-- STATUS.ERROR (10_state.md R30). -/
  errorBit : Bool
  /-- ERR_CODE bits [3:0]; bits [31:4] read 0 (10_state.md R31). -/
  errCode : BitVec 4
  /-- IN_LEN (10_state.md R32). -/
  inLen : Word
  /-- OUT_LEN (10_state.md R33). -/
  outLen : Word
  /-- MTIME (10_state.md R34). -/
  mtime : Word
  /-- CRC_RESULT (10_state.md R35). -/
  crcResult : Word
  /-- IN (10_state.md R40). -/
  inBuf : Memory
  /-- OUT (10_state.md R41). -/
  outBuf : Memory
  /-- `wbase` of the bit writer (10_state.md R21). -/
  wbase : Nat
  /-- `wlen` of the bit writer (10_state.md R21). -/
  wlen : Nat
  /-- `wcur` of the bit writer (10_state.md R21). -/
  wcur : Byte
  /-- `wnb` of the bit writer (10_state.md R21). -/
  wnb : Nat
  /-- The offset in IN where the reader's `rdata` begins (10_state.md R22, 44_gzip_framer.md R212). -/
  rbase : Nat
  /-- `rlen` of the bit reader (10_state.md R22). -/
  rlen : Nat
  /-- `rpos` of the bit reader (10_state.md R22). -/
  rpos : Nat
  /-- The matcher (10_state.md R23). -/
  matcher : Matcher
  /-- `crc` of the CRC unit (10_state.md R24). -/
  crc : Word
  /-- `bfinal` of the decoder (10_state.md R27). -/
  bfinal : Bool
  /-- `out_len`: bytes appended to OUT in the running command (00_scope.md R17, 43_deflate_decoder.md R170). -/
  outPos : Nat
  /-- Where the engine stands in the running command's rule. -/
  phase : Phase
  /-- The MODEL's own: the host's pending actions, first action first (60_exceptions.md R286, log 3). -/
  script : List HostEvent
  /-- The MODEL's own: what the host's last read returned, `none` before any read (log 19). -/
  hostData : Option Word
  /-- The MODEL's own: which free contents the unlisted bytes of IN have (log 5). -/
  inEpoch : Nat
  /-- The MODEL's own: which free contents the unlisted bytes of OUT have (log 5). -/
  outEpoch : Nat
  /-- The MODEL's own: how many free values have been drawn (log 7). -/
  freeCount : Nat
deriving DecidableEq, Repr

/-- How a run can stop with a fault. -/
inductive Fault where
  /-- Raised by a host write to a register, to CMD or to IN while BUSY (70_reset_and_hazards.md R300, U5): the spec
  marks the run as faulted. Safe. -/
  | hostWriteWhileBusy
  /-- Raised by a stream code executed where the engine is not reading such a code, and by a BUSY block whose phase
  belongs to no command (60_exceptions.md R264, U15, treatment `stuck`). No run reaches it. Safe. -/
  | internalViolation
deriving DecidableEq, Repr

/-- How a run can stop with a refusal. -/
inductive Refusal where
  /-- An instruction without a meaning yet, by its mnemonic. Raised by no arm of this model. Safe. -/
  | notModelled (mnemonic : String)
  /-- Raised by a host access to REG that is not an aligned 32-bit access in [0x00, 0x7C] (20_memory.md R53, U7). Safe. -/
  | badRegisterAccess
  /-- Raised by a host write to OUT or a host access outside IN or OUT (20_memory.md R54, U8). Safe. -/
  | badBufferAccess
deriving DecidableEq, Repr

/-- The outcome of a step, an instruction or a host action. -/
abbrev Outcome := Host.Outcome State Fault Refusal

/-- The parameters of `State.reset`: the instance spec/95_test_vectors.md uses, IN_CAP = OUT_CAP = 4096 (DESIGN CHOICE,
log 4), and a command in one step (DESIGN CHOICE, log 2). -/
def defaultConfig : Config := { inCap := 4096, outCap := some 4096, pace := .whole }

/-- The block right after reset with given parameters (10_state.md R43, 70_reset_and_hazards.md R290): IDLE, every
register 0, nothing determined in IN and OUT. The working registers, which the spec leaves unspecified, are 0, empty
or NIL (DESIGN CHOICE, log 9). -/
def State.resetWith (c : Config) : State where
  cfg := c
  cmdState := .idle
  doneBit := false
  errorBit := false
  errCode := 0#4
  inLen := 0#32
  outLen := 0#32
  mtime := 0#32
  crcResult := 0#32
  inBuf := []
  outBuf := []
  wbase := 0
  wlen := 0
  wcur := 0#8
  wnb := 0
  rbase := 0
  rlen := 0
  rpos := 0
  matcher := { pos := 0, head := [], prev := [], tokens := [] }
  crc := 0#32
  bfinal := false
  outPos := 0
  phase := .rest
  script := []
  hostData := none
  inEpoch := 0
  outEpoch := 1
  freeCount := 2

/-- The block right after reset. -/
def State.reset : State := State.resetWith defaultConfig

end Sys2Proof.Machine
end

