-- ==== Sys2Proof/Machine/Flags.lean ====
section
/-! DEFINITION. The flags of the block, STATUS.BUSY, DONE and ERROR, the error code, and every operation that changes
them (10_state.md R27, R30, R31; 46_commands.md R240, R241, R248). -/

namespace Sys2Proof.Machine

/-- STATUS.BUSY: 1 exactly when the command state is BUSY (10_state.md R30). -/
def State.busy (s : State) : Bool :=
  match s.cmdState with
  | .idle => false
  | .busy _ => true

/-- The value of STATUS: BUSY in bit 0, DONE in bit 1, ERROR in bit 2, the rest 0 (10_state.md R30). -/
def State.status (s : State) : Word :=
  (if s.busy then 1#32 else 0#32) ||| (if s.doneBit then 2#32 else 0#32) ||| (if s.errorBit then 4#32 else 0#32)

/-- The number of an error in ERR_CODE (60_exceptions.md R260); 0 is OK. -/
def ErrKind.code : ErrKind → BitVec 4
  | .malformedStream => 1#4
  | .unsupportedFeature => 2#4
  | .checksumMismatch => 3#4
  | .lengthMismatch => 4#4
  | .inputTooLarge => 5#4
  | .capacityExceeded => 6#4
  | .illegalCommand => 7#4

/-- Command start (46_commands.md R240): the command state moves, DONE, ERROR and ERR_CODE are cleared. -/
def State.begin (c : CmdState) (s : State) : State :=
  { s with cmdState := c, doneBit := false, errorBit := false, errCode := 0#4 }

/-- Completion of a data command (46_commands.md R241). -/
def State.complete (s : State) : State :=
  { s with cmdState := .idle, phase := .rest, doneBit := true, errorBit := false }

/-- The flags after an error (60_exceptions.md R270). -/
def State.flagError (e : ErrKind) (s : State) : State :=
  { s with cmdState := .idle, phase := .rest, doneBit := true, errorBit := true, errCode := e.code }

end Sys2Proof.Machine
end

