-- ==== Sys2Proof/Machine/Ops.lean ====
section
/-! DEFINITION. The operations over the buffers, the registers, the bit reader and the bit writer, and taking an error
(60_exceptions.md R270), each written once. -/

namespace Sys2Proof.Machine

/-! ### Tables and buffers -/

/-- The value listed at an index. -/
def tableRead {β : Type} : Table β → Nat → Option β
  | [], _ => none
  | (k, v) :: rest, i => if i = k then some v else tableRead rest i

/-- List a value at an index, keeping the indexes strictly rising. -/
def tableWrite {β : Type} : Table β → Nat → β → Table β
  | [], i, v => [(i, v)]
  | (k, w) :: rest, i, v =>
    if i < k then (i, v) :: (k, w) :: rest
    else if i = k then (i, v) :: rest
    else (k, w) :: tableWrite rest i v

/-- The canonical form: the indexes strictly rise, and all lie at or above a bound. -/
def tableOkFrom {β : Type} : Nat → Table β → Bool
  | _, [] => true
  | low, (k, _) :: rest => decide (low ≤ k) && tableOkFrom (k + 1) rest

/-- The canonical form of a table. -/
def tableOk {β : Type} (t : Table β) : Bool := tableOkFrom 0 t

/-- The canonical form of a buffer: offsets strictly rising. What an unlisted offset reads as is no byte at all
(`unlisted`), so no entry equals it. -/
def Memory.wf (m : Memory) : Bool := tableOk m

/-- What a buffer lists at an offset that nothing has determined: no value (10_state.md R40, R41, U1, log 5). -/
def Memory.unlisted : Option Byte := none

/-- Every listed offset lies below a bound. -/
def tableBelow {β : Type} (bound : Nat) : Table β → Bool
  | [] => true
  | (k, _) :: rest => decide (k < bound) && tableBelow bound rest

/-- The listed entries below a bound. -/
def tableCut {β : Type} (bound : Nat) : Table β → Table β
  | [] => []
  | (k, v) :: rest => if k < bound then (k, v) :: tableCut bound rest else tableCut bound rest

/-- `MemRead(IN, a, 1)` (00_scope.md R17): a byte nothing has determined is a free value (U1, log 5). -/
def State.inByte (s : State) (a : Nat) : Byte := (tableRead s.inBuf a).getD (Config.freeByte s.inEpoch a)

/-- `MemRead(OUT, a, 1)` (00_scope.md R17): a byte nothing has determined is a free value (U1 to U3, log 6). -/
def State.outByte (s : State) (a : Nat) : Byte := (tableRead s.outBuf a).getD (Config.freeByte s.outEpoch a)

/-- The `n` bytes of a buffer view from offset `a` on. -/
def bytesFrom (view : Nat → Byte) : Nat → Nat → List Byte
  | _, 0 => []
  | a, n + 1 => view a :: bytesFrom view (a + 1) n

/-- The input of a data command, `IN[0 : IN_LEN]` (46_commands.md R242). -/
def State.input (s : State) : List Byte := bytesFrom s.inByte 0 s.inLen.toNat

/-- `OUT[0 : n]`. -/
def State.output (s : State) (n : Nat) : List Byte := bytesFrom s.outByte 0 n

/-- `MemWrite(IN, a, 1, v)`, the host's. -/
def State.putIn (a : Nat) (v : Byte) (s : State) : State := { s with inBuf := tableWrite s.inBuf a v }

/-- An output byte at an offset, after the capacity check (60_exceptions.md R262): no byte is ever written at or beyond
OUT_CAP. -/
def putOut (a : Nat) (v : Byte) (s : State) : Except ErrKind State :=
  if s.cfg.fits a then .ok { s with outBuf := tableWrite s.outBuf a v } else .error .capacityExceeded

/-- `out_append(v)` (00_scope.md R17). -/
def outAppend (v : Byte) (s : State) : Except ErrKind State :=
  match putOut s.outPos v s with
  | .error e => .error e
  | .ok t => .ok { t with outPos := s.outPos + 1 }

/-- `out_append` of each byte in turn. -/
def outAppendAll : List Byte → State → Except ErrKind State
  | [], s => .ok s
  | v :: rest, s =>
    match outAppend v s with
    | .error e => .error e
    | .ok t => outAppendAll rest t

/-! ### Registers -/

/-- A host access to REG has a meaning: 32 bits wide, at a multiple of 4 in [0x00, 0x7C] (20_memory.md R53). -/
def regAccessOk (width offset : Nat) : Bool :=
  decide (width = 4) && decide (offset % 4 = 0) && decide (offset ≤ 0x7C)

/-- The value of the register at an offset of REG (10_state.md R28 to R36): CMD and the reserved registers read 0. -/
def State.regRead (s : State) (offset : Nat) : Word :=
  if offset = 0x04 then s.status
  else if offset = 0x08 then s.errCode.setWidth 32
  else if offset = 0x0C then s.inLen
  else if offset = 0x10 then s.outLen
  else if offset = 0x14 then s.mtime
  else if offset = 0x18 then s.crcResult
  else 0#32

/-- A host write to a register other than CMD (10_state.md R28 to R36): IN_LEN and MTIME take the value, every other
write is ignored. -/
def State.regWrite (offset : Nat) (v : Word) (s : State) : State :=
  if offset = 0x0C then { s with inLen := v }
  else if offset = 0x14 then { s with mtime := v }
  else s

/-! ### Results, and taking an error -/

/-- A length as the value of OUT_LEN. With OUT_CAP unbounded a length of 2^32 or more does not fit and the spec states
no value: a free value (log 21). -/
def lengthWord (n count : Nat) : Word := if n < 2 ^ 32 then BitVec.ofNat 32 n else Config.freeWord count

/-- The result of a command that wrote `n` bytes of OUT: OUT_LEN takes the count (10_state.md R33), and the bytes at
and beyond it become unspecified (R41, U2, log 6). -/
def State.setOutput (n : Nat) (s : State) : State :=
  { s with
    outLen := lengthWord n s.freeCount
    outBuf := tableCut n s.outBuf
    outEpoch := s.freeCount
    freeCount := s.freeCount + 1 }

/-- The running command computes a CRC, so an error leaves CRC_RESULT unspecified (60_exceptions.md R270, C12). -/
def computesCrc : CmdState → Bool
  | .busy .gzipCompress => true
  | .busy .gzipDecompress => true
  | .busy .crc32 => true
  | _ => false

/-- What an error that is not a start-check error leaves unspecified: every byte of OUT, and CRC_RESULT when the
command computes one (60_exceptions.md R270, U3, logs 6 and 7). -/
def State.spoil (s : State) : State :=
  { s with
    outBuf := []
    outEpoch := s.freeCount
    crcResult := if computesCrc s.cmdState then Config.freeWord s.freeCount else s.crcResult
    freeCount := s.freeCount + 1 }

/-- TAKING AN ERROR (60_exceptions.md R270): the code is recorded, OUT_LEN is 0, DONE and ERROR are set, the block is
IDLE. An error of the start checks leaves OUT and CRC_RESULT as they were. -/
def takeError (atStart : Bool) (e : ErrKind) (s : State) : State :=
  State.flagError e { (if atStart then s else s.spoil) with outLen := 0#32 }

/-- THE RETURN FROM AN ERROR (60_exceptions.md R273): there is no return operation and nothing is restored; the next
command start clears DONE, ERROR and ERR_CODE, and CLEAR does only that (46_commands.md R248). -/
def returnFromError (s : State) : State := State.begin .idle s

/-- The outcome of an engine step that may raise an error: the error is taken from the state in which the step began
(log 11). -/
def settle (s : State) : Except ErrKind State → Outcome
  | .ok t => .next t
  | .error e => .next (takeError false e s)

/-! ### Bit reader (40_bit_io.md R115 to R119) -/

/-- `bit(q)` (40_bit_io.md R116): zero past the end of `rdata`. -/
def State.streamBit (s : State) (q : Nat) : Bool :=
  if q < 8 * s.rlen then (s.inByte (s.rbase + q / 8)).getLsbD (q % 8) else false

/-- The `n` stream bits from `q` on as a field, the first least significant (40_bit_io.md R115). -/
def State.field (s : State) : Nat → Nat → Nat
  | _, 0 => 0
  | q, n + 1 => (s.streamBit q).toNat + 2 * s.field (q + 1) n

/-- The `n` stream bits from `q` on. -/
def State.streamBits (s : State) : Nat → Nat → List Bool
  | _, 0 => []
  | q, n + 1 => s.streamBit q :: s.streamBits (q + 1) n

/-- A read of `n` bits stays within the 7 tolerated bits past the end, counted over the whole stream (40_bit_io.md
R115, C6). -/
def State.canRead (s : State) (n : Nat) : Bool := decide (s.rpos + n ≤ 8 * s.rlen + 7)

/-- Move past `n` bits that were read, or report a truncated input (40_bit_io.md R115). -/
def skipBits (n : Nat) (s : State) : Except ErrKind State :=
  if s.canRead n then .ok { s with rpos := s.rpos + n } else .error .malformedStream

/-- `read_bits(n)` (40_bit_io.md R115). -/
def readBits (n : Nat) (s : State) : Except ErrKind (Nat × State) :=
  if s.canRead n then .ok (s.field s.rpos n, { s with rpos := s.rpos + n }) else .error .malformedStream

/-- `align_to_byte()` of the reader (40_bit_io.md R117). -/
def alignReader (s : State) : State := { s with rpos := 8 * ((s.rpos + 7) / 8) }

/-- `consumed()` (40_bit_io.md R118). -/
def State.consumed (s : State) : Nat := (s.rpos + 7) / 8

/-- The stream bits the decoder may read next, at most `n`: as many as the tolerance of 40_bit_io.md R115 admits. -/
def State.window (s : State) (n : Nat) : List Bool := s.streamBits s.rpos (min n (8 * s.rlen + 7 - s.rpos))

/-! ### Bit writer (40_bit_io.md R109 to R114) -/

/-- `emit_byte(b)` (40_bit_io.md R109). -/
def emitByte (b : Byte) (s : State) : Except ErrKind State :=
  match putOut (s.wbase + s.wlen) b s with
  | .error e => .error e
  | .ok t => .ok { t with wlen := s.wlen + 1 }

/-- One pass of the loop of `write_bits` (40_bit_io.md R110). -/
def writeBit (b : Bool) (s : State) : Except ErrKind State :=
  let cur := s.wcur ||| ((BitVec.ofBool b).setWidth 8 <<< s.wnb)
  if s.wnb + 1 = 8 then
    match emitByte cur s with
    | .error e => .error e
    | .ok t => .ok { t with wcur := 0#8, wnb := 0 }
  else .ok { s with wcur := cur, wnb := s.wnb + 1 }

/-- The bits of a list, in order. -/
def writeList : List Bool → State → Except ErrKind State
  | [], s => .ok s
  | b :: rest, s =>
    match writeBit b s with
    | .error e => .error e
    | .ok t => writeList rest t

/-- `write_bits(value, n)` (40_bit_io.md R110): the low `n` bits of `value`, least significant first. -/
def writeBits (value : Nat) : Nat → State → Except ErrKind State
  | 0, s => .ok s
  | n + 1, s =>
    match writeBit (value.testBit 0) s with
    | .error e => .error e
    | .ok t => writeBits (value / 2) n t

/-- `write_bits(b, 8)` for each byte in turn (42_deflate_encoder.md R156). -/
def writeBytes : List Byte → State → Except ErrKind State
  | [], s => .ok s
  | b :: rest, s =>
    match writeBits b.toNat 8 s with
    | .error e => .error e
    | .ok t => writeBytes rest t

/-- `align_to_byte()` of the writer (40_bit_io.md R111); `get_bytes()` is the same flush (R112). -/
def alignWriter (s : State) : Except ErrKind State :=
  if 0 < s.wnb then
    match emitByte s.wcur s with
    | .error e => .error e
    | .ok t => .ok { t with wcur := 0#8, wnb := 0 }
  else .ok s

end Sys2Proof.Machine
end

