-- ==== Sys2Proof/Machine/Crc.lean ====
section
/-! DEFINITION. The streaming CRC32 unit (45_crc32.md). -/

namespace Sys2Proof.Machine

/-- One shift-or-XOR step of the table's construction (45_crc32.md R230). -/
def crcShift (c : Word) : Word := if c.getLsbD 0 then (c >>> 1) ^^^ 0xEDB88320#32 else c >>> 1

/-- `j` steps of the table's construction. -/
def crcShifts : Nat → Word → Word
  | 0, c => c
  | j + 1, c => crcShifts j (crcShift c)

/-- `CRC_TABLE[k]` (45_crc32.md R230), a constant of the block (10_state.md R39). -/
def crcTable (k : Byte) : Word := crcShifts 8 (k.setWidth 32)

/-- `crc_init()` (45_crc32.md R231). -/
def crcSeed : Word := 0xFFFFFFFF#32

/-- `crc_update(byte)` (45_crc32.md R232) on a value of `crc`. -/
def crcUpdate (crc : Word) (b : Byte) : Word := crcTable ((crc ^^^ b.setWidth 32).setWidth 8) ^^^ (crc >>> 8)

/-- `crc_update` for each byte in turn (45_crc32.md R233, R234). -/
def crcFold (crc : Word) (data : List Byte) : Word := data.foldl crcUpdate crc

/-- `crc32(data)` (45_crc32.md R233). -/
def crc32 (data : List Byte) : Word := crcFold crcSeed data ^^^ 0xFFFFFFFF#32

/-- Run the unit over a byte sequence: its register ends as the un-inverted checksum (45_crc32.md R231 to R233). -/
def State.runCrc (data : List Byte) (s : State) : State := { s with crc := crcFold crcSeed data }

/-- `LE32(v)` (44_gzip_framer.md): the four bytes of a word, low byte first. -/
def le32 (v : Word) : List Byte := [v.extractLsb' 0 8, v.extractLsb' 8 8, v.extractLsb' 16 8, v.extractLsb' 24 8]

end Sys2Proof.Machine
end

