-- ==== Sys2Proof/Machine/Operands.lean ====
section
/-! DEFINITION. The operands of stream codes: the length and distance tables (30_encoding.md R84 to R87), the fixed
code (R80) and the literals' and symbols' costs (R88). -/

namespace Sys2Proof.Machine

/-- One row of the tables of 30_encoding.md R84 and R85: a symbol, its number of extra bits, and the first and last
length or distance it codes. -/
structure CodeRow where
  symbol : Nat
  extra : Nat
  first : Nat
  last : Nat
deriving DecidableEq, Repr

/-- The length symbols (30_encoding.md R84). -/
def lengthRows : List CodeRow :=
  [⟨257, 0, 3, 3⟩, ⟨258, 0, 4, 4⟩, ⟨259, 0, 5, 5⟩, ⟨260, 0, 6, 6⟩, ⟨261, 0, 7, 7⟩, ⟨262, 0, 8, 8⟩, ⟨263, 0, 9, 9⟩,
    ⟨264, 0, 10, 10⟩, ⟨265, 1, 11, 12⟩, ⟨266, 1, 13, 14⟩] ++
  [⟨267, 1, 15, 16⟩, ⟨268, 1, 17, 18⟩, ⟨269, 2, 19, 22⟩, ⟨270, 2, 23, 26⟩, ⟨271, 2, 27, 30⟩, ⟨272, 2, 31, 34⟩,
    ⟨273, 3, 35, 42⟩, ⟨274, 3, 43, 50⟩, ⟨275, 3, 51, 58⟩, ⟨276, 3, 59, 66⟩] ++
  [⟨277, 4, 67, 82⟩, ⟨278, 4, 83, 98⟩, ⟨279, 4, 99, 114⟩, ⟨280, 4, 115, 130⟩, ⟨281, 5, 131, 162⟩, ⟨282, 5, 163, 194⟩,
    ⟨283, 5, 195, 226⟩, ⟨284, 5, 227, 257⟩, ⟨285, 0, 258, 258⟩]

/-- The distance symbols (30_encoding.md R85). -/
def distanceRows : List CodeRow :=
  [⟨0, 0, 1, 1⟩, ⟨1, 0, 2, 2⟩, ⟨2, 0, 3, 3⟩, ⟨3, 0, 4, 4⟩, ⟨4, 1, 5, 6⟩, ⟨5, 1, 7, 8⟩, ⟨6, 2, 9, 12⟩, ⟨7, 2, 13, 16⟩,
    ⟨8, 3, 17, 24⟩, ⟨9, 3, 25, 32⟩] ++
  [⟨10, 4, 33, 48⟩, ⟨11, 4, 49, 64⟩, ⟨12, 5, 65, 96⟩, ⟨13, 5, 97, 128⟩, ⟨14, 6, 129, 192⟩, ⟨15, 6, 193, 256⟩,
    ⟨16, 7, 257, 384⟩, ⟨17, 7, 385, 512⟩, ⟨18, 8, 513, 768⟩, ⟨19, 8, 769, 1024⟩] ++
  [⟨20, 9, 1025, 1536⟩, ⟨21, 9, 1537, 2048⟩, ⟨22, 10, 2049, 3072⟩, ⟨23, 10, 3073, 4096⟩, ⟨24, 11, 4097, 6144⟩,
    ⟨25, 11, 6145, 8192⟩, ⟨26, 12, 8193, 12288⟩, ⟨27, 12, 12289, 16384⟩, ⟨28, 13, 16385, 24576⟩,
    ⟨29, 13, 24577, 32768⟩]

/-- The row of a symbol. -/
def rowOfSymbol (rows : List CodeRow) (symbol : Nat) : CodeRow :=
  (rows.find? fun r => r.symbol == symbol).getD ⟨0, 0, 0, 0⟩

/-- The row whose range holds a value (30_encoding.md R86, R87). -/
def rowOfValue (rows : List CodeRow) (v : Nat) : CodeRow :=
  (rows.find? fun r => decide (r.first ≤ v) && decide (v ≤ r.last)).getD ⟨0, 0, 0, 0⟩

/-- `LEN_BASE(s)` (30_encoding.md R84). -/
def lenBase (symbol : Nat) : Nat := (rowOfSymbol lengthRows symbol).first

/-- `LEN_EXTRA(s)` (30_encoding.md R84). -/
def lenExtra (symbol : Nat) : Nat := (rowOfSymbol lengthRows symbol).extra

/-- `DIST_BASE(d)` (30_encoding.md R85). -/
def distBase (symbol : Nat) : Nat := (rowOfSymbol distanceRows symbol).first

/-- `DIST_EXTRA(d)` (30_encoding.md R85). -/
def distExtra (symbol : Nat) : Nat := (rowOfSymbol distanceRows symbol).extra

/-- `len_sym(ℓ)` (42_deflate_encoder.md R158): symbol, number of extra bits, extra value. -/
def lenSym (len : Nat) : Nat × Nat × Nat :=
  let r := rowOfValue lengthRows len
  (r.symbol, r.extra, len - r.first)

/-- `dist_sym(δ)` (42_deflate_encoder.md R159): symbol, number of extra bits, extra value. -/
def distSym (dist : Nat) : Nat × Nat × Nat :=
  let r := rowOfValue distanceRows dist
  (r.symbol, r.extra, dist - r.first)

/-- The fixed literal/length code of a symbol in [0, 287]: its value and its length (30_encoding.md R80). -/
def fixedCode (symbol : Nat) : Nat × Nat :=
  if symbol ≤ 143 then (0x30 + symbol, 8)
  else if symbol ≤ 255 then (0x190 + (symbol - 144), 9)
  else if symbol ≤ 279 then (symbol - 256, 7)
  else (0xC0 + (symbol - 280), 8)

/-- `rev_N(c)` (00_scope.md R16): bit k of the result is bit N − 1 − k of `c`. -/
def revBits : Nat → Nat → Nat
  | 0, _ => 0
  | n + 1, c => (c.testBit n).toNat + 2 * revBits n c

/-- The cost in bits of one token under the fixed code (30_encoding.md R88, 42_deflate_encoder.md R152). -/
def tokenCost : Token → Nat
  | .literal b => if b.toNat ≤ 143 then 8 else 9
  | .copy len dist =>
    let (s, e, _) := lenSym len
    let (_, de, _) := distSym dist
    (if s ≤ 279 then 7 else 8) + e + 5 + de

/-- `fixed_cost(tokens)` (42_deflate_encoder.md R152): the end-of-block code and every token; no header, no padding. -/
def fixedCost (tokens : List Token) : Nat := 7 + (tokens.map tokenCost).sum

/-- `stored_cost` (42_deflate_encoder.md R153). -/
def storedCost (n : Nat) : Nat := 8 * (n + 5)

end Sys2Proof.Machine
end

