-- ==== Sys2Proof/Machine/Decoder.lean ====
section
/-! DEFINITION. What the stream instructions share: the engine's place in the stream, the back-reference copy, the end
of a block and of a stream (43_deflate_decoder.md R170 to R179; 44_gzip_framer.md R213 to R215). -/

namespace Sys2Proof.Machine

/-- A decompress command is running. -/
def State.decompressing (s : State) : Bool :=
  match s.cmdState with
  | .busy .deflateDecompress => true
  | .busy .gzipDecompress => true
  | _ => false

/-- Run a stream instruction's rule where the engine is reading a code of its kind; anywhere else the model has met a
violation of its own invariants and stops (60_exceptions.md R264, U15, log 12). -/
def atPlace (here : Bool) (s : State) (rule : Except ErrKind State) : Outcome :=
  if here then settle s rule else .fault .internalViolation

/-- The decoder is about to read a block header. -/
def State.atBlock (s : State) : Bool := s.decompressing && decide (s.phase = .blockHeader)

/-- The decoder is about to read a literal/length code. -/
def State.atLitlen (s : State) : Bool := s.decompressing && decide (s.phase = .litlen)

/-- The match length the decoder holds while it reads a distance code (43_deflate_decoder.md R175). -/
def State.pendingLength (s : State) : Option Nat :=
  match s.phase with
  | .dist len => if s.decompressing then some len else none
  | _ => none

/-- The loop of `copy(length, distance)` (43_deflate_decoder.md R178): one byte at a time, each appended before the
next is read. -/
def copyFrom : Nat → Nat → State → Except ErrKind State
  | _, 0, s => .ok s
  | a, k + 1, s =>
    match outAppend (s.outByte a) s with
    | .error e => .error e
    | .ok t => copyFrom (a + 1) k t

/-- The distance check of `back_reference` and `copy(length, distance)` (43_deflate_decoder.md R175, R178). -/
def copyBack (len dist : Nat) (s : State) : Except ErrKind State :=
  if s.outPos < dist then .error .malformedStream else copyFrom (s.outPos - dist) len s

/-- The raw bytes of a stored block (43_deflate_decoder.md R172, 40_bit_io.md R119). -/
def copyRaw : Nat → State → Except ErrKind State
  | 0, s => .ok s
  | k + 1, s =>
    match readBits 8 s with
    | .error e => .error e
    | .ok (v, t) =>
      match outAppend (BitVec.ofNat 8 v) t with
      | .error e => .error e
      | .ok u => copyRaw k u

/-- `check_no_trailing()` (43_deflate_decoder.md R179). -/
def checkNoTrailing (s : State) : Except ErrKind State :=
  if s.consumed < s.rlen then .error .malformedStream else .ok s

/-- `rd16(b, o)` (44_gzip_framer.md). -/
def rd16 (b : Nat → Byte) (o : Nat) : BitVec 16 := b (o + 1) ++ b o

/-- `rd32(b, o)` (44_gzip_framer.md). -/
def rd32 (b : Nat → Byte) (o : Nat) : Word := b (o + 3) ++ b (o + 2) ++ b (o + 1) ++ b o

/-- The footer checks and the results of GZIP_DECOMPRESS (44_gzip_framer.md R213 to R215, 46_commands.md R246). -/
def finishMember (s : State) : Except ErrKind State :=
  let out := s.output s.outPos
  let s := s.runCrc out
  let c := s.crc ^^^ 0xFFFFFFFF#32
  let len := s.inLen.toNat
  if c ≠ rd32 s.inByte (len - 8) then .error .checksumMismatch
  else if BitVec.ofNat 32 s.outPos ≠ rd32 s.inByte (len - 4) then .error .lengthMismatch
  else .ok ({ s.setOutput s.outPos with crcResult := c }).complete

/-- The end of the stream: the trailing-data check, then the command's own end (43_deflate_decoder.md R170, R179;
46_commands.md R244, R246). -/
def endStream (s : State) : Except ErrKind State := do
  let s ← checkNoTrailing s
  match s.cmdState with
  | .busy .gzipDecompress => finishMember s
  | _ => return (s.setOutput s.outPos).complete

/-- The end of a block (43_deflate_decoder.md R170): another block follows unless BFINAL was 1. -/
def endBlock (s : State) : Except ErrKind State :=
  if s.bfinal then endStream s else .ok { s with phase := .blockHeader }

/-- A literal byte, coded in `width` bits (43_deflate_decoder.md R173). -/
def literal (width value : Nat) (s : State) : Except ErrKind State := do
  let s ← skipBits width s
  outAppend (BitVec.ofNat 8 value) s

/-- A length symbol, coded in `width` bits, and its extra bits (43_deflate_decoder.md R175). -/
def lengthCode (width symbol : Nat) (s : State) : Except ErrKind State := do
  let s ← skipBits width s
  let (v, s) ← readBits (lenExtra symbol) s
  return { s with phase := .dist (lenBase symbol + v) }

/-- A distance symbol after a match length: its extra bits, and the copy (43_deflate_decoder.md R175, R177, R178). -/
def distanceCode (len symbol : Nat) (s : State) : Except ErrKind State := do
  let s ← skipBits 5 s
  let (v, s) ← readBits (distExtra symbol) s
  let s ← copyBack len (distBase symbol + v) s
  return { s with phase := .litlen }

/-- A distance symbol where the decoder reads one. -/
def atDistance (s : State) (rule : Nat → Except ErrKind State) : Outcome :=
  match s.pendingLength with
  | some len => settle s (rule len)
  | none => .fault .internalViolation

/-- A block header (43_deflate_decoder.md R171): 3 bits, BFINAL latched. -/
def blockHeader (final : Bool) (s : State) : Except ErrKind State := do
  let s ← skipBits 3 s
  return { s with bfinal := final }

end Sys2Proof.Machine
end

