-- ==== Sys2Proof/Machine/Blocks.lean ====
section
/-! DEFINITION. The block headers: BLOCK_STORED, BLOCK_FIXED, BLOCK_DYNAMIC_UNSUPPORTED, BLOCK_RESERVED. -/

namespace Sys2Proof.Machine

/-- The body of a stored block (43_deflate_decoder.md R172), after its header. -/
def storedBody (s : State) : Except ErrKind State := do
  let s := alignReader s
  let (len, s) ← readBits 16 s
  let (nlen, s) ← readBits 16 s
  if len ≠ nlen ^^^ 0xFFFF then .error .malformedStream
  else do
    let s ← copyRaw len s
    endBlock s

/-- BLOCK_STORED (43_deflate_decoder.md R171, R172). -/
def execBlockStored (final : Bool) (s : State) : Outcome :=
  atPlace s.atBlock s do
    let s ← blockHeader final s
    storedBody s

/-- BLOCK_FIXED (43_deflate_decoder.md R171, R173): the engine goes on to read literal/length codes. -/
def execBlockFixed (final : Bool) (s : State) : Outcome :=
  atPlace s.atBlock s do
    let s ← blockHeader final s
    return { s with phase := .litlen }

/-- BLOCK_DYNAMIC_UNSUPPORTED (43_deflate_decoder.md R174). -/
def execBlockDynamicUnsupported (final : Bool) (s : State) : Outcome :=
  atPlace s.atBlock s do
    let _ ← blockHeader final s
    .error .unsupportedFeature

/-- BLOCK_RESERVED (43_deflate_decoder.md R174, C2). -/
def execBlockReserved (final : Bool) (s : State) : Outcome :=
  atPlace s.atBlock s do
    let _ ← blockHeader final s
    .error .unsupportedFeature

end Sys2Proof.Machine
end

