-- ==== Sys2Proof/Machine/Distances.lean ====
section
/-! DEFINITION. The distance codes, DIST_0_15 to DIST_28_29, and the codes 30 and 31 (30_encoding.md R82, R85;
43_deflate_decoder.md R175, R177, R178). -/

namespace Sys2Proof.Machine

/-- DIST_0_15: symbol c. -/
def execDist0To15 (c : BitVec 4) (s : State) : Outcome := atDistance s fun len => distanceCode len c.toNat s

/-- DIST_16_23: symbol 16 + c. -/
def execDist16To23 (c : BitVec 3) (s : State) : Outcome := atDistance s fun len => distanceCode len (16 + c.toNat) s

/-- DIST_24_27: symbol 24 + c. -/
def execDist24To27 (c : BitVec 2) (s : State) : Outcome := atDistance s fun len => distanceCode len (24 + c.toNat) s

/-- DIST_28_29: symbol 28 + c. -/
def execDist28To29 (c : BitVec 1) (s : State) : Outcome := atDistance s fun len => distanceCode len (28 + c.toNat) s

/-- DIST_INVALID_30_31: codes 30 and 31 name no distance symbol (43_deflate_decoder.md R177). -/
def execDistInvalid (_ : BitVec 1) (s : State) : Outcome := atDistance s fun _ => .error .malformedStream

end Sys2Proof.Machine
end

