-- ==== Sys2Proof/Machine/Matching.lean ====
section
/-! DEFINITION. The LZ77 hash-chain matcher (41_lz77_matcher.md). `D` is the input as a view of IN, `n` its length. -/

namespace Sys2Proof.Machine

/-- `hash3(b0, b1, b2)` (41_lz77_matcher.md R131). -/
def hash3 (b0 b1 b2 : Byte) : Nat :=
  ((b0.toNat <<< 10) ^^^ (b1.toNat <<< 5) ^^^ b2.toNat) &&& 0x7FFF

/-- The hash of the three bytes at a position. -/
def hashAt (D : Nat → Byte) (p : Nat) : Nat := hash3 (D p) (D (p + 1)) (D (p + 2))

/-- `prev[i]`: an entry that no insertion has written is a free value (10_state.md R38, U4, log 10). -/
def chainLink (t : Table (Option Nat)) (i : Nat) : Option Nat := (tableRead t i).getD (Config.freeLink i)

/-- `insert(p)` (41_lz77_matcher.md R132). -/
def insertPos (D : Nat → Byte) (n p : Nat) (m : Matcher) : Matcher :=
  if p + 3 ≤ n then
    let h := hashAt D p
    { m with prev := tableWrite m.prev (p % 32768) (tableRead m.head h), head := tableWrite m.head h p }
  else m

/-- `insert` for each of the `k` positions from `p` on, in increasing order (41_lz77_matcher.md R135). -/
def insertRange (D : Nat → Byte) (n : Nat) : Nat → Nat → Matcher → Matcher
  | _, 0, m => m
  | p, k + 1, m => insertRange D n (p + 1) k (insertPos D n p m)

/-- `match_len(c, i, limit)` (41_lz77_matcher.md R134). -/
def matchLen (D : Nat → Byte) : Nat → Nat → Nat → Nat
  | _, _, 0 => 0
  | c, i, limit + 1 => if D c = D i then matchLen D (c + 1) (i + 1) limit + 1 else 0

/-- The loop of `longest_match` (41_lz77_matcher.md R133) from candidate `cand` with the best match so far, for at most
`fuel` candidates. A walk visits at most 32768 candidates (R137, R138; log 16). -/
def chainWalk (D : Nat → Byte) (links : Table (Option Nat)) (i limit : Nat) :
    Nat → Option Nat → Nat × Nat → Nat × Nat
  | 0, _, best => best
  | _ + 1, none, best => best
  | fuel + 1, some cand, best =>
    if 32768 < i - cand then best
    else
      let len := matchLen D cand i limit
      if best.1 < len then
        if len = 258 then (len, i - cand)
        else chainWalk D links i limit fuel (chainLink links (cand % 32768)) (len, i - cand)
      else chainWalk D links i limit fuel (chainLink links (cand % 32768)) best

/-- `longest_match(i)` (41_lz77_matcher.md R133): length and distance of the longest match, (0, 0) if there is none. -/
def longestMatch (D : Nat → Byte) (n i : Nat) (m : Matcher) : Nat × Nat :=
  chainWalk D m.prev i (min 258 (n - i)) 32768 (tableRead m.head (hashAt D i)) (0, 0)

/-- `lz77_step()` (41_lz77_matcher.md R135): search, then insert, then advance. -/
def lz77Step (D : Nat → Byte) (n : Nat) (m : Matcher) : Matcher :=
  let i := m.pos
  let (len, dist) := if i + 3 ≤ n then longestMatch D n i m else (0, 0)
  if 3 ≤ len then
    { insertRange D n i len m with pos := i + len, tokens := m.tokens ++ [.copy len dist] }
  else
    { insertPos D n i m with pos := i + 1, tokens := m.tokens ++ [.literal (D i)] }

/-- The matcher at command start (10_state.md R44, 41_lz77_matcher.md R136): `prev` keeps whatever it holds (R38). -/
def Matcher.restart (m : Matcher) : Matcher := { m with pos := 0, head := [], tokens := [] }

/-- The loop of `lz77(D)` (41_lz77_matcher.md R136), for at most `fuel` steps; it ends after at most `n`. -/
def lz77Loop (D : Nat → Byte) (n : Nat) : Nat → Matcher → Matcher
  | 0, m => m
  | fuel + 1, m => if m.pos < n then lz77Loop D n fuel (lz77Step D n m) else m

/-- `lz77(D)` (41_lz77_matcher.md R136): the tokens of the whole input. -/
def lz77 (D : Nat → Byte) (n : Nat) (m : Matcher) : List Token := (lz77Loop D n n m.restart).tokens

end Sys2Proof.Machine
end

