-- ==== Sys2Proof/Machine/Encoder.lean ====
section
/-! DEFINITION. The engine's steps while a compress command runs: the DEFLATE encoder (42_deflate_encoder.md) and the
gzip encoder (44_gzip_framer.md R200 to R204). -/

namespace Sys2Proof.Machine

/-- `put_litlen(s)` (42_deflate_encoder.md R158). -/
def putLitlen (symbol : Nat) (s : State) : Except ErrKind State :=
  let (c, len) := fixedCode symbol
  writeBits (revBits len c) len s

/-- `put_match(ℓ, δ)` (42_deflate_encoder.md R159). -/
def putMatch (len dist : Nat) (s : State) : Except ErrKind State := do
  let (sym, e, v) := lenSym len
  let s ← putLitlen sym s
  let s ← writeBits v e s
  let (d, de, dv) := distSym dist
  let s ← writeBits (revBits 5 d) 5 s
  writeBits dv de s

/-- One token of the fixed block (42_deflate_encoder.md R157). -/
def putToken (t : Token) (s : State) : Except ErrKind State :=
  match t with
  | .literal b => putLitlen b.toNat s
  | .copy len dist => putMatch len dist s

/-- `emit_stored(D)` (42_deflate_encoder.md R156). -/
def emitStored (data : List Byte) (s : State) : Except ErrKind State := do
  let s ← writeBits 1 1 s
  let s ← writeBits 0 2 s
  let s ← alignWriter s
  let s ← writeBits data.length 16 s
  let s ← writeBits (data.length ^^^ 0xFFFF) 16 s
  writeBytes data s

/-- The header of a fixed block (42_deflate_encoder.md R157). -/
def openFixed (s : State) : Except ErrKind State := do
  let s ← writeBits 1 1 s
  writeBits 1 2 s

/-- The stored block is chosen exactly when the input is not empty and costs no more stored (42_deflate_encoder.md
R154). -/
def choosesStored (n : Nat) (tokens : List Token) : Bool :=
  decide (0 < n) && decide (storedCost n ≤ fixedCost tokens)

/-- The block choice (42_deflate_encoder.md R150, R154, R155), made once the whole token sequence is known. The tokens the
matcher kept serve the cost estimate here and the emission after it; R151 would let the matcher run a second time (U14,
D27; DESIGN CHOICE, log 29). -/
def chooseBlock (s : State) : Except ErrKind State :=
  if choosesStored s.inLen.toNat s.matcher.tokens then
    if 65535 < s.inLen.toNat then .error .inputTooLarge
    else do
      let t ← emitStored s.input s
      return { t with phase := .closing }
  else do
    let t ← openFixed s
    return { t with phase := .emitting s.matcher.tokens }

/-- One step of the matcher, or the block choice at the end of the input (41_lz77_matcher.md R136). -/
def stepMatching (s : State) : Except ErrKind State :=
  if s.matcher.pos < s.inLen.toNat then
    .ok { s with matcher := lz77Step s.inByte s.inLen.toNat s.matcher }
  else chooseBlock s

/-- One token of the fixed block, or its end-of-block code (42_deflate_encoder.md R157). -/
def stepEmitting (left : List Token) (s : State) : Except ErrKind State :=
  match left with
  | t :: rest => do
    let s ← putToken t s
    return { s with phase := .emitting rest }
  | [] => do
    let s ← putLitlen 256 s
    return { s with phase := .closing }

/-- The ten bytes of `write_header(mtime)` (44_gzip_framer.md R201). -/
def gzipHeaderBytes (mtime : Word) : List Byte := [0x1f#8, 0x8b#8, 8#8, 0#8] ++ le32 mtime ++ [0#8, 255#8]

/-- `write_header(mtime)` (44_gzip_framer.md R201): then the bit writer starts at `wbase` = 10. -/
def stepFraming (s : State) : Except ErrKind State := do
  let s ← outAppendAll (gzipHeaderBytes s.mtime) s
  return { s with wbase := s.outPos, wlen := 0, wcur := 0#8, wnb := 0, phase := .matching }

/-- The footer of the member (44_gzip_framer.md R200): CRC32 and ISIZE of the input. -/
def appendFooter (s : State) : Except ErrKind State :=
  outAppendAll (le32 (s.crc ^^^ 0xFFFFFFFF#32) ++ le32 s.inLen) s

/-- The flush of `get_bytes()` and the results of the compress command (46_commands.md R243, R245). -/
def stepClosing (s : State) : Except ErrKind State := do
  let s ← alignWriter s
  let s := { s with outPos := s.wbase + s.wlen }
  match s.cmdState with
  | .busy .gzipCompress =>
    let s := s.runCrc s.input
    let s ← appendFooter s
    return ({ s.setOutput s.outPos with crcResult := s.crc ^^^ 0xFFFFFFFF#32 }).complete
  | _ => return (s.setOutput s.outPos).complete

end Sys2Proof.Machine
end

