-- ==== Sys2Proof/Machine/Gzip.lean ====
section
/-! DEFINITION. GZIP_MEMBER: the gzip decoder's header checks and optional fields (44_gzip_framer.md R210 to R212). -/

namespace Sys2Proof.Machine

/-- `skip_zstring()` (44_gzip_framer.md R211) from offset `h`, for at most `fuel` bytes before `stop`: the offset after
the terminating zero byte. -/
def skipZstring (b : Nat → Byte) : Nat → Nat → Except ErrKind Nat
  | 0, _ => .error .malformedStream
  | fuel + 1, h => if b h = 0#8 then .ok (h + 1) else skipZstring b fuel (h + 1)

/-- FEXTRA (44_gzip_framer.md R211). -/
def skipExtra (b : Nat → Byte) (stop h : Nat) : Except ErrKind Nat :=
  if stop < h + 2 then .error .malformedStream
  else
    let h' := h + 2 + (rd16 b h).toNat
    if stop < h' then .error .malformedStream else .ok h'

/-- FHCRC (44_gzip_framer.md R211): the CRC unit runs over every header byte before the field (45_crc32.md R235), and the
field is compared with the low 16 bits of the checksum. Answers the offset after the field. -/
def checkHeaderCrc (stop h : Nat) (s : State) : Except ErrKind (Nat × State) :=
  if stop < h + 2 then .error .malformedStream
  else
    let s := s.runCrc (bytesFrom s.inByte 0 h)
    if rd16 s.inByte h ≠ (s.crc ^^^ 0xFFFFFFFF#32).setWidth 16 then .error .checksumMismatch else .ok (h + 2, s)

/-- The fields FEXTRA, FNAME and FCOMMENT selected by FLG, in order, each ending at or before `stop` (44_gzip_framer.md R211,
30_encoding.md R90, R91): the offset after them. FTEXT and bits 5 to 7 are ignored. -/
def skipFields (b : Nat → Byte) (flg : Byte) (stop : Nat) : Except ErrKind Nat := do
  let h ← if flg.getLsbD 2 then skipExtra b stop 10 else .ok 10
  let h ← if flg.getLsbD 3 then skipZstring b (stop - h) h else .ok h
  if flg.getLsbD 4 then skipZstring b (stop - h) h else .ok h

/-- All the optional fields (44_gzip_framer.md R211): the offset at which the payload begins. -/
def optionalFields (flg : Byte) (stop : Nat) (s : State) : Except ErrKind (Nat × State) := do
  let h ← skipFields s.inByte flg stop
  if flg.getLsbD 1 then checkHeaderCrc stop h s else .ok (h, s)

/-- The reader takes over the payload `b[h : stop]` and `inflate` begins (44_gzip_framer.md R212, 43_deflate_decoder.md
R170). -/
def openPayload (h stop : Nat) (s : State) : State :=
  { s with rbase := h, rlen := stop - h, rpos := 0, outPos := 0, phase := .blockHeader }

/-- The engine is about to read the member header. -/
def State.atHeader (s : State) : Bool :=
  decide (s.cmdState = .busy .gzipDecompress) && decide (s.phase = .gzipHeader)

/-- The header checks and the optional fields (44_gzip_framer.md R210 to R212); MTIME, XFL and OS are skipped. -/
def memberHeader (flg : Byte) (s : State) : Except ErrKind State :=
  let len := s.inLen.toNat
  if len < 18 then .error .malformedStream
  else do
    let (h, s) ← optionalFields flg (len - 8) s
    return openPayload h (len - 8) s

/-- GZIP_MEMBER (44_gzip_framer.md R210). -/
def execGzipMember (flg : Byte) (_mtime : Word) (_xfl _os : Byte) (s : State) : Outcome :=
  atPlace s.atHeader s (memberHeader flg s)

end Sys2Proof.Machine
end

