-- ==== Sys2Proof/Machine/Lengths.lean ====
section
/-! DEFINITION. End of block, the length codes LEN_257 to LEN_284_285, and the codes of 286 and 287 (30_encoding.md
R80, R83, R84; 43_deflate_decoder.md R173, R175, R176). -/

namespace Sys2Proof.Machine

/-- EOB: symbol 256 ends the block. -/
def execEob (s : State) : Outcome :=
  atPlace s.atLitlen s do
    let s ← skipBits 7 s
    endBlock s

/-- LEN_257: code 1. -/
def execLen257 (s : State) : Outcome := atPlace s.atLitlen s (lengthCode 7 257 s)

/-- LEN_258_259: code 2 + c, symbol 258 + c. -/
def execLen258To259 (c : BitVec 1) (s : State) : Outcome := atPlace s.atLitlen s (lengthCode 7 (258 + c.toNat) s)

/-- LEN_260_263: code 4 + c, symbol 260 + c. -/
def execLen260To263 (c : BitVec 2) (s : State) : Outcome := atPlace s.atLitlen s (lengthCode 7 (260 + c.toNat) s)

/-- LEN_264_271: code 8 + c, symbol 264 + c. -/
def execLen264To271 (c : BitVec 3) (s : State) : Outcome := atPlace s.atLitlen s (lengthCode 7 (264 + c.toNat) s)

/-- LEN_272_279: code 16 + c, symbol 272 + c. -/
def execLen272To279 (c : BitVec 3) (s : State) : Outcome := atPlace s.atLitlen s (lengthCode 7 (272 + c.toNat) s)

/-- LEN_280_283: code 0xC0 + c, symbol 280 + c. -/
def execLen280To283 (c : BitVec 2) (s : State) : Outcome := atPlace s.atLitlen s (lengthCode 8 (280 + c.toNat) s)

/-- LEN_284_285: code 0xC4 + c, symbol 284 + c; symbol 284 with extra value 31 is length 258 (R84, D15). -/
def execLen284To285 (c : BitVec 1) (s : State) : Outcome := atPlace s.atLitlen s (lengthCode 8 (284 + c.toNat) s)

/-- LITLEN_INVALID_286_287: an invalid Huffman prefix, whichever of the two codes it is (43_deflate_decoder.md R176). -/
def execLitlenInvalid (_ : BitVec 1) (s : State) : Outcome := atPlace s.atLitlen s (.error .malformedStream)

end Sys2Proof.Machine
end

