-- ==== Sys2Proof/Machine/Literals.lean ====
section
/-! DEFINITION. The literal codes, LIT_0_15 to LIT_192_255 (30_encoding.md R80, 43_deflate_decoder.md R173, R176): the
code's value gives the literal byte, which is appended. -/

namespace Sys2Proof.Machine

/-- LIT_0_15: code 0x30 + c, literal c. -/
def execLit0To15 (c : BitVec 4) (s : State) : Outcome := atPlace s.atLitlen s (literal 8 c.toNat s)

/-- LIT_16_79: code 0x40 + c, literal 16 + c. -/
def execLit16To79 (c : BitVec 6) (s : State) : Outcome := atPlace s.atLitlen s (literal 8 (16 + c.toNat) s)

/-- LIT_80_143: code 0x80 + c, literal 80 + c. -/
def execLit80To143 (c : BitVec 6) (s : State) : Outcome := atPlace s.atLitlen s (literal 8 (80 + c.toNat) s)

/-- LIT_144_159: code 0x190 + c, literal 144 + c. -/
def execLit144To159 (c : BitVec 4) (s : State) : Outcome := atPlace s.atLitlen s (literal 9 (144 + c.toNat) s)

/-- LIT_160_191: code 0x1A0 + c, literal 160 + c. -/
def execLit160To191 (c : BitVec 5) (s : State) : Outcome := atPlace s.atLitlen s (literal 9 (160 + c.toNat) s)

/-- LIT_192_255: code 0x1C0 + c, literal 192 + c. -/
def execLit192To255 (c : BitVec 6) (s : State) : Outcome := atPlace s.atLitlen s (literal 9 (192 + c.toNat) s)

end Sys2Proof.Machine
end

