-- ==== Sys2Proof/Machine/Engine.lean ====
section
/-! DEFINITION. One step of the engine while a command runs, and the run of a command to its end. -/

namespace Sys2Proof.Machine

/-- The meaning of a stream instruction, as the decoder executes it. A command word is no stream instruction: it is
executed by a CMD write only. -/
def streamExec (i : Instr) (s : State) : Outcome :=
  match i with
  | .clear => .fault .internalViolation
  | .deflateCompress => .fault .internalViolation
  | .deflateDecompress => .fault .internalViolation
  | .gzipCompress => .fault .internalViolation
  | .gzipDecompress => .fault .internalViolation
  | .crc32 => .fault .internalViolation
  | .reservedCmd _ => .fault .internalViolation
  | .blockStored final => execBlockStored final s
  | .blockFixed final => execBlockFixed final s
  | .blockDynamicUnsupported final => execBlockDynamicUnsupported final s
  | .blockReserved final => execBlockReserved final s
  | .lit0To15 c => execLit0To15 c s
  | .lit16To79 c => execLit16To79 c s
  | .lit80To143 c => execLit80To143 c s
  | .lit144To159 c => execLit144To159 c s
  | .lit160To191 c => execLit160To191 c s
  | .lit192To255 c => execLit192To255 c s
  | .eob => execEob s
  | .len257 => execLen257 s
  | .len258To259 c => execLen258To259 c s
  | .len260To263 c => execLen260To263 c s
  | .len264To271 c => execLen264To271 c s
  | .len272To279 c => execLen272To279 c s
  | .len280To283 c => execLen280To283 c s
  | .len284To285 c => execLen284To285 c s
  | .litlenInvalid c => execLitlenInvalid c s
  | .dist0To15 c => execDist0To15 c s
  | .dist16To23 c => execDist16To23 c s
  | .dist24To27 c => execDist24To27 c s
  | .dist28To29 c => execDist28To29 c s
  | .distInvalid c => execDistInvalid c s
  | .gzipMember flg mtime xfl os => execGzipMember flg mtime xfl os s

/-- Which code the engine reads next, when a decompress command runs. -/
def State.fetchSpace (s : State) : Option Space :=
  match s.cmdState, s.phase with
  | .busy .gzipDecompress, .gzipHeader => some .gzip
  | .busy .gzipDecompress, .blockHeader => some .block
  | .busy .gzipDecompress, .litlen => some .litlen
  | .busy .gzipDecompress, .dist _ => some .dist
  | .busy .deflateDecompress, .blockHeader => some .block
  | .busy .deflateDecompress, .litlen => some .litlen
  | .busy .deflateDecompress, .dist _ => some .dist
  | _, _ => none

/-- The instruction the decoder reads next: the first one of the stream bits within the tolerance. -/
def State.fetch (s : State) (sp : Space) : Option Instr := (decode sp (s.window sp.window)).map fun p => p.1

/-- One instruction of the stream. Bits that run out, name no symbol or spell no gzip header are a malformed stream
(43_deflate_decoder.md R171, R176, R177; 44_gzip_framer.md R210). -/
def stepStream (sp : Space) (s : State) : Outcome :=
  match s.fetch sp with
  | some i => streamExec i s
  | none => settle s (.error .malformedStream)

/-- CRC32 (46_commands.md R247). -/
def stepChecksum (s : State) : Except ErrKind State :=
  let s := s.runCrc s.input
  .ok ({ s with crcResult := s.crc ^^^ 0xFFFFFFFF#32 }).complete

/-- A compress command is running. -/
def State.compressing (s : State) : Bool :=
  match s.cmdState with
  | .busy .deflateCompress => true
  | .busy .gzipCompress => true
  | _ => false

/-- One engine step of the running command (log 1). -/
def engineStep (s : State) : Outcome :=
  match s.fetchSpace with
  | some sp => stepStream sp s
  | none =>
    match s.phase with
    | .framing => atPlace (decide (s.cmdState = .busy .gzipCompress)) s (stepFraming s)
    | .matching => atPlace s.compressing s (stepMatching s)
    | .emitting left => atPlace s.compressing s (stepEmitting left s)
    | .closing => atPlace s.compressing s (stepClosing s)
    | .checksum => atPlace (decide (s.cmdState = .busy .crc32)) s (stepChecksum s)
    | _ => .fault .internalViolation

/-- Engine steps until the command ends, at most `fuel` of them. -/
def runEngine : Nat → State → Outcome
  | 0, s => .next s
  | fuel + 1, s =>
    if s.busy then
      match engineStep s with
      | .next t => runEngine fuel t
      | .fault r => .fault r
      | .refused r => .refused r
    else .next s

/-- A bound on the engine steps of a command over an input of `n` bytes (46_commands.md R241, log 13). -/
def engineBound (n : Nat) : Nat := 8 * n + 16

end Sys2Proof.Machine
end

