-- ==== Sys2Proof/Machine/Commands.lean ====
section
/-! DEFINITION. The host commands (46_commands.md): CLEAR, DEFLATE_COMPRESS, DEFLATE_DECOMPRESS, GZIP_COMPRESS,
GZIP_DECOMPRESS, CRC32 and the reserved words. -/

namespace Sys2Proof.Machine

/-- The working state at the start of a data command (10_state.md R44), with the reader on `IN[0 : IN_LEN]` (46_commands.md
R242). `prev` keeps its content (10_state.md R38). -/
def State.restart (s : State) : State :=
  { s with
    wbase := 0
    wlen := 0
    wcur := 0#8
    wnb := 0
    rbase := 0
    rlen := s.inLen.toNat
    rpos := 0
    matcher := s.matcher.restart
    outPos := 0 }

/-- The first place of each command's rule (46_commands.md R243 to R247). -/
def Op.firstPhase : Op → Phase
  | .deflateCompress => .matching
  | .deflateDecompress => .blockHeader
  | .gzipCompress => .framing
  | .gzipDecompress => .gzipHeader
  | .crc32 => .checksum

/-- The start of a data command (46_commands.md R240, R242): the flags, then the capacity check, then the working state. -/
def startCommand (op : Op) (s : State) : State :=
  let s := s.begin (.busy op)
  if s.cfg.inCap < s.inLen.toNat then takeError true .capacityExceeded s
  else { s.restart with phase := op.firstPhase }

/-- A CMD write while BUSY is a host hazard and starts nothing (46_commands.md R240, 70_reset_and_hazards.md R300). -/
def whenIdle (s : State) (o : Outcome) : Outcome := if s.busy then .fault .hostWriteWhileBusy else o

/-- A data command: its start and, when a command takes one step (70_reset_and_hazards.md R311, log 2), the whole of
its rule. -/
def dataCommand (op : Op) (s : State) : Outcome :=
  whenIdle s
    (match s.cfg.pace with
     | .whole => runEngine (engineBound s.inLen.toNat) (startCommand op s)
     | .stepwise => .next (startCommand op s))

/-- CLEAR (46_commands.md R248). -/
def execClear (s : State) : Outcome := whenIdle s (.next (returnFromError s))

/-- DEFLATE_COMPRESS (46_commands.md R243). -/
def execDeflateCompress (s : State) : Outcome := dataCommand .deflateCompress s

/-- DEFLATE_DECOMPRESS (46_commands.md R244). -/
def execDeflateDecompress (s : State) : Outcome := dataCommand .deflateDecompress s

/-- GZIP_COMPRESS (46_commands.md R245). -/
def execGzipCompress (s : State) : Outcome := dataCommand .gzipCompress s

/-- GZIP_DECOMPRESS (46_commands.md R246). -/
def execGzipDecompress (s : State) : Outcome := dataCommand .gzipDecompress s

/-- CRC32 (46_commands.md R247). -/
def execCrc32 (s : State) : Outcome := dataCommand .crc32 s

/-- RESERVED_CMD (46_commands.md R249): ILLEGAL_COMMAND, whatever the word, before any input is read. -/
def execReservedCmd (_ : Word) (s : State) : Outcome :=
  whenIdle s (.next (takeError true .illegalCommand (s.begin .idle)))

end Sys2Proof.Machine
end

