-- ==== Sys2Proof/Machine/Dispatch.lean ====
section
/-! DEFINITION. The meaning of each instruction: one arm for each constructor of Instr. -/

namespace Sys2Proof.Machine

def exec (i : Instr) (s : State) : Host.Outcome State Fault Refusal :=
  match i with
  | .clear => Sys2Proof.Machine.execClear s
  | .deflateCompress => Sys2Proof.Machine.execDeflateCompress s
  | .deflateDecompress => Sys2Proof.Machine.execDeflateDecompress s
  | .gzipCompress => Sys2Proof.Machine.execGzipCompress s
  | .gzipDecompress => Sys2Proof.Machine.execGzipDecompress s
  | .crc32 => Sys2Proof.Machine.execCrc32 s
  | .reservedCmd w => Sys2Proof.Machine.execReservedCmd w s
  | .blockStored final => Sys2Proof.Machine.execBlockStored final s
  | .blockFixed final => Sys2Proof.Machine.execBlockFixed final s
  | .blockDynamicUnsupported final => Sys2Proof.Machine.execBlockDynamicUnsupported final s
  | .blockReserved final => Sys2Proof.Machine.execBlockReserved final s
  | .lit0To15 c => Sys2Proof.Machine.execLit0To15 c s
  | .lit16To79 c => Sys2Proof.Machine.execLit16To79 c s
  | .lit80To143 c => Sys2Proof.Machine.execLit80To143 c s
  | .lit144To159 c => Sys2Proof.Machine.execLit144To159 c s
  | .lit160To191 c => Sys2Proof.Machine.execLit160To191 c s
  | .lit192To255 c => Sys2Proof.Machine.execLit192To255 c s
  | .eob => Sys2Proof.Machine.execEob s
  | .len257 => Sys2Proof.Machine.execLen257 s
  | .len258To259 c => Sys2Proof.Machine.execLen258To259 c s
  | .len260To263 c => Sys2Proof.Machine.execLen260To263 c s
  | .len264To271 c => Sys2Proof.Machine.execLen264To271 c s
  | .len272To279 c => Sys2Proof.Machine.execLen272To279 c s
  | .len280To283 c => Sys2Proof.Machine.execLen280To283 c s
  | .len284To285 c => Sys2Proof.Machine.execLen284To285 c s
  | .litlenInvalid c => Sys2Proof.Machine.execLitlenInvalid c s
  | .dist0To15 c => Sys2Proof.Machine.execDist0To15 c s
  | .dist16To23 c => Sys2Proof.Machine.execDist16To23 c s
  | .dist24To27 c => Sys2Proof.Machine.execDist24To27 c s
  | .dist28To29 c => Sys2Proof.Machine.execDist28To29 c s
  | .distInvalid c => Sys2Proof.Machine.execDistInvalid c s
  | .gzipMember flg mtime xfl os => Sys2Proof.Machine.execGzipMember flg mtime xfl os s

end Sys2Proof.Machine
end

