-- ==== Sys2Proof/Machine/HostActions.lean ====
section
/-! DEFINITION. The host's actions (20_memory.md R53 to R56, 70_reset_and_hazards.md R290, R291, R300), but for the CMD
write, which Step.lean hands to exec; and the placing of an instruction where the next step fetches it. -/

namespace Sys2Proof.Machine

/-- What a host read returns, recorded for whoever reads the run (log 19). -/
def State.answer (v : Word) (s : State) : State := { s with hostData := some v }

/-- A read whose value the spec leaves unspecified: a fresh free value (70_reset_and_hazards.md R300, U6, log 8). -/
def State.answerFree (s : State) : State :=
  { s with hostData := some (Config.freeWord s.freeCount), freeCount := s.freeCount + 1 }

/-- A host register write other than a CMD write (10_state.md R28 to R36). -/
def hostWriteReg (offset : Nat) (v : Word) (s : State) : Outcome :=
  if s.busy then .fault .hostWriteWhileBusy else .next (s.regWrite offset v)

/-- A host register read: while BUSY only STATUS has a specified value (20_memory.md R59). -/
def hostReadReg (width offset : Nat) (s : State) : Outcome :=
  if regAccessOk width offset then
    if s.busy && !decide (offset = 0x04) then .next s.answerFree else .next (s.answer (s.regRead offset))
  else .refused .badRegisterAccess

/-- A host byte write to IN (20_memory.md R54). -/
def hostWriteIn (offset : Nat) (v : Byte) (s : State) : Outcome :=
  if offset < s.cfg.inCap then
    if s.busy then .fault .hostWriteWhileBusy else .next (s.putIn offset v)
  else .refused .badBufferAccess

/-- A host byte read of IN (20_memory.md R54). -/
def hostReadIn (offset : Nat) (s : State) : Outcome :=
  if offset < s.cfg.inCap then
    if s.busy then .next s.answerFree else .next (s.answer ((s.inByte offset).setWidth 32))
  else .refused .badBufferAccess

/-- A host byte read of OUT (20_memory.md R54). -/
def hostReadOut (offset : Nat) (s : State) : Outcome :=
  if s.cfg.fits offset then
    if s.busy then .next s.answerFree else .next (s.answer ((s.outByte offset).setWidth 32))
  else .refused .badBufferAccess

/-- The reset event (70_reset_and_hazards.md R290, R291), at any time: every register and working register at its reset
value, IN, OUT and `prev` unspecified anew. The parameters, the host's remaining actions and what its last read returned
are not the block's state and stay (log 18). -/
def resetBlock (s : State) : State :=
  { State.resetWith s.cfg with
    script := s.script
    hostData := s.hostData
    inEpoch := s.freeCount
    outEpoch := s.freeCount + 1
    freeCount := s.freeCount + 2 }

/-- A host action other than a register write. -/
def hostAct (a : HostAction) (s : State) : Outcome :=
  match a with
  | .writeReg _ offset v => hostWriteReg offset v s
  | .readReg width offset => hostReadReg width offset s
  | .writeIn offset v => hostWriteIn offset v s
  | .readIn offset => hostReadIn offset s
  | .writeOut _ _ => .refused .badBufferAccess
  | .readOut offset => hostReadOut offset s
  | .wait => .next (s.answer s.status)
  | .reset => .next (resetBlock s)

/-- The host moves next: the block is IDLE, or the pending action's engine steps have passed and it is not WAIT, whose
polling goes on until BUSY = 0 (30_encoding.md R101, log 3). -/
def hostTurn (e : HostEvent) (s : State) : Bool := !s.busy || (decide (e.after = 0) && decide (e.action ≠ .wait))

/-- One engine step brings the host's pending action nearer. -/
def tick : List HostEvent → List HostEvent
  | [] => []
  | e :: rest => { e with after := e.after - 1 } :: rest

/-! ### Placing an instruction where the next step fetches it (log 14) -/

/-- The byte whose bits from bit 0 up are a list's. -/
def byteOf : List Bool → Byte
  | [] => 0#8
  | b :: rest => (byteOf rest <<< 1) ||| (BitVec.ofBool b).setWidth 8

/-- The bytes of a bit sequence, the first bit in bit 0 of the first byte, zeros after its end, `k` bytes in all. -/
def packBytes : Nat → List Bool → List Byte
  | 0, _ => []
  | k + 1, bits => byteOf (bits.take 8) :: packBytes k (bits.drop 8)

/-- Write bytes at the start of IN. -/
def placeBytes : Nat → List Byte → Memory → Memory
  | _, [], m => m
  | a, b :: rest, m => placeBytes (a + 1) rest (tableWrite m a b)

/-- The host's pending action lands one engine step later. -/
def delay : List HostEvent → List HostEvent
  | [] => []
  | e :: rest => { e with after := e.after + 1 } :: rest

/-- The stream state in which the engine's next step reads a code of context `sp` at bit 0 of `IN[0 : 18]`. -/
def placeStream (sp : Space) (bits : List Bool) (s : State) : State :=
  { s.begin (.busy (if sp = .gzip then .gzipDecompress else .deflateDecompress)) with
    phase := (match sp with
              | .cmd => .rest
              | .block => .blockHeader
              | .litlen => .litlen
              | .dist => .dist 3
              | .gzip => .gzipHeader)
    inLen := 18#32
    inBuf := placeBytes 0 (packBytes 18 bits) s.inBuf
    rbase := 0
    rlen := 18
    rpos := 0
    script := delay s.script }

/-- The state in which the host's next action writes `w` to CMD. -/
def placeCommand (w : Word) (s : State) : State :=
  { s with cmdState := .idle, phase := .rest, script := ⟨0, .writeReg 4 0 w⟩ :: s.script }

/-- Place a table word (log 14). -/
def placeWord (nbits w : Nat) (s : State) : State :=
  match tableSpace nbits w with
  | .cmd => placeCommand (BitVec.ofNat 32 w) s
  | sp => placeStream sp (tableBits nbits w) s

end Sys2Proof.Machine
end

