-- ==== Sys2Proof/Machine/Step.lean ====
section
/-! DEFINITION. One step of the machine: the host's next action when it is the host's turn, else one engine step. -/

namespace Sys2Proof.Machine

/-- A host register write: at CMD it starts the command the word decodes to (46_commands.md R240), at another offset it
writes the register; an access that is not an aligned 32-bit access in REG is refused (20_memory.md R53). -/
def hostWrite (width offset : Nat) (v : Word) (s : State) : Outcome :=
  if regAccessOk width offset then
    if offset = 0 then exec (decodeCmd v) s else hostWriteReg offset v s
  else .refused .badRegisterAccess

/-- One step (60_exceptions.md R286). The host acts when it is its turn; otherwise a BUSY block makes one engine step
and an IDLE block holds its state (R285). -/
def step (s : State) : Host.Outcome State Fault Refusal :=
  match s.script with
  | [] => if s.busy then engineStep s else .next s
  | e :: rest =>
    if hostTurn e s then
      match e.action with
      | .writeReg width offset v => hostWrite width offset v { s with script := rest }
      | a => hostAct a { s with script := rest }
    else engineStep { s with script := tick s.script }

/-- `s` with a table word placed where `step` fetches its next instruction (log 14). -/
def State.withFetchWord (s : State) (nbits w : Nat) : State := placeWord nbits w s

end Sys2Proof.Machine
end

