-- ==== Sys2Proof/Machine/Assembler.lean ====
section
/-! DEFINITION. The stream assembly lines of 30_encoding.md R100, which assemble to bits with the bit writer. No step
of the block uses them: they are the spec's notation for its streams. -/

namespace Sys2Proof.Machine

/-- A line of stream assembly (30_encoding.md R100). -/
inductive StreamLine where
  | blockStored (final : Bool) (data : List Byte)
  | blockFixed (final : Bool)
  | lit (b : Byte)
  | matchOf (len dist : Nat)
  | eob
  | rawSym (symbol : Nat)
  | rawDist (d : Nat) (extra : Option Nat)
  | rawLen (symbol extra : Nat)
  | bits (v n : Nat)
deriving DecidableEq, Repr

/-- The pseudo-instruction `LITS` (30_encoding.md R100). -/
def lits (text : List Byte) : List StreamLine := text.map .lit

/-- One line, by the bit writer (30_encoding.md R100). -/
def assembleLine (l : StreamLine) (s : State) : Except ErrKind State :=
  match l with
  | .blockStored final data => do
    let s ← writeBits final.toNat 1 s
    let s ← writeBits 0 2 s
    let s ← alignWriter s
    let s ← writeBits data.length 16 s
    let s ← writeBits (data.length ^^^ 0xFFFF) 16 s
    writeBytes data s
  | .blockFixed final => do
    let s ← writeBits final.toNat 1 s
    writeBits 1 2 s
  | .lit b => putLitlen b.toNat s
  | .matchOf len dist => putMatch len dist s
  | .eob => putLitlen 256 s
  | .rawSym symbol => putLitlen symbol s
  | .rawDist d extra => do
    let s ← writeBits (revBits 5 d) 5 s
    match extra with
    | some v => writeBits v (distExtra d) s
    | none => return s
  | .rawLen symbol extra => do
    let s ← putLitlen symbol s
    writeBits extra (lenExtra symbol) s
  | .bits v n => writeBits v n s

/-- The lines in order. -/
def assembleLines : List StreamLine → State → Except ErrKind State
  | [], s => .ok s
  | l :: rest, s =>
    match assembleLine l s with
    | .error e => .error e
    | .ok t => assembleLines rest t

/-- The bytes a stream assembles to, the flush of `END` included: from the empty writer with unbounded output. -/
def assemble (lines : List StreamLine) : Option (List Byte) :=
  match assembleLines lines (State.resetWith { inCap := 1, outCap := none, pace := .whole }) with
  | .error _ => none
  | .ok s =>
    match alignWriter s with
    | .error _ => none
    | .ok t => some (bytesFrom t.outByte 0 t.wlen)

end Sys2Proof.Machine
end

