-- ==== Sys2Proof/Safety.lean ====
section
/-! DEFINITION. What holds of the block in every run: the invariant of the machine, part by part, and the soundness of
the matcher's chains, in the terms the obligations use. -/

namespace Sys2Proof.Machine

/-- The buffers are in canonical form and hold nothing at or beyond their capacity (20_memory.md R54, 60_exceptions.md
R262: no byte is ever written at or beyond OUT_CAP). -/
abbrev State.BuffersOk (s : State) : Prop :=
  Memory.wf s.inBuf = true ∧ Memory.wf s.outBuf = true ∧ tableBelow s.cfg.inCap s.inBuf = true ∧
    s.outBuf.all (fun p => s.cfg.fits p.1) = true

/-- STATUS and ERR_CODE agree (10_state.md R30, R31): ERROR implies DONE, ERROR is set exactly when the code is not 0,
the code is legal, and a BUSY block shows neither DONE nor ERROR. -/
abbrev State.StatusOk (s : State) : Prop :=
  (s.errorBit = true → s.doneBit = true) ∧ (s.errorBit = true ↔ s.errCode ≠ 0#4) ∧ s.errCode.toNat ≤ 7 ∧
    (s.busy = true → s.doneBit = false ∧ s.errorBit = false)

/-- The writer invariants (40_bit_io.md R114): `wnb` is in [0, 7] and `wcur` is below 2^wnb. -/
abbrev State.WriterOk (s : State) : Prop := s.wnb < 8 ∧ s.wcur.toNat < 2 ^ s.wnb

/-- The reader invariants (40_bit_io.md R118), and its slice lies in `IN[0 : IN_LEN]` (20_memory.md R55). -/
abbrev State.ReaderOk (s : State) : Prop :=
  s.rpos ≤ 8 * s.rlen + 8 ∧ (s.decompressing = true → s.rbase + s.rlen ≤ s.inLen.toNat)

/-- An output length that OUT_CAP admits. -/
def capAdmits (c : Config) (len : Nat) : Bool :=
  match c.outCap with
  | none => true
  | some k => decide (len ≤ k)

/-- The stream cursors stay in range (10_state.md R26). -/
abbrev State.CursorsOk (s : State) : Prop :=
  capAdmits s.cfg (s.wbase + s.wlen) = true ∧ capAdmits s.cfg s.outPos = true ∧
    (s.compressing = true → s.matcher.pos ≤ s.inLen.toNat)

/-- The places that belong to a command state (46_commands.md R243 to R247). -/
def phaseFits : CmdState → Phase → Bool
  | .idle, .rest => true
  | .busy .deflateCompress, .matching => true
  | .busy .deflateCompress, .emitting _ => true
  | .busy .deflateCompress, .closing => true
  | .busy .gzipCompress, .framing => true
  | .busy .gzipCompress, .matching => true
  | .busy .gzipCompress, .emitting _ => true
  | .busy .gzipCompress, .closing => true
  | .busy .deflateDecompress, .blockHeader => true
  | .busy .deflateDecompress, .litlen => true
  | .busy .deflateDecompress, .dist _ => true
  | .busy .gzipDecompress, .gzipHeader => true
  | .busy .gzipDecompress, .blockHeader => true
  | .busy .gzipDecompress, .litlen => true
  | .busy .gzipDecompress, .dist _ => true
  | .busy .crc32, .checksum => true
  | _, _ => false

/-- The engine stands at a place of the running command. -/
abbrev State.PhaseOk (s : State) : Prop := phaseFits s.cmdState s.phase = true

/-- The invariant of the machine. -/
abbrev State.Inv (s : State) : Prop :=
  s.BuffersOk ∧ s.StatusOk ∧ s.WriterOk ∧ s.ReaderOk ∧ s.CursorsOk ∧ s.PhaseOk

/-- The greatest position below `i` that has three bytes and the hash `h` (41_lz77_matcher.md R139: every such position
below the current one has been inserted). -/
def lastWithHash (D : Nat → Byte) (n h : Nat) : Nat → Option Nat
  | 0 => none
  | i + 1 => if i + 3 ≤ n ∧ hashAt D i = h then some i else lastWithHash D n h i

/-- Chain soundness at position `i` (41_lz77_matcher.md R138, R139): `head` holds the most recent inserted position of
each hash, and `prev` links each position within the window to the most recent earlier one of its hash. -/
def ChainsSound (D : Nat → Byte) (n i : Nat) (m : Matcher) : Prop :=
  (∀ h, tableRead m.head h = lastWithHash D n h i) ∧
    ∀ p, p < i → p + 3 ≤ n → i ≤ p + 32768 →
      tableRead m.prev (p % 32768) = some (lastWithHash D n (hashAt D p) p)

/-- A token's length and distance are in range (00_scope.md R10, 41_lz77_matcher.md R130). -/
def Token.legal : Token → Bool
  | .literal _ => true
  | .copy len dist => decide (3 ≤ len) && decide (len ≤ 258) && decide (1 ≤ dist) && decide (dist ≤ 32768)

end Sys2Proof.Machine
end

