-- ==== Sys2Proof/Certificates/Slice0/Obligations.lean ====
section
/-! DEFINITION. The statements for the provers, and the reference definitions they are stated with: the stream and
member formats as the spec describes them (30_encoding.md), written without the engine. -/

namespace Sys2Proof.Ref

open Sys2Proof.Machine

/-! ### Frames -/

/-- What the host set, and what is the host's, is as before: no command changes it (46_commands.md R250). -/
def HostKept (s t : State) : Prop :=
  t.cfg = s.cfg ∧ t.inLen = s.inLen ∧ t.mtime = s.mtime ∧ t.inBuf = s.inBuf ∧ t.inEpoch = s.inEpoch ∧
    t.script = s.script ∧ t.hostData = s.hostData

/-- The flags after success (46_commands.md R241). -/
def Succeeded (t : State) : Prop :=
  t.cmdState = .idle ∧ t.phase = .rest ∧ t.status = 2#32 ∧ t.errCode = 0#4

/-- The flags and OUT_LEN after an error (60_exceptions.md R270). -/
def Failed (e : ErrKind) (t : State) : Prop :=
  t.cmdState = .idle ∧ t.phase = .rest ∧ t.status = 6#32 ∧ t.errCode = e.code ∧ t.outLen = 0#32

/-- `len` bytes from offset `a` on all lie below OUT_CAP. -/
def Room (s : State) (a len : Nat) : Prop := ∀ k, k < len → s.cfg.fits (a + k) = true

/-! ### What each code stands for (30_encoding.md R80, R82 to R85) -/

/-- The literal byte of a literal code. -/
def literalByte : Instr → Option Byte
  | .lit0To15 c => some (BitVec.ofNat 8 c.toNat)
  | .lit16To79 c => some (BitVec.ofNat 8 (16 + c.toNat))
  | .lit80To143 c => some (BitVec.ofNat 8 (80 + c.toNat))
  | .lit144To159 c => some (BitVec.ofNat 8 (144 + c.toNat))
  | .lit160To191 c => some (BitVec.ofNat 8 (160 + c.toNat))
  | .lit192To255 c => some (BitVec.ofNat 8 (192 + c.toNat))
  | _ => none

/-- The length symbol of a length code. -/
def lengthSymbol : Instr → Option Nat
  | .len257 => some 257
  | .len258To259 c => some (258 + c.toNat)
  | .len260To263 c => some (260 + c.toNat)
  | .len264To271 c => some (264 + c.toNat)
  | .len272To279 c => some (272 + c.toNat)
  | .len280To283 c => some (280 + c.toNat)
  | .len284To285 c => some (284 + c.toNat)
  | _ => none

/-- The distance symbol of a distance code. -/
def distanceSymbol : Instr → Option Nat
  | .dist0To15 c => some c.toNat
  | .dist16To23 c => some (16 + c.toNat)
  | .dist24To27 c => some (24 + c.toNat)
  | .dist28To29 c => some (28 + c.toNat)
  | _ => none

/-- The literal/length symbol of a literal/length code, 286 and 287 included. -/
def litlenSymbol : Instr → Option Nat
  | .eob => some 256
  | .litlenInvalid c => some (286 + c.toNat)
  | i => match literalByte i with
    | some b => some b.toNat
    | none => lengthSymbol i

/-- A command that reads input. -/
def commandOp : Instr → Option Op
  | .deflateCompress => some .deflateCompress
  | .deflateDecompress => some .deflateDecompress
  | .gzipCompress => some .gzipCompress
  | .gzipDecompress => some .gzipDecompress
  | .crc32 => some .crc32
  | _ => none

/-! ### Fixed blocks and stored blocks as the encoder writes them (30_encoding.md R71 to R75) -/

/-- The bits of a literal/length symbol's code. -/
def symbolBits (symbol : Nat) : List Bool := msbBits (fixedCode symbol).2 (fixedCode symbol).1

/-- The bits of a token (30_encoding.md R74, R75, R86, R87). -/
def tokenBits : Token → List Bool
  | .literal b => symbolBits b.toNat
  | .copy len dist =>
    symbolBits (lenSym len).1 ++ lsbBits (lenSym len).2.1 (lenSym len).2.2 ++
      msbBits 5 (distSym dist).1 ++ lsbBits (distSym dist).2.1 (distSym dist).2.2

/-- The bits of the one fixed block: BFINAL = 1, BTYPE = 01, the tokens, the end-of-block code. -/
def fixedBlockBits (tokens : List Token) : List Bool :=
  [true, true, false] ++ tokens.flatMap tokenBits ++ symbolBits 256

/-- The number of bytes that hold `n` bits. -/
def byteCount (n : Nat) : Nat := (n + 7) / 8

/-- The byte that holds bits 8k to 8k + 7 of a sequence, zeros past its end. -/
def packedByte (bits : List Bool) (k : Nat) : Byte :=
  BitVec.ofFnLE fun j : Fin 8 => bits.getD (8 * k + j.val) false

/-- A bit sequence as bytes, the first bit in bit 0 of the first byte, padded with zeros (40_bit_io.md R112, R114). -/
def pack (bits : List Bool) : List Byte := (List.range (byteCount bits.length)).map (packedByte bits)

/-- A 16-bit number as two bytes, low byte first (30_encoding.md R73). -/
def le16 (v : Nat) : List Byte := [BitVec.ofNat 8 v, BitVec.ofNat 8 (v / 256)]

/-- The one stored block of the encoder (42_deflate_encoder.md R156). -/
def storedBlock (data : List Byte) : List Byte :=
  [1#8] ++ le16 data.length ++ le16 (65535 - data.length) ++ data

/-- The bits of the tokens and the end-of-block code (42_deflate_encoder.md R152), counted from the bits themselves and not
from the model's cost. -/
def codedBits (tokens : List Token) : Nat := (symbolBits 256).length + (tokens.map fun t => (tokenBits t).length).sum

/-- The block the encoder writes for an input with its tokens (42_deflate_encoder.md R150, R154). -/
def encodedBlock (data : List Byte) (tokens : List Token) : List Byte :=
  if 0 < data.length ∧ 8 * (data.length + 5) ≤ codedBits tokens then storedBlock data else pack (fixedBlockBits tokens)

/-- The block cannot be written: stored is chosen and the length does not fit LEN (42_deflate_encoder.md R155). -/
def tooLarge (n : Nat) (tokens : List Token) : Prop := 8 * (n + 5) ≤ codedBits tokens ∧ 65535 < n

/-- The tokens of the block's input. -/
def inputTokens (s : State) : List Token := lz77 s.inByte s.inLen.toNat s.matcher

/-- The gzip member of an input (44_gzip_framer.md R204). -/
def encodedMember (mtime : Word) (data : List Byte) (tokens : List Token) : List Byte :=
  [0x1f#8, 0x8b#8, 8#8, 0#8] ++ le32 mtime ++ [0#8, 255#8] ++ encodedBlock data tokens ++ le32 (crc32 data) ++
    le32 (BitVec.ofNat 32 data.length)

/-! ### Streams as the decoder accepts them (30_encoding.md R71 to R85) -/

/-- An item of a fixed block: a literal, or a length symbol and a distance symbol with their extra values. -/
inductive Item where
  | lit (b : Byte)
  | copy (lenSymbol lenValue distSymbol distValue : Nat)

/-- The symbols are in the alphabets and the extra values fit their bits. -/
def Item.ok : Item → Prop
  | .lit _ => True
  | .copy ls lv ds dv => 257 ≤ ls ∧ ls ≤ 285 ∧ lv < 2 ^ lenExtra ls ∧ ds ≤ 29 ∧ dv < 2 ^ distExtra ds

/-- The bits of an item (30_encoding.md R74, R75). -/
def Item.bits : Item → List Bool
  | .lit b => symbolBits b.toNat
  | .copy ls lv ds dv => symbolBits ls ++ lsbBits (lenExtra ls) lv ++ msbBits 5 ds ++ lsbBits (distExtra ds) dv

/-- The back-reference copy on a list of bytes (43_deflate_decoder.md R178). -/
def copyOnto (dist : Nat) : Nat → List Byte → List Byte
  | 0, out => out
  | k + 1, out => copyOnto dist k (out ++ [out.getD (out.length - dist) 0#8])

/-- What an item appends; nothing if its distance reaches before the output (43_deflate_decoder.md R175). -/
def Item.expand (out : List Byte) : Item → Option (List Byte)
  | .lit b => some (out ++ [b])
  | .copy ls lv ds dv =>
    if distBase ds + dv ≤ out.length then some (copyOnto (distBase ds + dv) (lenBase ls + lv) out) else none

/-- The output after a list of items. -/
def expandItems : List Item → List Byte → Option (List Byte)
  | [], out => some out
  | it :: rest, out => (it.expand out).bind (expandItems rest)

/-- A block: stored, with its alignment padding and raw bytes, or fixed, with its items. -/
inductive Block where
  | stored (padding : List Bool) (data : List Byte)
  | fixed (items : List Item)

/-- A block that begins at bit `start` is well formed (30_encoding.md R73, R74): the padding, of any bits, reaches the
next byte boundary and the length fits LEN. -/
def Block.ok (start : Nat) : Block → Prop
  | .stored padding data => padding.length < 8 ∧ (start + 3 + padding.length) % 8 = 0 ∧ data.length < 65536
  | .fixed items => ∀ it ∈ items, it.ok

/-- The bits of a block. -/
def Block.bits (final : Bool) : Block → List Bool
  | .stored padding data =>
    [final, false, false] ++ padding ++ lsbBits 16 data.length ++ lsbBits 16 (65535 - data.length) ++
      data.flatMap fun b => lsbBits 8 b.toNat
  | .fixed items => [final, true, false] ++ items.flatMap Item.bits ++ symbolBits 256

/-- The output after a block. -/
def Block.expand (out : List Byte) : Block → Option (List Byte)
  | .stored _ data => some (out ++ data)
  | .fixed items => expandItems items out

/-- The bits of a stream: every block but the last has BFINAL = 0 (43_deflate_decoder.md R170). -/
def streamBits : List Block → List Bool
  | [] => []
  | b :: rest => b.bits rest.isEmpty ++ streamBits rest

/-- Every block of a stream that begins at bit `start` is well formed. -/
def streamOk : Nat → List Block → Prop
  | _, [] => True
  | start, b :: rest => b.ok start ∧ streamOk (start + (b.bits rest.isEmpty).length) rest

/-- The output of a stream. -/
def streamOutput : List Block → List Byte → Option (List Byte)
  | [], out => some out
  | b :: rest, out => (b.expand out).bind (streamOutput rest)

/-- The `n` bytes of a view from offset `base` on carry a bit sequence with no byte left over: they hold its bits, or
all but up to 7 final bits that are zeros (40_bit_io.md R115, R116; 43_deflate_decoder.md R179, R180). -/
def Carries (view : Nat → Byte) (base n : Nat) (bits : List Bool) : Prop :=
  bits.length ≤ 8 * n + 7 ∧ n ≤ byteCount bits.length ∧
    ∀ q, q < bits.length →
      bits.getD q false = (decide (q < 8 * n) && (view (base + q / 8)).getLsbD (q % 8))

/-! ### Gzip member headers as the decoder accepts them (30_encoding.md R89 to R91) -/

/-- The fields of a member header: the ignored flag bits, MTIME, XFL, OS, and the optional fields. -/
structure Header where
  otherFlags : Byte
  mtime : Word
  xfl : Byte
  os : Byte
  extra : Option (List Byte)
  name : Option (List Byte)
  comment : Option (List Byte)
  headerCrc : Bool

/-- FLG (30_encoding.md R90). -/
def Header.flg (h : Header) : Byte :=
  (h.otherFlags &&& 0xE1#8) ||| (if h.headerCrc then 2#8 else 0#8) ||| (if h.extra.isSome then 4#8 else 0#8) |||
    (if h.name.isSome then 8#8 else 0#8) ||| (if h.comment.isSome then 16#8 else 0#8)

/-- A zero-terminated field, absent or present. -/
def zeroTerminated : Option (List Byte) → List Byte
  | none => []
  | some text => text ++ [0#8]

/-- The header bytes before FHCRC. -/
def Header.front (h : Header) : List Byte :=
  [0x1f#8, 0x8b#8, 8#8, h.flg] ++ le32 h.mtime ++ [h.xfl, h.os] ++
    (match h.extra with
     | none => []
     | some data => le16 data.length ++ data) ++
    zeroTerminated h.name ++ zeroTerminated h.comment

/-- The whole header (30_encoding.md R91). -/
def Header.bytes (h : Header) : List Byte :=
  h.front ++ (if h.headerCrc then le16 ((crc32 h.front).toNat % 65536) else [])

/-- The lengths fit and the zero-terminated fields hold no zero byte. -/
def Header.ok (h : Header) : Prop :=
  (∀ data, h.extra = some data → data.length < 65536) ∧ (∀ text, h.name = some text → 0#8 ∉ text) ∧
    ∀ text, h.comment = some text → 0#8 ∉ text

/-- Where the optional field FEXTRA ends, when it is absent or present (44_gzip_framer.md R211). -/
def AfterExtra (view : Nat → Byte) (flg : Byte) (a : Nat) : Prop :=
  a = if flg.getLsbD 2 then 12 + (rd16 view 10).toNat else 10

/-- A zero-terminated field that begins at `a` ends before `b`, or it is absent. -/
def AfterText (view : Nat → Byte) (present : Bool) (a b : Nat) : Prop :=
  if present then a < b ∧ view (b - 1) = 0#8 ∧ ∀ k, a ≤ k → k + 1 < b → view k ≠ 0#8 else b = a

/-- A view begins with a list of bytes. -/
def BeginsWith (view : Nat → Byte) (base : Nat) (bytes : List Byte) : Prop :=
  ∀ k, k < bytes.length → view (base + k) = bytes.getD k 0#8

/-! ### The matcher without a hash (41_lz77_matcher.md R140) -/

/-- The longest match at distances 1 to `k`, the nearest of the longest. -/
def scanBack (D : Nat → Byte) (i limit : Nat) : Nat → Nat × Nat
  | 0 => (0, 0)
  | k + 1 =>
    if (scanBack D i limit k).1 < matchLen D (i - (k + 1)) i limit then (matchLen D (i - (k + 1)) i limit, k + 1)
    else scanBack D i limit k

/-- The longest match at a position within the window. -/
def bestMatch (D : Nat → Byte) (n i : Nat) : Nat × Nat := scanBack D i (min 258 (n - i)) (min i 32768)

/-- The greedy tokens from position `i` on, for at most `fuel` tokens (41_lz77_matcher.md R135). -/
def greedy (D : Nat → Byte) (n : Nat) : Nat → Nat → List Token
  | 0, _ => []
  | fuel + 1, i =>
    if i < n then
      if i + 3 ≤ n ∧ 3 ≤ (bestMatch D n i).1 then
        .copy (bestMatch D n i).1 (bestMatch D n i).2 :: greedy D n fuel (i + (bestMatch D n i).1)
      else .literal (D i) :: greedy D n fuel (i + 1)
    else []

/-- The bytes a token stands for, appended (41_lz77_matcher.md R130). -/
def expandToken (out : List Byte) : Token → List Byte
  | .literal b => out ++ [b]
  | .copy len dist => copyOnto dist len out

/-- The bytes a token sequence stands for. -/
def expandTokens (tokens : List Token) : List Byte := tokens.foldl expandToken []

/-! ### The writer, the reader and the runs -/

/-- The bits written so far (40_bit_io.md R114). -/
def writtenBits (s : State) : List Bool :=
  (bytesFrom s.outByte s.wbase s.wlen).flatMap (fun b => lsbBits 8 b.toNat) ++ lsbBits s.wnb s.wcur.toNat

/-- The offset of LEN in a stored block whose header is at the reader (43_deflate_decoder.md R172). -/
def storedStart (s : State) : Nat := 8 * ((s.rpos + 3 + 7) / 8)

/-- LEN of that block. -/
def storedLen (s : State) : Nat := s.field (storedStart s) 16

/-- NLEN of that block. -/
def storedNlen (s : State) : Nat := s.field (storedStart s + 16) 16

/-- The bit at which raw byte `k` of that block begins. -/
def rawStart (s : State) (k : Nat) : Nat := storedStart s + 32 + 8 * k

/-- The raw bytes of that block. -/
def rawBytes (s : State) : List Byte :=
  (List.range (storedLen s)).map fun k => BitVec.ofNat 8 (s.field (rawStart s k) 8)

/-- A command that began its last step in `s` ended in `t` with the output `out`: the flags, OUT_LEN and the bytes, those
before `s.outPos` as far as OUT lists them, which in a run it does. -/
def Produced (s t : State) (out : List Byte) : Prop :=
  Succeeded t ∧ HostKept s t ∧ t.outLen = BitVec.ofNat 32 out.length ∧
    ∀ a, a < out.length → (a < s.outPos → (tableRead s.outBuf a).isSome = true) → t.outByte a = out.getD a 0#8

/-- The end of a raw stream after `used` bytes of the reader's slice (43_deflate_decoder.md R179; 46_commands.md R244). -/
def EndsRaw (s : State) (used : Nat) (out : List Byte) (o : Outcome) : Prop :=
  (used < s.rlen → ∃ t, o = .next t ∧ Failed .malformedStream t ∧ HostKept s t ∧ t.crcResult = s.crcResult) ∧
  (s.rlen ≤ used → ∃ t, o = .next t ∧ Produced s t out ∧ t.crcResult = s.crcResult)

/-- The end of a gzip payload after `used` bytes of the reader's slice: the trailing-data check, the CRC32, the length,
and then success (43_deflate_decoder.md R179; 44_gzip_framer.md R213 to R216). -/
def EndsMember (s : State) (used : Nat) (out : List Byte) (o : Outcome) : Prop :=
  (used < s.rlen → ∃ t, o = .next t ∧ Failed .malformedStream t ∧ HostKept s t) ∧
  (s.rlen ≤ used →
    (crc32 out ≠ rd32 s.inByte (s.inLen.toNat - 8) →
      ∃ t, o = .next t ∧ Failed .checksumMismatch t ∧ HostKept s t) ∧
    (crc32 out = rd32 s.inByte (s.inLen.toNat - 8) →
      (out.length ≠ (rd32 s.inByte (s.inLen.toNat - 4)).toNat →
        ∃ t, o = .next t ∧ Failed .lengthMismatch t ∧ HostKept s t) ∧
      (out.length = (rd32 s.inByte (s.inLen.toNat - 4)).toNat →
        ∃ t, o = .next t ∧ Produced s t out ∧ t.crcResult = crc32 out)))

/-- `k` engine steps. -/
def engineSteps : Nat → State → Outcome
  | 0, s => .next s
  | k + 1, s =>
    match engineStep s with
    | .next t => engineSteps k t
    | .fault r => .fault r
    | .refused r => .refused r

/-- The same state with another pace. -/
def withPace (p : Pace) (s : State) : State := { s with cfg := { s.cfg with pace := p } }

/-- Two IDLE states agree on everything a command may read or leave unchanged (10_state.md R42). -/
def SameForCommands (s t : State) : Prop :=
  t.cfg = s.cfg ∧ t.inLen = s.inLen ∧ t.mtime = s.mtime ∧ t.inBuf = s.inBuf ∧ t.inEpoch = s.inEpoch ∧
    t.outLen = s.outLen ∧ t.outBuf = s.outBuf ∧ t.outEpoch = s.outEpoch ∧ t.crcResult = s.crcResult ∧
    t.freeCount = s.freeCount

/-- Two IDLE states agree on what a command reads (10_state.md R42): IN_LEN, MTIME and IN, with the parameters. The counter
of free values is the model's own (log 7): equal counters draw the same unspecified values. -/
def SameInput (s t : State) : Prop :=
  t.cfg = s.cfg ∧ t.inLen = s.inLen ∧ t.mtime = s.mtime ∧ t.inBuf = s.inBuf ∧ t.inEpoch = s.inEpoch ∧
    t.freeCount = s.freeCount

/-- Two states show the host the same results. -/
def SameResults (s t : State) : Prop :=
  SameForCommands s t ∧ t.cmdState = s.cmdState ∧ t.status = s.status ∧ t.errCode = s.errCode

/-- The outcome's state, if it is one. -/
def nextState : Outcome → Option State
  | .next t => some t
  | _ => none

end Sys2Proof.Ref

open Sys2Proof Sys2Proof.Machine Sys2Proof.Ref

/-! ### Encoding -/

/-- Words written out from 30_encoding.md R70, R72, R80, R82, R83, R89: one of each family. -/
def Obligations.WrittenOutWordsDecode : Prop :=
  decodeCmd 0x00000004#32 = .gzipDecompress ∧
  decodeCmd 0x00000011#32 = .reservedCmd 0x11#32 ∧
  decode .block [true, false, false] = some (.blockStored true, []) ∧
  decode .block [true, true, false] = some (.blockFixed true, []) ∧
  decode .block [false, false, true] = some (.blockDynamicUnsupported false, []) ∧
  decode .litlen [true, false, false, true, false, false, false, true] = some (.lit80To143 17#6, []) ∧
  decode .litlen [true, true, false, false, true, false, false, false, false] = some (.lit144To159 0#4, []) ∧
  decode .litlen [false, false, false, false, false, false, false] = some (.eob, []) ∧
  decode .litlen [false, false, true, false, false, true, false] = some (.len272To279 2#3, []) ∧
  decode .litlen [true, true, false, false, false, true, true, true] = some (.litlenInvalid 1#1, []) ∧
  decode .dist [true, false, true, true, false] = some (.dist16To23 6#3, []) ∧
  decode .dist [true, true, true, true, true] = some (.distInvalid 1#1, []) ∧
  decode .gzip (lsbBits 80 0xFF045F5E100000088B1F) = some (.gzipMember 0#8 0x5F5E1000#32 4#8 255#8, [])

/-- Decoding an encoded well-formed instruction, whatever bits follow it, gives it back with exactly those bits left. -/
def Obligations.DecodeOfEncodeIsIdentity : Prop :=
  ∀ (i : Instr) (rest : List Bool), i.wf = true → decode i.space (encode i ++ rest) = some (i, rest)

/-- Whatever decodes is a well-formed instruction of its context, and its bits are its encoding: each code has one
meaning, and no bit is dropped. -/
def Obligations.DecodedBitsAreTheEncoding : Prop :=
  ∀ (sp : Space) (bits rest : List Bool) (i : Instr),
    decode sp bits = some (i, rest) → i.space = sp ∧ i.wf = true ∧ bits = encode i ++ rest

/-- The fixed literal/length code is complete (30_encoding.md R81): every sequence of 9 bits begins with a code. -/
def Obligations.NineBitsAlwaysHoldACode : Prop :=
  ∀ bits : List Bool, 9 ≤ bits.length → ∃ i rest, decode .litlen bits = some (i, rest)

/-- The encoder's codes and the decoder agree symbol by symbol (30_encoding.md R75, R80, R93): the code of each symbol
in [0, 287], sent most significant bit first, is the code the decoder reads as that symbol. -/
def Obligations.FixedCodeOfSymbolDecodesToIt : Prop :=
  ∀ (symbol : Nat) (rest : List Bool), symbol ≤ 287 →
    ∃ i, decode .litlen (symbolBits symbol ++ rest) = some (i, rest) ∧ litlenSymbol i = some symbol

/-- 30_encoding.md R86: the symbol, the number of extra bits and the extra value of every match length, and the one
symbol of 258. -/
def Obligations.LengthSymbolCodesItsLength : Prop :=
  (∀ len, 3 ≤ len → len ≤ 258 →
    257 ≤ (lenSym len).1 ∧ (lenSym len).1 ≤ 285 ∧ (lenSym len).2.1 = lenExtra (lenSym len).1 ∧
      (lenSym len).2.2 < 2 ^ lenExtra (lenSym len).1 ∧ lenBase (lenSym len).1 + (lenSym len).2.2 = len) ∧
    lenSym 258 = (285, 0, 0)

/-- 30_encoding.md R85, R87: every distance in the window is coded by one symbol, and every extra value of every
symbol codes a distance in the window. -/
def Obligations.DistanceSymbolCodesItsDistance : Prop :=
  (∀ dist, 1 ≤ dist → dist ≤ 32768 →
    (distSym dist).1 ≤ 29 ∧ (distSym dist).2.1 = distExtra (distSym dist).1 ∧
      (distSym dist).2.2 < 2 ^ distExtra (distSym dist).1 ∧ distBase (distSym dist).1 + (distSym dist).2.2 = dist) ∧
    ∀ d v, d ≤ 29 → v < 2 ^ distExtra d →
      1 ≤ distBase d + v ∧ distBase d + v ≤ 32768 ∧ distSym (distBase d + v) = (d, distExtra d, v)

/-! ### Steps and what they run -/

/-- A CMD write of an IDLE block runs the instruction its word decodes to, from the state without that host action. -/
def Obligations.StepRunsTheCommandWord : Prop :=
  ∀ (s : State) (after : Nat) (w : Word) (rest : List HostEvent),
    s.cmdState = .idle → s.script = ⟨after, .writeReg 4 0 w⟩ :: rest →
      (decodeCmd w).wf = true ∧ step s = exec (decodeCmd w) { s with script := rest }

/-- When the bits at the reader's position are those of a well-formed instruction of the kind the engine reads next,
and lie within the tolerance, the engine's step runs it, a pending host action coming one step nearer. -/
def Obligations.StepRunsTheCodeAtTheReader : Prop :=
  ∀ (s : State) (i : Instr),
    i.wf = true → s.fetchSpace = some i.space → s.canRead (encode i).length = true →
    s.streamBits s.rpos (encode i).length = encode i →
      (s.script = [] → step s = exec i s) ∧
      ∀ (e : HostEvent) (rest : List HostEvent), s.script = e :: rest → (e.action = .wait ∨ e.after ≠ 0) →
        step s = exec i { s with script := { e with after := e.after - 1 } :: rest }

/-- A truncated input ends the command with MALFORMED_STREAM (40_bit_io.md R115): where no code of the kind the engine
reads fits in the bits within the tolerance, and where the gzip header lacks its fixed bytes (43_deflate_decoder.md R171,
R176, R177; 44_gzip_framer.md R210); where the extra bits of a length or distance code run out (R175); and where LEN,
NLEN or a raw byte of a stored block does (R172), the bytes before it having room. -/
def Obligations.TruncatedCodeIsMalformed : Prop :=
  (∀ (s : State) (sp : Space), s.script = [] → s.fetchSpace = some sp →
    ((sp = .block ∧ s.canRead 3 = false) ∨ (sp = .dist ∧ s.canRead 5 = false) ∨
      (sp = .litlen ∧ ∀ i : Instr, i.space = .litlen → s.canRead (encode i).length = true →
        s.streamBits s.rpos (encode i).length ≠ encode i) ∨
      (sp = .gzip ∧ (s.canRead 80 = false ∨ s.field s.rpos 24 ≠ 0x088B1F))) →
    ∃ t, step s = .next t ∧ Failed .malformedStream t ∧ HostKept s t ∧
      (s.cmdState = .busy .deflateDecompress → t.crcResult = s.crcResult)) ∧
  ∀ (s : State) (i : Instr),
    (∀ symbol, lengthSymbol i = some symbol → s.atLitlen = true →
      s.canRead ((encode i).length + lenExtra symbol) = false →
      ∃ t, exec i s = .next t ∧ Failed .malformedStream t ∧ HostKept s t) ∧
    (∀ d len, distanceSymbol i = some d → s.pendingLength = some len → s.canRead (5 + distExtra d) = false →
      ∃ t, exec i s = .next t ∧ Failed .malformedStream t ∧ HostKept s t) ∧
    ∀ final, i = .blockStored final → s.atBlock = true →
      (8 * s.rlen + 7 < rawStart s 0 → ∃ t, exec i s = .next t ∧ Failed .malformedStream t ∧ HostKept s t) ∧
      ∀ k, k < storedLen s → 8 * s.rlen + 7 < rawStart s (k + 1) → Room s s.outPos k →
        ∃ t, exec i s = .next t ∧ Failed .malformedStream t ∧ HostKept s t

/-- A stream code runs exactly where the engine reads a code of its kind; anywhere else the model stops (60_exceptions.md
R264, U15). The stop is the model's choice (log 12). -/
def Obligations.StreamCodesRunExactlyInPlace : Prop :=
  ∀ (i : Instr) (s : State), i.space ≠ .cmd →
    (s.fetchSpace = some i.space → ∃ t, exec i s = .next t) ∧
    (s.fetchSpace ≠ some i.space → exec i s = .fault .internalViolation)

/-- No rule reaches an internal violation (60_exceptions.md R264): at every place of every command the engine's step
answers a state, which is BUSY with the same command and its flags as they were, or IDLE after success, or IDLE after an
error. That the step is this long is the model's choice (log 1), and so is that the error is taken from the state in which
the step began, its partial working state dropped (log 11). -/
def Obligations.EngineStepContinuesSucceedsOrErrs : Prop :=
  ∀ s : State, s.busy = true → s.PhaseOk → s.StatusOk →
    ∃ t, engineStep s = .next t ∧ HostKept s t ∧
      ((t.cmdState = s.cmdState ∧ t.PhaseOk ∧ t.status = s.status ∧ t.errCode = s.errCode) ∨ Succeeded t ∨
        ∃ e, t = takeError false e s ∧ Failed e t)

/-! ### The host -/

/-- 10_state.md R36 for an IDLE block. -/
def Obligations.ReservedRegistersReadZeroIgnoreWrites : Prop :=
  ∀ (s : State) (after offset : Nat) (v : Word) (rest : List HostEvent),
    s.cmdState = .idle → offset % 4 = 0 → 0x1C ≤ offset → offset ≤ 0x7C →
    (s.script = ⟨after, .readReg 4 offset⟩ :: rest → step s = .next { s with script := rest, hostData := some 0#32 }) ∧
    (s.script = ⟨after, .writeReg 4 offset v⟩ :: rest → step s = .next { s with script := rest })

/-- The register map of an IDLE block (10_state.md R28 to R35): what each register reads as, and what a write of each
but CMD does. -/
def Obligations.RegisterMapOfAnIdleBlock : Prop :=
  ∀ (s : State) (after : Nat) (v : Word) (rest : List HostEvent), s.cmdState = .idle →
    (∀ offset value,
      (offset, value) ∈ [(0x00, 0#32), (0x04, s.status), (0x08, s.errCode.setWidth 32), (0x0C, s.inLen),
        (0x10, s.outLen), (0x14, s.mtime), (0x18, s.crcResult)] →
      s.script = ⟨after, .readReg 4 offset⟩ :: rest →
        step s = .next { s with script := rest, hostData := some value }) ∧
    (s.script = ⟨after, .writeReg 4 0x0C v⟩ :: rest → step s = .next { s with script := rest, inLen := v }) ∧
    (s.script = ⟨after, .writeReg 4 0x14 v⟩ :: rest → step s = .next { s with script := rest, mtime := v }) ∧
    ∀ offset, offset ∈ [0x04, 0x08, 0x10, 0x18] →
      s.script = ⟨after, .writeReg 4 offset v⟩ :: rest → step s = .next { s with script := rest }

/-- 20_memory.md R53: an access to REG of another width, at an unaligned offset or beyond 0x7C is refused whenever it
is the host's turn, and the access of 32 bits at an aligned offset is not refused. That such an access of a BUSY block is
refused and not a host hazard is the model's choice (log 17). -/
def Obligations.BadRegisterAccessIsRefused : Prop :=
  ∀ (s : State) (after width offset : Nat) (v : Word) (rest : List HostEvent),
    (s.cmdState = .idle ∨ after = 0) →
    (¬ (width = 4 ∧ offset % 4 = 0 ∧ offset ≤ 0x7C) →
      (s.script = ⟨after, .readReg width offset⟩ :: rest → step s = .refused .badRegisterAccess) ∧
      (s.script = ⟨after, .writeReg width offset v⟩ :: rest → step s = .refused .badRegisterAccess)) ∧
    (width = 4 → offset % 4 = 0 → offset ≤ 0x7C →
      (s.script = ⟨after, .readReg width offset⟩ :: rest → ∀ r, step s ≠ .refused r) ∧
      (s.script = ⟨after, .writeReg width offset v⟩ :: rest → ∀ r, step s ≠ .refused r))

/-- 20_memory.md R54: the byte accesses with a meaning, those refused, and the host hazard while BUSY. That a write to OUT
or an access outside the buffer is refused while BUSY too, and not a host hazard, is the model's choice (log 17). -/
def Obligations.BufferAccessesOfTheHost : Prop :=
  ∀ (s : State) (after offset : Nat) (v : Byte) (rest : List HostEvent),
    (s.cmdState = .idle → offset < s.cfg.inCap →
      (s.script = ⟨after, .readIn offset⟩ :: rest →
        step s = .next { s with script := rest, hostData := some ((s.inByte offset).setWidth 32) }) ∧
      (s.script = ⟨after, .writeIn offset v⟩ :: rest →
        ∃ t, step s = .next t ∧ t.inByte offset = v ∧ (∀ a, a ≠ offset → t.inByte a = s.inByte a) ∧
          t = { s with script := rest, inBuf := t.inBuf })) ∧
    (s.cmdState = .idle → s.cfg.fits offset = true → s.script = ⟨after, .readOut offset⟩ :: rest →
      step s = .next { s with script := rest, hostData := some ((s.outByte offset).setWidth 32) }) ∧
    ((s.cmdState = .idle ∨ after = 0) →
      (s.script = ⟨after, .writeOut offset v⟩ :: rest → step s = .refused .badBufferAccess) ∧
      (s.cfg.inCap ≤ offset →
        (s.script = ⟨after, .readIn offset⟩ :: rest → step s = .refused .badBufferAccess) ∧
        (s.script = ⟨after, .writeIn offset v⟩ :: rest → step s = .refused .badBufferAccess)) ∧
      (s.cfg.fits offset = false → s.script = ⟨after, .readOut offset⟩ :: rest →
        step s = .refused .badBufferAccess)) ∧
    (s.busy = true → after = 0 →
      (offset < s.cfg.inCap → s.script = ⟨after, .writeIn offset v⟩ :: rest → step s = .fault .hostWriteWhileBusy) ∧
      (offset < s.cfg.inCap → s.script = ⟨after, .readIn offset⟩ :: rest →
        ∃ w, step s = .next { s with script := rest, hostData := some w, freeCount := s.freeCount + 1 }) ∧
      (s.cfg.fits offset = true → s.script = ⟨after, .readOut offset⟩ :: rest →
        ∃ w, step s = .next { s with script := rest, hostData := some w, freeCount := s.freeCount + 1 }))

/-- 70_reset_and_hazards.md R300: the host while BUSY. A write of any register or byte of IN is a fault; a read of
anything but STATUS changes nothing of the block (its value is free); STATUS reads with BUSY = 1. -/
def Obligations.HostHazardsWhileBusy : Prop :=
  ∀ (s : State) (a : HostAction) (rest : List HostEvent),
    s.busy = true → s.script = ⟨0, a⟩ :: rest →
    ((∃ offset v, a = .writeReg 4 offset v ∧ offset % 4 = 0 ∧ offset ≤ 0x7C) ∨
      (∃ offset v, a = .writeIn offset v ∧ offset < s.cfg.inCap) → step s = .fault .hostWriteWhileBusy) ∧
    ((∃ offset, a = .readReg 4 offset ∧ offset % 4 = 0 ∧ offset ≤ 0x7C ∧ offset ≠ 0x04) ∨
      (∃ offset, a = .readIn offset ∧ offset < s.cfg.inCap) ∨
      (∃ offset, a = .readOut offset ∧ s.cfg.fits offset = true) →
      ∃ w, step s = .next { s with script := rest, hostData := some w, freeCount := s.freeCount + 1 }) ∧
    (a = .readReg 4 0x04 →
      step s = .next { s with script := rest, hostData := some s.status } ∧ s.status.getLsbD 0 = true)

/-- 20_memory.md R56: of an IDLE block's host accesses only the CMD write has an effect beyond its own register or byte. A
register write changes at most IN_LEN or MTIME, whichever its offset names; a byte write changes the byte of IN at its
offset; a read and WAIT change nothing of the block; and a read repeated returns the same value. -/
def Obligations.OnlyTheCmdWriteHasASideEffect : Prop :=
  ∀ (s t : State) (after : Nat) (a : HostAction) (rest : List HostEvent),
    s.cmdState = .idle → s.script = ⟨after, a⟩ :: rest → step s = .next t → a ≠ .reset →
    (∀ v, a ≠ .writeReg 4 0 v) →
      (∀ width offset v, a = .writeReg width offset v →
        t = { s with
          script := rest
          inLen := if offset = 0x0C then v else s.inLen
          mtime := if offset = 0x14 then v else s.mtime }) ∧
      (∀ offset v, a = .writeIn offset v →
        t.inByte offset = v ∧ (∀ b, b ≠ offset → t.inByte b = s.inByte b) ∧
          (∀ b, b ≠ offset → tableRead t.inBuf b = tableRead s.inBuf b) ∧
          t = { s with script := rest, inBuf := t.inBuf }) ∧
      ((∀ width offset v, a ≠ .writeReg width offset v) → (∀ offset v, a ≠ .writeIn offset v) →
        t = { s with script := rest, hostData := t.hostData }) ∧
      ((∃ width offset, a = .readReg width offset) ∨ (∃ offset, a = .readIn offset) ∨
          (∃ offset, a = .readOut offset) →
        ∃ u, step { t with script := ⟨after, a⟩ :: rest } = .next u ∧ u.hostData = t.hostData)

/-- 70_reset_and_hazards.md R290, R291: the reset event, at any time, from any state. The empty buffers are the model's
way of saying that their bytes are unspecified (log 5), and the working registers' zeros are the model's choice (log 9)
and not claimed here. -/
def Obligations.ResetAtAnyTime : Prop :=
  ∀ (s : State) (after : Nat) (rest : List HostEvent),
    (s.cmdState = .idle ∨ after = 0) → s.script = ⟨after, .reset⟩ :: rest →
      ∃ t, step s = .next t ∧ t.cmdState = .idle ∧ t.status = 0#32 ∧ t.errCode = 0#4 ∧ t.inLen = 0#32 ∧
        t.outLen = 0#32 ∧ t.mtime = 0#32 ∧ t.crcResult = 0#32 ∧ t.inBuf = [] ∧ t.outBuf = [] ∧ t.script = rest ∧
        t.cfg = s.cfg ∧ ∀ offset, 0x1C ≤ offset → t.regRead offset = 0#32

/-- The state after reset (10_state.md R43): IDLE and every register 0. The empty buffers are the model's way of saying
that the bytes of IN and OUT are unspecified (log 5). -/
def Obligations.ResetStateRegisters : Prop :=
  State.reset.cmdState = .idle ∧ (∀ offset, State.reset.regRead offset = 0#32) ∧ State.reset.inBuf = [] ∧
    State.reset.outBuf = []

/-! ### Errors -/

/-- Taking an error (60_exceptions.md R270). What an error leaves unspecified is not claimed. -/
def Obligations.ErrorEntry : Prop :=
  ∀ (atStart : Bool) (e : ErrKind) (s : State),
    Failed e (takeError atStart e s) ∧ HostKept s (takeError atStart e s) ∧
    (atStart = true → (∀ a, (takeError atStart e s).outByte a = s.outByte a) ∧
      (takeError atStart e s).crcResult = s.crcResult) ∧
    ((s.cmdState = .busy .deflateCompress ∨ s.cmdState = .busy .deflateDecompress) →
      (takeError atStart e s).crcResult = s.crcResult)

/-- 46_commands.md R248, whole: CLEAR clears DONE, ERROR and ERR_CODE and changes nothing else, whatever IN_LEN is, and a
word with OP = 0 and RSVD ≠ 0 is no CLEAR: it raises ILLEGAL_COMMAND. -/
def Obligations.ClearClearsOnlyTheFlags : Prop :=
  ∀ s : State, s.cmdState = .idle →
    exec .clear s = .next { s with doneBit := false, errorBit := false, errCode := 0#4 } ∧
    ({ s with doneBit := false, errorBit := false, errCode := 0#4 } : State).status = 0#32 ∧
    ∀ w : Word, w.extractLsb' 0 4 = 0#4 → w.extractLsb' 4 28 ≠ 0#28 →
      ∃ t, exec (decodeCmd w) s = .next t ∧ Failed .illegalCommand t

/-- 46_commands.md R249, whole: every reserved word ends with ILLEGAL_COMMAND before any input is read, even when IN_LEN
exceeds IN_CAP, and changes no OUT byte and not CRC_RESULT. -/
def Obligations.ReservedWordsRaiseIllegalCommand : Prop :=
  ∀ (s : State) (w : Word), s.cmdState = .idle → reservedWord w = true →
    decodeCmd w = .reservedCmd w ∧
    ∃ t, exec (.reservedCmd w) s = .next t ∧ Failed .illegalCommand t ∧ HostKept s t ∧ t.errCode = 7#4 ∧
      t.crcResult = s.crcResult ∧ (∀ a, t.outByte a = s.outByte a) ∧
      t = { s with doneBit := true, errorBit := true, errCode := 7#4, outLen := 0#32, phase := .rest }

/-- 46_commands.md R242, 60_exceptions.md R262 (case 1): a data command with IN_LEN > IN_CAP raises CAPACITY_EXCEEDED, a
start-check error, in either pace. -/
def Obligations.InputOverCapacityIsRejected : Prop :=
  ∀ (i : Instr) (op : Op) (s : State), commandOp i = some op → s.cmdState = .idle → s.cfg.inCap < s.inLen.toNat →
    ∃ t, exec i s = .next t ∧ Failed .capacityExceeded t ∧ HostKept s t ∧ t.crcResult = s.crcResult ∧
      ∀ a, t.outByte a = s.outByte a

/-- Command start (46_commands.md R240, R242; 10_state.md R44), seen in the stepwise pace: that the start is a step of
its own is the model's choice (log 2). -/
def Obligations.StepwiseStartOfACommand : Prop :=
  ∀ (i : Instr) (op : Op) (s : State), commandOp i = some op → s.cmdState = .idle → s.cfg.pace = .stepwise →
    s.inLen.toNat ≤ s.cfg.inCap →
    ∃ t, exec i s = .next t ∧ t.cmdState = .busy op ∧ t.status = 1#32 ∧ t.errCode = 0#4 ∧ t.PhaseOk ∧
      t.wlen = 0 ∧ t.wcur = 0#8 ∧ t.wnb = 0 ∧ t.rpos = 0 ∧ t.outPos = 0 ∧ t.matcher.pos = 0 ∧
      (∀ h, tableRead t.matcher.head h = none) ∧ t.matcher.tokens = [] ∧ HostKept s t ∧ t.outLen = s.outLen ∧
      t.outBuf = s.outBuf ∧ t.outEpoch = s.outEpoch ∧ t.crcResult = s.crcResult

/-! ### CRC32 -/

/-- CRC32 (46_commands.md R247): its whole effect. -/
def Obligations.Crc32Result : Prop :=
  ∀ s : State, s.cmdState = .idle → s.cfg.pace = .whole → s.inLen.toNat ≤ s.cfg.inCap →
    ∃ t, exec .crc32 s = .next t ∧ Succeeded t ∧ HostKept s t ∧ t.crcResult = crc32 s.input ∧ t.outLen = s.outLen ∧
      t.outBuf = s.outBuf ∧ t.outEpoch = s.outEpoch

/-- The table-driven update is eight shift-or-XOR steps of the reversed polynomial on `crc ^ byte` (45_crc32.md R230,
R232). -/
def Obligations.CrcTableStepIsEightShifts : Prop :=
  ∀ (c : Word) (b : Byte), crcUpdate c b = crcShifts 8 (c ^^^ b.setWidth 32)

/-! ### Stream codes -/

/-- The literal codes (43_deflate_decoder.md R173, R176): the six forms append their byte and change nothing else. -/
def Obligations.LiteralCodesAppendTheirByte : Prop :=
  ∀ (s : State) (i : Instr) (b : Byte), literalByte i = some b → s.atLitlen = true →
    s.canRead (encode i).length = true → s.cfg.fits s.outPos = true →
    ∃ t, exec i s = .next t ∧ t.outByte s.outPos = b ∧ (∀ a, a ≠ s.outPos → t.outByte a = s.outByte a) ∧
      t = { s with rpos := s.rpos + (encode i).length, outPos := s.outPos + 1, outBuf := t.outBuf }

/-- An output byte at an offset at or beyond OUT_CAP raises CAPACITY_EXCEEDED (60_exceptions.md R262, case 2): a literal, a
copy some byte of which does not fit, and a stored block some raw byte of which does not fit, that byte and those before
it being there to read. -/
def Obligations.FullOutputRaisesCapacityExceeded : Prop :=
  ∀ (s : State) (i : Instr),
    (∀ b, literalByte i = some b → s.atLitlen = true → s.canRead (encode i).length = true →
      s.cfg.fits s.outPos = false → ∃ t, exec i s = .next t ∧ Failed .capacityExceeded t ∧ HostKept s t) ∧
    (∀ d len k, distanceSymbol i = some d → s.pendingLength = some len → k < len →
      s.cfg.fits (s.outPos + k) = false → s.canRead (5 + distExtra d) = true →
      distBase d + s.field (s.rpos + 5) (distExtra d) ≤ s.outPos →
      ∃ t, exec i s = .next t ∧ Failed .capacityExceeded t ∧ HostKept s t) ∧
    ∀ final k, i = .blockStored final → s.atBlock = true → storedLen s + storedNlen s = 65535 → k < storedLen s →
      s.cfg.fits (s.outPos + k) = false → rawStart s (k + 1) ≤ 8 * s.rlen + 7 →
      ∃ t, exec i s = .next t ∧ Failed .capacityExceeded t ∧ HostKept s t

/-- The length codes (43_deflate_decoder.md R175, 30_encoding.md R84): the seven forms read their extra bits and hold a
length in [3, 258]; nothing else changes, so no byte of IN or OUT does. -/
def Obligations.LengthCodesHoldTheirLength : Prop :=
  ∀ (s : State) (i : Instr) (symbol : Nat), lengthSymbol i = some symbol → s.atLitlen = true →
    s.canRead ((encode i).length + lenExtra symbol) = true →
    ∃ len, len = lenBase symbol + s.field (s.rpos + (encode i).length) (lenExtra symbol) ∧ 3 ≤ len ∧ len ≤ 258 ∧
      exec i s = .next { s with rpos := s.rpos + (encode i).length + lenExtra symbol, phase := .dist len }

/-- The distance codes (43_deflate_decoder.md R175, R177, R178; 20_memory.md R63): the four forms copy, each byte from
`distance` before it, whether the copy or an earlier code wrote it; every other byte of OUT is unchanged. -/
def Obligations.DistanceCodesCopy : Prop :=
  ∀ (s : State) (i : Instr) (d len dist : Nat), distanceSymbol i = some d → s.pendingLength = some len →
    s.canRead (5 + distExtra d) = true → dist = distBase d + s.field (s.rpos + 5) (distExtra d) → dist ≤ s.outPos →
    Room s s.outPos len →
    1 ≤ dist ∧ dist ≤ 32768 ∧
    ∃ t, exec i s = .next t ∧ (∀ k, k < len → t.outByte (s.outPos + k) = t.outByte (s.outPos + k - dist)) ∧
      (∀ a, (a < s.outPos ∨ s.outPos + len ≤ a) → t.outByte a = s.outByte a) ∧
      t = { s with
        rpos := s.rpos + 5 + distExtra d, outPos := s.outPos + len, outBuf := t.outBuf, phase := .litlen }

/-- The codes that end the command with MALFORMED_STREAM: 286 and 287, the distance codes 30 and 31 (30_encoding.md R82,
R83), and a distance beyond the output, checked before any byte is copied (43_deflate_decoder.md R175, R178). -/
def Obligations.MalformedCodesEndTheCommand : Prop :=
  ∀ (s : State) (c : BitVec 1),
    (s.atLitlen = true → ∃ t, exec (.litlenInvalid c) s = .next t ∧ Failed .malformedStream t ∧ HostKept s t) ∧
    ∀ len, s.pendingLength = some len →
      (∃ t, exec (.distInvalid c) s = .next t ∧ Failed .malformedStream t ∧ HostKept s t) ∧
      ∀ (i : Instr) (d : Nat), distanceSymbol i = some d → s.canRead (5 + distExtra d) = true →
        s.outPos < distBase d + s.field (s.rpos + 5) (distExtra d) →
        ∃ t, exec i s = .next t ∧ Failed .malformedStream t ∧ HostKept s t

/-- End of block before the last block (43_deflate_decoder.md R170, R173): the next block header is read. -/
def Obligations.EndOfBlockGoesToTheNextHeader : Prop :=
  ∀ s : State, s.atLitlen = true → s.canRead 7 = true → s.bfinal = false →
    exec .eob s = .next { s with rpos := s.rpos + 7, phase := .blockHeader }

/-- End of the last block of a raw stream (43_deflate_decoder.md R170, R179; 46_commands.md R244): a whole unused byte is
a malformed stream; otherwise the command succeeds with the bytes decoded so far. -/
def Obligations.EndOfRawStream : Prop :=
  ∀ s : State, s.cmdState = .busy .deflateDecompress → s.phase = .litlen → s.errCode = 0#4 → s.canRead 7 = true →
    s.bfinal = true → s.outPos < 2 ^ 32 →
    ((s.rpos + 7 + 7) / 8 < s.rlen →
      ∃ t, exec .eob s = .next t ∧ Failed .malformedStream t ∧ HostKept s t ∧ t.crcResult = s.crcResult) ∧
    (s.rlen ≤ (s.rpos + 7 + 7) / 8 →
      ∃ t, exec .eob s = .next t ∧ Succeeded t ∧ HostKept s t ∧ t.crcResult = s.crcResult ∧
        t.outLen = BitVec.ofNat 32 s.outPos ∧ ∀ a, a < s.outPos → (tableRead s.outBuf a).isSome = true →
          t.outByte a = s.outByte a)

/-- End of the last block of a gzip member's payload at an end-of-block code (43_deflate_decoder.md R179; 44_gzip_framer.md
R212 to R216): a whole unused byte before the footer is a malformed stream; then the CRC32 is checked, then the length;
when both agree the command succeeds with the bytes decoded so far. -/
def Obligations.GzipFooterChecks : Prop :=
  ∀ s : State, s.cmdState = .busy .gzipDecompress → s.phase = .litlen → s.errCode = 0#4 → s.canRead 7 = true →
    s.bfinal = true → s.outPos < 2 ^ 32 → EndsMember s ((s.rpos + 7 + 7) / 8) (s.output s.outPos) (exec .eob s)

/-- BLOCK_STORED (43_deflate_decoder.md R171, R172): LEN and NLEN that do not agree are a malformed stream; otherwise the LEN
raw bytes are appended. Before the last block the next header is read and nothing else changes; the last block ends the
raw stream (R179; 46_commands.md R244) or the gzip payload (44_gzip_framer.md R213 to R216) with the bytes decoded before
it and its own. -/
def Obligations.StoredBlockCopiesRawBytes : Prop :=
  ∀ s : State, s.atBlock = true →
    (rawStart s 0 ≤ 8 * s.rlen + 7 → storedLen s + storedNlen s ≠ 65535 → ∀ final,
      ∃ t, exec (.blockStored final) s = .next t ∧ Failed .malformedStream t ∧ HostKept s t) ∧
    (rawStart s (storedLen s) ≤ 8 * s.rlen + 7 → storedLen s + storedNlen s = 65535 → Room s s.outPos (storedLen s) →
      (∃ t, exec (.blockStored false) s = .next t ∧
        (∀ k, k < storedLen s → t.outByte (s.outPos + k) = (rawBytes s).getD k 0#8) ∧
        (∀ a, (a < s.outPos ∨ s.outPos + storedLen s ≤ a) → t.outByte a = s.outByte a) ∧
        t = { s with
          rpos := rawStart s (storedLen s), outPos := s.outPos + storedLen s, outBuf := t.outBuf,
          phase := .blockHeader, bfinal := false }) ∧
      (s.errCode = 0#4 → s.outPos + storedLen s < 2 ^ 32 →
        (s.cmdState = .busy .deflateDecompress →
          EndsRaw s (rawStart s (storedLen s) / 8) (s.output s.outPos ++ rawBytes s) (exec (.blockStored true) s)) ∧
        (s.cmdState = .busy .gzipDecompress →
          EndsMember s (rawStart s (storedLen s) / 8) (s.output s.outPos ++ rawBytes s)
            (exec (.blockStored true) s))))

/-- BLOCK_FIXED (43_deflate_decoder.md R171, R173): BFINAL is latched and the symbol loop entered; nothing else
changes. -/
def Obligations.FixedBlockEntersTheSymbolLoop : Prop :=
  ∀ (s : State) (final : Bool), s.atBlock = true → s.canRead 3 = true →
    exec (.blockFixed final) s = .next { s with rpos := s.rpos + 3, bfinal := final, phase := .litlen }

/-- 43_deflate_decoder.md R174, whole: BTYPE 10 and 11 raise UNSUPPORTED_FEATURE once the header is read, whatever
follows it; the output of earlier blocks is no result. -/
def Obligations.UnsupportedBlockTypes : Prop :=
  ∀ (s : State) (final : Bool), s.atBlock = true → s.canRead 3 = true →
    (∃ t, exec (.blockDynamicUnsupported final) s = .next t ∧ Failed .unsupportedFeature t ∧ HostKept s t) ∧
    ∃ t, exec (.blockReserved final) s = .next t ∧ Failed .unsupportedFeature t ∧ HostKept s t

/-- GZIP_MEMBER (44_gzip_framer.md R210 to R212, 30_encoding.md R89 to R91): a header with any of the optional fields,
each well formed and before the footer, hands the reader the payload. With FHCRC the CRC unit has run over the header
bytes before the field (45_crc32.md R231, R232, R235); without it, `crc` is as before. -/
def Obligations.GzipHeaderHandsOverThePayload : Prop :=
  ∀ (s : State) (h : Header), h.ok → s.atHeader = true → BeginsWith s.inByte 0 h.bytes →
    h.bytes.length + 8 ≤ s.inLen.toNat →
    exec (.gzipMember h.flg h.mtime h.xfl h.os) s = .next { s with
      crc := if h.headerCrc then crcFold 0xFFFFFFFF#32 h.front else s.crc
      rbase := h.bytes.length, rlen := s.inLen.toNat - 8 - h.bytes.length, rpos := 0, outPos := 0,
      phase := .blockHeader }

/-- GZIP_MEMBER's errors (44_gzip_framer.md R210, R211): a member shorter than 18 bytes; FEXTRA, FNAME, FCOMMENT or FHCRC
running past the footer, the fields before it having ended before it; and a wrong header CRC. -/
def Obligations.GzipHeaderErrors : Prop :=
  ∀ (s : State) (stop : Nat), s.atHeader = true → stop = s.inLen.toNat - 8 →
    (s.inLen.toNat < 18 → ∀ flg mtime xfl os,
      ∃ t, exec (.gzipMember flg mtime xfl os) s = .next t ∧ Failed .malformedStream t ∧ HostKept s t) ∧
    (18 ≤ s.inLen.toNat → ∀ flg mtime xfl os a, AfterExtra s.inByte flg a →
      (stop < a → ∃ t, exec (.gzipMember flg mtime xfl os) s = .next t ∧ Failed .malformedStream t ∧ HostKept s t) ∧
      (a ≤ stop → flg.getLsbD 3 = true → (∀ k, a ≤ k → k < stop → s.inByte k ≠ 0#8) →
        ∃ t, exec (.gzipMember flg mtime xfl os) s = .next t ∧ Failed .malformedStream t ∧ HostKept s t) ∧
      ∀ b, a ≤ stop → AfterText s.inByte (flg.getLsbD 3) a b → b ≤ stop →
        (flg.getLsbD 4 = true → (∀ k, b ≤ k → k < stop → s.inByte k ≠ 0#8) →
          ∃ t, exec (.gzipMember flg mtime xfl os) s = .next t ∧ Failed .malformedStream t ∧ HostKept s t) ∧
        ∀ c, AfterText s.inByte (flg.getLsbD 4) b c → c ≤ stop → flg.getLsbD 1 = true →
          (stop < c + 2 →
            ∃ t, exec (.gzipMember flg mtime xfl os) s = .next t ∧ Failed .malformedStream t ∧ HostKept s t) ∧
          (c + 2 ≤ stop → rd16 s.inByte c ≠ (crc32 (bytesFrom s.inByte 0 c)).setWidth 16 →
            ∃ t, exec (.gzipMember flg mtime xfl os) s = .next t ∧ Failed .checksumMismatch t ∧ HostKept s t)) ∧
    ∀ h : Header, h.ok → h.headerCrc = true → BeginsWith s.inByte 0 h.front → h.front.length + 10 ≤ s.inLen.toNat →
      (rd16 s.inByte h.front.length).toNat ≠ (crc32 h.front).toNat % 65536 →
      ∃ t, exec (.gzipMember h.flg h.mtime h.xfl h.os) s = .next t ∧ Failed .checksumMismatch t ∧ HostKept s t

/-! ### The bit writer and reader -/

/-- The writer (40_bit_io.md R110, R114): when the bytes it completes fit, `write_bits` appends exactly the low `n` bits,
least significant first, keeps the writer invariants, and changes no byte it had written and no other state. R110 gives
n in [0, 32]; that a call with a greater n, which no rule makes, does the same is the model's (log 25). -/
def Obligations.WriteBitsAppendsTheBits : Prop :=
  ∀ (s : State) (v n : Nat), s.WriterOk → Room s (s.wbase + s.wlen) ((s.wnb + n) / 8) →
    ∃ t, writeBits v n s = .ok t ∧ t.WriterOk ∧ writtenBits t = writtenBits s ++ lsbBits n v ∧
      (∀ a, (a < s.wbase + s.wlen ∨ s.wbase + t.wlen ≤ a) → t.outByte a = s.outByte a) ∧
      t = { s with wlen := t.wlen, wcur := t.wcur, wnb := t.wnb, outBuf := t.outBuf }

/-- The flush (40_bit_io.md R111, R112): zero bits up to the byte boundary, and nothing at a boundary. -/
def Obligations.FlushPadsWithZeros : Prop :=
  ∀ s : State, s.WriterOk → (0 < s.wnb → s.cfg.fits (s.wbase + s.wlen) = true) →
    ∃ t, alignWriter s = .ok t ∧ t.wnb = 0 ∧ t.wcur = 0#8 ∧ (s.wnb = 0 → t = { s with wcur := 0#8 }) ∧
      writtenBits t = writtenBits s ++ List.replicate ((8 - s.wnb) % 8) false

/-- The reader (40_bit_io.md R115, R116): a read within the tolerance returns the stream bits, zeros past the end; a
read beyond it fails. R115 gives n in [0, 32]; that a call with a greater n, which no rule makes, does the same is the
model's (log 25). -/
def Obligations.ReadBitsReturnsTheStream : Prop :=
  ∀ (s : State) (n : Nat),
    (s.rpos + n ≤ 8 * s.rlen + 7 →
      ∃ v, readBits n s = .ok (v, { s with rpos := s.rpos + n }) ∧ v < 2 ^ n ∧
        ∀ k, k < n → v.testBit k =
          (decide (s.rpos + k < 8 * s.rlen) &&
            (s.inByte (s.rbase + (s.rpos + k) / 8)).getLsbD ((s.rpos + k) % 8))) ∧
    (8 * s.rlen + 7 < s.rpos + n → readBits n s = .error .malformedStream)

/-! ### The matcher -/

/-- The chains are sound when the matcher starts, and every step keeps them sound and advances within the input
(41_lz77_matcher.md R135, R136, R138, R139). -/
def Obligations.MatcherKeepsItsChainsSound : Prop :=
  ∀ (D : Nat → Byte) (n : Nat) (m : Matcher),
    ChainsSound D n 0 m.restart ∧
    (m.pos < n → ChainsSound D n m.pos m →
      ChainsSound D n (lz77Step D n m).pos (lz77Step D n m) ∧ m.pos < (lz77Step D n m).pos ∧
        (lz77Step D n m).pos ≤ n)

/-- `longest_match` is the hash-free search (41_lz77_matcher.md R140): over sound chains it finds the nearest of the
longest matches in the window, or no match of length 3. -/
def Obligations.ChainSearchIsTheHashFreeSearch : Prop :=
  ∀ (D : Nat → Byte) (n i : Nat) (m : Matcher), i + 3 ≤ n → ChainsSound D n i m →
    (3 ≤ (bestMatch D n i).1 → longestMatch D n i m = bestMatch D n i) ∧
    ((bestMatch D n i).1 < 3 → (longestMatch D n i m).1 < 3)

/-- The token sequence is the greedy one, whatever the hash and whatever the arrays held before (41_lz77_matcher.md R136,
R138, R140; 10_state.md R42). -/
def Obligations.TokensAreTheGreedyTokens : Prop :=
  ∀ (D : Nat → Byte) (n : Nat) (m : Matcher), lz77 D n m = greedy D n n 0

/-- The tokens are legal and stand for the input (41_lz77_matcher.md R130), and the cost of legal tokens under the fixed
code is the number of bits of their codes and the end-of-block code's 7 (42_deflate_encoder.md R152, 30_encoding.md R88). -/
def Obligations.TokensExpandToTheInput : Prop :=
  (∀ (D : Nat → Byte) (n : Nat) (m : Matcher),
    expandTokens (lz77 D n m) = bytesFrom D 0 n ∧ ∀ t ∈ lz77 D n m, t.legal = true) ∧
  ∀ tokens : List Token, (∀ t ∈ tokens, t.legal = true) →
    fixedCost tokens = 7 + (tokens.map fun t => (tokenBits t).length).sum

/-! ### Whole commands -/

/-- DEFLATE_COMPRESS (46_commands.md R243; 42_deflate_encoder.md R150 to R157): its whole effect when the block can be
written and fits. -/
def Obligations.DeflateCompressResult : Prop :=
  ∀ (s : State) (block : List Byte), s.cmdState = .idle → s.cfg.pace = .whole → s.inLen.toNat ≤ s.cfg.inCap →
    ¬ tooLarge s.inLen.toNat (inputTokens s) → block = encodedBlock s.input (inputTokens s) →
    Room s 0 block.length → block.length < 2 ^ 32 →
    ∃ t, exec .deflateCompress s = .next t ∧ Succeeded t ∧ HostKept s t ∧ t.crcResult = s.crcResult ∧
      t.outLen = BitVec.ofNat 32 block.length ∧ t.output block.length = block

/-- DEFLATE_COMPRESS's own errors (42_deflate_encoder.md R155; 60_exceptions.md R262, R271): INPUT_TOO_LARGE before any
byte is written, whatever OUT_CAP is; otherwise CAPACITY_EXCEEDED when the block does not fit. -/
def Obligations.DeflateCompressErrors : Prop :=
  ∀ s : State, s.cmdState = .idle → s.cfg.pace = .whole → s.inLen.toNat ≤ s.cfg.inCap →
    (tooLarge s.inLen.toNat (inputTokens s) →
      ∃ t, exec .deflateCompress s = .next t ∧ Failed .inputTooLarge t ∧ HostKept s t ∧ t.crcResult = s.crcResult) ∧
    ∀ cap, ¬ tooLarge s.inLen.toNat (inputTokens s) → s.cfg.outCap = some cap →
      cap < (encodedBlock s.input (inputTokens s)).length →
      ∃ t, exec .deflateCompress s = .next t ∧ Failed .capacityExceeded t ∧ HostKept s t ∧ t.crcResult = s.crcResult

/-- 42_deflate_encoder.md R161: the empty input compresses to the two bytes 03 00. -/
def Obligations.EmptyInputCompressesToTwoBytes : Prop :=
  ∀ s : State, s.cmdState = .idle → s.cfg.pace = .whole → s.inLen = 0#32 → Room s 0 2 →
    ∃ t, exec .deflateCompress s = .next t ∧ Succeeded t ∧ HostKept s t ∧ t.crcResult = s.crcResult ∧
      t.outLen = 2#32 ∧ t.output 2 = [0x03#8, 0x00#8]

/-- GZIP_COMPRESS (46_commands.md R245; 44_gzip_framer.md R200, R204): its whole effect when the member fits. Its own errors,
in their order (60_exceptions.md R262, R271 item 3): CAPACITY_EXCEEDED in the 10 header bytes; then INPUT_TOO_LARGE,
whatever OUT_CAP is beyond them; then CAPACITY_EXCEEDED in the block or the footer. What an error leaves unspecified is not
claimed. -/
def Obligations.GzipCompressResult : Prop :=
  ∀ (s : State) (member : List Byte), s.cmdState = .idle → s.cfg.pace = .whole → s.inLen.toNat ≤ s.cfg.inCap →
    member = encodedMember s.mtime s.input (inputTokens s) →
    (¬ tooLarge s.inLen.toNat (inputTokens s) → Room s 0 member.length → member.length < 2 ^ 32 →
      ∃ t, exec .gzipCompress s = .next t ∧ Succeeded t ∧ HostKept s t ∧ t.crcResult = crc32 s.input ∧
        t.outLen = BitVec.ofNat 32 member.length ∧ t.output member.length = member) ∧
    (∀ cap, s.cfg.outCap = some cap → cap < 10 →
      ∃ t, exec .gzipCompress s = .next t ∧ Failed .capacityExceeded t ∧ HostKept s t) ∧
    (Room s 0 10 → tooLarge s.inLen.toNat (inputTokens s) →
      ∃ t, exec .gzipCompress s = .next t ∧ Failed .inputTooLarge t ∧ HostKept s t) ∧
    ∀ cap, s.cfg.outCap = some cap → ¬ tooLarge s.inLen.toNat (inputTokens s) → cap < member.length →
      ∃ t, exec .gzipCompress s = .next t ∧ Failed .capacityExceeded t ∧ HostKept s t

/-- DEFLATE_DECOMPRESS (46_commands.md R244; 43_deflate_decoder.md R170 to R181): every well-formed stream of stored and
fixed blocks, with any padding, any legal symbols and extra values, and up to 7 missing zero bits at its end, decodes to
its output. -/
def Obligations.DeflateDecompressResult : Prop :=
  ∀ (s : State) (blocks : List Block) (out : List Byte), s.cmdState = .idle → s.cfg.pace = .whole →
    s.inLen.toNat ≤ s.cfg.inCap → blocks ≠ [] → streamOk 0 blocks → streamOutput blocks [] = some out →
    Carries s.inByte 0 s.inLen.toNat (streamBits blocks) → Room s 0 out.length → out.length < 2 ^ 32 →
    ∃ t, exec .deflateDecompress s = .next t ∧ Succeeded t ∧ HostKept s t ∧ t.crcResult = s.crcResult ∧
      t.outLen = BitVec.ofNat 32 out.length ∧ t.output out.length = out

/-- GZIP_DECOMPRESS (46_commands.md R246; 44_gzip_framer.md R210 to R215): every member with a well-formed header, a
well-formed payload and a footer that agrees decodes to its output. -/
def Obligations.GzipDecompressResult : Prop :=
  ∀ (s : State) (h : Header) (n : Nat) (blocks : List Block) (out : List Byte), s.cmdState = .idle →
    s.cfg.pace = .whole → s.inLen.toNat ≤ s.cfg.inCap → h.ok → s.inLen.toNat = h.bytes.length + n + 8 →
    BeginsWith s.inByte 0 h.bytes → blocks ≠ [] → streamOk 0 blocks → streamOutput blocks [] = some out →
    Carries s.inByte h.bytes.length n (streamBits blocks) →
    BeginsWith s.inByte (h.bytes.length + n) (le32 (crc32 out) ++ le32 (BitVec.ofNat 32 out.length)) →
    Room s 0 out.length → out.length < 2 ^ 32 →
    ∃ t, exec .gzipDecompress s = .next t ∧ Succeeded t ∧ HostKept s t ∧ t.crcResult = crc32 out ∧
      t.outLen = BitVec.ofNat 32 out.length ∧ t.output out.length = out

/-- Every command ends (46_commands.md R241): from every IDLE state a data command, run to its end, leaves the block IDLE,
with success or an error, and what the host set as it was. That it is one step is the model's choice (log 2). -/
def Obligations.EveryCommandEnds : Prop :=
  ∀ (i : Instr) (op : Op) (s : State), commandOp i = some op → s.cmdState = .idle → s.cfg.pace = .whole →
    ∃ t, exec i s = .next t ∧ HostKept s t ∧ (Succeeded t ∨ ∃ e, Failed e t)

/-- The command in one step and the command step by step are the same (70_reset_and_hazards.md R311): the stepwise run
reaches, after some engine steps, the state the one step answers. The two paces are the model's choice (log 2). -/
def Obligations.OneStepIsTheStepwiseRun : Prop :=
  ∀ (i : Instr) (op : Op) (s : State), commandOp i = some op → s.cmdState = .idle → s.cfg.pace = .whole →
    ∃ t u k, exec i s = .next t ∧ exec i (withPace .stepwise s) = .next u ∧
      engineSteps k u = .next (withPace .stepwise t)

/-- 10_state.md R42: a command's result depends only on IN_LEN, MTIME and IN, with the parameters. Whatever the working
registers, the hash arrays, the flags and the old OUT, OUT_LEN and CRC_RESULT hold, the flags and ERR_CODE are the same,
OUT and OUT_LEN are for the commands that write them, and CRC_RESULT is for those that write it; a command that begins with
IN_LEN above IN_CAP writes no result. Where two blocks also agree on the old results, all results are the same. That
unspecified values agree too is the model's counter of free values (log 7), which the premises hold equal. -/
def Obligations.CommandsForgetTheWorkingState : Prop :=
  ∀ (i : Instr) (op : Op) (s₁ s₂ t₁ t₂ : State), commandOp i = some op → s₁.cmdState = .idle → s₂.cmdState = .idle →
    s₁.cfg.pace = .whole → exec i s₁ = .next t₁ → exec i s₂ = .next t₂ →
    (SameInput s₁ s₂ →
      t₂.cmdState = t₁.cmdState ∧ t₂.status = t₁.status ∧ t₂.errCode = t₁.errCode ∧
      (op ≠ .crc32 → s₁.inLen.toNat ≤ s₁.cfg.inCap →
        t₂.outLen = t₁.outLen ∧ ∀ a, t₂.outByte a = t₁.outByte a) ∧
      (op ≠ .deflateCompress → op ≠ .deflateDecompress → s₁.inLen.toNat ≤ s₁.cfg.inCap →
        t₂.crcResult = t₁.crcResult)) ∧
    (SameForCommands s₁ s₂ → SameResults t₁ t₂)

/-- The raw round trip (46_commands.md R251, 41_lz77_matcher.md R141): DEFLATE_DECOMPRESS of what DEFLATE_COMPRESS wrote
gives back the input, on any block whose capacities admit both. -/
def Obligations.DeflateRoundTrip : Prop :=
  ∀ s t u : State, s.cmdState = .idle → s.cfg.pace = .whole → exec .deflateCompress s = .next t → t.errCode = 0#4 →
    (encodedBlock s.input (inputTokens s)).length < 2 ^ 32 → u.cmdState = .idle → u.cfg.pace = .whole →
    u.inLen = t.outLen → u.inLen.toNat ≤ u.cfg.inCap → (∀ a, a < t.outLen.toNat → u.inByte a = t.outByte a) →
    Room u 0 s.inLen.toNat →
    ∃ v, exec .deflateDecompress u = .next v ∧ Succeeded v ∧ v.outLen = s.inLen ∧ v.output s.inLen.toNat = s.input

/-- The gzip round trip (46_commands.md R251). -/
def Obligations.GzipRoundTrip : Prop :=
  ∀ s t u : State, s.cmdState = .idle → s.cfg.pace = .whole → exec .gzipCompress s = .next t → t.errCode = 0#4 →
    (encodedMember s.mtime s.input (inputTokens s)).length < 2 ^ 32 → u.cmdState = .idle → u.cfg.pace = .whole →
    u.inLen = t.outLen → u.inLen.toNat ≤ u.cfg.inCap → (∀ a, a < t.outLen.toNat → u.inByte a = t.outByte a) →
    Room u 0 s.inLen.toNat →
    ∃ v, exec .gzipDecompress u = .next v ∧ Succeeded v ∧ v.outLen = s.inLen ∧ v.output s.inLen.toNat = s.input ∧
      v.crcResult = t.crcResult

/-! ### The invariant -/

/-- Every state right after reset, whatever the parameters, meets the invariant. 10_state.md R43 gives IDLE and the
registers' zeros, and leaves the working registers unspecified: that the clauses on the writer, the reader and the cursors
hold at reset rests on the zeros the model gives them (log 9, DESIGN CHOICE), and those on the buffers on the empty lists
that stand for unspecified bytes (log 5). -/
def Obligations.ResetMeetsTheInvariant : Prop :=
  ∀ c : Config, (State.resetWith c).Inv

/-- Every step keeps the invariant (10_state.md R26, R30, R31; 40_bit_io.md R114, R118; 60_exceptions.md R262). -/
def Obligations.StepKeepsTheInvariant : Prop :=
  ∀ s t : State, s.Inv → step s = .next t → t.Inv
end

