-- ==== Sys2Proof/Laws/Decode.lean ====
section
/-! SUPPORT. The laws of the bit readers and bit senders that the decoder and the encoder are written with. -/

namespace Sys2Proof

@[simp] theorem msbBits_length (n v : Nat) : (msbBits n v).length = n := by
  induction n with
  | zero => rfl
  | succ n ih => simp [msbBits, ih]

@[simp] theorem lsbBits_length (n v : Nat) : (lsbBits n v).length = n := by
  induction n generalizing v with
  | zero => rfl
  | succ n ih => simp [lsbBits, ih]

/-- A field sent least significant bit first is read back, with the bits after it left. -/
theorem takeLsb_lsbBits (n v : Nat) (rest : List Bool) :
    takeLsb n (lsbBits n v ++ rest) = some (v % 2 ^ n, rest) := by
  induction n generalizing v with
  | zero => simp [takeLsb, lsbBits, Nat.mod_one]
  | succ n ih =>
    simp only [lsbBits, List.cons_append, takeLsb, ih, Option.map_some, Option.some.injEq, Prod.mk.injEq, and_true]
    have hb : (v.testBit 0).toNat = v % 2 := by
      rw [Nat.testBit_zero]
      rcases Nat.mod_two_eq_zero_or_one v with h | h <;> simp [h]
    rw [hb, Nat.pow_succ, Nat.mul_comm (2 ^ n) 2, Nat.mod_mul]

/-- A code sent most significant bit first is read back after the bits `c`. -/
theorem takeMsb_msbBits (n v c : Nat) (rest : List Bool) :
    takeMsb n c (msbBits n v ++ rest) = some (c * 2 ^ n + v % 2 ^ n, rest) := by
  induction n generalizing c with
  | zero => simp [takeMsb, msbBits, Nat.mod_one]
  | succ n ih =>
    simp only [msbBits, List.cons_append, takeMsb, ih, Option.some.injEq, Prod.mk.injEq, and_true]
    have hb : v % 2 ^ (n + 1) = (v.testBit n).toNat * 2 ^ n + v % 2 ^ n := by
      rw [Nat.testBit_eq_decide_div_mod_eq, Nat.pow_succ, Nat.mod_mul, Nat.add_comm, Nat.mul_comm]
      rcases Nat.mod_two_eq_zero_or_one (v / 2 ^ n) with h | h <;> simp [h]
    rw [hb, Nat.pow_succ]
    ring

/-- A longer code is read in two pieces. -/
theorem takeMsb_add (m n c : Nat) (bs : List Bool) :
    takeMsb (m + n) c bs = (takeMsb m c bs).bind fun p => takeMsb n p.1 p.2 := by
  induction m generalizing c bs with
  | zero => simp [takeMsb]
  | succ m ih =>
    cases bs with
    | nil => rw [show m + 1 + n = (m + n) + 1 by omega]; simp [takeMsb]
    | cons b bs => rw [show m + 1 + n = (m + n) + 1 by omega]; simp [takeMsb, ih]

/-- What a field read consumed is the field's bits, and its value fits. -/
theorem takeLsb_some {n v : Nat} {bs rest : List Bool} (h : takeLsb n bs = some (v, rest)) :
    v < 2 ^ n ∧ bs = lsbBits n v ++ rest := by
  induction n generalizing v bs with
  | zero => simp [takeLsb] at h; obtain ⟨rfl, rfl⟩ := h; simp [lsbBits]
  | succ n ih =>
    cases bs with
    | nil => simp [takeLsb] at h
    | cons b bs =>
      simp only [takeLsb, Option.map_eq_some_iff, Prod.exists, Prod.mk.injEq] at h
      obtain ⟨w, r, hw, rfl, rfl⟩ := h
      obtain ⟨hlt, rfl⟩ := ih hw
      have hb : b.toNat ≤ 1 := Bool.toNat_le _
      refine ⟨by rw [Nat.pow_succ]; omega, ?_⟩
      have hd : (b.toNat + 2 * w) / 2 = w := by omega
      have ht : (b.toNat + 2 * w).testBit 0 = b := by
        cases b <;> simp [Nat.testBit_zero]
      simp [lsbBits, hd, ht]

/-- What a code read consumed is the code's bits. -/
theorem takeMsb_some {n c v : Nat} {bs rest : List Bool} (h : takeMsb n c bs = some (v, rest)) :
    c * 2 ^ n ≤ v ∧ v < (c + 1) * 2 ^ n ∧ bs = msbBits n v ++ rest := by
  induction n generalizing c bs with
  | zero => simp [takeMsb] at h; obtain ⟨rfl, rfl⟩ := h; simp [msbBits]
  | succ n ih =>
    cases bs with
    | nil => simp [takeMsb] at h
    | cons b bs =>
      simp only [takeMsb] at h
      obtain ⟨h1, h2, rfl⟩ := ih h
      have hb : b.toNat ≤ 1 := Bool.toNat_le _
      have hp : 0 < 2 ^ n := Nat.two_pow_pos n
      refine ⟨?_, ?_, ?_⟩
      · rw [Nat.pow_succ]; nlinarith
      · rw [Nat.pow_succ]; nlinarith
      · simp only [msbBits, List.cons_append, List.cons.injEq, and_true]
        have hdiv : v / 2 ^ n = 2 * c + b.toNat := by
          apply Nat.div_eq_of_lt_le
          · exact h1
          · exact h2
        rw [Nat.testBit_eq_decide_div_mod_eq, hdiv]
        cases b <;> simp

/-- The decoder of command words is total, and its instruction is well formed. -/
theorem decodeCmd_space (w : Word) : (decodeCmd w).space = .cmd := by
  unfold decodeCmd
  repeat' split
  all_goals rfl

/-- The six command words. -/
theorem decodeCmd_reserved {w v : Word} (h : decodeCmd w = .reservedCmd v) :
    v = w ∧ w ≠ 0#32 ∧ w ≠ 1#32 ∧ w ≠ 2#32 ∧ w ≠ 3#32 ∧ w ≠ 4#32 ∧ w ≠ 5#32 := by
  unfold decodeCmd at h
  repeat' split at h
  all_goals simp_all

end Sys2Proof
end

