-- ==== Sys2Proof/Laws/State.lean ====
section
/-! SUPPORT. One lemma per field per update of the state, so that no proof unfolds a record update. -/

namespace Sys2Proof.Machine

/-! Command start, `State.begin`. -/

@[simp] theorem State.begin_cfg (c : CmdState) (s : State) : (s.begin c).cfg = s.cfg := rfl
@[simp] theorem State.begin_cmdState (c : CmdState) (s : State) : (s.begin c).cmdState = c := rfl
@[simp] theorem State.begin_doneBit (c : CmdState) (s : State) : (s.begin c).doneBit = false := rfl
@[simp] theorem State.begin_errorBit (c : CmdState) (s : State) : (s.begin c).errorBit = false := rfl
@[simp] theorem State.begin_errCode (c : CmdState) (s : State) : (s.begin c).errCode = 0#4 := rfl
@[simp] theorem State.begin_inLen (c : CmdState) (s : State) : (s.begin c).inLen = s.inLen := rfl
@[simp] theorem State.begin_outLen (c : CmdState) (s : State) : (s.begin c).outLen = s.outLen := rfl
@[simp] theorem State.begin_mtime (c : CmdState) (s : State) : (s.begin c).mtime = s.mtime := rfl
@[simp] theorem State.begin_crcResult (c : CmdState) (s : State) : (s.begin c).crcResult = s.crcResult := rfl
@[simp] theorem State.begin_inBuf (c : CmdState) (s : State) : (s.begin c).inBuf = s.inBuf := rfl
@[simp] theorem State.begin_outBuf (c : CmdState) (s : State) : (s.begin c).outBuf = s.outBuf := rfl
@[simp] theorem State.begin_wbase (c : CmdState) (s : State) : (s.begin c).wbase = s.wbase := rfl
@[simp] theorem State.begin_wlen (c : CmdState) (s : State) : (s.begin c).wlen = s.wlen := rfl
@[simp] theorem State.begin_wcur (c : CmdState) (s : State) : (s.begin c).wcur = s.wcur := rfl
@[simp] theorem State.begin_wnb (c : CmdState) (s : State) : (s.begin c).wnb = s.wnb := rfl
@[simp] theorem State.begin_rbase (c : CmdState) (s : State) : (s.begin c).rbase = s.rbase := rfl
@[simp] theorem State.begin_rlen (c : CmdState) (s : State) : (s.begin c).rlen = s.rlen := rfl
@[simp] theorem State.begin_rpos (c : CmdState) (s : State) : (s.begin c).rpos = s.rpos := rfl
@[simp] theorem State.begin_matcher (c : CmdState) (s : State) : (s.begin c).matcher = s.matcher := rfl
@[simp] theorem State.begin_crc (c : CmdState) (s : State) : (s.begin c).crc = s.crc := rfl
@[simp] theorem State.begin_bfinal (c : CmdState) (s : State) : (s.begin c).bfinal = s.bfinal := rfl
@[simp] theorem State.begin_outPos (c : CmdState) (s : State) : (s.begin c).outPos = s.outPos := rfl
@[simp] theorem State.begin_phase (c : CmdState) (s : State) : (s.begin c).phase = s.phase := rfl
@[simp] theorem State.begin_script (c : CmdState) (s : State) : (s.begin c).script = s.script := rfl
@[simp] theorem State.begin_hostData (c : CmdState) (s : State) : (s.begin c).hostData = s.hostData := rfl
@[simp] theorem State.begin_inEpoch (c : CmdState) (s : State) : (s.begin c).inEpoch = s.inEpoch := rfl
@[simp] theorem State.begin_outEpoch (c : CmdState) (s : State) : (s.begin c).outEpoch = s.outEpoch := rfl
@[simp] theorem State.begin_freeCount (c : CmdState) (s : State) : (s.begin c).freeCount = s.freeCount := rfl

/-! Completion, `State.complete`. -/

@[simp] theorem State.complete_cfg (s : State) : (s.complete).cfg = s.cfg := rfl
@[simp] theorem State.complete_cmdState (s : State) : (s.complete).cmdState = .idle := rfl
@[simp] theorem State.complete_doneBit (s : State) : (s.complete).doneBit = true := rfl
@[simp] theorem State.complete_errorBit (s : State) : (s.complete).errorBit = false := rfl
@[simp] theorem State.complete_errCode (s : State) : (s.complete).errCode = s.errCode := rfl
@[simp] theorem State.complete_inLen (s : State) : (s.complete).inLen = s.inLen := rfl
@[simp] theorem State.complete_outLen (s : State) : (s.complete).outLen = s.outLen := rfl
@[simp] theorem State.complete_mtime (s : State) : (s.complete).mtime = s.mtime := rfl
@[simp] theorem State.complete_crcResult (s : State) : (s.complete).crcResult = s.crcResult := rfl
@[simp] theorem State.complete_inBuf (s : State) : (s.complete).inBuf = s.inBuf := rfl
@[simp] theorem State.complete_outBuf (s : State) : (s.complete).outBuf = s.outBuf := rfl
@[simp] theorem State.complete_wbase (s : State) : (s.complete).wbase = s.wbase := rfl
@[simp] theorem State.complete_wlen (s : State) : (s.complete).wlen = s.wlen := rfl
@[simp] theorem State.complete_wcur (s : State) : (s.complete).wcur = s.wcur := rfl
@[simp] theorem State.complete_wnb (s : State) : (s.complete).wnb = s.wnb := rfl
@[simp] theorem State.complete_rbase (s : State) : (s.complete).rbase = s.rbase := rfl
@[simp] theorem State.complete_rlen (s : State) : (s.complete).rlen = s.rlen := rfl
@[simp] theorem State.complete_rpos (s : State) : (s.complete).rpos = s.rpos := rfl
@[simp] theorem State.complete_matcher (s : State) : (s.complete).matcher = s.matcher := rfl
@[simp] theorem State.complete_crc (s : State) : (s.complete).crc = s.crc := rfl
@[simp] theorem State.complete_bfinal (s : State) : (s.complete).bfinal = s.bfinal := rfl
@[simp] theorem State.complete_outPos (s : State) : (s.complete).outPos = s.outPos := rfl
@[simp] theorem State.complete_phase (s : State) : (s.complete).phase = .rest := rfl
@[simp] theorem State.complete_script (s : State) : (s.complete).script = s.script := rfl
@[simp] theorem State.complete_hostData (s : State) : (s.complete).hostData = s.hostData := rfl
@[simp] theorem State.complete_inEpoch (s : State) : (s.complete).inEpoch = s.inEpoch := rfl
@[simp] theorem State.complete_outEpoch (s : State) : (s.complete).outEpoch = s.outEpoch := rfl
@[simp] theorem State.complete_freeCount (s : State) : (s.complete).freeCount = s.freeCount := rfl

/-! The flags after an error, `State.flagError`. -/

@[simp] theorem State.flagError_cfg (e : ErrKind) (s : State) : (s.flagError e).cfg = s.cfg := rfl
@[simp] theorem State.flagError_cmdState (e : ErrKind) (s : State) : (s.flagError e).cmdState = .idle := rfl
@[simp] theorem State.flagError_doneBit (e : ErrKind) (s : State) : (s.flagError e).doneBit = true := rfl
@[simp] theorem State.flagError_errorBit (e : ErrKind) (s : State) : (s.flagError e).errorBit = true := rfl
@[simp] theorem State.flagError_errCode (e : ErrKind) (s : State) : (s.flagError e).errCode = e.code := rfl
@[simp] theorem State.flagError_inLen (e : ErrKind) (s : State) : (s.flagError e).inLen = s.inLen := rfl
@[simp] theorem State.flagError_outLen (e : ErrKind) (s : State) : (s.flagError e).outLen = s.outLen := rfl
@[simp] theorem State.flagError_mtime (e : ErrKind) (s : State) : (s.flagError e).mtime = s.mtime := rfl
@[simp] theorem State.flagError_crcResult (e : ErrKind) (s : State) : (s.flagError e).crcResult = s.crcResult := rfl
@[simp] theorem State.flagError_inBuf (e : ErrKind) (s : State) : (s.flagError e).inBuf = s.inBuf := rfl
@[simp] theorem State.flagError_outBuf (e : ErrKind) (s : State) : (s.flagError e).outBuf = s.outBuf := rfl
@[simp] theorem State.flagError_wbase (e : ErrKind) (s : State) : (s.flagError e).wbase = s.wbase := rfl
@[simp] theorem State.flagError_wlen (e : ErrKind) (s : State) : (s.flagError e).wlen = s.wlen := rfl
@[simp] theorem State.flagError_wcur (e : ErrKind) (s : State) : (s.flagError e).wcur = s.wcur := rfl
@[simp] theorem State.flagError_wnb (e : ErrKind) (s : State) : (s.flagError e).wnb = s.wnb := rfl
@[simp] theorem State.flagError_rbase (e : ErrKind) (s : State) : (s.flagError e).rbase = s.rbase := rfl
@[simp] theorem State.flagError_rlen (e : ErrKind) (s : State) : (s.flagError e).rlen = s.rlen := rfl
@[simp] theorem State.flagError_rpos (e : ErrKind) (s : State) : (s.flagError e).rpos = s.rpos := rfl
@[simp] theorem State.flagError_matcher (e : ErrKind) (s : State) : (s.flagError e).matcher = s.matcher := rfl
@[simp] theorem State.flagError_crc (e : ErrKind) (s : State) : (s.flagError e).crc = s.crc := rfl
@[simp] theorem State.flagError_bfinal (e : ErrKind) (s : State) : (s.flagError e).bfinal = s.bfinal := rfl
@[simp] theorem State.flagError_outPos (e : ErrKind) (s : State) : (s.flagError e).outPos = s.outPos := rfl
@[simp] theorem State.flagError_phase (e : ErrKind) (s : State) : (s.flagError e).phase = .rest := rfl
@[simp] theorem State.flagError_script (e : ErrKind) (s : State) : (s.flagError e).script = s.script := rfl
@[simp] theorem State.flagError_hostData (e : ErrKind) (s : State) : (s.flagError e).hostData = s.hostData := rfl
@[simp] theorem State.flagError_inEpoch (e : ErrKind) (s : State) : (s.flagError e).inEpoch = s.inEpoch := rfl
@[simp] theorem State.flagError_outEpoch (e : ErrKind) (s : State) : (s.flagError e).outEpoch = s.outEpoch := rfl
@[simp] theorem State.flagError_freeCount (e : ErrKind) (s : State) : (s.flagError e).freeCount = s.freeCount := rfl

/-! What a running error leaves unspecified, `State.spoil`. -/

@[simp] theorem State.spoil_cfg (s : State) : (s.spoil).cfg = s.cfg := rfl
@[simp] theorem State.spoil_cmdState (s : State) : (s.spoil).cmdState = s.cmdState := rfl
@[simp] theorem State.spoil_doneBit (s : State) : (s.spoil).doneBit = s.doneBit := rfl
@[simp] theorem State.spoil_errorBit (s : State) : (s.spoil).errorBit = s.errorBit := rfl
@[simp] theorem State.spoil_errCode (s : State) : (s.spoil).errCode = s.errCode := rfl
@[simp] theorem State.spoil_inLen (s : State) : (s.spoil).inLen = s.inLen := rfl
@[simp] theorem State.spoil_outLen (s : State) : (s.spoil).outLen = s.outLen := rfl
@[simp] theorem State.spoil_mtime (s : State) : (s.spoil).mtime = s.mtime := rfl
@[simp] theorem State.spoil_crcResult (s : State) : (s.spoil).crcResult = (if computesCrc s.cmdState then Config.freeWord s.freeCount else s.crcResult) := rfl
@[simp] theorem State.spoil_inBuf (s : State) : (s.spoil).inBuf = s.inBuf := rfl
@[simp] theorem State.spoil_outBuf (s : State) : (s.spoil).outBuf = [] := rfl
@[simp] theorem State.spoil_wbase (s : State) : (s.spoil).wbase = s.wbase := rfl
@[simp] theorem State.spoil_wlen (s : State) : (s.spoil).wlen = s.wlen := rfl
@[simp] theorem State.spoil_wcur (s : State) : (s.spoil).wcur = s.wcur := rfl
@[simp] theorem State.spoil_wnb (s : State) : (s.spoil).wnb = s.wnb := rfl
@[simp] theorem State.spoil_rbase (s : State) : (s.spoil).rbase = s.rbase := rfl
@[simp] theorem State.spoil_rlen (s : State) : (s.spoil).rlen = s.rlen := rfl
@[simp] theorem State.spoil_rpos (s : State) : (s.spoil).rpos = s.rpos := rfl
@[simp] theorem State.spoil_matcher (s : State) : (s.spoil).matcher = s.matcher := rfl
@[simp] theorem State.spoil_crc (s : State) : (s.spoil).crc = s.crc := rfl
@[simp] theorem State.spoil_bfinal (s : State) : (s.spoil).bfinal = s.bfinal := rfl
@[simp] theorem State.spoil_outPos (s : State) : (s.spoil).outPos = s.outPos := rfl
@[simp] theorem State.spoil_phase (s : State) : (s.spoil).phase = s.phase := rfl
@[simp] theorem State.spoil_script (s : State) : (s.spoil).script = s.script := rfl
@[simp] theorem State.spoil_hostData (s : State) : (s.spoil).hostData = s.hostData := rfl
@[simp] theorem State.spoil_inEpoch (s : State) : (s.spoil).inEpoch = s.inEpoch := rfl
@[simp] theorem State.spoil_outEpoch (s : State) : (s.spoil).outEpoch = s.freeCount := rfl
@[simp] theorem State.spoil_freeCount (s : State) : (s.spoil).freeCount = s.freeCount + 1 := rfl

/-! The output result, `State.setOutput`. -/

@[simp] theorem State.setOutput_cfg (n : Nat) (s : State) : (s.setOutput n).cfg = s.cfg := rfl
@[simp] theorem State.setOutput_cmdState (n : Nat) (s : State) : (s.setOutput n).cmdState = s.cmdState := rfl
@[simp] theorem State.setOutput_doneBit (n : Nat) (s : State) : (s.setOutput n).doneBit = s.doneBit := rfl
@[simp] theorem State.setOutput_errorBit (n : Nat) (s : State) : (s.setOutput n).errorBit = s.errorBit := rfl
@[simp] theorem State.setOutput_errCode (n : Nat) (s : State) : (s.setOutput n).errCode = s.errCode := rfl
@[simp] theorem State.setOutput_inLen (n : Nat) (s : State) : (s.setOutput n).inLen = s.inLen := rfl
@[simp] theorem State.setOutput_outLen (n : Nat) (s : State) : (s.setOutput n).outLen = lengthWord n s.freeCount := rfl
@[simp] theorem State.setOutput_mtime (n : Nat) (s : State) : (s.setOutput n).mtime = s.mtime := rfl
@[simp] theorem State.setOutput_crcResult (n : Nat) (s : State) : (s.setOutput n).crcResult = s.crcResult := rfl
@[simp] theorem State.setOutput_inBuf (n : Nat) (s : State) : (s.setOutput n).inBuf = s.inBuf := rfl
@[simp] theorem State.setOutput_outBuf (n : Nat) (s : State) : (s.setOutput n).outBuf = tableCut n s.outBuf := rfl
@[simp] theorem State.setOutput_wbase (n : Nat) (s : State) : (s.setOutput n).wbase = s.wbase := rfl
@[simp] theorem State.setOutput_wlen (n : Nat) (s : State) : (s.setOutput n).wlen = s.wlen := rfl
@[simp] theorem State.setOutput_wcur (n : Nat) (s : State) : (s.setOutput n).wcur = s.wcur := rfl
@[simp] theorem State.setOutput_wnb (n : Nat) (s : State) : (s.setOutput n).wnb = s.wnb := rfl
@[simp] theorem State.setOutput_rbase (n : Nat) (s : State) : (s.setOutput n).rbase = s.rbase := rfl
@[simp] theorem State.setOutput_rlen (n : Nat) (s : State) : (s.setOutput n).rlen = s.rlen := rfl
@[simp] theorem State.setOutput_rpos (n : Nat) (s : State) : (s.setOutput n).rpos = s.rpos := rfl
@[simp] theorem State.setOutput_matcher (n : Nat) (s : State) : (s.setOutput n).matcher = s.matcher := rfl
@[simp] theorem State.setOutput_crc (n : Nat) (s : State) : (s.setOutput n).crc = s.crc := rfl
@[simp] theorem State.setOutput_bfinal (n : Nat) (s : State) : (s.setOutput n).bfinal = s.bfinal := rfl
@[simp] theorem State.setOutput_outPos (n : Nat) (s : State) : (s.setOutput n).outPos = s.outPos := rfl
@[simp] theorem State.setOutput_phase (n : Nat) (s : State) : (s.setOutput n).phase = s.phase := rfl
@[simp] theorem State.setOutput_script (n : Nat) (s : State) : (s.setOutput n).script = s.script := rfl
@[simp] theorem State.setOutput_hostData (n : Nat) (s : State) : (s.setOutput n).hostData = s.hostData := rfl
@[simp] theorem State.setOutput_inEpoch (n : Nat) (s : State) : (s.setOutput n).inEpoch = s.inEpoch := rfl
@[simp] theorem State.setOutput_outEpoch (n : Nat) (s : State) : (s.setOutput n).outEpoch = s.freeCount := rfl
@[simp] theorem State.setOutput_freeCount (n : Nat) (s : State) : (s.setOutput n).freeCount = s.freeCount + 1 := rfl

/-! A host byte write to IN, `State.putIn`. -/

@[simp] theorem State.putIn_cfg (a : Nat) (v : Byte) (s : State) : (s.putIn a v).cfg = s.cfg := rfl
@[simp] theorem State.putIn_cmdState (a : Nat) (v : Byte) (s : State) : (s.putIn a v).cmdState = s.cmdState := rfl
@[simp] theorem State.putIn_doneBit (a : Nat) (v : Byte) (s : State) : (s.putIn a v).doneBit = s.doneBit := rfl
@[simp] theorem State.putIn_errorBit (a : Nat) (v : Byte) (s : State) : (s.putIn a v).errorBit = s.errorBit := rfl
@[simp] theorem State.putIn_errCode (a : Nat) (v : Byte) (s : State) : (s.putIn a v).errCode = s.errCode := rfl
@[simp] theorem State.putIn_inLen (a : Nat) (v : Byte) (s : State) : (s.putIn a v).inLen = s.inLen := rfl
@[simp] theorem State.putIn_outLen (a : Nat) (v : Byte) (s : State) : (s.putIn a v).outLen = s.outLen := rfl
@[simp] theorem State.putIn_mtime (a : Nat) (v : Byte) (s : State) : (s.putIn a v).mtime = s.mtime := rfl
@[simp] theorem State.putIn_crcResult (a : Nat) (v : Byte) (s : State) : (s.putIn a v).crcResult = s.crcResult := rfl
@[simp] theorem State.putIn_inBuf (a : Nat) (v : Byte) (s : State) : (s.putIn a v).inBuf = tableWrite s.inBuf a v := rfl
@[simp] theorem State.putIn_outBuf (a : Nat) (v : Byte) (s : State) : (s.putIn a v).outBuf = s.outBuf := rfl
@[simp] theorem State.putIn_wbase (a : Nat) (v : Byte) (s : State) : (s.putIn a v).wbase = s.wbase := rfl
@[simp] theorem State.putIn_wlen (a : Nat) (v : Byte) (s : State) : (s.putIn a v).wlen = s.wlen := rfl
@[simp] theorem State.putIn_wcur (a : Nat) (v : Byte) (s : State) : (s.putIn a v).wcur = s.wcur := rfl
@[simp] theorem State.putIn_wnb (a : Nat) (v : Byte) (s : State) : (s.putIn a v).wnb = s.wnb := rfl
@[simp] theorem State.putIn_rbase (a : Nat) (v : Byte) (s : State) : (s.putIn a v).rbase = s.rbase := rfl
@[simp] theorem State.putIn_rlen (a : Nat) (v : Byte) (s : State) : (s.putIn a v).rlen = s.rlen := rfl
@[simp] theorem State.putIn_rpos (a : Nat) (v : Byte) (s : State) : (s.putIn a v).rpos = s.rpos := rfl
@[simp] theorem State.putIn_matcher (a : Nat) (v : Byte) (s : State) : (s.putIn a v).matcher = s.matcher := rfl
@[simp] theorem State.putIn_crc (a : Nat) (v : Byte) (s : State) : (s.putIn a v).crc = s.crc := rfl
@[simp] theorem State.putIn_bfinal (a : Nat) (v : Byte) (s : State) : (s.putIn a v).bfinal = s.bfinal := rfl
@[simp] theorem State.putIn_outPos (a : Nat) (v : Byte) (s : State) : (s.putIn a v).outPos = s.outPos := rfl
@[simp] theorem State.putIn_phase (a : Nat) (v : Byte) (s : State) : (s.putIn a v).phase = s.phase := rfl
@[simp] theorem State.putIn_script (a : Nat) (v : Byte) (s : State) : (s.putIn a v).script = s.script := rfl
@[simp] theorem State.putIn_hostData (a : Nat) (v : Byte) (s : State) : (s.putIn a v).hostData = s.hostData := rfl
@[simp] theorem State.putIn_inEpoch (a : Nat) (v : Byte) (s : State) : (s.putIn a v).inEpoch = s.inEpoch := rfl
@[simp] theorem State.putIn_outEpoch (a : Nat) (v : Byte) (s : State) : (s.putIn a v).outEpoch = s.outEpoch := rfl
@[simp] theorem State.putIn_freeCount (a : Nat) (v : Byte) (s : State) : (s.putIn a v).freeCount = s.freeCount := rfl

/-! A run of the CRC unit, `State.runCrc`. -/

@[simp] theorem State.runCrc_cfg (data : List Byte) (s : State) : (s.runCrc data).cfg = s.cfg := rfl
@[simp] theorem State.runCrc_cmdState (data : List Byte) (s : State) : (s.runCrc data).cmdState = s.cmdState := rfl
@[simp] theorem State.runCrc_doneBit (data : List Byte) (s : State) : (s.runCrc data).doneBit = s.doneBit := rfl
@[simp] theorem State.runCrc_errorBit (data : List Byte) (s : State) : (s.runCrc data).errorBit = s.errorBit := rfl
@[simp] theorem State.runCrc_errCode (data : List Byte) (s : State) : (s.runCrc data).errCode = s.errCode := rfl
@[simp] theorem State.runCrc_inLen (data : List Byte) (s : State) : (s.runCrc data).inLen = s.inLen := rfl
@[simp] theorem State.runCrc_outLen (data : List Byte) (s : State) : (s.runCrc data).outLen = s.outLen := rfl
@[simp] theorem State.runCrc_mtime (data : List Byte) (s : State) : (s.runCrc data).mtime = s.mtime := rfl
@[simp] theorem State.runCrc_crcResult (data : List Byte) (s : State) : (s.runCrc data).crcResult = s.crcResult := rfl
@[simp] theorem State.runCrc_inBuf (data : List Byte) (s : State) : (s.runCrc data).inBuf = s.inBuf := rfl
@[simp] theorem State.runCrc_outBuf (data : List Byte) (s : State) : (s.runCrc data).outBuf = s.outBuf := rfl
@[simp] theorem State.runCrc_wbase (data : List Byte) (s : State) : (s.runCrc data).wbase = s.wbase := rfl
@[simp] theorem State.runCrc_wlen (data : List Byte) (s : State) : (s.runCrc data).wlen = s.wlen := rfl
@[simp] theorem State.runCrc_wcur (data : List Byte) (s : State) : (s.runCrc data).wcur = s.wcur := rfl
@[simp] theorem State.runCrc_wnb (data : List Byte) (s : State) : (s.runCrc data).wnb = s.wnb := rfl
@[simp] theorem State.runCrc_rbase (data : List Byte) (s : State) : (s.runCrc data).rbase = s.rbase := rfl
@[simp] theorem State.runCrc_rlen (data : List Byte) (s : State) : (s.runCrc data).rlen = s.rlen := rfl
@[simp] theorem State.runCrc_rpos (data : List Byte) (s : State) : (s.runCrc data).rpos = s.rpos := rfl
@[simp] theorem State.runCrc_matcher (data : List Byte) (s : State) : (s.runCrc data).matcher = s.matcher := rfl
@[simp] theorem State.runCrc_crc (data : List Byte) (s : State) : (s.runCrc data).crc = crcFold crcSeed data := rfl
@[simp] theorem State.runCrc_bfinal (data : List Byte) (s : State) : (s.runCrc data).bfinal = s.bfinal := rfl
@[simp] theorem State.runCrc_outPos (data : List Byte) (s : State) : (s.runCrc data).outPos = s.outPos := rfl
@[simp] theorem State.runCrc_phase (data : List Byte) (s : State) : (s.runCrc data).phase = s.phase := rfl
@[simp] theorem State.runCrc_script (data : List Byte) (s : State) : (s.runCrc data).script = s.script := rfl
@[simp] theorem State.runCrc_hostData (data : List Byte) (s : State) : (s.runCrc data).hostData = s.hostData := rfl
@[simp] theorem State.runCrc_inEpoch (data : List Byte) (s : State) : (s.runCrc data).inEpoch = s.inEpoch := rfl
@[simp] theorem State.runCrc_outEpoch (data : List Byte) (s : State) : (s.runCrc data).outEpoch = s.outEpoch := rfl
@[simp] theorem State.runCrc_freeCount (data : List Byte) (s : State) : (s.runCrc data).freeCount = s.freeCount := rfl

/-! The working state at command start, `State.restart`. -/

@[simp] theorem State.restart_cfg (s : State) : (s.restart).cfg = s.cfg := rfl
@[simp] theorem State.restart_cmdState (s : State) : (s.restart).cmdState = s.cmdState := rfl
@[simp] theorem State.restart_doneBit (s : State) : (s.restart).doneBit = s.doneBit := rfl
@[simp] theorem State.restart_errorBit (s : State) : (s.restart).errorBit = s.errorBit := rfl
@[simp] theorem State.restart_errCode (s : State) : (s.restart).errCode = s.errCode := rfl
@[simp] theorem State.restart_inLen (s : State) : (s.restart).inLen = s.inLen := rfl
@[simp] theorem State.restart_outLen (s : State) : (s.restart).outLen = s.outLen := rfl
@[simp] theorem State.restart_mtime (s : State) : (s.restart).mtime = s.mtime := rfl
@[simp] theorem State.restart_crcResult (s : State) : (s.restart).crcResult = s.crcResult := rfl
@[simp] theorem State.restart_inBuf (s : State) : (s.restart).inBuf = s.inBuf := rfl
@[simp] theorem State.restart_outBuf (s : State) : (s.restart).outBuf = s.outBuf := rfl
@[simp] theorem State.restart_wbase (s : State) : (s.restart).wbase = 0 := rfl
@[simp] theorem State.restart_wlen (s : State) : (s.restart).wlen = 0 := rfl
@[simp] theorem State.restart_wcur (s : State) : (s.restart).wcur = 0#8 := rfl
@[simp] theorem State.restart_wnb (s : State) : (s.restart).wnb = 0 := rfl
@[simp] theorem State.restart_rbase (s : State) : (s.restart).rbase = 0 := rfl
@[simp] theorem State.restart_rlen (s : State) : (s.restart).rlen = s.inLen.toNat := rfl
@[simp] theorem State.restart_rpos (s : State) : (s.restart).rpos = 0 := rfl
@[simp] theorem State.restart_matcher (s : State) : (s.restart).matcher = s.matcher.restart := rfl
@[simp] theorem State.restart_crc (s : State) : (s.restart).crc = s.crc := rfl
@[simp] theorem State.restart_bfinal (s : State) : (s.restart).bfinal = s.bfinal := rfl
@[simp] theorem State.restart_outPos (s : State) : (s.restart).outPos = 0 := rfl
@[simp] theorem State.restart_phase (s : State) : (s.restart).phase = s.phase := rfl
@[simp] theorem State.restart_script (s : State) : (s.restart).script = s.script := rfl
@[simp] theorem State.restart_hostData (s : State) : (s.restart).hostData = s.hostData := rfl
@[simp] theorem State.restart_inEpoch (s : State) : (s.restart).inEpoch = s.inEpoch := rfl
@[simp] theorem State.restart_outEpoch (s : State) : (s.restart).outEpoch = s.outEpoch := rfl
@[simp] theorem State.restart_freeCount (s : State) : (s.restart).freeCount = s.freeCount := rfl

/-! A read's answer, `State.answer`. -/

@[simp] theorem State.answer_cfg (v : Word) (s : State) : (s.answer v).cfg = s.cfg := rfl
@[simp] theorem State.answer_cmdState (v : Word) (s : State) : (s.answer v).cmdState = s.cmdState := rfl
@[simp] theorem State.answer_doneBit (v : Word) (s : State) : (s.answer v).doneBit = s.doneBit := rfl
@[simp] theorem State.answer_errorBit (v : Word) (s : State) : (s.answer v).errorBit = s.errorBit := rfl
@[simp] theorem State.answer_errCode (v : Word) (s : State) : (s.answer v).errCode = s.errCode := rfl
@[simp] theorem State.answer_inLen (v : Word) (s : State) : (s.answer v).inLen = s.inLen := rfl
@[simp] theorem State.answer_outLen (v : Word) (s : State) : (s.answer v).outLen = s.outLen := rfl
@[simp] theorem State.answer_mtime (v : Word) (s : State) : (s.answer v).mtime = s.mtime := rfl
@[simp] theorem State.answer_crcResult (v : Word) (s : State) : (s.answer v).crcResult = s.crcResult := rfl
@[simp] theorem State.answer_inBuf (v : Word) (s : State) : (s.answer v).inBuf = s.inBuf := rfl
@[simp] theorem State.answer_outBuf (v : Word) (s : State) : (s.answer v).outBuf = s.outBuf := rfl
@[simp] theorem State.answer_wbase (v : Word) (s : State) : (s.answer v).wbase = s.wbase := rfl
@[simp] theorem State.answer_wlen (v : Word) (s : State) : (s.answer v).wlen = s.wlen := rfl
@[simp] theorem State.answer_wcur (v : Word) (s : State) : (s.answer v).wcur = s.wcur := rfl
@[simp] theorem State.answer_wnb (v : Word) (s : State) : (s.answer v).wnb = s.wnb := rfl
@[simp] theorem State.answer_rbase (v : Word) (s : State) : (s.answer v).rbase = s.rbase := rfl
@[simp] theorem State.answer_rlen (v : Word) (s : State) : (s.answer v).rlen = s.rlen := rfl
@[simp] theorem State.answer_rpos (v : Word) (s : State) : (s.answer v).rpos = s.rpos := rfl
@[simp] theorem State.answer_matcher (v : Word) (s : State) : (s.answer v).matcher = s.matcher := rfl
@[simp] theorem State.answer_crc (v : Word) (s : State) : (s.answer v).crc = s.crc := rfl
@[simp] theorem State.answer_bfinal (v : Word) (s : State) : (s.answer v).bfinal = s.bfinal := rfl
@[simp] theorem State.answer_outPos (v : Word) (s : State) : (s.answer v).outPos = s.outPos := rfl
@[simp] theorem State.answer_phase (v : Word) (s : State) : (s.answer v).phase = s.phase := rfl
@[simp] theorem State.answer_script (v : Word) (s : State) : (s.answer v).script = s.script := rfl
@[simp] theorem State.answer_hostData (v : Word) (s : State) : (s.answer v).hostData = some v := rfl
@[simp] theorem State.answer_inEpoch (v : Word) (s : State) : (s.answer v).inEpoch = s.inEpoch := rfl
@[simp] theorem State.answer_outEpoch (v : Word) (s : State) : (s.answer v).outEpoch = s.outEpoch := rfl
@[simp] theorem State.answer_freeCount (v : Word) (s : State) : (s.answer v).freeCount = s.freeCount := rfl

/-! A read's free answer, `State.answerFree`. -/

@[simp] theorem State.answerFree_cfg (s : State) : (s.answerFree).cfg = s.cfg := rfl
@[simp] theorem State.answerFree_cmdState (s : State) : (s.answerFree).cmdState = s.cmdState := rfl
@[simp] theorem State.answerFree_doneBit (s : State) : (s.answerFree).doneBit = s.doneBit := rfl
@[simp] theorem State.answerFree_errorBit (s : State) : (s.answerFree).errorBit = s.errorBit := rfl
@[simp] theorem State.answerFree_errCode (s : State) : (s.answerFree).errCode = s.errCode := rfl
@[simp] theorem State.answerFree_inLen (s : State) : (s.answerFree).inLen = s.inLen := rfl
@[simp] theorem State.answerFree_outLen (s : State) : (s.answerFree).outLen = s.outLen := rfl
@[simp] theorem State.answerFree_mtime (s : State) : (s.answerFree).mtime = s.mtime := rfl
@[simp] theorem State.answerFree_crcResult (s : State) : (s.answerFree).crcResult = s.crcResult := rfl
@[simp] theorem State.answerFree_inBuf (s : State) : (s.answerFree).inBuf = s.inBuf := rfl
@[simp] theorem State.answerFree_outBuf (s : State) : (s.answerFree).outBuf = s.outBuf := rfl
@[simp] theorem State.answerFree_wbase (s : State) : (s.answerFree).wbase = s.wbase := rfl
@[simp] theorem State.answerFree_wlen (s : State) : (s.answerFree).wlen = s.wlen := rfl
@[simp] theorem State.answerFree_wcur (s : State) : (s.answerFree).wcur = s.wcur := rfl
@[simp] theorem State.answerFree_wnb (s : State) : (s.answerFree).wnb = s.wnb := rfl
@[simp] theorem State.answerFree_rbase (s : State) : (s.answerFree).rbase = s.rbase := rfl
@[simp] theorem State.answerFree_rlen (s : State) : (s.answerFree).rlen = s.rlen := rfl
@[simp] theorem State.answerFree_rpos (s : State) : (s.answerFree).rpos = s.rpos := rfl
@[simp] theorem State.answerFree_matcher (s : State) : (s.answerFree).matcher = s.matcher := rfl
@[simp] theorem State.answerFree_crc (s : State) : (s.answerFree).crc = s.crc := rfl
@[simp] theorem State.answerFree_bfinal (s : State) : (s.answerFree).bfinal = s.bfinal := rfl
@[simp] theorem State.answerFree_outPos (s : State) : (s.answerFree).outPos = s.outPos := rfl
@[simp] theorem State.answerFree_phase (s : State) : (s.answerFree).phase = s.phase := rfl
@[simp] theorem State.answerFree_script (s : State) : (s.answerFree).script = s.script := rfl
@[simp] theorem State.answerFree_hostData (s : State) : (s.answerFree).hostData = some (Config.freeWord s.freeCount) := rfl
@[simp] theorem State.answerFree_inEpoch (s : State) : (s.answerFree).inEpoch = s.inEpoch := rfl
@[simp] theorem State.answerFree_outEpoch (s : State) : (s.answerFree).outEpoch = s.outEpoch := rfl
@[simp] theorem State.answerFree_freeCount (s : State) : (s.answerFree).freeCount = s.freeCount + 1 := rfl

/-! Taking an error, `takeError`; what depends on the kind of error is split by `atStart`. -/

@[simp] theorem takeError_cfg (b : Bool) (e : ErrKind) (s : State) : (takeError b e s).cfg = s.cfg := by
  cases b <;> rfl
@[simp] theorem takeError_cmdState (b : Bool) (e : ErrKind) (s : State) : (takeError b e s).cmdState = .idle := rfl
@[simp] theorem takeError_doneBit (b : Bool) (e : ErrKind) (s : State) : (takeError b e s).doneBit = true := rfl
@[simp] theorem takeError_errorBit (b : Bool) (e : ErrKind) (s : State) : (takeError b e s).errorBit = true := rfl
@[simp] theorem takeError_errCode (b : Bool) (e : ErrKind) (s : State) : (takeError b e s).errCode = e.code := rfl
@[simp] theorem takeError_inLen (b : Bool) (e : ErrKind) (s : State) : (takeError b e s).inLen = s.inLen := by
  cases b <;> rfl
@[simp] theorem takeError_outLen (b : Bool) (e : ErrKind) (s : State) : (takeError b e s).outLen = 0#32 := rfl
@[simp] theorem takeError_mtime (b : Bool) (e : ErrKind) (s : State) : (takeError b e s).mtime = s.mtime := by
  cases b <;> rfl
@[simp] theorem takeError_start_crcResult (e : ErrKind) (s : State) : (takeError true e s).crcResult = s.crcResult := rfl
@[simp] theorem takeError_running_crcResult (e : ErrKind) (s : State) :
    (takeError false e s).crcResult = (if computesCrc s.cmdState then Config.freeWord s.freeCount else s.crcResult) := rfl
@[simp] theorem takeError_inBuf (b : Bool) (e : ErrKind) (s : State) : (takeError b e s).inBuf = s.inBuf := by
  cases b <;> rfl
@[simp] theorem takeError_start_outBuf (e : ErrKind) (s : State) : (takeError true e s).outBuf = s.outBuf := rfl
@[simp] theorem takeError_running_outBuf (e : ErrKind) (s : State) :
    (takeError false e s).outBuf = [] := rfl
@[simp] theorem takeError_wbase (b : Bool) (e : ErrKind) (s : State) : (takeError b e s).wbase = s.wbase := by
  cases b <;> rfl
@[simp] theorem takeError_wlen (b : Bool) (e : ErrKind) (s : State) : (takeError b e s).wlen = s.wlen := by
  cases b <;> rfl
@[simp] theorem takeError_wcur (b : Bool) (e : ErrKind) (s : State) : (takeError b e s).wcur = s.wcur := by
  cases b <;> rfl
@[simp] theorem takeError_wnb (b : Bool) (e : ErrKind) (s : State) : (takeError b e s).wnb = s.wnb := by
  cases b <;> rfl
@[simp] theorem takeError_rbase (b : Bool) (e : ErrKind) (s : State) : (takeError b e s).rbase = s.rbase := by
  cases b <;> rfl
@[simp] theorem takeError_rlen (b : Bool) (e : ErrKind) (s : State) : (takeError b e s).rlen = s.rlen := by
  cases b <;> rfl
@[simp] theorem takeError_rpos (b : Bool) (e : ErrKind) (s : State) : (takeError b e s).rpos = s.rpos := by
  cases b <;> rfl
@[simp] theorem takeError_matcher (b : Bool) (e : ErrKind) (s : State) : (takeError b e s).matcher = s.matcher := by
  cases b <;> rfl
@[simp] theorem takeError_crc (b : Bool) (e : ErrKind) (s : State) : (takeError b e s).crc = s.crc := by
  cases b <;> rfl
@[simp] theorem takeError_bfinal (b : Bool) (e : ErrKind) (s : State) : (takeError b e s).bfinal = s.bfinal := by
  cases b <;> rfl
@[simp] theorem takeError_outPos (b : Bool) (e : ErrKind) (s : State) : (takeError b e s).outPos = s.outPos := by
  cases b <;> rfl
@[simp] theorem takeError_phase (b : Bool) (e : ErrKind) (s : State) : (takeError b e s).phase = .rest := rfl
@[simp] theorem takeError_script (b : Bool) (e : ErrKind) (s : State) : (takeError b e s).script = s.script := by
  cases b <;> rfl
@[simp] theorem takeError_hostData (b : Bool) (e : ErrKind) (s : State) : (takeError b e s).hostData = s.hostData := by
  cases b <;> rfl
@[simp] theorem takeError_inEpoch (b : Bool) (e : ErrKind) (s : State) : (takeError b e s).inEpoch = s.inEpoch := by
  cases b <;> rfl
@[simp] theorem takeError_start_outEpoch (e : ErrKind) (s : State) : (takeError true e s).outEpoch = s.outEpoch := rfl
@[simp] theorem takeError_running_outEpoch (e : ErrKind) (s : State) :
    (takeError false e s).outEpoch = s.freeCount := rfl
@[simp] theorem takeError_start_freeCount (e : ErrKind) (s : State) : (takeError true e s).freeCount = s.freeCount := rfl
@[simp] theorem takeError_running_freeCount (e : ErrKind) (s : State) :
    (takeError false e s).freeCount = s.freeCount + 1 := rfl

/-! A host register write, `State.regWrite`. -/

@[simp] theorem State.regWrite_cfg (offset : Nat) (v : Word) (s : State) :
    (s.regWrite offset v).cfg = s.cfg := by
  unfold State.regWrite; split
  · rfl
  · split <;> rfl
@[simp] theorem State.regWrite_cmdState (offset : Nat) (v : Word) (s : State) :
    (s.regWrite offset v).cmdState = s.cmdState := by
  unfold State.regWrite; split
  · rfl
  · split <;> rfl
@[simp] theorem State.regWrite_doneBit (offset : Nat) (v : Word) (s : State) :
    (s.regWrite offset v).doneBit = s.doneBit := by
  unfold State.regWrite; split
  · rfl
  · split <;> rfl
@[simp] theorem State.regWrite_errorBit (offset : Nat) (v : Word) (s : State) :
    (s.regWrite offset v).errorBit = s.errorBit := by
  unfold State.regWrite; split
  · rfl
  · split <;> rfl
@[simp] theorem State.regWrite_errCode (offset : Nat) (v : Word) (s : State) :
    (s.regWrite offset v).errCode = s.errCode := by
  unfold State.regWrite; split
  · rfl
  · split <;> rfl
@[simp] theorem State.regWrite_inLen (offset : Nat) (v : Word) (s : State) :
    (s.regWrite offset v).inLen = if offset = 0x0C then v else s.inLen := by
  unfold State.regWrite; split
  · simp_all
  · split <;> simp_all
@[simp] theorem State.regWrite_outLen (offset : Nat) (v : Word) (s : State) :
    (s.regWrite offset v).outLen = s.outLen := by
  unfold State.regWrite; split
  · rfl
  · split <;> rfl
@[simp] theorem State.regWrite_mtime (offset : Nat) (v : Word) (s : State) :
    (s.regWrite offset v).mtime = if offset = 0x14 then v else s.mtime := by
  unfold State.regWrite; split
  · simp_all
  · split <;> simp_all
@[simp] theorem State.regWrite_crcResult (offset : Nat) (v : Word) (s : State) :
    (s.regWrite offset v).crcResult = s.crcResult := by
  unfold State.regWrite; split
  · rfl
  · split <;> rfl
@[simp] theorem State.regWrite_inBuf (offset : Nat) (v : Word) (s : State) :
    (s.regWrite offset v).inBuf = s.inBuf := by
  unfold State.regWrite; split
  · rfl
  · split <;> rfl
@[simp] theorem State.regWrite_outBuf (offset : Nat) (v : Word) (s : State) :
    (s.regWrite offset v).outBuf = s.outBuf := by
  unfold State.regWrite; split
  · rfl
  · split <;> rfl
@[simp] theorem State.regWrite_wbase (offset : Nat) (v : Word) (s : State) :
    (s.regWrite offset v).wbase = s.wbase := by
  unfold State.regWrite; split
  · rfl
  · split <;> rfl
@[simp] theorem State.regWrite_wlen (offset : Nat) (v : Word) (s : State) :
    (s.regWrite offset v).wlen = s.wlen := by
  unfold State.regWrite; split
  · rfl
  · split <;> rfl
@[simp] theorem State.regWrite_wcur (offset : Nat) (v : Word) (s : State) :
    (s.regWrite offset v).wcur = s.wcur := by
  unfold State.regWrite; split
  · rfl
  · split <;> rfl
@[simp] theorem State.regWrite_wnb (offset : Nat) (v : Word) (s : State) :
    (s.regWrite offset v).wnb = s.wnb := by
  unfold State.regWrite; split
  · rfl
  · split <;> rfl
@[simp] theorem State.regWrite_rbase (offset : Nat) (v : Word) (s : State) :
    (s.regWrite offset v).rbase = s.rbase := by
  unfold State.regWrite; split
  · rfl
  · split <;> rfl
@[simp] theorem State.regWrite_rlen (offset : Nat) (v : Word) (s : State) :
    (s.regWrite offset v).rlen = s.rlen := by
  unfold State.regWrite; split
  · rfl
  · split <;> rfl
@[simp] theorem State.regWrite_rpos (offset : Nat) (v : Word) (s : State) :
    (s.regWrite offset v).rpos = s.rpos := by
  unfold State.regWrite; split
  · rfl
  · split <;> rfl
@[simp] theorem State.regWrite_matcher (offset : Nat) (v : Word) (s : State) :
    (s.regWrite offset v).matcher = s.matcher := by
  unfold State.regWrite; split
  · rfl
  · split <;> rfl
@[simp] theorem State.regWrite_crc (offset : Nat) (v : Word) (s : State) :
    (s.regWrite offset v).crc = s.crc := by
  unfold State.regWrite; split
  · rfl
  · split <;> rfl
@[simp] theorem State.regWrite_bfinal (offset : Nat) (v : Word) (s : State) :
    (s.regWrite offset v).bfinal = s.bfinal := by
  unfold State.regWrite; split
  · rfl
  · split <;> rfl
@[simp] theorem State.regWrite_outPos (offset : Nat) (v : Word) (s : State) :
    (s.regWrite offset v).outPos = s.outPos := by
  unfold State.regWrite; split
  · rfl
  · split <;> rfl
@[simp] theorem State.regWrite_phase (offset : Nat) (v : Word) (s : State) :
    (s.regWrite offset v).phase = s.phase := by
  unfold State.regWrite; split
  · rfl
  · split <;> rfl
@[simp] theorem State.regWrite_script (offset : Nat) (v : Word) (s : State) :
    (s.regWrite offset v).script = s.script := by
  unfold State.regWrite; split
  · rfl
  · split <;> rfl
@[simp] theorem State.regWrite_hostData (offset : Nat) (v : Word) (s : State) :
    (s.regWrite offset v).hostData = s.hostData := by
  unfold State.regWrite; split
  · rfl
  · split <;> rfl
@[simp] theorem State.regWrite_inEpoch (offset : Nat) (v : Word) (s : State) :
    (s.regWrite offset v).inEpoch = s.inEpoch := by
  unfold State.regWrite; split
  · rfl
  · split <;> rfl
@[simp] theorem State.regWrite_outEpoch (offset : Nat) (v : Word) (s : State) :
    (s.regWrite offset v).outEpoch = s.outEpoch := by
  unfold State.regWrite; split
  · rfl
  · split <;> rfl
@[simp] theorem State.regWrite_freeCount (offset : Nat) (v : Word) (s : State) :
    (s.regWrite offset v).freeCount = s.freeCount := by
  unfold State.regWrite; split
  · rfl
  · split <;> rfl

/-! The views of the state. -/

@[simp] theorem State.busy_idle (s : State) (h : s.cmdState = .idle) : s.busy = false := by simp [State.busy, h]

@[simp] theorem State.busy_busy (s : State) (op : Op) (h : s.cmdState = .busy op) : s.busy = true := by
  simp [State.busy, h]

theorem State.busy_eq_false_iff (s : State) : s.busy = false ↔ s.cmdState = .idle := by
  cases h : s.cmdState <;> simp [State.busy, h]

theorem State.busy_eq_true_iff (s : State) : s.busy = true ↔ ∃ op, s.cmdState = .busy op := by
  cases h : s.cmdState <;> simp [State.busy, h]

/-- STATUS of an IDLE block without DONE or ERROR is 0. -/
theorem State.status_begin_idle (s : State) : (s.begin .idle).status = 0#32 := by
  simp [State.status, State.busy]

theorem State.status_complete (s : State) : s.complete.status = 2#32 := by simp [State.status, State.busy]

theorem State.status_takeError (b : Bool) (e : ErrKind) (s : State) : (takeError b e s).status = 6#32 := by
  simp [State.status, State.busy]

theorem ErrKind.code_ne_zero (e : ErrKind) : e.code ≠ 0#4 := by cases e <;> decide

theorem ErrKind.code_injective (e f : ErrKind) (h : e.code = f.code) : e = f := by
  cases e <;> cases f <;> first | rfl | (exact absurd h (by decide))

end Sys2Proof.Machine
end

