-- ==== Sys2Proof/Laws/Memory.lean ====
section
/-! SUPPORT. The laws of tables and buffers: read after write, and that every memory operation keeps the canonical
form. -/

namespace Sys2Proof.Machine

variable {β : Type}

/-! ### The canonical form -/

theorem tableOkFrom_weaken {low low' : Nat} {t : Table β} (h : tableOkFrom low t = true) (hl : low' ≤ low) :
    tableOkFrom low' t = true := by
  cases t with
  | nil => rfl
  | cons p rest =>
    obtain ⟨k, v⟩ := p
    simp only [tableOkFrom, Bool.and_eq_true, decide_eq_true_eq] at h ⊢
    exact ⟨by omega, h.2⟩

/-- Nothing is listed below the bound of a canonical table. -/
theorem tableRead_below {low i : Nat} {t : Table β} (h : tableOkFrom low t = true) (hi : i < low) :
    tableRead t i = none := by
  induction t generalizing low with
  | nil => rfl
  | cons p rest ih =>
    obtain ⟨k, v⟩ := p
    simp only [tableOkFrom, Bool.and_eq_true, decide_eq_true_eq] at h
    have hne : i ≠ k := by omega
    simp only [tableRead, hne, if_false]
    exact ih h.2 (by omega)

theorem tableOkFrom_tableWrite {low i : Nat} {v : β} {t : Table β} (h : tableOkFrom low t = true) (hi : low ≤ i) :
    tableOkFrom low (tableWrite t i v) = true := by
  induction t generalizing low with
  | nil => simp [tableWrite, tableOkFrom, hi]
  | cons p rest ih =>
    obtain ⟨k, w⟩ := p
    simp only [tableOkFrom, Bool.and_eq_true, decide_eq_true_eq] at h
    simp only [tableWrite]
    split
    · simp only [tableOkFrom, Bool.and_eq_true, decide_eq_true_eq]
      exact ⟨hi, by omega, h.2⟩
    · split
      · next hik =>
        subst hik
        simp only [tableOkFrom, Bool.and_eq_true, decide_eq_true_eq]
        exact h
      · simp only [tableOkFrom, Bool.and_eq_true, decide_eq_true_eq]
        exact ⟨h.1, ih h.2 (by omega)⟩

/-- A write keeps the canonical form. -/
theorem tableOk_tableWrite {i : Nat} {v : β} {t : Table β} (h : tableOk t = true) :
    tableOk (tableWrite t i v) = true :=
  tableOkFrom_tableWrite h (Nat.zero_le i)

theorem tableOkFrom_tableCut {low bound : Nat} {t : Table β} (h : tableOkFrom low t = true) :
    tableOkFrom low (tableCut bound t) = true := by
  induction t generalizing low with
  | nil => rfl
  | cons p rest ih =>
    obtain ⟨k, v⟩ := p
    simp only [tableOkFrom, Bool.and_eq_true, decide_eq_true_eq] at h
    simp only [tableCut]
    split
    · simp only [tableOkFrom, Bool.and_eq_true, decide_eq_true_eq]
      exact ⟨h.1, ih h.2⟩
    · exact tableOkFrom_weaken (ih h.2) (by omega)

/-- Cutting keeps the canonical form. -/
theorem tableOk_tableCut {bound : Nat} {t : Table β} (h : tableOk t = true) : tableOk (tableCut bound t) = true :=
  tableOkFrom_tableCut h

/-! ### Reading after writing and cutting -/

@[simp] theorem tableRead_tableWrite_same (t : Table β) (i : Nat) (v : β) : tableRead (tableWrite t i v) i = some v := by
  induction t with
  | nil => simp [tableWrite, tableRead]
  | cons p rest ih =>
    obtain ⟨k, w⟩ := p
    simp only [tableWrite]
    split
    · simp [tableRead]
    · split
      · simp [tableRead]
      · next h => simp [tableRead, h, ih]

theorem tableRead_tableWrite_other (t : Table β) (i j : Nat) (v : β) (h : j ≠ i) :
    tableRead (tableWrite t i v) j = tableRead t j := by
  induction t with
  | nil => simp [tableWrite, tableRead, h]
  | cons p rest ih =>
    obtain ⟨k, w⟩ := p
    simp only [tableWrite]
    split
    · simp [tableRead, h]
    · split
      · next hk => subst hk; simp [tableRead, h]
      · simp [tableRead, ih]

theorem tableRead_tableWrite (t : Table β) (i j : Nat) (v : β) :
    tableRead (tableWrite t i v) j = if j = i then some v else tableRead t j := by
  split
  · next h => subst h; simp
  · next h => exact tableRead_tableWrite_other t i j v h

theorem tableRead_tableCut (t : Table β) (bound i : Nat) :
    tableRead (tableCut bound t) i = if i < bound then tableRead t i else none := by
  induction t with
  | nil => simp [tableCut, tableRead]
  | cons p rest ih =>
    obtain ⟨k, v⟩ := p
    by_cases hk : k < bound
    · simp only [tableCut, hk, if_true, tableRead, ih]
      by_cases hi : i = k
      · subst hi; simp [hk]
      · simp [hi]
    · simp only [tableCut, hk, if_false, tableRead, ih]
      by_cases hi : i = k
      · subst hi; simp [hk]
      · simp [hi]

/-- Canonical tables that list the same values are equal: equal contents are equal data. -/
theorem table_ext {low : Nat} {t u : Table β} (ht : tableOkFrom low t = true) (hu : tableOkFrom low u = true)
    (h : ∀ i, tableRead t i = tableRead u i) : t = u := by
  induction t generalizing low u with
  | nil =>
    cases u with
    | nil => rfl
    | cons q us =>
      have := h q.1
      simp [tableRead] at this
  | cons p ts ih =>
    obtain ⟨k, v⟩ := p
    cases u with
    | nil =>
      have := h k
      simp [tableRead] at this
    | cons q us =>
      obtain ⟨l, w⟩ := q
      simp only [tableOkFrom, Bool.and_eq_true, decide_eq_true_eq] at ht hu
      have hkl : k = l := by
        rcases Nat.lt_trichotomy k l with hlt | heq | hgt
        · have hne : k ≠ l := by omega
          have := h k
          simp [tableRead, hne, tableRead_below hu.2 (show k < l + 1 by omega)] at this
        · exact heq
        · have hne : l ≠ k := by omega
          have := h l
          simp [tableRead, hne, tableRead_below ht.2 (show l < k + 1 by omega)] at this
      subst hkl
      have hv : v = w := by simpa [tableRead] using h k
      subst hv
      congr 1
      apply ih ht.2 hu.2
      intro i
      rcases Nat.lt_or_ge i (k + 1) with hi | hi
      · rw [tableRead_below ht.2 hi, tableRead_below hu.2 hi]
      · have hne : i ≠ k := by omega
        simpa [tableRead, hne] using h i

/-! ### Bounds -/

theorem tableBelow_tableWrite {bound i : Nat} {v : β} {t : Table β} (h : tableBelow bound t = true) (hi : i < bound) :
    tableBelow bound (tableWrite t i v) = true := by
  induction t with
  | nil => simp [tableWrite, tableBelow, hi]
  | cons p rest ih =>
    obtain ⟨k, w⟩ := p
    simp only [tableBelow, Bool.and_eq_true, decide_eq_true_eq] at h
    simp only [tableWrite]
    split
    · simp [tableBelow, hi, h.1, h.2]
    · split
      · simp [tableBelow, hi, h.2]
      · simp [tableBelow, h.1, ih h.2]

theorem tableBelow_tableCut {bound n : Nat} {t : Table β} (h : tableBelow bound t = true) :
    tableBelow bound (tableCut n t) = true := by
  induction t with
  | nil => rfl
  | cons p rest ih =>
    obtain ⟨k, w⟩ := p
    simp only [tableBelow, Bool.and_eq_true, decide_eq_true_eq] at h
    simp only [tableCut]
    split
    · simp [tableBelow, h.1, ih h.2]
    · exact ih h.2

/-- A property of the listed offsets that the written offset has is kept by a write. -/
theorem all_tableWrite {p : Nat → Bool} {i : Nat} {v : β} {t : Table β} (h : t.all (fun q => p q.1) = true)
    (hi : p i = true) : (tableWrite t i v).all (fun q => p q.1) = true := by
  induction t with
  | nil => simp [tableWrite, hi]
  | cons q rest ih =>
    obtain ⟨k, w⟩ := q
    simp only [List.all_cons, Bool.and_eq_true] at h
    simp only [tableWrite]
    split
    · simp only [List.all_cons, Bool.and_eq_true]; exact ⟨hi, h⟩
    · split
      · simp only [List.all_cons, Bool.and_eq_true]; exact ⟨hi, h.2⟩
      · simp only [List.all_cons, Bool.and_eq_true]; exact ⟨h.1, ih h.2⟩

theorem all_tableCut {p : Nat → Bool} {n : Nat} {t : Table β} (h : t.all (fun q => p q.1) = true) :
    (tableCut n t).all (fun q => p q.1) = true := by
  induction t with
  | nil => rfl
  | cons q rest ih =>
    simp only [List.all_cons, Bool.and_eq_true] at h
    simp only [tableCut]
    split
    · simp only [List.all_cons, Bool.and_eq_true]; exact ⟨h.1, ih h.2⟩
    · exact ih h.2

/-! ### Every memory operation keeps the canonical form -/

@[simp] theorem Memory.wf_nil : Memory.wf [] = true := rfl

theorem Memory.wf_tableWrite {m : Memory} {a : Nat} {v : Byte} (h : Memory.wf m = true) :
    Memory.wf (tableWrite m a v) = true :=
  tableOk_tableWrite h

theorem Memory.wf_tableCut {m : Memory} {n : Nat} (h : Memory.wf m = true) : Memory.wf (tableCut n m) = true :=
  tableOk_tableCut h

theorem State.putIn_wf {s : State} {a : Nat} {v : Byte} (h : Memory.wf s.inBuf = true) :
    Memory.wf (s.putIn a v).inBuf = true :=
  Memory.wf_tableWrite h

theorem putOut_wf {s t : State} {a : Nat} {v : Byte} (h : Memory.wf s.outBuf = true) (ht : putOut a v s = .ok t) :
    Memory.wf t.outBuf = true := by
  unfold putOut at ht
  split at ht
  · cases ht; exact Memory.wf_tableWrite h
  · cases ht

theorem outAppend_wf {s t : State} {v : Byte} (h : Memory.wf s.outBuf = true) (ht : outAppend v s = .ok t) :
    Memory.wf t.outBuf = true := by
  unfold outAppend at ht
  split at ht
  · cases ht
  · next u hu => cases ht; exact putOut_wf (t := u) h hu

theorem emitByte_wf {s t : State} {b : Byte} (h : Memory.wf s.outBuf = true) (ht : emitByte b s = .ok t) :
    Memory.wf t.outBuf = true := by
  unfold emitByte at ht
  split at ht
  · cases ht
  · next u hu => cases ht; exact putOut_wf (t := u) h hu

theorem State.setOutput_wf {s : State} {n : Nat} (h : Memory.wf s.outBuf = true) :
    Memory.wf (s.setOutput n).outBuf = true :=
  Memory.wf_tableCut h

theorem State.spoil_wf (s : State) : Memory.wf s.spoil.outBuf = true := rfl

theorem takeError_wf {s : State} {b : Bool} {e : ErrKind} (h : Memory.wf s.outBuf = true) :
    Memory.wf (takeError b e s).outBuf = true := by
  cases b
  · rfl
  · exact h

theorem placeBytes_wf {a : Nat} {bytes : List Byte} {m : Memory} (h : Memory.wf m = true) :
    Memory.wf (placeBytes a bytes m) = true := by
  induction bytes generalizing a m with
  | nil => exact h
  | cons b rest ih => exact ih (Memory.wf_tableWrite h)

theorem resetBlock_wf (s : State) : Memory.wf (resetBlock s).inBuf = true ∧ Memory.wf (resetBlock s).outBuf = true :=
  ⟨rfl, rfl⟩

/-- Reset has the canonical form. -/
theorem reset_wf : Memory.wf State.reset.inBuf = true ∧ Memory.wf State.reset.outBuf = true := ⟨rfl, rfl⟩

/-! ### Bytes -/

@[simp] theorem State.putIn_inByte_same (a : Nat) (v : Byte) (s : State) : (s.putIn a v).inByte a = v := by
  simp [State.inByte]

theorem State.putIn_inByte_other (a b : Nat) (v : Byte) (s : State) (h : b ≠ a) :
    (s.putIn a v).inByte b = s.inByte b := by
  simp [State.inByte, tableRead_tableWrite_other _ _ _ _ h]

@[simp] theorem bytesFrom_length (view : Nat → Byte) (a n : Nat) : (bytesFrom view a n).length = n := by
  induction n generalizing a with
  | zero => rfl
  | succ n ih => simp [bytesFrom, ih]

theorem bytesFrom_getD (view : Nat → Byte) (a n k : Nat) (d : Byte) (h : k < n) :
    (bytesFrom view a n).getD k d = view (a + k) := by
  induction n generalizing a k with
  | zero => omega
  | succ n ih =>
    cases k with
    | zero => simp [bytesFrom]
    | succ k =>
      have := ih (a + 1) k (by omega)
      simp only [bytesFrom, List.getD_cons_succ, this]
      congr 1
      omega

theorem bytesFrom_congr {f g : Nat → Byte} {a n : Nat} (h : ∀ k, k < n → f (a + k) = g (a + k)) :
    bytesFrom f a n = bytesFrom g a n := by
  induction n generalizing a with
  | zero => rfl
  | succ n ih =>
    simp only [bytesFrom]
    rw [show f a = g a from h 0 (by omega), ih]
    intro k hk
    have := h (k + 1) (by omega)
    rwa [show a + 1 + k = a + (k + 1) by omega]

end Sys2Proof.Machine
end

