-- ==== Sys2Proof/Laws/Ops.lean ====
section
/-! SUPPORT. What each shared operation of Machine/Ops.lean and Machine/Decoder.lean can do, said once: provers cite
these and unfold no operation. -/

namespace Sys2Proof.Machine

/-! ### Output bytes -/

theorem putOut_ok_iff (a : Nat) (v : Byte) (s t : State) :
    putOut a v s = .ok t ↔ s.cfg.fits a = true ∧ t = { s with outBuf := tableWrite s.outBuf a v } := by
  unfold putOut
  split
  · next h => simp [h, eq_comm]
  · next h => simp [h]

theorem putOut_error_iff (a : Nat) (v : Byte) (s : State) (e : ErrKind) :
    putOut a v s = .error e ↔ s.cfg.fits a = false ∧ e = .capacityExceeded := by
  unfold putOut
  split
  · next h => simp [h]
  · next h => simp [h, eq_comm]

theorem outAppend_ok_iff (v : Byte) (s t : State) :
    outAppend v s = .ok t ↔ s.cfg.fits s.outPos = true ∧
      t = { s with outBuf := tableWrite s.outBuf s.outPos v, outPos := s.outPos + 1 } := by
  unfold outAppend putOut
  by_cases h : s.cfg.fits s.outPos = true <;> simp [h, eq_comm]

theorem outAppend_error_iff (v : Byte) (s : State) (e : ErrKind) :
    outAppend v s = .error e ↔ s.cfg.fits s.outPos = false ∧ e = .capacityExceeded := by
  unfold outAppend putOut
  by_cases h : s.cfg.fits s.outPos = true <;> simp [h, eq_comm]

theorem outAppendAll_append (xs ys : List Byte) (s : State) :
    outAppendAll (xs ++ ys) s =
      match outAppendAll xs s with
      | .error e => .error e
      | .ok t => outAppendAll ys t := by
  induction xs generalizing s with
  | nil => rfl
  | cons x xs ih =>
    simp only [List.cons_append, outAppendAll]
    cases outAppend x s with
    | error e => rfl
    | ok t => exact ih t

/-- An append that succeeds writes its byte at the cursor and changes no other byte. -/
theorem outAppend_bytes {v : Byte} {s t : State} (h : outAppend v s = .ok t) :
    t.outByte s.outPos = v ∧ ∀ a, a ≠ s.outPos → t.outByte a = s.outByte a := by
  obtain ⟨-, rfl⟩ := (outAppend_ok_iff v s t).mp h
  refine ⟨by simp [State.outByte], fun a ha => ?_⟩
  simp [State.outByte, tableRead_tableWrite_other _ _ _ _ ha]

/-! ### Reading bits -/

theorem skipBits_ok_iff (n : Nat) (s t : State) :
    skipBits n s = .ok t ↔ s.canRead n = true ∧ t = { s with rpos := s.rpos + n } := by
  unfold skipBits
  split
  · next h => simp [h, eq_comm]
  · next h => simp [h]

theorem skipBits_error_iff (n : Nat) (s : State) (e : ErrKind) :
    skipBits n s = .error e ↔ s.canRead n = false ∧ e = .malformedStream := by
  unfold skipBits
  split
  · next h => simp [h]
  · next h => simp [h, eq_comm]

theorem readBits_ok_iff (n : Nat) (s : State) (r : Nat × State) :
    readBits n s = .ok r ↔ s.canRead n = true ∧ r = (s.field s.rpos n, { s with rpos := s.rpos + n }) := by
  unfold readBits
  split
  · next h => simp [h, eq_comm]
  · next h => simp [h]

theorem readBits_error_iff (n : Nat) (s : State) (e : ErrKind) :
    readBits n s = .error e ↔ s.canRead n = false ∧ e = .malformedStream := by
  unfold readBits
  split
  · next h => simp [h]
  · next h => simp [h, eq_comm]

@[simp] theorem State.canRead_zero (s : State) : s.canRead 0 = true ↔ s.rpos ≤ 8 * s.rlen + 7 := by
  simp [State.canRead]

theorem State.field_lt (s : State) (q n : Nat) : s.field q n < 2 ^ n := by
  induction n generalizing q with
  | zero => simp [State.field]
  | succ n ih =>
    have h := ih (q + 1)
    have hb : (s.streamBit q).toNat ≤ 1 := Bool.toNat_le _
    simp only [State.field, Nat.pow_succ]
    omega

@[simp] theorem State.streamBits_length (s : State) (q n : Nat) : (s.streamBits q n).length = n := by
  induction n generalizing q with
  | zero => rfl
  | succ n ih => simp [State.streamBits, ih]

theorem State.streamBits_append (s : State) (q m n : Nat) :
    s.streamBits q (m + n) = s.streamBits q m ++ s.streamBits (q + m) n := by
  induction m generalizing q with
  | zero => simp [State.streamBits]
  | succ m ih =>
    rw [show m + 1 + n = (m + n) + 1 by omega]
    simp only [State.streamBits, List.cons_append, ih (q + 1)]
    rw [show q + 1 + m = q + (m + 1) by omega]

/-- A stream bit depends only on the reader's slice and the buffer it lies in. -/
theorem State.streamBit_congr {s t : State} (hb : t.inBuf = s.inBuf) (he : t.inEpoch = s.inEpoch)
    (hr : t.rbase = s.rbase) (hl : t.rlen = s.rlen) (q : Nat) : t.streamBit q = s.streamBit q := by
  simp [State.streamBit, State.inByte, hb, he, hr, hl]

theorem State.field_congr {s t : State} (hb : t.inBuf = s.inBuf) (he : t.inEpoch = s.inEpoch)
    (hr : t.rbase = s.rbase) (hl : t.rlen = s.rlen) (q n : Nat) : t.field q n = s.field q n := by
  induction n generalizing q with
  | zero => rfl
  | succ n ih => simp [State.field, State.streamBit_congr hb he hr hl, ih]

/-! ### Writing bits -/

theorem emitByte_ok_iff (b : Byte) (s t : State) :
    emitByte b s = .ok t ↔ s.cfg.fits (s.wbase + s.wlen) = true ∧
      t = { s with outBuf := tableWrite s.outBuf (s.wbase + s.wlen) b, wlen := s.wlen + 1 } := by
  unfold emitByte putOut
  by_cases h : s.cfg.fits (s.wbase + s.wlen) = true <;> simp [h, eq_comm]

theorem emitByte_error_iff (b : Byte) (s : State) (e : ErrKind) :
    emitByte b s = .error e ↔ s.cfg.fits (s.wbase + s.wlen) = false ∧ e = .capacityExceeded := by
  unfold emitByte putOut
  by_cases h : s.cfg.fits (s.wbase + s.wlen) = true <;> simp [h, eq_comm]

/-- One bit: kept in the current byte, or the eighth bit, which completes and appends it. -/
theorem writeBit_ok_cases {b : Bool} {s t : State} (h : writeBit b s = .ok t) :
    (s.wnb + 1 ≠ 8 ∧
      t = { s with wcur := s.wcur ||| ((BitVec.ofBool b).setWidth 8 <<< s.wnb), wnb := s.wnb + 1 }) ∨
    (s.wnb + 1 = 8 ∧ s.cfg.fits (s.wbase + s.wlen) = true ∧
      t = { s with
        outBuf := tableWrite s.outBuf (s.wbase + s.wlen) (s.wcur ||| ((BitVec.ofBool b).setWidth 8 <<< s.wnb))
        wlen := s.wlen + 1
        wcur := 0#8
        wnb := 0 }) := by
  unfold writeBit at h
  dsimp only at h
  split at h
  · next h8 =>
    split at h
    · cases h
    · next u hu =>
      obtain ⟨hf, rfl⟩ := (emitByte_ok_iff _ _ _).mp hu
      cases h
      exact .inr ⟨h8, hf, rfl⟩
  · next h8 => cases h; exact .inl ⟨h8, rfl⟩

@[simp] theorem writeBits_zero (v : Nat) (s : State) : writeBits v 0 s = .ok s := rfl

theorem writeBits_succ (v n : Nat) (s : State) :
    writeBits v (n + 1) s =
      match writeBit (v.testBit 0) s with
      | .error e => .error e
      | .ok t => writeBits (v / 2) n t := rfl

theorem writeList_append (xs ys : List Bool) (s : State) :
    writeList (xs ++ ys) s =
      match writeList xs s with
      | .error e => .error e
      | .ok t => writeList ys t := by
  induction xs generalizing s with
  | nil => rfl
  | cons x xs ih =>
    simp only [List.cons_append, writeList]
    cases writeBit x s with
    | error e => rfl
    | ok t => exact ih t

/-- What a write of bits can change. -/
theorem writeBit_frame {b : Bool} {s t : State} (h : writeBit b s = .ok t) :
    t = { s with outBuf := t.outBuf, wlen := t.wlen, wcur := t.wcur, wnb := t.wnb } := by
  rcases writeBit_ok_cases h with ⟨-, rfl⟩ | ⟨-, -, rfl⟩ <;> rfl

theorem writeBits_frame {v n : Nat} {s t : State} (h : writeBits v n s = .ok t) :
    t = { s with outBuf := t.outBuf, wlen := t.wlen, wcur := t.wcur, wnb := t.wnb } := by
  induction n generalizing v s with
  | zero => cases h; rfl
  | succ n ih =>
    rw [writeBits_succ] at h
    split at h
    · cases h
    · next u hu =>
      have h1 := writeBit_frame hu
      have h2 := ih h
      rw [h1] at h2
      exact h2

theorem alignWriter_ok_cases {s t : State} (h : alignWriter s = .ok t) :
    (s.wnb = 0 ∧ t = s) ∨
    (0 < s.wnb ∧ s.cfg.fits (s.wbase + s.wlen) = true ∧
      t = { s with
        outBuf := tableWrite s.outBuf (s.wbase + s.wlen) s.wcur, wlen := s.wlen + 1, wcur := 0#8, wnb := 0 }) := by
  unfold alignWriter at h
  split at h
  · next h0 =>
    split at h
    · cases h
    · next u hu =>
      obtain ⟨hf, rfl⟩ := (emitByte_ok_iff _ _ _).mp hu
      cases h
      exact .inr ⟨h0, hf, rfl⟩
  · next h0 => cases h; exact .inl ⟨by omega, rfl⟩

/-! ### Outcomes -/

@[simp] theorem settle_ok (s t : State) : settle s (.ok t) = .next t := rfl

@[simp] theorem settle_error (s : State) (e : ErrKind) : settle s (.error e) = .next (takeError false e s) := rfl

/-- An engine step always answers a state: the rule's own, or the error taken from the state it began in. -/
theorem settle_cases (s : State) (r : Except ErrKind State) :
    (∃ t, r = .ok t ∧ settle s r = .next t) ∨ ∃ e, r = .error e ∧ settle s r = .next (takeError false e s) := by
  cases r with
  | ok t => exact .inl ⟨t, rfl, rfl⟩
  | error e => exact .inr ⟨e, rfl, rfl⟩

theorem atPlace_true (s : State) (r : Except ErrKind State) : atPlace true s r = settle s r := rfl

theorem atPlace_false (s : State) (r : Except ErrKind State) : atPlace false s r = .fault .internalViolation := rfl

/-- A stream instruction answers a state only in its place. -/
theorem atPlace_next {here : Bool} {s t : State} {r : Except ErrKind State} (h : atPlace here s r = .next t) :
    here = true ∧ settle s r = .next t := by
  cases here
  · simp [atPlace] at h
  · exact ⟨rfl, h⟩

theorem pendingLength_eq_some_iff (s : State) (len : Nat) :
    s.pendingLength = some len ↔ s.decompressing = true ∧ s.phase = .dist len := by
  unfold State.pendingLength
  split
  · next l h => by_cases hd : s.decompressing = true <;> simp [hd, h]
  · next h =>
    simp only [reduceCtorEq, false_iff, not_and]
    intro _ hp
    exact h len hp

theorem atDistance_some (s : State) (rule : Nat → Except ErrKind State) (len : Nat) (h : s.pendingLength = some len) :
    atDistance s rule = settle s (rule len) := by
  simp [atDistance, h]

theorem atDistance_none (s : State) (rule : Nat → Except ErrKind State) (h : s.pendingLength = none) :
    atDistance s rule = .fault .internalViolation := by
  simp [atDistance, h]

/-! ### The literal, the copy and the raw bytes -/

theorem literal_ok_iff (width value : Nat) (s t : State) :
    literal width value s = .ok t ↔ s.canRead width = true ∧ s.cfg.fits s.outPos = true ∧
      t = { s with
        rpos := s.rpos + width
        outBuf := tableWrite s.outBuf s.outPos (BitVec.ofNat 8 value)
        outPos := s.outPos + 1 } := by
  unfold literal
  by_cases h : s.canRead width = true
  · have hs := (skipBits_ok_iff width s _).mpr ⟨h, rfl⟩
    simp only [hs, h, true_and]
    exact outAppend_ok_iff _ _ _
  · have hs := (skipBits_error_iff width s .malformedStream).mpr ⟨by simpa using h, rfl⟩
    simp only [hs, h]
    simp [bind, Except.bind]

/-- A copy changes only the output bytes from the cursor on. -/
theorem copyFrom_frame {a k : Nat} {s t : State} (h : copyFrom a k s = .ok t) :
    t = { s with outBuf := t.outBuf, outPos := s.outPos + k } ∧ ∀ b, b < s.outPos → t.outByte b = s.outByte b := by
  induction k generalizing a s with
  | zero => cases h; exact ⟨rfl, fun _ _ => rfl⟩
  | succ k ih =>
    simp only [copyFrom] at h
    split at h
    · cases h
    · next u hu =>
      have hb := (outAppend_bytes hu).2
      obtain ⟨-, hu'⟩ := (outAppend_ok_iff _ _ _).mp hu
      obtain ⟨h1, h2⟩ := ih h
      have hp : u.outPos = s.outPos + 1 := by rw [hu']
      refine ⟨?_, fun b hb' => ?_⟩
      · rw [h1, hu']
        simp only [State.mk.injEq, true_and, and_true]
        omega
      · rw [h2 b (by omega), hb b (by omega)]

theorem copyRaw_frame {k : Nat} {s t : State} (h : copyRaw k s = .ok t) :
    t = { s with outBuf := t.outBuf, outPos := s.outPos + k, rpos := s.rpos + 8 * k } := by
  induction k generalizing s with
  | zero => cases h; rfl
  | succ k ih =>
    simp only [copyRaw] at h
    split at h
    · cases h
    · next v u hu =>
      split at h
      · cases h
      · next w hw =>
        obtain ⟨-, hr⟩ := (readBits_ok_iff _ _ _).mp hu
        obtain ⟨-, hw'⟩ := (outAppend_ok_iff _ _ _).mp hw
        have h1 := ih h
        cases hr
        rw [h1, hw']
        simp only [State.mk.injEq, true_and, and_true]
        omega

end Sys2Proof.Machine
end

