-- ==== Sys2Proof/Laws/Engine.lean ====
section
/-! SUPPORT. What one engine step, the run of a command and one machine step unfold to, said once. -/

namespace Sys2Proof.Machine

/-- A stream instruction's meaning is the one exec gives it. -/
theorem streamExec_eq_exec (i : Instr) (s : State) (h : i.space ≠ .cmd) : streamExec i s = exec i s := by
  cases i <;> first | rfl | exact absurd rfl h

/-- Where the decoder reads a code, the engine step is the stream step of its context. -/
theorem engineStep_stream (s : State) (sp : Space) (h : s.fetchSpace = some sp) : engineStep s = stepStream sp s := by
  simp [engineStep, h]

theorem stepStream_some (sp : Space) (s : State) (i : Instr) (h : s.fetch sp = some i) :
    stepStream sp s = streamExec i s := by
  simp [stepStream, h]

theorem stepStream_none (sp : Space) (s : State) (h : s.fetch sp = none) :
    stepStream sp s = .next (takeError false .malformedStream s) := by
  simp [stepStream, h]

@[simp] theorem runEngine_zero (s : State) : runEngine 0 s = .next s := rfl

theorem runEngine_idle (fuel : Nat) (s : State) (h : s.busy = false) : runEngine fuel s = .next s := by
  cases fuel with
  | zero => rfl
  | succ n => simp [runEngine, h]

theorem runEngine_succ_next (fuel : Nat) (s t : State) (hb : s.busy = true) (h : engineStep s = .next t) :
    runEngine (fuel + 1) s = runEngine fuel t := by
  simp [runEngine, hb, h]

/-- Engine steps compose. -/
theorem runEngine_add (m n : Nat) (s t : State) (h : runEngine m s = .next t) :
    runEngine (m + n) s = runEngine n t := by
  induction m generalizing s with
  | zero =>
    simp only [runEngine_zero, Host.Outcome.next.injEq] at h
    subst h
    simp
  | succ m ih =>
    rw [show m + 1 + n = (m + n) + 1 by omega]
    by_cases hb : s.busy = true
    · simp only [runEngine, hb, if_true] at h ⊢
      cases he : engineStep s with
      | next u => simp only [he] at h ⊢; exact ih u h
      | fault r => simp [he] at h
      | refused r => simp [he] at h
    · simp only [runEngine, hb] at h ⊢
      simp only [Bool.false_eq_true, if_false, Host.Outcome.next.injEq] at h ⊢
      subst h
      exact (runEngine_idle n s (by simpa using hb)).symm

/-- A data command of an IDLE block in one step. -/
theorem dataCommand_whole (op : Op) (s : State) (hi : s.cmdState = .idle) (hp : s.cfg.pace = .whole) :
    dataCommand op s = runEngine (engineBound s.inLen.toNat) (startCommand op s) := by
  simp [dataCommand, whenIdle, State.busy_idle s hi, hp]

/-- A data command of an IDLE block, started only. -/
theorem dataCommand_stepwise (op : Op) (s : State) (hi : s.cmdState = .idle) (hp : s.cfg.pace = .stepwise) :
    dataCommand op s = .next (startCommand op s) := by
  simp [dataCommand, whenIdle, State.busy_idle s hi, hp]

theorem whenIdle_busy (s : State) (o : Outcome) (h : s.busy = true) : whenIdle s o = .fault .hostWriteWhileBusy := by
  simp [whenIdle, h]

theorem whenIdle_idle (s : State) (o : Outcome) (h : s.busy = false) : whenIdle s o = o := by
  simp [whenIdle, h]

/-- The capacity check of a command start. -/
theorem startCommand_over (op : Op) (s : State) (h : s.cfg.inCap < s.inLen.toNat) :
    startCommand op s = takeError true .capacityExceeded (s.begin (.busy op)) := by
  simp [startCommand, h]

theorem startCommand_ok (op : Op) (s : State) (h : s.inLen.toNat ≤ s.cfg.inCap) :
    startCommand op s = { (s.begin (.busy op)).restart with phase := op.firstPhase } := by
  simp [startCommand, Nat.not_lt.mpr h]

/-- The step of a block whose host has nothing more to do. -/
theorem step_quiet (s : State) (h : s.script = []) : step s = if s.busy then engineStep s else .next s := by
  simp [step, h]

/-- The step on the host's turn, a register write apart. -/
theorem step_host (s : State) (e : HostEvent) (rest : List HostEvent) (h : s.script = e :: rest)
    (ht : hostTurn e s = true) (hw : ∀ width offset v, e.action ≠ .writeReg width offset v) :
    step s = hostAct e.action { s with script := rest } := by
  unfold step
  simp only [h, ht, if_true]

/-- The step on the host's turn for a register write. -/
theorem step_write (s : State) (after width offset : Nat) (v : Word) (rest : List HostEvent)
    (h : s.script = ⟨after, .writeReg width offset v⟩ :: rest)
    (ht : hostTurn ⟨after, .writeReg width offset v⟩ s = true) :
    step s = hostWrite width offset v { s with script := rest } := by
  unfold step
  simp only [h, ht, if_true]

/-- The step when the pending action has not landed. -/
theorem step_engine (s : State) (e : HostEvent) (rest : List HostEvent) (h : s.script = e :: rest)
    (ht : hostTurn e s = false) :
    step s = engineStep { s with script := { e with after := e.after - 1 } :: rest } := by
  unfold step
  simp [h, ht, tick]

theorem hostTurn_idle (e : HostEvent) (s : State) (h : s.busy = false) : hostTurn e s = true := by
  simp [hostTurn, h]

/-- The engine reads no field of the script or of the host's last read: where it reads a code does not depend on them. -/
theorem fetchSpace_script (s : State) (l : List HostEvent) : State.fetchSpace { s with script := l } = s.fetchSpace :=
  rfl

end Sys2Proof.Machine
end

