-- ==== Sys2Proof/Laws/Gzip.lean ====
section
/-! SUPPORT. What the gzip header's shared operations can do, said once. -/

namespace Sys2Proof.Machine

/-- FHCRC as 44_gzip_framer.md R211 writes it: the unit's final value is the checksum of the bytes before the field. -/
theorem checkHeaderCrc_eq (stop h : Nat) (s : State) :
    checkHeaderCrc stop h s =
      if stop < h + 2 then .error .malformedStream
      else if rd16 s.inByte h ≠ (crc32 (bytesFrom s.inByte 0 h)).setWidth 16 then .error .checksumMismatch
      else .ok (h + 2, s.runCrc (bytesFrom s.inByte 0 h)) := rfl

/-- FHCRC that passes: it ends before the footer, agrees with the unit's checksum, and the unit has run. -/
theorem checkHeaderCrc_ok_iff (stop h : Nat) (s : State) (r : Nat × State) :
    checkHeaderCrc stop h s = .ok r ↔ h + 2 ≤ stop ∧ rd16 s.inByte h = (crc32 (bytesFrom s.inByte 0 h)).setWidth 16 ∧
      r = (h + 2, s.runCrc (bytesFrom s.inByte 0 h)) := by
  rw [checkHeaderCrc_eq]
  split
  · next h1 => simp [h1]
  · next h1 =>
    split
    · next h2 => simp only [reduceCtorEq, false_iff]; exact fun h => h2 h.2.1
    · next h2 => simp only [Except.ok.injEq, not_not] at h2 ⊢; exact ⟨fun h => ⟨by omega, h2, h.symm⟩, fun h => h.2.2.symm⟩

theorem checkHeaderCrc_error_iff (stop h : Nat) (s : State) (e : ErrKind) :
    checkHeaderCrc stop h s = .error e ↔ (stop < h + 2 ∧ e = .malformedStream) ∨
      (h + 2 ≤ stop ∧ rd16 s.inByte h ≠ (crc32 (bytesFrom s.inByte 0 h)).setWidth 16 ∧ e = .checksumMismatch) := by
  rw [checkHeaderCrc_eq]
  split
  · next h1 =>
    simp only [Except.error.injEq, h1, true_and]
    exact ⟨fun h => .inl h.symm, fun h => h.elim Eq.symm fun h => absurd h.1 (by omega)⟩
  · next h1 =>
    split
    · next h2 =>
      simp only [Except.error.injEq]
      exact ⟨fun h => .inr ⟨by omega, h2, h.symm⟩, fun h => h.elim (fun h => absurd h.1 h1) fun h => h.2.2.symm⟩
    · next h2 =>
      simp only [reduceCtorEq, false_iff]
      exact fun h => h.elim (fun h => h1 h.1) fun h => h2 h.2.1

/-- The optional fields change no state but the CRC unit's register, and that only with FHCRC. -/
theorem optionalFields_frame {flg : Byte} {stop : Nat} {s : State} {r : Nat × State}
    (h : optionalFields flg stop s = .ok r) :
    r.2 = { s with crc := r.2.crc } ∧ (flg.getLsbD 1 = false → r.2 = s) := by
  unfold optionalFields at h
  cases hs : skipFields s.inByte flg stop with
  | error e => simp [hs, bind, Except.bind] at h
  | ok o =>
    simp only [hs, bind, Except.bind] at h
    split at h
    · next hf =>
      obtain ⟨-, -, rfl⟩ := (checkHeaderCrc_ok_iff _ _ _ _).mp h
      exact ⟨rfl, fun hn => by rw [hf] at hn; cases hn⟩
    · cases h
      exact ⟨rfl, fun _ => rfl⟩

/-- A zero-terminated field ends where the rule says and within its bound. -/
theorem skipZstring_ok {b : Nat → Byte} {fuel h r : Nat} (hr : skipZstring b fuel h = .ok r) :
    h < r ∧ r ≤ h + fuel ∧ b (r - 1) = 0#8 ∧ ∀ k, h ≤ k → k + 1 < r → b k ≠ 0#8 := by
  induction fuel generalizing h with
  | zero => cases hr
  | succ fuel ih =>
    unfold skipZstring at hr
    split at hr
    · next hz =>
      cases hr
      exact ⟨by omega, by omega, by simpa using hz, fun k h1 h2 => by omega⟩
    · next hz =>
      obtain ⟨h1, h2, h3, h4⟩ := ih hr
      refine ⟨by omega, by omega, h3, fun k hk1 hk2 => ?_⟩
      by_cases hk : k = h
      · subst hk; exact hz
      · exact h4 k (by omega) hk2

end Sys2Proof.Machine
end

