-- ==== Sys2Proof/Laws/Matching.lean ====
section
/-! SUPPORT. The matcher on an input in which no three bytes repeat: every token is a literal. Tests/Slice0.lean needs it
to show an input too large for a stored block. -/

namespace Sys2Proof.Machine

/-- No three bytes occur at two positions of the input. -/
def Unrepeated (D : Nat → Byte) (n : Nat) : Prop :=
  ∀ p q, p < q → q + 3 ≤ n → ¬ (D p = D q ∧ D (p + 1) = D (q + 1) ∧ D (p + 2) = D (q + 2))

/-- The entries of `head` and the fresh entries of `prev` point backwards. -/
def LinksBack (n i : Nat) (m : Matcher) : Prop :=
  (∀ h p, tableRead m.head h = some p → p < i) ∧
    ∀ p, p < i → p + 3 ≤ n → i ≤ p + 32768 →
      ∃ o, tableRead m.prev (p % 32768) = some o ∧ ∀ q, o = some q → q < p

theorem matchLen_lt_three {D : Nat → Byte} {p q limit : Nat}
    (h : ¬ (D p = D q ∧ D (p + 1) = D (q + 1) ∧ D (p + 2) = D (q + 2))) : matchLen D p q limit < 3 := by
  rcases limit with _ | _ | _ | l
  all_goals simp only [matchLen]
  all_goals (try split) <;> (try split) <;> (try split) <;> first | omega | skip
  all_goals simp_all

theorem chainWalk_short {D : Nat → Byte} {n i limit : Nat} {m : Matcher} (hD : Unrepeated D n) (hi : i + 3 ≤ n)
    (hm : LinksBack n i m) (fuel : Nat) (cand : Option Nat) (best : Nat × Nat) (hc : ∀ p, cand = some p → p < i)
    (hb : best.1 < 3) : (chainWalk D m.prev i limit fuel cand best).1 < 3 := by
  induction fuel generalizing cand best with
  | zero => exact hb
  | succ fuel ih =>
    cases cand with
    | none => exact hb
    | some p =>
      have hp := hc p rfl
      simp only [chainWalk]
      split
      · exact hb
      · next hd =>
        have hlen : matchLen D p i limit < 3 := matchLen_lt_three (hD p i hp hi)
        have hlink : ∀ q, chainLink m.prev (p % 32768) = some q → q < i := by
          obtain ⟨o, ho, hq⟩ := hm.2 p hp (by omega) (by omega)
          intro q hq'
          rw [chainLink, ho] at hq'
          have := hq q hq'
          omega
        split
        · split
          · exact hlen
          · exact ih _ _ hlink hlen
        · exact ih _ _ hlink hb

theorem insertPos_linksBack {D : Nat → Byte} {n i : Nat} {m : Matcher} (hm : LinksBack n i m) :
    LinksBack n (i + 1) (insertPos D n i m) := by
  unfold insertPos
  split
  · next hi =>
    refine ⟨fun h p hp => ?_, fun p hp hpn hw => ?_⟩
    · simp only [tableRead_tableWrite] at hp
      split at hp
      · cases hp; omega
      · have := hm.1 h p hp; omega
    · simp only [tableRead_tableWrite]
      by_cases hpi : p = i
      · subst hpi
        exact ⟨_, if_pos rfl, fun q hq => hm.1 _ q hq⟩
      · have hne : p % 32768 ≠ i % 32768 := by omega
        rw [if_neg hne]
        exact hm.2 p (by omega) hpn (by omega)
  · next hi =>
    refine ⟨fun h p hp => ?_, fun p hp hpn hw => ?_⟩
    · have := hm.1 h p hp; omega
    · exact hm.2 p (by omega) hpn (by omega)

/-- A step on such an input inserts its position and produces a literal. -/
theorem lz77Step_literal {D : Nat → Byte} {n : Nat} {m : Matcher} (hD : Unrepeated D n) (hm : LinksBack n m.pos m) :
    LinksBack n (m.pos + 1) (lz77Step D n m) ∧ (lz77Step D n m).pos = m.pos + 1 ∧
      (lz77Step D n m).tokens = m.tokens ++ [.literal (D m.pos)] := by
  have hshort : (if m.pos + 3 ≤ n then longestMatch D n m.pos m else (0, 0)).1 < 3 := by
    split
    · next hi => exact chainWalk_short hD hi hm _ _ _ (fun p hp => hm.1 _ p hp) (by decide)
    · decide
  have hstep : lz77Step D n m =
      { insertPos D n m.pos m with pos := m.pos + 1, tokens := m.tokens ++ [.literal (D m.pos)] } := by
    unfold lz77Step
    dsimp only
    rw [if_neg (by omega)]
  rw [hstep]
  have h := insertPos_linksBack (D := D) hm
  exact ⟨⟨h.1, h.2⟩, rfl, rfl⟩

theorem lz77Loop_literals {D : Nat → Byte} {n : Nat} (hD : Unrepeated D n) (fuel : Nat) (m : Matcher)
    (hm : LinksBack n m.pos m) (hf : n ≤ m.pos + fuel) :
    (lz77Loop D n fuel m).tokens = m.tokens ++ (bytesFrom D m.pos (n - m.pos)).map .literal := by
  induction fuel generalizing m with
  | zero => simp [lz77Loop, show n - m.pos = 0 by omega, bytesFrom]
  | succ fuel ih =>
    simp only [lz77Loop]
    split
    · next hlt =>
      obtain ⟨h1, h2, h3⟩ := lz77Step_literal hD hm
      rw [ih _ (by rw [h2]; exact h1) (by omega), h2, h3, show n - m.pos = (n - (m.pos + 1)) + 1 by omega]
      simp [bytesFrom]
    · next hge => simp [show n - m.pos = 0 by omega, bytesFrom]

/-- The tokens of an input without repeats are its bytes. -/
theorem lz77_unrepeated {D : Nat → Byte} {n : Nat} (hD : Unrepeated D n) (m : Matcher) :
    lz77 D n m = (bytesFrom D 0 n).map .literal := by
  have h := lz77Loop_literals hD n m.restart
    ⟨fun h p hp => by simp [Matcher.restart, tableRead] at hp, fun p hp => by simp [Matcher.restart] at hp⟩
    (by simp [Matcher.restart])
  simpa [lz77, Matcher.restart] using h

end Sys2Proof.Machine
end

