-- ==== Sys2Proof/Laws/PerInstr.lean ====
section
/-! SUPPORT. The family EncodingWidth, one lemma per constructor of Instr: an instruction's encoding has at least one bit
and no more than the decoder's window in its context, so a window that holds the encoding is read whole. -/

namespace Sys2Proof.Laws.EncodingWidth

/-- The encoding is not empty and fits the window of its context. -/
def Statement (i : Instr) : Prop := 0 < (encode i).length ∧ (encode i).length ≤ i.space.window

theorem of_any (i : Instr) : Statement i := by
  cases i <;> simp [Statement, encode, Instr.space, Space.window]

theorem clear : Statement .clear := of_any _
theorem deflateCompress : Statement .deflateCompress := of_any _
theorem deflateDecompress : Statement .deflateDecompress := of_any _
theorem gzipCompress : Statement .gzipCompress := of_any _
theorem gzipDecompress : Statement .gzipDecompress := of_any _
theorem crc32 : Statement .crc32 := of_any _
theorem reservedCmd (w : Word) : Statement (.reservedCmd w) := of_any _
theorem blockStored (final : Bool) : Statement (.blockStored final) := of_any _
theorem blockFixed (final : Bool) : Statement (.blockFixed final) := of_any _
theorem blockDynamicUnsupported (final : Bool) : Statement (.blockDynamicUnsupported final) := of_any _
theorem blockReserved (final : Bool) : Statement (.blockReserved final) := of_any _
theorem lit0To15 (c : BitVec 4) : Statement (.lit0To15 c) := of_any _
theorem lit16To79 (c : BitVec 6) : Statement (.lit16To79 c) := of_any _
theorem lit80To143 (c : BitVec 6) : Statement (.lit80To143 c) := of_any _
theorem lit144To159 (c : BitVec 4) : Statement (.lit144To159 c) := of_any _
theorem lit160To191 (c : BitVec 5) : Statement (.lit160To191 c) := of_any _
theorem lit192To255 (c : BitVec 6) : Statement (.lit192To255 c) := of_any _
theorem eob : Statement .eob := of_any _
theorem len257 : Statement .len257 := of_any _
theorem len258To259 (c : BitVec 1) : Statement (.len258To259 c) := of_any _
theorem len260To263 (c : BitVec 2) : Statement (.len260To263 c) := of_any _
theorem len264To271 (c : BitVec 3) : Statement (.len264To271 c) := of_any _
theorem len272To279 (c : BitVec 3) : Statement (.len272To279 c) := of_any _
theorem len280To283 (c : BitVec 2) : Statement (.len280To283 c) := of_any _
theorem len284To285 (c : BitVec 1) : Statement (.len284To285 c) := of_any _
theorem litlenInvalid (c : BitVec 1) : Statement (.litlenInvalid c) := of_any _
theorem dist0To15 (c : BitVec 4) : Statement (.dist0To15 c) := of_any _
theorem dist16To23 (c : BitVec 3) : Statement (.dist16To23 c) := of_any _
theorem dist24To27 (c : BitVec 2) : Statement (.dist24To27 c) := of_any _
theorem dist28To29 (c : BitVec 1) : Statement (.dist28To29 c) := of_any _
theorem distInvalid (c : BitVec 1) : Statement (.distInvalid c) := of_any _
theorem gzipMember (flg : Byte) (mtime : Word) (xfl os : Byte) : Statement (.gzipMember flg mtime xfl os) := of_any _

end Sys2Proof.Laws.EncodingWidth
end

