-- ==== Sys2Proof/Tests/Slice0.lean ====
section
/-! SUPPORT. The model's own tests, and for each obligation with hypotheses a witness that meets them. Expected values
come from the tables and vectors of spec/ (the vector is named at each test), never from a run of the model. -/

namespace Sys2Proof.Tests

open Sys2Proof.Machine Sys2Proof.Ref

/-! ### Small states -/

/-- An IDLE block with 32-byte buffers, `bytes` in IN and their number in IN_LEN. -/
def idleWith (p : Pace) (bytes : List Byte) : State :=
  { State.resetWith { inCap := 32, outCap := some 32, pace := p } with
    inLen := BitVec.ofNat 32 bytes.length
    inBuf := placeBytes 0 bytes [] }

/-- A BUSY block at a place of a command over `bytes`, the reader at their first bit. -/
def running (op : Op) (ph : Phase) (bytes : List Byte) : State :=
  { idleWith .stepwise bytes with cmdState := .busy op, phase := ph, rlen := bytes.length }

/-- A raw decoder about to read a code that the bytes of IN hold from bit 0 on. -/
def decoding (ph : Phase) (bytes : List Byte) : State := running .deflateDecompress ph bytes

/-- What a test looks at in an outcome's state. -/
def seen {α : Type} (o : Outcome) (f : State → α) : Option α := (nextState o).map f

/-- The results of a command: STATUS, ERR_CODE and the output. -/
def results (t : State) : Nat × Nat × List Byte := (t.status.toNat, t.errCode.toNat, t.output t.outLen.toNat)

/-- The state of an outcome that is one. -/
def after (s : State) (o : Outcome) : State := (nextState o).getD s

theorem next_after (s : State) (o : Outcome) (h : (nextState o).isSome = true) : o = .next (after s o) := by
  cases o <;> simp_all [nextState, after]

/-! ### WellFormed -/

theorem test_wf_refuses_command_words_as_reserved :
    (Instr.reservedCmd 3#32).wf = false ∧ (Instr.reservedCmd 0#32).wf = false ∧ (Instr.reservedCmd 5#32).wf = false := by
  decide

theorem test_wf_admits_reserved_words :
    (Instr.reservedCmd 6#32).wf = true ∧ (Instr.reservedCmd 0x10#32).wf = true ∧
      (Instr.reservedCmd 0xFFFFFFFF#32).wf = true := by decide

/-! ### Decoding words written out from 30_encoding.md -/

/-- R70. -/
theorem test_decode_commands :
    decodeCmd 0x00000000#32 = .clear ∧ decodeCmd 0x00000001#32 = .deflateCompress ∧
      decodeCmd 0x00000002#32 = .deflateDecompress ∧ decodeCmd 0x00000003#32 = .gzipCompress ∧
      decodeCmd 0x00000004#32 = .gzipDecompress ∧ decodeCmd 0x00000005#32 = .crc32 ∧
      decodeCmd 0x00000006#32 = .reservedCmd 6#32 ∧ decodeCmd 0x00000015#32 = .reservedCmd 0x15#32 := by decide

/-- R71, R72: BFINAL first, BTYPE least significant bit first. -/
theorem test_decode_headers :
    decode .block [false, false, false] = some (.blockStored false, []) ∧
      decode .block [true, true, false] = some (.blockFixed true, []) ∧
      decode .block [true, false, true] = some (.blockDynamicUnsupported true, []) ∧
      decode .block [false, true, true] = some (.blockReserved false, []) := by decide

/-- R80: literals 15 = 0x3F, 16 = 0x40, 143 = 0xBF; V7: literal 0 is 00110000. -/
theorem test_decode_literals8 :
    decode .litlen [false, false, true, true, false, false, false, false] = some (.lit0To15 0#4, []) ∧
      decode .litlen [false, false, true, true, true, true, true, true] = some (.lit0To15 15#4, []) ∧
      decode .litlen [false, true, false, false, false, false, false, false] = some (.lit16To79 0#6, []) ∧
      decode .litlen [true, false, true, true, true, true, true, true] = some (.lit80To143 63#6, []) := by decide

/-- R80: literal 144 is 110010000 (V7), 160 is 110100000, 255 is 111111111. -/
theorem test_decode_literals9 :
    decode .litlen [true, true, false, false, true, false, false, false, false] = some (.lit144To159 0#4, []) ∧
      decode .litlen [true, true, false, true, false, false, false, false, false] = some (.lit160To191 0#5, []) ∧
      decode .litlen [true, true, true, true, true, true, true, true, true] = some (.lit192To255 63#6, []) := by decide

/-- R80, R93: symbols 256 to 279. -/
theorem test_decode_lengths7 :
    decode .litlen [false, false, false, false, false, false, false] = some (.eob, []) ∧
      decode .litlen [false, false, false, false, false, false, true] = some (.len257, []) ∧
      decode .litlen [false, false, false, false, false, true, true] = some (.len258To259 1#1, []) ∧
      decode .litlen [false, false, false, false, true, true, false] = some (.len260To263 2#2, []) ∧
      decode .litlen [false, false, false, true, false, false, true] = some (.len264To271 1#3, []) ∧
      decode .litlen [false, false, true, false, false, true, false] = some (.len272To279 2#3, []) := by decide

/-- R80, R83: symbols 280 to 287; symbol 280 is 11000000 (V7). -/
theorem test_decode_lengths8 :
    decode .litlen [true, true, false, false, false, false, false, false] = some (.len280To283 0#2, []) ∧
      decode .litlen [true, true, false, false, false, true, false, true] = some (.len284To285 1#1, []) ∧
      decode .litlen [true, true, false, false, false, true, true, false] = some (.litlenInvalid 0#1, []) := by decide

/-- R82. -/
theorem test_decode_distances :
    decode .dist [false, true, true, true, true] = some (.dist0To15 15#4, []) ∧
      decode .dist [true, false, true, true, false] = some (.dist16To23 6#3, []) ∧
      decode .dist [true, true, false, false, true] = some (.dist24To27 1#2, []) ∧
      decode .dist [true, true, true, false, true] = some (.dist28To29 1#1, []) ∧
      decode .dist [true, true, true, true, false] = some (.distInvalid 0#1, []) := by decide

/-- R89, V60: 1f 8b 08, FLG 0, MTIME 0x5F5E1000 little-endian, XFL 0, OS 255. -/
theorem test_decode_gzip :
    decode .gzip (lsbBits 80 0xFF005F5E100000088B1F) = some (.gzipMember 0#8 0x5F5E1000#32 0#8 255#8, []) ∧
      decode .gzip (lsbBits 80 0xFF005F5E100000078B1F) = none := by decide

/-! ### Placing table words (log 14) -/

theorem test_fetch_word_command : seen (step (State.reset.withFetchWord 32 6)) results = some (6, 7, []) := by decide

theorem test_fetch_word_table_words :
    decodeTableWord 32 4 = some .gzipDecompress ∧ decodeTableWord 3 3 = some (.blockFixed true) ∧
      decodeTableWord 8 0x91 = some (.lit80To143 17#6) ∧ decodeTableWord 9 0x1FF = some (.lit192To255 63#6) ∧
      decodeTableWord 7 0x12 = some (.len272To279 2#3) ∧ decodeTableWord 5 0x1D = some (.dist28To29 1#1) ∧
      decodeTableWord 24 0x088B1F = some (.gzipMember 0#8 0#32 0#8 0#8) := by decide

theorem test_fetch_word_runs_a_literal :
    seen (step (State.reset.withFetchWord 9 0x1FF)) (fun t => (t.outByte 0, t.rpos)) = some (255#8, 9) := by decide

theorem test_fetch_word_runs_a_distance :
    seen (step (State.reset.withFetchWord 5 0x1E)) results = some (6, 1, []) := by decide

theorem test_fetch_word_runs_a_member :
    seen (step (State.reset.withFetchWord 24 0x088B1F)) (fun t => (t.rbase, t.rlen, t.phase)) =
      some (10, 0, .blockHeader) := by decide

/-! ### Commands -/

/-- V71: CLEAR after an error. -/
theorem test_clear :
    seen (exec .clear (takeError true .illegalCommand State.reset)) (fun t => (t.status, t.errCode)) =
      some (0#32, 0#4) := by decide

/-- V1. -/
theorem test_deflate_compress_empty :
    seen (exec .deflateCompress (idleWith .whole [])) results = some (2, 0, [0x03#8, 0x00#8]) := by decide

/-- V37: "hi". -/
theorem test_deflate_compress_hi :
    seen (exec .deflateCompress (idleWith .whole [0x68#8, 0x69#8])) results =
      some (2, 0, [0xcb#8, 0xc8#8, 0x04#8, 0x00#8]) := by decide

/-- V44: a stored block. -/
theorem test_deflate_decompress_stored :
    seen (exec .deflateDecompress (idleWith .whole [0x01#8, 5#8, 0#8, 0xfa#8, 0xff#8, 0x68#8, 0x65#8, 0x6c#8, 0x6c#8, 0x6f#8]))
      results = some (2, 0, [0x68#8, 0x65#8, 0x6c#8, 0x6c#8, 0x6f#8]) := by decide

/-- V46: BTYPE = 10. -/
theorem test_deflate_decompress_dynamic :
    seen (exec .deflateDecompress (idleWith .whole [0x05#8])) results = some (6, 2, []) := by decide

/-- V58: the empty member. -/
theorem test_gzip_compress_empty :
    seen (exec .gzipCompress (idleWith .whole []))
      (fun t => (t.status, t.outLen, t.crcResult, t.outByte 0, t.outByte 9, t.outByte 10, t.outByte 11)) =
      some (2#32, 20#32, 0#32, 0x1f#8, 0xff#8, 0x03#8, 0x00#8) := by decide

/-- The empty member of V58. -/
def emptyMember : List Byte :=
  [0x1f#8, 0x8b#8, 8#8, 0#8, 0#8, 0#8, 0#8, 0#8, 0#8, 0xff#8] ++ [0x03#8, 0#8] ++ List.replicate 8 0#8

theorem test_gzip_decompress_empty :
    seen (exec .gzipDecompress (idleWith .whole emptyMember)) (fun t => (results t, t.crcResult)) =
      some ((2, 0, []), 0#32) := by decide

/-- V4: the magic bytes corrupted. -/
theorem test_gzip_decompress_magic :
    seen (exec .gzipDecompress (idleWith .whole (0x1e#8 :: emptyMember.tail))) results = some (6, 1, []) := by decide

/-- V23b: CRC32 of "a". -/
theorem test_crc32 :
    seen (exec .crc32 (idleWith .whole [0x61#8])) (fun t => (t.status, t.crcResult)) =
      some (2#32, 0xE8B7BE43#32) := by decide

/-- V72: OP = 1 with RSVD set. -/
theorem test_reserved : seen (exec (.reservedCmd 0x11#32) State.reset) results = some (6, 7, []) := by decide

/-- V21: entries of the table. -/
theorem test_crc_table :
    crcTable 0#8 = 0x00000000#32 ∧ crcTable 1#8 = 0x77073096#32 ∧ crcTable 128#8 = 0xEDB88320#32 ∧
      crcTable 255#8 = 0x2D02EF8D#32 := by decide

/-- V22 to V24. -/
theorem test_crc_values :
    crcUpdate 0xFFFFFFFF#32 0x61#8 = 0x174841BC#32 ∧ crc32 [] = 0#32 ∧ crc32 [0x00#8] = 0xD202EF8D#32 := by decide

set_option maxRecDepth 3000 in
/-- V23c: the check value of "123456789" is 0xCBF43926, its un-inverted form 0x340BC6D9; cut in three. -/
theorem test_crc_check_value :
    crcFold crcSeed [0x31#8, 0x32#8, 0x33#8] = 0x77B79C2D#32 ∧
      crcFold 0x77B79C2D#32 [0x34#8, 0x35#8, 0x36#8] = 0xF68D2C9E#32 ∧
      crcFold 0xF68D2C9E#32 [0x37#8, 0x38#8, 0x39#8] = 0xCBF43926#32 ^^^ 0xFFFFFFFF#32 := by
  refine ⟨?_, ?_, ?_⟩ <;> decide

/-! ### Stream codes, one step each -/

/-- 43_deflate_decoder.md R172: 00, then LEN = 1, NLEN = FFFE after the padding, one raw byte. -/
theorem test_block_stored :
    seen (exec (.blockStored false) (decoding .blockHeader [0x00#8, 1#8, 0#8, 0xfe#8, 0xff#8, 0x41#8]))
      (fun t => (t.outByte 0, t.outPos, t.rpos, t.phase)) = some (0x41#8, 1, 48, .blockHeader) := by decide

theorem test_block_stored_wrong_complement :
    seen (exec (.blockStored true) (decoding .blockHeader [0x01#8, 1#8, 0#8, 0xff#8, 0xff#8, 0x41#8])) results =
      some (6, 1, []) := by decide

theorem test_block_fixed :
    seen (exec (.blockFixed true) (decoding .blockHeader [0x03#8, 0x00#8])) (fun t => (t.bfinal, t.rpos, t.phase)) =
      some (true, 3, .litlen) := by decide

theorem test_block_dynamic :
    seen (exec (.blockDynamicUnsupported true) (decoding .blockHeader [0x05#8])) results = some (6, 2, []) := by decide

theorem test_block_reserved :
    seen (exec (.blockReserved true) (decoding .blockHeader [0x07#8])) results = some (6, 2, []) := by decide

/-- The byte a literal code appends, and the bits it takes. -/
def literalSeen (i : Instr) : Option (Byte × Nat) :=
  seen (exec i (decoding .litlen [0#8, 0#8])) fun t => (t.outByte 0, t.rpos)

/-- R80: 8-bit codes. -/
theorem test_literals8 :
    literalSeen (.lit0To15 15#4) = some (15#8, 8) ∧ literalSeen (.lit16To79 63#6) = some (79#8, 8) ∧
      literalSeen (.lit80To143 17#6) = some (0x61#8, 8) := by decide

/-- R80: 9-bit codes. -/
theorem test_literals9 :
    literalSeen (.lit144To159 15#4) = some (159#8, 9) ∧ literalSeen (.lit160To191 31#5) = some (191#8, 9) ∧
      literalSeen (.lit192To255 63#6) = some (255#8, 9) := by decide

/-- The length a length code holds when all its extra bits are 1, and the bits it takes. -/
def lengthSeen (i : Instr) (code : Nat) : Option (Phase × Nat) :=
  seen (exec i { decoding .litlen [0xff#8, 0xff#8] with rpos := 0, rlen := 2 }) fun t => (t.phase, t.rpos - code)

/-- R84: the last length of each row, one row of each form. -/
theorem test_lengths7 :
    lengthSeen .len257 7 = some (.dist 3, 0) ∧ lengthSeen (.len258To259 1#1) 7 = some (.dist 5, 0) ∧
      lengthSeen (.len260To263 3#2) 7 = some (.dist 9, 0) ∧ lengthSeen (.len264To271 1#3) 7 = some (.dist 12, 1) ∧
      lengthSeen (.len264To271 7#3) 7 = some (.dist 30, 2) ∧ lengthSeen (.len272To279 7#3) 7 = some (.dist 114, 4) := by
  decide

/-- R84: 284 with extra value 31 is length 258 (D15), and so is 285. -/
theorem test_lengths8 :
    lengthSeen (.len280To283 0#2) 8 = some (.dist 130, 4) ∧ lengthSeen (.len280To283 3#2) 8 = some (.dist 226, 5) ∧
      lengthSeen (.len284To285 0#1) 8 = some (.dist 258, 5) ∧ lengthSeen (.len284To285 1#1) 8 = some (.dist 258, 0) := by
  decide

theorem test_litlen_invalid :
    seen (exec (.litlenInvalid 1#1) (decoding .litlen [0#8])) results = some (6, 1, []) := by decide

theorem test_eob_of_a_block :
    seen (exec .eob (decoding .litlen [0#8, 0#8])) (fun t => (t.phase, t.rpos)) = some (.blockHeader, 7) := by decide

/-- 43_deflate_decoder.md R179: a whole unused byte. -/
theorem test_eob_trailing_byte :
    seen (exec .eob { decoding .litlen [0#8, 0#8] with bfinal := true }) results = some (6, 1, []) := by decide

/-- A decoder with two bytes of output, about to read a distance code for length 3. -/
def copying (bytes : List Byte) : State :=
  { decoding (.dist 3) bytes with outBuf := [(0, 0x61#8), (1, 0x62#8)], outPos := 2 }

/-- 43_deflate_decoder.md R178: an overlapping copy, distance 2: a b a b a. -/
theorem test_distance_overlap :
    seen (exec (.dist0To15 1#4) (copying [0#8])) (fun t => (t.output 5, t.outPos, t.rpos, t.phase)) =
      some ([0x61#8, 0x62#8, 0x61#8, 0x62#8, 0x61#8], 5, 5, .litlen) := by decide

theorem test_distance_too_far :
    seen (exec (.dist0To15 2#4) (copying [0#8])) results = some (6, 1, []) ∧
      seen (exec (.dist16To23 0#3) (copying [0#8, 0#8])) results = some (6, 1, []) := by decide

/-- R85: the first distance of the forms with many extra bits is the number of output bytes. -/
theorem test_distances_far :
    seen (exec (.dist16To23 7#3) { copying [0#8, 0#8, 0#8] with outPos := 3073, cfg := ⟨32, none, .stepwise⟩ })
        (fun t => (t.outPos, t.rpos)) = some (3076, 15) ∧
      seen (exec (.dist24To27 3#2) { copying [0#8, 0#8, 0#8] with outPos := 12289, cfg := ⟨32, none, .stepwise⟩ })
        (fun t => (t.outPos, t.rpos)) = some (12292, 17) ∧
      seen (exec (.dist28To29 1#1) { copying [0#8, 0#8, 0#8] with outPos := 24577, cfg := ⟨32, none, .stepwise⟩ })
        (fun t => (t.outPos, t.rpos)) = some (24580, 18) := by decide

theorem test_distance_invalid :
    seen (exec (.distInvalid 0#1) (copying [0#8])) results = some (6, 1, []) := by decide

/-- V5: FNAME "a.txt". -/
def namedMember : List Byte :=
  [0x1f#8, 0x8b#8, 8#8, 8#8, 0#8, 0#8, 0#8, 0#8, 0#8, 0xff#8] ++ [0x61#8, 0x2e#8, 0x74#8, 0x78#8, 0x74#8, 0#8] ++
    [0xcb#8, 0xc8#8, 0x04#8, 0x00#8, 0xac#8, 0x2a#8, 0x93#8, 0xd8#8, 2#8, 0#8, 0#8, 0#8]

theorem test_gzip_member_name :
    seen (exec (.gzipMember 8#8 0#32 0#8 255#8) (running .gzipDecompress .gzipHeader namedMember))
      (fun t => (t.rbase, t.rlen, t.rpos, t.phase)) = some (16, 4, 0, .blockHeader) := by decide

/-- V63's header with FHCRC, its CRC32 0xB857C990, and a payload of no use here. -/
def checkedMember (low : Byte) : List Byte :=
  [0x1f#8, 0x8b#8, 8#8, 2#8, 0#8, 0#8, 0#8, 0#8, 0#8, 0xff#8] ++ [low, 0xc9#8] ++
    [0xcb#8, 0xc8#8, 0x04#8, 0x00#8, 0xac#8, 0x2a#8, 0x93#8, 0xd8#8, 2#8, 0#8, 0#8, 0#8]

set_option maxRecDepth 6000 in
/-- V62: a right header CRC; the CRC unit has run over the ten header bytes. -/
theorem test_gzip_member_header_crc :
    seen (exec (.gzipMember 2#8 0#32 0#8 255#8) (running .gzipDecompress .gzipHeader (checkedMember 0x90#8)))
      (fun t => (t.rbase, t.crc)) = some (12, 0xB857C990#32 ^^^ 0xFFFFFFFF#32) := by decide

/-! ### The matcher, the writer, the host -/

/-- V27b, V28: the nearer of two longest, and the longest over the nearest. -/
theorem test_matcher_ties :
    lz77 (fun k => [0x61#8, 0x62#8, 0x63#8, 0x58#8, 0x61#8, 0x62#8, 0x63#8].getD k 0#8) 7 State.reset.matcher =
      [.literal 0x61#8, .literal 0x62#8, .literal 0x63#8, .literal 0x58#8, .copy 3 4] ∧
      lz77 (fun _ => 0x61#8) 4 State.reset.matcher = [.literal 0x61#8, .copy 3 1] := by decide

/-- V9, V10. -/
theorem test_bit_writer :
    assemble [.bits 0x1FF 9] = some [0xff#8, 0x01#8] ∧ assemble [.bits 0xDEADBEEF 32] =
      some [0xef#8, 0xbe#8, 0xad#8, 0xde#8] := by decide

/-- V16: the padding tolerance. -/
theorem test_bit_reader_tolerance :
    (readBits 7 { decoding .litlen [3#8] with rpos := 8 }).toOption.map (fun p => (p.1, p.2.rpos)) = some (0, 15) ∧
      (readBits 1 { decoding .litlen [3#8] with rpos := 15 }).toOption.isNone = true := by decide

/-- A host write of CMD while BUSY stops the run, and WAIT lets the engine go on. -/
theorem test_host_while_busy :
    step { decoding .litlen [0#8, 0#8] with script := [⟨0, .writeReg 4 0 0#32⟩] } = .fault .hostWriteWhileBusy ∧
      seen (step { decoding .litlen [0#8, 0#8] with script := [⟨0, .wait⟩] }) (fun t => (t.rpos, t.script.length)) =
        some (7, 1) := by
  exact ⟨rfl, by decide⟩

/-! ### Witnesses: for each obligation with hypotheses, a state and operands that meet them, clause by clause -/

theorem test_met_DecodeOfEncodeIsIdentity :
    (Instr.reservedCmd 6#32).wf = true ∧ (Instr.gzipMember 255#8 0#32 0#8 255#8).wf = true := by decide

theorem test_met_DecodedBitsAreTheEncoding :
    decode .dist [false, true, true, true, true, true] = some (.dist0To15 15#4, [true]) := by decide

theorem test_met_NineBitsAlwaysHoldACode :
    9 ≤ (List.replicate 9 true).length ∧ 9 ≤ (List.replicate 9 false).length := by decide

theorem test_met_FixedCodeOfSymbolDecodesToIt :
    0 ≤ 287 ∧ 287 ≤ 287 ∧ symbolBits 287 = [true, true, false, false, false, true, true, true] := by decide

/-- R86: lengths 3, 257 and 258. -/
theorem test_met_LengthSymbolCodesItsLength :
    3 ≤ 3 ∧ 258 ≤ 258 ∧ lenSym 3 = (257, 0, 0) ∧ lenSym 257 = (284, 5, 30) ∧ lenSym 258 = (285, 0, 0) := by decide

/-- R87: distances 1 and 32768. -/
theorem test_met_DistanceSymbolCodesItsDistance :
    1 ≤ 1 ∧ 32768 ≤ 32768 ∧ distSym 1 = (0, 0, 0) ∧ distSym 32768 = (29, 13, 8191) ∧ 29 ≤ 29 ∧
      8191 < 2 ^ distExtra 29 := by decide

/-- A host action pending for an IDLE block. -/
def asking (a : HostAction) : State := { idleWith .whole [] with script := [⟨0, a⟩] }

/-- A host action landing on a BUSY block. -/
def interrupting (a : HostAction) : State := { decoding .litlen [0#8, 0#8] with script := [⟨0, a⟩] }

theorem test_met_StepRunsTheCommandWord :
    (asking (.writeReg 4 0 5#32)).cmdState = .idle ∧
      (asking (.writeReg 4 0 5#32)).script = [⟨0, .writeReg 4 0 5#32⟩] := by decide

/-- A literal code, with an empty script, with WAIT, and with an action two engine steps away. -/
theorem test_met_StepRunsTheCodeAtTheReader :
    (Instr.lit0To15 0#4).wf = true ∧ (decoding .litlen [0x0c#8]).fetchSpace = some (Instr.lit0To15 0#4).space ∧
      (decoding .litlen [0x0c#8]).canRead (encode (.lit0To15 0#4)).length = true ∧
      (decoding .litlen [0x0c#8]).streamBits 0 (encode (.lit0To15 0#4)).length = encode (.lit0To15 0#4) ∧
      (decoding .litlen [0x0c#8]).rpos = 0 ∧ (decoding .litlen [0x0c#8]).script = [] ∧
      (HostEvent.mk 0 .wait).action = .wait ∧ (HostEvent.mk 2 .reset).after ≠ 0 := by decide

/-- The clauses of the fetch: too few bits for a header and for a distance code; no gzip magic. -/
theorem test_met_TruncatedCodeIsMalformed :
    (({ decoding .blockHeader [] with rpos := 5 }).fetchSpace = some .block ∧
      ({ decoding .blockHeader [] with rpos := 5 } : State).canRead 3 = false) ∧
    (({ decoding (.dist 3) [] with rpos := 3 }).fetchSpace = some .dist ∧
      ({ decoding (.dist 3) [] with rpos := 3 } : State).canRead 5 = false) ∧
    ((running .gzipDecompress .gzipHeader [0#8, 0#8, 0#8]).fetchSpace = some .gzip ∧
      (running .gzipDecompress .gzipHeader [0#8, 0#8, 0#8]).canRead 80 = false ∧
      (running .gzipDecompress .gzipHeader [0#8, 0#8, 0#8]).field 0 24 ≠ 0x088B1F ∧
      (running .gzipDecompress .gzipHeader [0#8, 0#8, 0#8]).script = []) := by decide

/-- The clause of the literal/length codes: six bits left of the tolerance. -/
theorem test_met_TruncatedCodeIsMalformed_litlen :
    ({ decoding .litlen [] with rpos := 1 } : State).fetchSpace = some .litlen ∧
      ({ decoding .litlen [] with rpos := 1 } : State).script = [] ∧
      ∀ i : Instr, i.space = .litlen →
        ({ decoding .litlen [] with rpos := 1 } : State).canRead (encode i).length = true →
        ({ decoding .litlen [] with rpos := 1 } : State).streamBits 1 (encode i).length ≠ encode i := by
  refine ⟨by decide, by decide, fun i hi hc => ?_⟩
  cases i <;> simp [Instr.space] at hi <;> simp [encode, State.canRead, decoding, running] at hc

/-- The clauses of the extra bits, one bit short, and of a stored block: LEN cut, and the one raw byte missing. -/
theorem test_met_TruncatedCodeIsMalformed_operands :
    (lengthSymbol (.len280To283 1#2) = some 281 ∧ (decoding .litlen [0xc3#8]).atLitlen = true ∧
      ({ decoding .litlen [0xc3#8] with rpos := 3 } : State).canRead ((encode (.len280To283 1#2)).length + lenExtra 281) =
        false) ∧
    (distanceSymbol (.dist28To29 1#1) = some 29 ∧ (copying [0x17#8]).pendingLength = some 3 ∧
      (copying [0x17#8]).canRead (5 + distExtra 29) = false) ∧
    ((decoding .blockHeader [0#8, 1#8]).atBlock = true ∧
      8 * (decoding .blockHeader [0#8, 1#8]).rlen + 7 < rawStart (decoding .blockHeader [0#8, 1#8]) 0) ∧
    ((decoding .blockHeader [0#8, 1#8, 0#8, 0xfe#8, 0xff#8]).atBlock = true ∧
      0 < storedLen (decoding .blockHeader [0#8, 1#8, 0#8, 0xfe#8, 0xff#8]) ∧
      8 * (decoding .blockHeader [0#8, 1#8, 0#8, 0xfe#8, 0xff#8]).rlen + 7 <
        rawStart (decoding .blockHeader [0#8, 1#8, 0#8, 0xfe#8, 0xff#8]) 1 ∧
      Room (decoding .blockHeader [0#8, 1#8, 0#8, 0xfe#8, 0xff#8]) 0 0) := by
  unfold Room
  decide

theorem test_met_StreamCodesRunExactlyInPlace :
    Instr.eob.space ≠ .cmd ∧ (decoding .litlen []).fetchSpace = some Instr.eob.space ∧
      (decoding .blockHeader []).fetchSpace ≠ some Instr.eob.space := by decide

theorem test_met_EngineStepContinuesSucceedsOrErrs :
    (decoding .litlen [0#8]).busy = true ∧ (decoding .litlen [0#8]).PhaseOk ∧ (decoding .litlen [0#8]).StatusOk ∧
      (running .gzipCompress .framing []).PhaseOk ∧ (running .deflateCompress (.emitting []) []).PhaseOk ∧
      (running .crc32 .checksum []).PhaseOk := by decide

theorem test_met_ReservedRegistersReadZeroIgnoreWrites :
    (asking (.readReg 4 0x1C)).cmdState = .idle ∧ (asking (.readReg 4 0x1C)).script = [⟨0, .readReg 4 0x1C⟩] ∧
      (asking (.writeReg 4 0x7C 1#32)).script = [⟨0, .writeReg 4 0x7C 1#32⟩] ∧ 0x1C % 4 = 0 ∧ 0x7C % 4 = 0 := by
  decide

theorem test_met_RegisterMapOfAnIdleBlock :
    (asking (.readReg 4 0x18)).cmdState = .idle ∧ (asking (.readReg 4 0x18)).script = [⟨0, .readReg 4 0x18⟩] ∧
      (asking (.writeReg 4 0x0C 9#32)).script = [⟨0, .writeReg 4 0x0C 9#32⟩] ∧
      (asking (.writeReg 4 0x14 9#32)).script = [⟨0, .writeReg 4 0x14 9#32⟩] ∧
      (asking (.writeReg 4 0x04 9#32)).script = [⟨0, .writeReg 4 0x04 9#32⟩] := by decide

/-- Widths 1 and 8, the unaligned offset 0x7E, the offset 0x80 beyond the last register, and the last register. -/
theorem test_met_BadRegisterAccessIsRefused :
    (asking (.readReg 1 0)).cmdState = .idle ∧ ¬ (1 = 4 ∧ 0 % 4 = 0 ∧ 0 ≤ 0x7C) ∧ ¬ (8 = 4 ∧ 0 % 4 = 0 ∧ 0 ≤ 0x7C) ∧
      ¬ (4 = 4 ∧ 0x7E % 4 = 0 ∧ 0x7E ≤ 0x7C) ∧ ¬ (4 = 4 ∧ 0x80 % 4 = 0 ∧ 0x80 ≤ 0x7C) ∧
      (asking (.writeReg 4 0x80 0#32)).script = [⟨0, .writeReg 4 0x80 0#32⟩] ∧ 0x7C % 4 = 0 ∧ 0x7C ≤ 0x7C := by decide

/-- The last byte of each buffer and the first offset beyond it, IDLE and BUSY. -/
theorem test_met_BufferAccessesOfTheHost :
    (asking (.readIn 31)).cmdState = .idle ∧ 31 < (asking (.readIn 31)).cfg.inCap ∧
      (asking (.readOut 31)).cfg.fits 31 = true ∧ (asking (.readOut 32)).cfg.fits 32 = false ∧
      (asking (.readIn 32)).cfg.inCap ≤ 32 ∧ (interrupting (.writeIn 31 0#8)).busy = true ∧
      (interrupting (.writeIn 31 0#8)).script = [⟨0, .writeIn 31 0#8⟩] ∧
      31 < (interrupting (.writeIn 31 0#8)).cfg.inCap ∧ (interrupting (.readOut 31)).cfg.fits 31 = true := by decide

theorem test_met_HostHazardsWhileBusy :
    (interrupting (.writeReg 4 0x0C 0#32)).busy = true ∧
      (interrupting (.writeReg 4 0x0C 0#32)).script = [⟨0, .writeReg 4 0x0C 0#32⟩] ∧
      (interrupting (.readReg 4 0x7C)).script = [⟨0, .readReg 4 0x7C⟩] ∧ 0x7C ≠ 0x04 ∧
      (interrupting (.readReg 4 0x04)).script = [⟨0, .readReg 4 0x04⟩] ∧
      31 < (interrupting (.readIn 31)).cfg.inCap := by decide

/-- A read, a write of MTIME and a byte write of IN. -/
theorem test_met_OnlyTheCmdWriteHasASideEffect (a : HostAction)
    (h : a = .readIn 0 ∨ a = .writeReg 4 0x14 7#32 ∨ a = .writeIn 31 7#8) :
    (asking a).cmdState = .idle ∧ (asking a).script = [⟨0, a⟩] ∧
      step (asking a) = .next (after State.reset (step (asking a))) ∧ a ≠ .reset ∧ ∀ v, a ≠ .writeReg 4 0 v := by
  rcases h with rfl | rfl | rfl <;>
    exact ⟨rfl, rfl, next_after _ _ (by decide), by decide, fun v => by simp⟩

theorem test_met_ResetAtAnyTime :
    (asking .reset).cmdState = .idle ∧ (asking .reset).script = [⟨0, .reset⟩] ∧
      (interrupting .reset).script = [⟨0, .reset⟩] := by decide

/-- The clauses of a start-check error and of the raw commands. -/
theorem test_met_ErrorEntry :
    (true : Bool) = true ∧ (running .deflateCompress .matching []).cmdState = .busy .deflateCompress ∧
      (decoding .litlen []).cmdState = .busy .deflateDecompress := by decide

theorem test_met_ClearClearsOnlyTheFlags :
    (idleWith .whole []).cmdState = .idle ∧ (0x10#32).extractLsb' 0 4 = 0#4 ∧ (0x10#32).extractLsb' 4 28 ≠ 0#28 := by
  decide

theorem test_met_ReservedWordsRaiseIllegalCommand :
    (idleWith .whole []).cmdState = .idle ∧ reservedWord 6#32 = true ∧ reservedWord 15#32 = true ∧
      reservedWord 0x10#32 = true := by decide

theorem test_met_InputOverCapacityIsRejected :
    commandOp .gzipCompress = some .gzipCompress ∧
      ({ idleWith .whole [] with inLen := 33#32 } : State).cmdState = .idle ∧
      ({ idleWith .whole [] with inLen := 33#32 } : State).cfg.inCap < (33#32).toNat := by decide

theorem test_met_StepwiseStartOfACommand :
    commandOp .crc32 = some .crc32 ∧ (idleWith .stepwise []).cmdState = .idle ∧
      (idleWith .stepwise []).cfg.pace = .stepwise ∧ (idleWith .stepwise []).inLen.toNat ≤ 32 ∧
      (idleWith .stepwise []).cfg.inCap = 32 := by decide

theorem test_met_Crc32Result :
    (idleWith .whole [0x61#8]).cmdState = .idle ∧ (idleWith .whole [0x61#8]).cfg.pace = .whole ∧
      (idleWith .whole [0x61#8]).inLen.toNat ≤ (idleWith .whole [0x61#8]).cfg.inCap := by decide

theorem test_met_LiteralCodesAppendTheirByte :
    literalByte (.lit192To255 63#6) = some 255#8 ∧ (decoding .litlen [0#8, 0#8]).atLitlen = true ∧
      (decoding .litlen [0#8, 0#8]).canRead (encode (.lit192To255 63#6)).length = true ∧
      (decoding .litlen [0#8, 0#8]).cfg.fits (decoding .litlen [0#8, 0#8]).outPos = true := by decide

/-- The output full at OUT_CAP = 32 for a literal; full after one more byte for a copy of three and for a stored block of
two raw bytes. -/
theorem test_met_FullOutputRaisesCapacityExceeded :
    (({ decoding .litlen [0#8] with outPos := 32 } : State).cfg.fits 32 = false ∧
      literalByte (.lit0To15 0#4) = some 0#8 ∧ ({ decoding .litlen [0#8] with outPos := 32 } : State).atLitlen = true ∧
      ({ decoding .litlen [0#8] with outPos := 32 } : State).canRead (encode (.lit0To15 0#4)).length = true) ∧
    (distanceSymbol (.dist0To15 0#4) = some 0 ∧ 1 < 3 ∧
      ({ decoding (.dist 3) [0#8] with outPos := 31 } : State).cfg.fits 31 = true ∧
      ({ decoding (.dist 3) [0#8] with outPos := 31 } : State).cfg.fits (31 + 1) = false ∧
      ({ decoding (.dist 3) [0#8] with outPos := 31 } : State).pendingLength = some 3 ∧
      ({ decoding (.dist 3) [0#8] with outPos := 31 } : State).canRead (5 + distExtra 0) = true ∧
      distBase 0 + ({ decoding (.dist 3) [0#8] with outPos := 31 } : State).field 5 (distExtra 0) ≤ 31) ∧
    ((decoding .blockHeader [0#8, 2#8, 0#8, 0xfd#8, 0xff#8, 0x41#8, 0x42#8]).atBlock = true ∧
      storedLen (decoding .blockHeader [0#8, 2#8, 0#8, 0xfd#8, 0xff#8, 0x41#8, 0x42#8]) = 2 ∧
      storedNlen (decoding .blockHeader [0#8, 2#8, 0#8, 0xfd#8, 0xff#8, 0x41#8, 0x42#8]) = 65533 ∧
      rawStart { decoding .blockHeader [0#8, 2#8, 0#8, 0xfd#8, 0xff#8, 0x41#8, 0x42#8] with outPos := 31 } 2 ≤
        8 * 7 + 7) := by decide

theorem test_met_LengthCodesHoldTheirLength :
    lengthSymbol (.len284To285 0#1) = some 284 ∧ (decoding .litlen [0#8, 0#8]).atLitlen = true ∧
      (decoding .litlen [0#8, 0#8]).canRead ((encode (.len284To285 0#1)).length + lenExtra 284) = true := by decide

/-- Distance 2, all the output there is. -/
theorem test_met_DistanceCodesCopy :
    distanceSymbol (.dist0To15 1#4) = some 1 ∧ (copying [0#8]).pendingLength = some 3 ∧
      (copying [0#8]).canRead (5 + distExtra 1) = true ∧ distBase 1 + (copying [0#8]).field 5 (distExtra 1) = 2 ∧
      2 ≤ (copying [0#8]).outPos ∧ Room (copying [0#8]) 2 3 := by
  unfold Room
  decide

/-- A code of 286, and distance 3 with two bytes of output. -/
theorem test_met_MalformedCodesEndTheCommand :
    (decoding .litlen []).atLitlen = true ∧ (copying [0#8]).pendingLength = some 3 ∧
      distanceSymbol (.dist0To15 2#4) = some 2 ∧ (copying [0#8]).canRead (5 + distExtra 2) = true ∧
      (copying [0#8]).outPos < distBase 2 + (copying [0#8]).field 5 (distExtra 2) := by decide

theorem test_met_EndOfBlockGoesToTheNextHeader :
    (decoding .litlen [0#8]).atLitlen = true ∧ (decoding .litlen [0#8]).canRead 7 = true ∧
      (decoding .litlen [0#8]).bfinal = false := by decide

/-- A last block whose end-of-block code ends in the last byte, and one with a byte after it. -/
def lastBlock (bytes : List Byte) : State := { decoding .litlen bytes with bfinal := true }

theorem test_met_EndOfRawStream :
    (lastBlock [0#8]).cmdState = .busy .deflateDecompress ∧ (lastBlock [0#8]).phase = .litlen ∧
      (lastBlock [0#8]).errCode = 0#4 ∧ (lastBlock [0#8]).canRead 7 = true ∧ (lastBlock [0#8]).bfinal = true ∧
      (lastBlock [0#8]).outPos < 2 ^ 32 ∧ (lastBlock [0#8]).rlen ≤ (0 + 7 + 7) / 8 ∧
      (0 + 7 + 7) / 8 < (lastBlock [0#8, 0#8]).rlen ∧ (lastBlock [0#8, 0#8]).canRead 7 = true := by decide

/-- A member of no output whose footer holds a CRC32 and a length. -/
def footed (crcByte lenByte : Byte) : State :=
  { running .gzipDecompress .litlen
      (List.replicate 10 0#8 ++ [0x03#8, 0#8] ++ [crcByte, 0#8, 0#8, 0#8] ++ [lenByte, 0#8, 0#8, 0#8]) with
    bfinal := true, rbase := 10, rlen := 2, rpos := 3 }

/-- The clauses: a whole unused byte, a wrong CRC32, a wrong length, both right. -/
theorem test_met_GzipFooterChecks :
    (footed 0#8 0#8).cmdState = .busy .gzipDecompress ∧ (footed 0#8 0#8).phase = .litlen ∧
      (footed 0#8 0#8).errCode = 0#4 ∧ (footed 0#8 0#8).canRead 7 = true ∧ (footed 0#8 0#8).bfinal = true ∧
      (footed 0#8 0#8).outPos < 2 ^ 32 ∧ (footed 0#8 0#8).rlen ≤ (3 + 7 + 7) / 8 ∧
      (0 + 7 + 7) / 8 < ({ footed 0#8 0#8 with rpos := 0 } : State).rlen ∧
      crc32 ((footed 1#8 0#8).output 0) ≠ rd32 (footed 1#8 0#8).inByte ((footed 1#8 0#8).inLen.toNat - 8) ∧
      crc32 ((footed 0#8 1#8).output 0) = rd32 (footed 0#8 1#8).inByte ((footed 0#8 1#8).inLen.toNat - 8) ∧
      0 ≠ (rd32 (footed 0#8 1#8).inByte ((footed 0#8 1#8).inLen.toNat - 4)).toNat ∧
      0 = (rd32 (footed 0#8 0#8).inByte ((footed 0#8 0#8).inLen.toNat - 4)).toNat ∧
      crc32 ((footed 0#8 0#8).output 0) = rd32 (footed 0#8 0#8).inByte ((footed 0#8 0#8).inLen.toNat - 8) := by decide

/-- The body of a stored block of one byte, whose complement is right or wrong. -/
def storedAt (nlen : Byte) : State := decoding .blockHeader [0x00#8, 1#8, 0#8, nlen, 0xff#8, 0x41#8]

theorem test_met_StoredBlockCopiesRawBytes :
    (storedAt 0xfe#8).atBlock = true ∧ rawStart (storedAt 0xfe#8) 0 = 40 ∧ storedLen (storedAt 0xfe#8) = 1 ∧
      storedNlen (storedAt 0xfe#8) = 65534 ∧ rawStart (storedAt 0xfe#8) 1 ≤ 8 * (storedAt 0xfe#8).rlen + 7 ∧
      storedNlen (storedAt 0xff#8) = 65535 ∧ 1 + 65535 ≠ 65535 ∧ Room (storedAt 0xfe#8) 0 1 := by
  unfold Room
  decide

/-- The last block: it ends the raw stream with the last byte, or leaves a byte over; the byte it appends is the output.
In a gzip payload the same bytes stand before a footer of zeros, which is not their checksum. -/
theorem test_met_StoredBlockCopiesRawBytes_last :
    (storedAt 0xfe#8).cmdState = .busy .deflateDecompress ∧ (storedAt 0xfe#8).errCode = 0#4 ∧
      (storedAt 0xfe#8).outPos + 1 < 2 ^ 32 ∧ (storedAt 0xfe#8).rlen ≤ rawStart (storedAt 0xfe#8) 1 / 8 ∧
      rawBytes (storedAt 0xfe#8) = [0x41#8] ∧
      rawStart (decoding .blockHeader [0x00#8, 1#8, 0#8, 0xfe#8, 0xff#8, 0x41#8, 0#8]) 1 / 8 <
        (decoding .blockHeader [0x00#8, 1#8, 0#8, 0xfe#8, 0xff#8, 0x41#8, 0#8]).rlen ∧
      ({ storedAt 0xfe#8 with cmdState := .busy .gzipDecompress } : State).atBlock = true ∧
      crc32 [0x41#8] ≠ 0#32 := by decide

/-- A gzip payload of the empty stored block, its footer of zeros right and its length field wrong. -/
def storedMember (lenByte : Byte) : State :=
  { running .gzipDecompress .blockHeader
      ([0#8, 0#8, 0#8, 0xff#8, 0xff#8] ++ [0#8, 0#8, 0#8, 0#8] ++ [lenByte, 0#8, 0#8, 0#8]) with rlen := 5 }

theorem test_met_StoredBlockCopiesRawBytes_member :
    (storedMember 0#8).atBlock = true ∧ storedLen (storedMember 0#8) + storedNlen (storedMember 0#8) = 65535 ∧
      rawStart (storedMember 0#8) 0 / 8 = (storedMember 0#8).rlen ∧
      crc32 ((storedMember 0#8).output 0 ++ rawBytes (storedMember 0#8)) =
        rd32 (storedMember 0#8).inByte ((storedMember 0#8).inLen.toNat - 8) ∧
      0 = (rd32 (storedMember 0#8).inByte ((storedMember 0#8).inLen.toNat - 4)).toNat ∧
      0 ≠ (rd32 (storedMember 1#8).inByte ((storedMember 1#8).inLen.toNat - 4)).toNat := by decide

theorem test_met_FixedBlockEntersTheSymbolLoop :
    (decoding .blockHeader [0#8]).atBlock = true ∧ (decoding .blockHeader [0#8]).canRead 3 = true := by decide

theorem test_met_UnsupportedBlockTypes :
    (decoding .blockHeader [5#8]).atBlock = true ∧ (decoding .blockHeader [7#8]).canRead 3 = true := by decide

/-- The header of V5. -/
def nameHeader : Header :=
  { otherFlags := 0#8, mtime := 0#32, xfl := 0#8, os := 255#8, extra := none,
    name := some [0x61#8, 0x2e#8, 0x74#8, 0x78#8, 0x74#8], comment := none, headerCrc := false }

theorem test_met_GzipHeaderHandsOverThePayload :
    nameHeader.ok ∧ (running .gzipDecompress .gzipHeader namedMember).atHeader = true ∧
      BeginsWith (running .gzipDecompress .gzipHeader namedMember).inByte 0 nameHeader.bytes ∧
      nameHeader.bytes.length + 8 ≤ (running .gzipDecompress .gzipHeader namedMember).inLen.toNat := by
  refine ⟨⟨fun _ h => by simp [nameHeader] at h, fun t h => ?_, fun _ h => by simp [nameHeader] at h⟩, by decide, ?_, by decide⟩
  · simp only [nameHeader, Option.some.injEq] at h
    subst h
    decide
  · unfold BeginsWith
    decide

/-- A bare header with FHCRC set, and a member whose two FHCRC bytes are 0, which are not the header's CRC (shown
below). -/
def crcHeader : Header :=
  { otherFlags := 0#8, mtime := 0#32, xfl := 0#8, os := 255#8, extra := none, name := none, comment := none,
    headerCrc := true }

def crcMember : List Byte := crcHeader.front ++ List.replicate 12 0#8

theorem test_met_GzipHeaderErrors :
    (running .gzipDecompress .gzipHeader []).atHeader = true ∧ (running .gzipDecompress .gzipHeader []).inLen.toNat < 18 ∧
      crcHeader.ok ∧ crcHeader.headerCrc = true ∧ (running .gzipDecompress .gzipHeader crcMember).atHeader = true ∧
      BeginsWith (running .gzipDecompress .gzipHeader crcMember).inByte 0 crcHeader.front ∧
      crcHeader.front.length + 10 ≤ (running .gzipDecompress .gzipHeader crcMember).inLen.toNat ∧
      (rd16 (running .gzipDecompress .gzipHeader crcMember).inByte crcHeader.front.length).toNat = 0 := by
  refine ⟨by decide, by decide, ⟨fun _ h => ?_, fun _ h => ?_, fun _ h => ?_⟩, by decide, by decide, ?_, by decide,
    by decide⟩
  · simp [crcHeader] at h
  · simp [crcHeader] at h
  · simp [crcHeader] at h
  · unfold BeginsWith
    decide

set_option maxRecDepth 6000 in
/-- The last hypothesis of the witness above: the low half of the header's CRC32 is not 0. -/
theorem test_met_GzipHeaderErrors_crc : (crc32 crcHeader.front).toNat % 65536 ≠ 0 := by decide

/-- A member of 18 bytes with any flags, whose ten bytes before the footer are the fixed header. -/
def shortMember : State := running .gzipDecompress .gzipHeader (namedMember.take 10 ++ List.replicate 8 0xff#8)

/-- The clauses of the fields that run past the footer, which begins at 10: FEXTRA, and with no bytes before the footer
FNAME, FCOMMENT and FHCRC. -/
theorem test_met_GzipHeaderErrors_fields :
    shortMember.atHeader = true ∧ shortMember.inLen.toNat - 8 = 10 ∧ 18 ≤ shortMember.inLen.toNat ∧
      (AfterExtra shortMember.inByte 4#8 65547 ∧ 10 < 65547) ∧
      (AfterExtra shortMember.inByte 8#8 10 ∧ (8#8).getLsbD 3 = true) ∧
      (AfterExtra shortMember.inByte 16#8 10 ∧ AfterText shortMember.inByte ((16#8).getLsbD 3) 10 10 ∧
        (16#8).getLsbD 4 = true) ∧
      (AfterExtra shortMember.inByte 2#8 10 ∧ AfterText shortMember.inByte ((2#8).getLsbD 4) 10 10 ∧
        (2#8).getLsbD 1 = true ∧ 10 < 10 + 2) ∧
      ∀ k, 10 ≤ k → k < 10 → shortMember.inByte k ≠ 0#8 := by
  refine ⟨by decide, by decide, by decide, ⟨by unfold AfterExtra; decide, by decide⟩,
    ⟨by unfold AfterExtra; decide, by decide⟩,
    ⟨by unfold AfterExtra; decide, by unfold AfterText; rw [if_neg (by decide)], by decide⟩,
    ⟨by unfold AfterExtra; decide, by unfold AfterText; rw [if_neg (by decide)], by decide, by decide⟩, fun k h1 h2 => by omega⟩

/-- FNAME "a.txt" of V5 ends where its zero byte says. -/
theorem test_met_GzipHeaderErrors_text :
    AfterText (running .gzipDecompress .gzipHeader namedMember).inByte true 10 16 := by
  refine ⟨by decide, by decide, fun k h1 h2 => ?_⟩
  have : k = 10 ∨ k = 11 ∨ k = 12 ∨ k = 13 ∨ k = 14 := by omega
  rcases this with rfl | rfl | rfl | rfl | rfl <;> decide

theorem test_met_WriteBitsAppendsTheBits :
    (idleWith .whole []).WriterOk ∧ Room (idleWith .whole []) 0 ((0 + 32) / 8) := by
  unfold Room
  decide

theorem test_met_FlushPadsWithZeros :
    ({ idleWith .whole [] with wnb := 3, wcur := 5#8 } : State).WriterOk ∧ (idleWith .whole []).cfg.fits 0 = true ∧
      (idleWith .whole []).WriterOk ∧ (idleWith .whole []).wnb = 0 := by decide

theorem test_met_ReadBitsReturnsTheStream :
    (decoding .litlen [3#8]).rpos + 15 ≤ 8 * (decoding .litlen [3#8]).rlen + 7 ∧
      8 * (decoding .litlen [3#8]).rlen + 7 < (decoding .litlen [3#8]).rpos + 16 := by decide

/-- A matcher before its first step. -/
def freshMatcher : Matcher := { pos := 0, head := [], prev := [], tokens := [] }

theorem chainsSound_fresh (D : Nat → Byte) (n : Nat) : ChainsSound D n 0 freshMatcher :=
  ⟨fun _ => rfl, fun _ hp => absurd hp (Nat.not_lt_zero _)⟩

theorem test_met_MatcherKeepsItsChainsSound :
    freshMatcher.pos < 3 ∧ ChainsSound (fun _ => 0x61#8) 3 freshMatcher.pos freshMatcher :=
  ⟨by decide, chainsSound_fresh _ _⟩

/-- Position 1 of "aaaa" after the insertion of position 0: a match of length 3; and position 0, no match. -/
theorem test_met_ChainSearchIsTheHashFreeSearch :
    (1 + 3 ≤ 4 ∧ ChainsSound (fun _ => 0x61#8) 4 1 (insertPos (fun _ => 0x61#8) 4 0 freshMatcher) ∧
      3 ≤ (bestMatch (fun _ => 0x61#8) 4 1).1) ∧
    (0 + 3 ≤ 4 ∧ ChainsSound (fun _ => 0x61#8) 4 0 freshMatcher ∧ (bestMatch (fun _ => 0x61#8) 4 0).1 < 3) := by
  refine ⟨⟨by decide, ⟨fun h => ?_, fun p hp _ _ => ?_⟩, by decide⟩, by decide, chainsSound_fresh _ _, by decide⟩
  · have hv : hashAt (fun _ => 0x61#8) 0 = 2113 := by decide
    by_cases hh : h = 2113
    · subst hh; decide
    · have hh' : ¬ 2113 = h := fun e => hh e.symm
      simp [insertPos, freshMatcher, tableWrite, tableRead, lastWithHash, hv, hh, hh']
  · have : p = 0 := by omega
    subst this
    decide

theorem test_met_DeflateCompressResult :
    (idleWith .whole []).cmdState = .idle ∧ (idleWith .whole []).cfg.pace = .whole ∧
      (idleWith .whole []).inLen.toNat ≤ (idleWith .whole []).cfg.inCap ∧
      ¬ tooLarge (idleWith .whole []).inLen.toNat (inputTokens (idleWith .whole [])) ∧
      encodedBlock (idleWith .whole []).input (inputTokens (idleWith .whole [])) = [3#8, 0#8] ∧
      Room (idleWith .whole []) 0 2 := by
  unfold Room tooLarge
  decide

/-- The block of the empty input, two bytes, with OUT_CAP = 1. -/
theorem test_met_DeflateCompressErrors_capacity :
    ({ idleWith .whole [] with cfg := ⟨32, some 1, .whole⟩ } : State).cmdState = .idle ∧
      ({ idleWith .whole [] with cfg := ⟨32, some 1, .whole⟩ } : State).cfg.pace = .whole ∧
      ¬ tooLarge ({ idleWith .whole [] with cfg := ⟨32, some 1, .whole⟩ } : State).inLen.toNat
        (inputTokens { idleWith .whole [] with cfg := ⟨32, some 1, .whole⟩ }) ∧
      ({ idleWith .whole [] with cfg := ⟨32, some 1, .whole⟩ } : State).cfg.outCap = some 1 ∧
      1 < (encodedBlock ({ idleWith .whole [] with cfg := ⟨32, some 1, .whole⟩ } : State).input
        (inputTokens { idleWith .whole [] with cfg := ⟨32, some 1, .whole⟩ })).length := by
  unfold tooLarge
  decide

/-! An input too large for a stored block: three-byte groups that count, each of the three bytes from a range of its own
above 143, so that no three bytes repeat and every literal costs 9 bits. -/

/-- The value of the byte at a position. -/
def countingValue (p : Nat) : Nat :=
  if p % 3 = 0 then 144 + p / 3 / 1440 else if p % 3 = 1 then 180 + p / 3 / 40 % 36 else 216 + p / 3 % 40

theorem countingValue_range {p : Nat} (h : p < 155520) : 144 ≤ countingValue p ∧ countingValue p < 256 := by
  unfold countingValue
  split
  · omega
  · split <;> omega

theorem countingValue_three (k : Nat) : countingValue (3 * k) = 144 + k / 1440 := by
  unfold countingValue
  rw [if_pos (by omega)]
  omega

theorem countingValue_one (k : Nat) : countingValue (3 * k + 1) = 180 + k / 40 % 36 := by
  unfold countingValue
  rw [if_neg (by omega), if_pos (by omega), show (3 * k + 1) / 3 = k by omega]

theorem countingValue_two (k : Nat) : countingValue (3 * k + 2) = 216 + k % 40 := by
  unfold countingValue
  rw [if_neg (by omega), if_neg (by omega), show (3 * k + 2) / 3 = k by omega]

/-- The bytes from `a` on as buffer entries. -/
def countingCells : Nat → Nat → Memory
  | _, 0 => []
  | a, n + 1 => (a, BitVec.ofNat 8 (countingValue a)) :: countingCells (a + 1) n

theorem countingCells_read (a n i : Nat) (h : a ≤ i ∧ i < a + n) :
    tableRead (countingCells a n) i = some (BitVec.ofNat 8 (countingValue i)) := by
  induction n generalizing a with
  | zero => omega
  | succ n ih =>
    simp only [countingCells, tableRead]
    split
    · next he => rw [he]
    · next he => exact ih (a + 1) (by omega)

/-- An IDLE block with `n` such bytes. -/
def counting (n : Nat) : State :=
  { State.resetWith { inCap := n, outCap := none, pace := .whole } with
    inLen := BitVec.ofNat 32 n
    inBuf := countingCells 0 n }

theorem counting_inByte {n p : Nat} (h : p < n) : (counting n).inByte p = BitVec.ofNat 8 (countingValue p) := by
  simp [State.inByte, counting, countingCells_read 0 n p (by omega)]

theorem counting_unrepeated {n : Nat} (hn : n ≤ 155520) : Unrepeated (counting n).inByte n := by
  intro p q hpq hq
  rw [counting_inByte (show p < n by omega), counting_inByte (show q < n by omega),
    counting_inByte (show p + 1 < n by omega), counting_inByte (show q + 1 < n by omega),
    counting_inByte (show p + 2 < n by omega), counting_inByte (show q + 2 < n by omega)]
  have cancel : ∀ a b, a < 155520 → b < 155520 →
      BitVec.ofNat 8 (countingValue a) = BitVec.ofNat 8 (countingValue b) → countingValue a = countingValue b := by
    intro a b ha hb h
    have ha' := (countingValue_range ha).2
    have hb' := (countingValue_range hb).2
    have := congrArg BitVec.toNat h
    simp only [BitVec.toNat_ofNat] at this
    omega
  rintro ⟨h0, h1, h2⟩
  have e0 := cancel p q (by omega) (by omega) h0
  have e1 := cancel (p + 1) (q + 1) (by omega) (by omega) h1
  have e2 := cancel (p + 2) (q + 2) (by omega) (by omega) h2
  have form : ∀ a, ∃ k, a = 3 * k ∨ a = 3 * k + 1 ∨ a = 3 * k + 2 := fun a => ⟨a / 3, by omega⟩
  obtain ⟨k, hk⟩ := form p
  obtain ⟨l, hl⟩ := form q
  rcases hk with rfl | rfl | rfl <;> rcases hl with rfl | rfl | rfl <;>
    simp only [Nat.add_assoc, Nat.reduceAdd, countingValue_three, countingValue_one, countingValue_two,
      show ∀ x, 3 * x + 3 = 3 * (x + 1) from fun _ => rfl,
      show ∀ x, 3 * x + 4 = 3 * (x + 1) + 1 from fun _ => rfl] at e0 e1 e2 <;> omega

theorem literals_bits (f : Nat → Byte) (a n : Nat) (h : ∀ k, k < n → 144 ≤ (f (a + k)).toNat) :
    ((((bytesFrom f a n).map Token.literal).map fun t => (tokenBits t).length).sum) = 9 * n := by
  induction n generalizing a with
  | zero => rfl
  | succ n ih =>
    have h0 : ¬ (f a).toNat ≤ 143 := by have := h 0 (by omega); simp only [Nat.add_zero] at this; omega
    have h1 : (f a).toNat ≤ 255 := by have := (f a).isLt; omega
    have h2 : (tokenBits (.literal (f a))).length = 9 := by
      simp [tokenBits, symbolBits, fixedCode, h0, h1]
    simp only [bytesFrom, List.map_cons, List.sum_cons, h2]
    rw [ih (a + 1) fun k hk => by
      have := h (k + 1) (by omega)
      rwa [show a + 1 + k = a + (k + 1) by omega]]
    omega

theorem counting_tooLarge {n : Nat} (h1 : 65535 < n) (h2 : n ≤ 155520) :
    (counting n).inLen.toNat = n ∧ tooLarge n (inputTokens (counting n)) := by
  have hlen : (counting n).inLen.toNat = n := by simp only [counting, BitVec.toNat_ofNat]; omega
  refine ⟨hlen, ?_, h1⟩
  unfold inputTokens
  rw [hlen, lz77_unrepeated (counting_unrepeated h2), codedBits, literals_bits]
  · omega
  · intro k hk
    rw [counting_inByte (by omega), BitVec.toNat_ofNat]
    have := countingValue_range (p := 0 + k) (by omega)
    omega

/-- 65536 bytes, one more than a stored block can hold. -/
theorem test_met_DeflateCompressErrors_tooLarge :
    (counting 65536).cmdState = .idle ∧ (counting 65536).cfg.pace = .whole ∧
      (counting 65536).inLen.toNat ≤ (counting 65536).cfg.inCap ∧
      tooLarge (counting 65536).inLen.toNat (inputTokens (counting 65536)) := by
  have h := counting_tooLarge (n := 65536) (by omega) (by omega)
  refine ⟨rfl, rfl, ?_, ?_⟩
  · rw [h.1]; exact Nat.le_refl _
  · rw [h.1]; exact h.2

theorem test_met_EmptyInputCompressesToTwoBytes :
    (idleWith .whole []).cmdState = .idle ∧ (idleWith .whole []).cfg.pace = .whole ∧
      (idleWith .whole []).inLen = 0#32 ∧ Room (idleWith .whole []) 0 2 := by
  unfold Room
  decide

theorem test_met_GzipCompressResult :
    (idleWith .whole []).inLen.toNat ≤ (idleWith .whole []).cfg.inCap ∧
      ¬ tooLarge (idleWith .whole []).inLen.toNat (inputTokens (idleWith .whole [])) ∧
      (encodedMember 0#32 (idleWith .whole []).input (inputTokens (idleWith .whole []))).length = 20 ∧
      Room (idleWith .whole []) 0 20 := by
  unfold Room tooLarge
  decide

/-- The errors of GZIP_COMPRESS: nine bytes of room, ten and an input too large, and nineteen for a member of twenty. -/
theorem test_met_GzipCompressResult_errors :
    9 < 10 ∧ Room (counting 65536) 0 10 ∧ tooLarge (counting 65536).inLen.toNat (inputTokens (counting 65536)) ∧
      ({ idleWith .whole [] with cfg := ⟨32, some 19, .whole⟩ } : State).cfg.outCap = some 19 ∧
      19 < (encodedMember 0#32 [] []).length ∧ ¬ tooLarge 0 [] := by
  refine ⟨by decide, fun _ _ => rfl, test_met_DeflateCompressErrors_tooLarge.2.2.2, rfl, by decide, ?_⟩
  unfold tooLarge
  decide

/-- Tokens at the ends of their ranges. -/
theorem test_met_TokensExpandToTheInput :
    (Token.literal 255#8).legal = true ∧ (Token.copy 3 1).legal = true ∧ (Token.copy 258 32768).legal = true := by
  decide

/-- The stream of one fixed block without items, V1: 03 00. -/
theorem test_met_DeflateDecompressResult :
    (idleWith .whole [3#8, 0#8]).cmdState = .idle ∧ (idleWith .whole [3#8, 0#8]).cfg.pace = .whole ∧
      (idleWith .whole [3#8, 0#8]).inLen.toNat ≤ 32 ∧ [Block.fixed []] ≠ [] ∧ streamOk 0 [Block.fixed []] ∧
      streamOutput [Block.fixed []] [] = some [] ∧
      Carries (idleWith .whole [3#8, 0#8]).inByte 0 2 (streamBits [Block.fixed []]) ∧
      Room (idleWith .whole [3#8, 0#8]) 0 0 := by
  refine ⟨by decide, by decide, by decide, by simp, by simp [streamOk, Block.ok], rfl, ?_, ?_⟩
  · unfold Carries
    decide
  · intro k hk
    omega

/-- The header of V58. -/
def bareHeader : Header :=
  { otherFlags := 0#8, mtime := 0#32, xfl := 0#8, os := 255#8, extra := none, name := none, comment := none,
    headerCrc := false }

theorem test_met_GzipDecompressResult :
    bareHeader.ok ∧ (idleWith .whole emptyMember).inLen.toNat = bareHeader.bytes.length + 2 + 8 ∧
      (idleWith .whole emptyMember).inLen.toNat ≤ (idleWith .whole emptyMember).cfg.inCap ∧
      BeginsWith (idleWith .whole emptyMember).inByte 0 bareHeader.bytes ∧ streamOk 0 [Block.fixed []] ∧
      streamOutput [Block.fixed []] [] = some [] ∧
      Carries (idleWith .whole emptyMember).inByte bareHeader.bytes.length 2 (streamBits [Block.fixed []]) ∧
      BeginsWith (idleWith .whole emptyMember).inByte (bareHeader.bytes.length + 2)
        (le32 (crc32 []) ++ le32 (BitVec.ofNat 32 0)) := by
  refine ⟨⟨fun _ h => by simp [bareHeader] at h, fun _ h => by simp [bareHeader] at h,
    fun _ h => by simp [bareHeader] at h⟩, by decide, by decide, ?_, by simp [streamOk, Block.ok], rfl, ?_, ?_⟩
  · unfold BeginsWith
    decide
  · unfold Carries
    decide
  · unfold BeginsWith
    decide

theorem test_met_EveryCommandEnds :
    commandOp .gzipDecompress = some .gzipDecompress ∧ (idleWith .whole [1#8]).cmdState = .idle ∧
      (idleWith .whole [1#8]).cfg.pace = .whole := by decide

theorem test_met_OneStepIsTheStepwiseRun :
    commandOp .deflateCompress = some .deflateCompress ∧ (idleWith .whole [1#8]).cmdState = .idle ∧
      (idleWith .whole [1#8]).cfg.pace = .whole := by decide

/-- Two IDLE blocks that differ in the old results as well, and DEFLATE_COMPRESS of both. -/
theorem test_met_CommandsForgetTheWorkingState_input :
    commandOp .deflateCompress = some .deflateCompress ∧
      SameInput (idleWith .whole []) { idleWith .whole [] with outLen := 9#32, crcResult := 7#32, outBuf := [(1, 1#8)] } ∧
      exec .deflateCompress (idleWith .whole []) =
        .next (after State.reset (exec .deflateCompress (idleWith .whole []))) ∧
      (nextState (exec .deflateCompress
        { idleWith .whole [] with outLen := 9#32, crcResult := 7#32, outBuf := [(1, 1#8)] })).isSome = true ∧
      Op.deflateCompress ≠ .crc32 ∧ Op.crc32 ≠ .deflateCompress ∧ Op.crc32 ≠ .deflateDecompress := by
  refine ⟨by decide, ?_, next_after _ _ (by decide), by decide, by decide, by decide, by decide⟩
  unfold SameInput
  decide

/-- Two IDLE blocks that differ in the working registers only. -/
theorem test_met_CommandsForgetTheWorkingState :
    commandOp .crc32 = some .crc32 ∧ (idleWith .whole []).cmdState = .idle ∧
      ({ idleWith .whole [] with crc := 7#32, wnb := 3 } : State).cmdState = .idle ∧
      (idleWith .whole []).cfg.pace = .whole ∧
      SameForCommands (idleWith .whole []) { idleWith .whole [] with crc := 7#32, wnb := 3 } ∧
      exec .crc32 (idleWith .whole []) = .next (after State.reset (exec .crc32 (idleWith .whole []))) ∧
      exec .crc32 { idleWith .whole [] with crc := 7#32, wnb := 3 } =
        .next (after State.reset (exec .crc32 { idleWith .whole [] with crc := 7#32, wnb := 3 })) := by
  refine ⟨by decide, by decide, by decide, by decide, ?_, next_after _ _ (by decide), next_after _ _ (by decide)⟩
  unfold SameForCommands
  decide

/-- What a compress command left, its output moved to IN. -/
def movedToInput (s : State) : State :=
  { s with inLen := s.outLen, inBuf := s.outBuf, inEpoch := s.outEpoch }

theorem test_met_DeflateRoundTrip :
    (idleWith .whole []).cmdState = .idle ∧
      exec .deflateCompress (idleWith .whole []) =
        .next (after State.reset (exec .deflateCompress (idleWith .whole []))) ∧
      (after State.reset (exec .deflateCompress (idleWith .whole []))).errCode = 0#4 ∧
      (movedToInput (after State.reset (exec .deflateCompress (idleWith .whole [])))).cmdState = .idle ∧
      (movedToInput (after State.reset (exec .deflateCompress (idleWith .whole [])))).cfg.pace = .whole ∧
      (movedToInput (after State.reset (exec .deflateCompress (idleWith .whole [])))).inLen.toNat ≤ 32 :=
  ⟨by decide, next_after _ _ (by decide), by decide, by decide, by decide, by decide⟩

theorem test_met_GzipRoundTrip :
    exec .gzipCompress (idleWith .whole []) = .next (after State.reset (exec .gzipCompress (idleWith .whole []))) ∧
      (after State.reset (exec .gzipCompress (idleWith .whole []))).errCode = 0#4 ∧
      (movedToInput (after State.reset (exec .gzipCompress (idleWith .whole [])))).cmdState = .idle ∧
      (movedToInput (after State.reset (exec .gzipCompress (idleWith .whole [])))).cfg.pace = .whole ∧
      (movedToInput (after State.reset (exec .gzipCompress (idleWith .whole [])))).inLen.toNat ≤ 32 :=
  ⟨next_after _ _ (by decide), by decide, by decide, by decide, by decide⟩

/-- The moved output is what IN reads as, so the last hypothesis of both round trips is met. -/
theorem test_met_round_trip_bytes (s : State) (a : Nat) : (movedToInput s).inByte a = s.outByte a := rfl

theorem test_met_StepKeepsTheInvariant :
    (decoding .litlen [0#8, 0#8]).Inv ∧
      step (decoding .litlen [0#8, 0#8]) = .next (after State.reset (step (decoding .litlen [0#8, 0#8]))) :=
  ⟨by decide, next_after _ _ (by decide)⟩

end Sys2Proof.Tests
end

namespace Sys2Proof.Machine

/-! ### The registers of an IDLE block -/

theorem regAccessOk_aligned {offset : Nat} (ha : offset % 4 = 0) (hle : offset ≤ 0x7C) :
    regAccessOk 4 offset = true := by
  simp [regAccessOk, ha, hle]

/-- A register read of an IDLE block answers the register's value and changes nothing else. -/
theorem step_readReg_idle {s : State} {after offset : Nat} {rest : List HostEvent} (hi : s.cmdState = .idle)
    (ha : offset % 4 = 0) (hle : offset ≤ 0x7C) (hs : s.script = ⟨after, .readReg 4 offset⟩ :: rest) :
    step s = .next { s with script := rest, hostData := some (s.regRead offset) } := by
  rw [step_host s _ rest hs (hostTurn_idle _ s (State.busy_idle s hi)) (by simp)]
  have hb : State.busy { s with script := rest } = false := State.busy_idle _ hi
  simp only [hostAct, hostReadReg, regAccessOk_aligned ha hle, hb]
  rfl

/-- A register write of an IDLE block, CMD apart, is the write of that register. -/
theorem step_writeReg_idle {s : State} {after offset : Nat} {v : Word} {rest : List HostEvent} (hi : s.cmdState = .idle)
    (ha : offset % 4 = 0) (hle : offset ≤ 0x7C) (h0 : offset ≠ 0)
    (hs : s.script = ⟨after, .writeReg 4 offset v⟩ :: rest) :
    step s = .next (State.regWrite offset v { s with script := rest }) := by
  rw [step_write s after 4 offset v rest hs (hostTurn_idle _ s (State.busy_idle s hi))]
  have hb : State.busy { s with script := rest } = false := State.busy_idle _ hi
  simp [hostWrite, hostWriteReg, regAccessOk_aligned ha hle, h0, hb]

theorem State.regRead_reserved {s : State} {offset : Nat} (h : 0x1C ≤ offset) : s.regRead offset = 0#32 := by
  unfold State.regRead
  repeat rw [if_neg (by omega)]

/-- A write of a register that is neither IN_LEN nor MTIME is ignored. -/
theorem State.regWrite_ignored {s : State} {offset : Nat} {v : Word} (h : offset ≠ 0x0C) (h' : offset ≠ 0x14) :
    s.regWrite offset v = s := by
  rw [State.regWrite, if_neg h, if_neg h']

/-- Settles O13: the read and the write of a register of an IDLE block, at a reserved offset. -/
theorem reservedRegistersReadZeroIgnoreWrites : Obligations.ReservedRegistersReadZeroIgnoreWrites := by
  intro s after offset v rest hi ha hge hle
  refine ⟨fun hs => ?_, fun hs => ?_⟩
  · rw [step_readReg_idle hi ha hle hs, State.regRead_reserved hge]
  · rw [step_writeReg_idle hi ha hle (by omega) hs, State.regWrite_ignored (by omega) (by omega)]

/-- Settles O14: the read and the write of a register of an IDLE block, offset by offset. -/
theorem registerMapOfAnIdleBlock : Obligations.RegisterMapOfAnIdleBlock := by
  intro s after v rest hi
  refine ⟨fun offset value hmem hs => ?_, fun hs => ?_, fun hs => ?_, fun offset hmem hs => ?_⟩
  · have hoff : offset % 4 = 0 ∧ offset ≤ 0x7C ∧ s.regRead offset = value := by
      simp only [List.mem_cons, Prod.mk.injEq, List.not_mem_nil, or_false] at hmem
      rcases hmem with h | h | h | h | h | h | h <;> obtain ⟨rfl, rfl⟩ := h <;> exact ⟨rfl, by decide, rfl⟩
    obtain ⟨ha, hle, rfl⟩ := hoff
    exact step_readReg_idle hi ha hle hs
  · exact step_writeReg_idle hi rfl (by decide) (by decide) hs
  · exact step_writeReg_idle hi rfl (by decide) (by decide) hs
  · have hoff : offset % 4 = 0 ∧ offset ≤ 0x7C ∧ offset ≠ 0 ∧ offset ≠ 0x0C ∧ offset ≠ 0x14 := by
      simp only [List.mem_cons, List.not_mem_nil, or_false] at hmem
      omega
    obtain ⟨ha, hle, h0, h12, h20⟩ := hoff
    rw [step_writeReg_idle hi ha hle h0 hs, State.regWrite_ignored h12 h20]

/-- After reset every register reads 0. -/
theorem resetWith_regRead (c : Config) (offset : Nat) : (State.resetWith c).regRead offset = 0#32 := by
  have hstatus : (State.resetWith c).status = 0#32 := by simp [State.status, State.busy, State.resetWith]
  rw [State.regRead, hstatus]
  repeat' split
  all_goals rfl

/-- Settles O20, for the parameters of `State.reset` and from what every reset state reads as. -/
theorem resetStateRegisters : Obligations.ResetStateRegisters :=
  ⟨rfl, resetWith_regRead defaultConfig, rfl, rfl⟩

end Sys2Proof.Machine

namespace Sys2Proof.Machine

/-! ### The operations as compositions -/

/-- A rule that succeeds, taken apart at its first operation. -/
theorem bind_ok_iff {α β ε : Type} {x : Except ε α} {f : α → Except ε β} {b : β} :
    (x >>= f) = .ok b ↔ ∃ a, x = .ok a ∧ f a = .ok b := by
  cases x <;> simp [bind, Except.bind]

theorem outAppendAll_cons (v : Byte) (rest : List Byte) (s : State) :
    outAppendAll (v :: rest) s = outAppend v s >>= outAppendAll rest := by
  rw [outAppendAll]
  cases outAppend v s <;> rfl

theorem writeBits_succ_bind (value n : Nat) (s : State) :
    writeBits value (n + 1) s = writeBit (value.testBit 0) s >>= writeBits (value / 2) n := by
  rw [writeBits]
  cases writeBit (value.testBit 0) s <;> rfl

theorem writeBytes_cons (b : Byte) (rest : List Byte) (s : State) :
    writeBytes (b :: rest) s = writeBits b.toNat 8 s >>= writeBytes rest := by
  rw [writeBytes]
  cases writeBits b.toNat 8 s <;> rfl

theorem copyFrom_succ (a k : Nat) (s : State) :
    copyFrom a (k + 1) s = outAppend (s.outByte a) s >>= copyFrom (a + 1) k := by
  rw [copyFrom]
  cases outAppend (s.outByte a) s <;> rfl

theorem copyRaw_succ (k : Nat) (s : State) :
    copyRaw (k + 1) s = readBits 8 s >>= fun r => outAppend (BitVec.ofNat 8 r.1) r.2 >>= copyRaw k := by
  rw [copyRaw]
  cases readBits 8 s with
  | error e => rfl
  | ok r =>
    dsimp only
    show _ = outAppend (BitVec.ofNat 8 r.1) r.2 >>= copyRaw k
    cases outAppend (BitVec.ofNat 8 r.1) r.2 <;> rfl

/-- The byte the writer would append next, with the bit `b` in it. -/
def State.withBit (b : Bool) (s : State) : Byte := s.wcur ||| ((BitVec.ofBool b).setWidth 8 <<< s.wnb)

theorem writeBit_eq (b : Bool) (s : State) :
    writeBit b s =
      if s.wnb + 1 = 8 then emitByte (s.withBit b) s >>= fun t => .ok { t with wcur := 0#8, wnb := 0 }
      else .ok { s with wcur := s.withBit b, wnb := s.wnb + 1 } := by
  rw [writeBit, ← State.withBit]
  cases emitByte (s.withBit b) s <;> rfl

theorem alignWriter_eq (s : State) :
    alignWriter s =
      if 0 < s.wnb then emitByte s.wcur s >>= fun t => .ok { t with wcur := 0#8, wnb := 0 } else .ok s := by
  unfold alignWriter
  cases emitByte s.wcur s <;> rfl

theorem outAppend_eq (v : Byte) (s : State) :
    outAppend v s =
      if s.cfg.fits s.outPos then
        .ok { s with outBuf := tableWrite s.outBuf s.outPos v, outPos := s.outPos + 1 }
      else .error .capacityExceeded := by
  unfold outAppend putOut
  cases s.cfg.fits s.outPos <;> rfl

theorem emitByte_eq (b : Byte) (s : State) :
    emitByte b s =
      if s.cfg.fits (s.wbase + s.wlen) then
        .ok { s with outBuf := tableWrite s.outBuf (s.wbase + s.wlen) b, wlen := s.wlen + 1 }
      else .error .capacityExceeded := by
  unfold emitByte putOut
  cases s.cfg.fits (s.wbase + s.wlen) <;> rfl

/-! ### What the parts of a rule keep -/

/-- A buffer that is canonical and lists nothing at or beyond OUT_CAP. -/
structure OutputOk (c : Config) (m : Memory) : Prop where
  wf : Memory.wf m = true
  fits : m.all (fun p => c.fits p.1) = true

/-- What every operation inside a rule does to the state: it moves the output, the reader's position, the writer, the
CRC unit, BFINAL and the engine's place, and it keeps what the invariant says of them. -/
structure Keeps (s t : State) : Prop where
  frame : t = { s with
    outBuf := t.outBuf, outPos := t.outPos, rpos := t.rpos, wlen := t.wlen, wcur := t.wcur, wnb := t.wnb,
    crc := t.crc, bfinal := t.bfinal, phase := t.phase }
  forward : s.rpos ≤ t.rpos
  reader : s.rpos ≤ 8 * s.rlen + 8 → t.rpos ≤ 8 * s.rlen + 8
  writer : s.WriterOk → t.WriterOk
  output : OutputOk s.cfg s.outBuf → OutputOk s.cfg t.outBuf
  cursors : capAdmits s.cfg (s.wbase + s.wlen) = true ∧ capAdmits s.cfg s.outPos = true →
    capAdmits s.cfg (s.wbase + t.wlen) = true ∧ capAdmits s.cfg t.outPos = true

namespace Keeps

variable {s t u : State}

theorem cfg (h : Keeps s t) : t.cfg = s.cfg := by rw [h.frame]
theorem cmdState (h : Keeps s t) : t.cmdState = s.cmdState := by rw [h.frame]
theorem errCode (h : Keeps s t) : t.errCode = s.errCode := by rw [h.frame]
theorem inLen (h : Keeps s t) : t.inLen = s.inLen := by rw [h.frame]
theorem inBuf (h : Keeps s t) : t.inBuf = s.inBuf := by rw [h.frame]
theorem wbase (h : Keeps s t) : t.wbase = s.wbase := by rw [h.frame]
theorem rlen (h : Keeps s t) : t.rlen = s.rlen := by rw [h.frame]
theorem matcher (h : Keeps s t) : t.matcher = s.matcher := by rw [h.frame]

theorem refl (s : State) : Keeps s s := ⟨rfl, Nat.le_refl _, id, id, id, id⟩

theorem trans (h : Keeps s t) (h' : Keeps t u) : Keeps s u where
  frame := by rw [h'.frame, h.frame]
  forward := Nat.le_trans h.forward h'.forward
  reader hs := by have := h'.reader; rw [h.rlen] at this; exact this (h.reader hs)
  writer hs := h'.writer (h.writer hs)
  output hs := by have := h'.output; rw [h.cfg] at this; exact this (h.output hs)
  cursors hs := by have := h'.cursors; rw [h.cfg, h.wbase] at this; exact this (h.cursors hs)

theorem setPhase (h : Keeps s t) (p : Phase) : Keeps s { t with phase := p } where
  frame := by rw [h.frame]
  forward := h.forward
  reader := h.reader
  writer := h.writer
  output := h.output
  cursors := h.cursors

theorem setBfinal (h : Keeps s t) (b : Bool) : Keeps s { t with bfinal := b } where
  frame := by rw [h.frame]
  forward := h.forward
  reader := h.reader
  writer := h.writer
  output := h.output
  cursors := h.cursors

end Keeps

/-- OUT_CAP admits the length after a byte that fits. -/
theorem capAdmits_of_fits {c : Config} {a : Nat} (h : c.fits a = true) : capAdmits c (a + 1) = true := by
  unfold Config.fits at h
  unfold capAdmits
  split
  · rfl
  · next k hk => simp only [hk, decide_eq_true_eq] at h ⊢; omega

theorem capAdmits_zero (c : Config) : capAdmits c 0 = true := by
  unfold capAdmits
  split <;> simp

theorem OutputOk.write {c : Config} {m : Memory} {a : Nat} {v : Byte} (h : OutputOk c m) (ha : c.fits a = true) :
    OutputOk c (tableWrite m a v) :=
  ⟨Memory.wf_tableWrite h.wf, all_tableWrite h.fits ha⟩

theorem OutputOk.cut {c : Config} {m : Memory} {n : Nat} (h : OutputOk c m) : OutputOk c (tableCut n m) :=
  ⟨Memory.wf_tableCut h.wf, all_tableCut h.fits⟩

/-- A writer without bits in its current byte. -/
theorem writerOk_empty {s : State} (hc : s.wcur = 0#8) (hn : s.wnb = 0) : s.WriterOk := by
  simp [State.WriterOk, hc, hn]

/-- One bit more in the writer's current byte. -/
theorem writerBit_lt {cur : Byte} {n : Nat} (b : Bool) (h : cur.toNat < 2 ^ n) :
    (cur ||| ((BitVec.ofBool b).setWidth 8 <<< n)).toNat < 2 ^ (n + 1) := by
  have hb : ((BitVec.ofBool b).setWidth 8 <<< n).toNat < 2 ^ (n + 1) := by
    rw [BitVec.toNat_shiftLeft, Nat.shiftLeft_eq, Nat.pow_succ]
    have hv : ((BitVec.ofBool b).setWidth 8).toNat ≤ 1 := by cases b <;> decide
    have hm := Nat.mul_le_mul_right (2 ^ n) hv
    have := Nat.mod_le (((BitVec.ofBool b).setWidth 8).toNat * 2 ^ n) (2 ^ 8)
    have := Nat.two_pow_pos n
    omega
  rw [BitVec.toNat_or]
  exact Nat.or_lt_two_pow (by rw [Nat.pow_succ]; omega) hb

theorem keeps_outAppend {v : Byte} {s t : State} (h : outAppend v s = .ok t) : Keeps s t := by
  obtain ⟨hf, rfl⟩ := (outAppend_ok_iff _ _ _).mp h
  exact ⟨rfl, Nat.le_refl _, id, id, fun ho => ho.write hf, fun hc => ⟨hc.1, capAdmits_of_fits hf⟩⟩

theorem keeps_outAppendAll {bytes : List Byte} {s t : State} (h : outAppendAll bytes s = .ok t) : Keeps s t := by
  induction bytes generalizing s with
  | nil => cases h; exact .refl _
  | cons v rest ih =>
    rw [outAppendAll_cons] at h
    obtain ⟨u, hu, h⟩ := bind_ok_iff.mp h
    exact (keeps_outAppend hu).trans (ih h)

theorem keeps_writeBit {b : Bool} {s t : State} (h : writeBit b s = .ok t) : Keeps s t := by
  rcases writeBit_ok_cases h with ⟨hn, rfl⟩ | ⟨-, hf, rfl⟩
  · exact ⟨rfl, Nat.le_refl _, id, fun hw => ⟨by have := hw.1; show s.wnb + 1 < 8; omega, writerBit_lt b hw.2⟩, id, id⟩
  · exact ⟨rfl, Nat.le_refl _, id, fun _ => writerOk_empty rfl rfl, fun ho => ho.write hf,
      fun hc => ⟨capAdmits_of_fits hf, hc.2⟩⟩

theorem keeps_writeBits {v n : Nat} {s t : State} (h : writeBits v n s = .ok t) : Keeps s t := by
  induction n generalizing v s with
  | zero => cases h; exact .refl _
  | succ n ih =>
    rw [writeBits_succ_bind] at h
    obtain ⟨u, hu, h⟩ := bind_ok_iff.mp h
    exact (keeps_writeBit hu).trans (ih h)

theorem keeps_writeBytes {bytes : List Byte} {s t : State} (h : writeBytes bytes s = .ok t) : Keeps s t := by
  induction bytes generalizing s with
  | nil => cases h; exact .refl _
  | cons v rest ih =>
    rw [writeBytes_cons] at h
    obtain ⟨u, hu, h⟩ := bind_ok_iff.mp h
    exact (keeps_writeBits hu).trans (ih h)

theorem keeps_alignWriter {s t : State} (h : alignWriter s = .ok t) : Keeps s t := by
  rcases alignWriter_ok_cases h with ⟨-, rfl⟩ | ⟨-, hf, rfl⟩
  · exact .refl _
  · exact ⟨rfl, Nat.le_refl _, id, fun _ => writerOk_empty rfl rfl, fun ho => ho.write hf,
      fun hc => ⟨capAdmits_of_fits hf, hc.2⟩⟩

theorem keeps_skipBits {n : Nat} {s t : State} (h : skipBits n s = .ok t) : Keeps s t := by
  obtain ⟨hr, rfl⟩ := (skipBits_ok_iff _ _ _).mp h
  simp only [State.canRead, decide_eq_true_eq] at hr
  exact ⟨rfl, Nat.le_add_right _ _, fun _ => by show s.rpos + n ≤ _; omega, id, id, id⟩

theorem skipBits_forward {n : Nat} {s t : State} (hn : 0 < n) (h : skipBits n s = .ok t) : s.rpos < t.rpos := by
  obtain ⟨-, rfl⟩ := (skipBits_ok_iff _ _ _).mp h
  exact Nat.lt_add_of_pos_right hn

theorem keeps_readBits {n : Nat} {s : State} {r : Nat × State} (h : readBits n s = .ok r) : Keeps s r.2 := by
  obtain ⟨hr, rfl⟩ := (readBits_ok_iff _ _ _).mp h
  exact keeps_skipBits ((skipBits_ok_iff _ _ _).mpr ⟨hr, rfl⟩)

theorem keeps_alignReader (s : State) : Keeps s (alignReader s) :=
  ⟨rfl, by show s.rpos ≤ 8 * ((s.rpos + 7) / 8); omega, fun _ => by show 8 * ((s.rpos + 7) / 8) ≤ _; omega, id, id, id⟩

theorem keeps_putLitlen {symbol : Nat} {s t : State} (h : putLitlen symbol s = .ok t) : Keeps s t :=
  keeps_writeBits h

theorem keeps_putMatch {len dist : Nat} {s t : State} (h : putMatch len dist s = .ok t) : Keeps s t := by
  obtain ⟨u, hu, h⟩ := bind_ok_iff.mp h
  obtain ⟨v, hv, h⟩ := bind_ok_iff.mp h
  obtain ⟨w, hw, h⟩ := bind_ok_iff.mp h
  exact (((keeps_putLitlen hu).trans (keeps_writeBits hv)).trans (keeps_writeBits hw)).trans (keeps_writeBits h)

theorem keeps_putToken {tok : Token} {s t : State} (h : putToken tok s = .ok t) : Keeps s t := by
  cases tok with
  | literal b => exact keeps_putLitlen h
  | copy len dist => exact keeps_putMatch h

theorem keeps_emitStored {data : List Byte} {s t : State} (h : emitStored data s = .ok t) : Keeps s t := by
  obtain ⟨u, hu, h⟩ := bind_ok_iff.mp h
  obtain ⟨v, hv, h⟩ := bind_ok_iff.mp h
  obtain ⟨w, hw, h⟩ := bind_ok_iff.mp h
  obtain ⟨x, hx, h⟩ := bind_ok_iff.mp h
  obtain ⟨y, hy, h⟩ := bind_ok_iff.mp h
  exact (keeps_writeBits hu).trans <| (keeps_writeBits hv).trans <| (keeps_alignWriter hw).trans <|
    (keeps_writeBits hx).trans <| (keeps_writeBits hy).trans (keeps_writeBytes h)

theorem keeps_openFixed {s t : State} (h : openFixed s = .ok t) : Keeps s t := by
  obtain ⟨u, hu, h⟩ := bind_ok_iff.mp h
  exact (keeps_writeBits hu).trans (keeps_writeBits h)

theorem keeps_copyFrom {a k : Nat} {s t : State} (h : copyFrom a k s = .ok t) : Keeps s t := by
  induction k generalizing a s with
  | zero => cases h; exact .refl _
  | succ k ih =>
    rw [copyFrom_succ] at h
    obtain ⟨u, hu, h⟩ := bind_ok_iff.mp h
    exact (keeps_outAppend hu).trans (ih h)

theorem keeps_copyBack {len dist : Nat} {s t : State} (h : copyBack len dist s = .ok t) : Keeps s t := by
  unfold copyBack at h
  split at h
  · cases h
  · exact keeps_copyFrom h

theorem keeps_copyRaw {k : Nat} {s t : State} (h : copyRaw k s = .ok t) : Keeps s t := by
  induction k generalizing s with
  | zero => cases h; exact .refl _
  | succ k ih =>
    rw [copyRaw_succ] at h
    obtain ⟨u, hu, h⟩ := bind_ok_iff.mp h
    obtain ⟨w, hw, h⟩ := bind_ok_iff.mp h
    exact ((keeps_readBits hu).trans (keeps_outAppend hw)).trans (ih h)

/-! ### What one engine step can do -/

/-- The places at which the decoder reads a code of a DEFLATE stream. -/
def Phase.inStream : Phase → Bool
  | .blockHeader => true
  | .litlen => true
  | .dist _ => true
  | _ => false

/-- A code was read, and the decoder goes on to the next one. -/
def Decoded (s t : State) : Prop := Keeps s t ∧ s.rpos < t.rpos ∧ t.phase.inStream = true

/-- The command ended with success, after it wrote all of its output. -/
def Finished (s t : State) : Prop :=
  ∃ (u : State) (w : Word), Keeps s u ∧ t = ({ u.setOutput u.outPos with crcResult := w }).complete

theorem Finished.of_keeps {s t u : State} (h : Keeps s t) (hf : Finished t u) : Finished s u := by
  obtain ⟨v, w, hv, rfl⟩ := hf
  exact ⟨v, w, h.trans hv, rfl⟩

theorem finished_finishMember {s t : State} (h : finishMember s = .ok t) : Finished s t := by
  unfold finishMember at h
  dsimp only at h
  split at h
  · cases h
  · split at h
    · cases h
    · cases h
      exact ⟨s.runCrc (s.output s.outPos), _, ⟨rfl, Nat.le_refl _, id, id, id, id⟩, rfl⟩

theorem finished_endStream {s t : State} (h : endStream s = .ok t) : Finished s t := by
  obtain ⟨u, hu, h⟩ := bind_ok_iff.mp h
  unfold checkNoTrailing at hu
  split at hu
  · cases hu
  · cases hu
    split at h
    · exact finished_finishMember h
    · cases h
      exact ⟨s, s.crcResult, .refl _, rfl⟩

/-- The end of a block: the next header, or the end of the command. -/
theorem endBlock_ok_cases {s t : State} (h : endBlock s = .ok t) :
    t = { s with phase := .blockHeader } ∨ Finished s t := by
  unfold endBlock at h
  split at h
  · exact .inr (finished_endStream h)
  · cases h; exact .inl rfl

theorem endBlock_decodes {s u t : State} (hu : Keeps s u) (hr : s.rpos < u.rpos) (h : endBlock u = .ok t) :
    Decoded s t ∨ Finished s t := by
  rcases endBlock_ok_cases h with rfl | hf
  · exact .inl ⟨hu.setPhase _, hr, rfl⟩
  · exact .inr (hf.of_keeps hu)

theorem blockHeader_ok {final : Bool} {s t : State} (h : blockHeader final s = .ok t) :
    Keeps s t ∧ s.rpos < t.rpos := by
  obtain ⟨u, hu, h⟩ := bind_ok_iff.mp h
  have hr := skipBits_forward (by decide) hu
  cases h
  exact ⟨(keeps_skipBits hu).setBfinal final, hr⟩

theorem storedBody_ok {s t : State} (h : storedBody s = .ok t) :
    ∃ u, Keeps s u ∧ endBlock u = .ok t := by
  obtain ⟨⟨len, u⟩, hu, h⟩ := bind_ok_iff.mp h
  obtain ⟨⟨nlen, v⟩, hv, h⟩ := bind_ok_iff.mp h
  dsimp only at h
  split at h
  · cases h
  · obtain ⟨w, hw, h⟩ := bind_ok_iff.mp h
    have hk := (keeps_readBits hu).trans <| (keeps_readBits hv).trans (keeps_copyRaw hw)
    exact ⟨w, (keeps_alignReader s).trans hk, h⟩

theorem literal_decodes {width value : Nat} {s t : State} (hw : 0 < width) (hp : s.phase.inStream = true)
    (h : literal width value s = .ok t) : Decoded s t := by
  obtain ⟨u, hu, h⟩ := bind_ok_iff.mp h
  have hk := keeps_outAppend h
  refine ⟨(keeps_skipBits hu).trans hk, Nat.lt_of_lt_of_le (skipBits_forward hw hu) hk.forward, ?_⟩
  obtain ⟨-, rfl⟩ := (skipBits_ok_iff _ _ _).mp hu
  obtain ⟨-, rfl⟩ := (outAppend_ok_iff _ _ _).mp h
  exact hp

theorem lengthCode_decodes {width symbol : Nat} {s t : State} (hw : 0 < width) (h : lengthCode width symbol s = .ok t) :
    Decoded s t := by
  obtain ⟨u, hu, h⟩ := bind_ok_iff.mp h
  obtain ⟨⟨v, w⟩, hv, h⟩ := bind_ok_iff.mp h
  cases h
  have hk := keeps_readBits hv
  exact ⟨((keeps_skipBits hu).trans hk).setPhase _, Nat.lt_of_lt_of_le (skipBits_forward hw hu) hk.forward, rfl⟩

theorem distanceCode_decodes {len symbol : Nat} {s t : State} (h : distanceCode len symbol s = .ok t) :
    Decoded s t := by
  obtain ⟨u, hu, h⟩ := bind_ok_iff.mp h
  obtain ⟨⟨v, w⟩, hv, h⟩ := bind_ok_iff.mp h
  obtain ⟨x, hx, h⟩ := bind_ok_iff.mp h
  cases h
  have hk := (keeps_readBits hv).trans (keeps_copyBack hx)
  have hr := Nat.lt_of_lt_of_le (skipBits_forward (by decide) hu) hk.forward
  exact ⟨((keeps_skipBits hu).trans hk).setPhase _, hr, rfl⟩

/-- The places of a compress command, in the order in which it passes them. -/
def Phase.NextWriting (tokens : List Token) (p q : Phase) : Prop :=
  match p with
  | .matching => q = .closing ∨ q = .emitting tokens
  | .emitting (_ :: left) => q = .emitting left
  | .emitting [] => q = .closing
  | _ => False

/-- What one engine step can do: an error, the end of the command, or a step on to its next place. -/
inductive EngineMove (s : State) : State → Prop where
  /-- The error is taken from the state in which the step began. -/
  | error (e : ErrKind) : EngineMove s (takeError false e s)
  /-- A compress command closes its output, or the stream of a decompress command ends. -/
  | finish {t : State} (h : Finished s t) : EngineMove s t
  /-- CRC32 ends: OUT stays as it is. -/
  | checksum (c w : Word) : EngineMove s ({ s with crc := c, crcResult := w }).complete
  /-- The decoder reads one code. -/
  | decode {t : State} (hd : s.decompressing = true) (hp : s.phase.inStream = true) (h : Decoded s t) : EngineMove s t
  /-- The member header is read, and the payload that begins at `h` ends before the footer. -/
  | openMember (h : Nat) (c : Word) (hc : s.cmdState = .busy .gzipDecompress) (hp : s.phase = .gzipHeader)
      (hh : h + 8 ≤ s.inLen.toNat) : EngineMove s (openPayload h (s.inLen.toNat - 8) { s with crc := c })
  /-- The member header is written, and the bit writer starts after it. -/
  | framing {t : State} (hc : s.cmdState = .busy .gzipCompress) (hp : s.phase = .framing) (h : Keeps s t) :
      EngineMove s { t with wbase := t.outPos, wlen := 0, wcur := 0#8, wnb := 0, phase := .matching }
  /-- The matcher makes one step. -/
  | advance (hc : s.compressing = true) (hp : s.phase = .matching) (hi : s.matcher.pos < s.inLen.toNat) :
      EngineMove s { s with matcher := lz77Step s.inByte s.inLen.toNat s.matcher }
  /-- The block's header, all of a stored block, one token or the end-of-block code is written. -/
  | write {t : State} (hc : s.compressing = true) (h : Keeps s t) (hp : s.phase.NextWriting s.matcher.tokens t.phase) :
      EngineMove s t

theorem settle_moves {s t : State} {r : Except ErrKind State} (h : settle s r = .next t)
    (hr : ∀ u, r = .ok u → EngineMove s u) : EngineMove s t := by
  rcases settle_cases s r with ⟨u, rfl, hu⟩ | ⟨e, rfl, hu⟩
  · rw [hu] at h; cases h; exact hr _ rfl
  · rw [hu] at h; cases h; exact .error e

theorem atPlace_moves {here : Bool} {s t : State} {r : Except ErrKind State} (h : atPlace here s r = .next t)
    (hr : here = true → ∀ u, r = .ok u → EngineMove s u) : EngineMove s t :=
  have ⟨hh, hs⟩ := atPlace_next h
  settle_moves hs (hr hh)

theorem atDistance_moves {s t : State} {rule : Nat → Except ErrKind State} (h : atDistance s rule = .next t)
    (hr : ∀ len u, rule len = .ok u → Decoded s u) : EngineMove s t := by
  cases hp : s.pendingLength with
  | none => rw [atDistance_none s rule hp] at h; cases h
  | some len =>
    rw [atDistance_some s rule len hp] at h
    obtain ⟨hd, hl⟩ := (pendingLength_eq_some_iff s len).mp hp
    exact settle_moves h fun u hu => .decode hd (by rw [hl]; rfl) (hr len u hu)

theorem atLitlen_inStream {s : State} (h : s.atLitlen = true) : s.decompressing = true ∧ s.phase.inStream = true := by
  simp only [State.atLitlen, Bool.and_eq_true, decide_eq_true_eq] at h
  exact ⟨h.1, by rw [h.2]; rfl⟩

theorem atBlock_inStream {s : State} (h : s.atBlock = true) : s.decompressing = true ∧ s.phase.inStream = true := by
  simp only [State.atBlock, Bool.and_eq_true, decide_eq_true_eq] at h
  exact ⟨h.1, by rw [h.2]; rfl⟩

/-- A rule that runs where the decoder reads a code, and either reads on or ends the command. -/
theorem decode_moves {here : Bool} {s t : State} {r : Except ErrKind State} (h : atPlace here s r = .next t)
    (hh : here = true → s.decompressing = true ∧ s.phase.inStream = true)
    (hr : s.phase.inStream = true → ∀ u, r = .ok u → Decoded s u ∨ Finished s u) : EngineMove s t :=
  atPlace_moves h fun hhere u hu =>
    have ⟨hd, hp⟩ := hh hhere
    (hr hp u hu).elim (.decode hd hp) .finish

theorem literal_moves {width value : Nat} {s t : State} (hw : 0 < width)
    (h : atPlace s.atLitlen s (literal width value s) = .next t) : EngineMove s t :=
  decode_moves h atLitlen_inStream fun hp _ hu => .inl (literal_decodes hw hp hu)

theorem length_moves {width symbol : Nat} {s t : State} (hw : 0 < width)
    (h : atPlace s.atLitlen s (lengthCode width symbol s) = .next t) : EngineMove s t :=
  decode_moves h atLitlen_inStream fun _ _ hu => .inl (lengthCode_decodes hw hu)

theorem eob_moves {s t : State} (h : execEob s = .next t) : EngineMove s t :=
  decode_moves h atLitlen_inStream fun _ _ hu => by
    obtain ⟨v, hv, hu⟩ := bind_ok_iff.mp hu
    exact endBlock_decodes (keeps_skipBits hv) (skipBits_forward (by decide) hv) hu

theorem blockStored_moves {final : Bool} {s t : State} (h : execBlockStored final s = .next t) : EngineMove s t :=
  decode_moves h atBlock_inStream fun _ _ hu => by
    obtain ⟨v, hv, hu⟩ := bind_ok_iff.mp hu
    obtain ⟨hk, hr⟩ := blockHeader_ok hv
    obtain ⟨w, hw, hu⟩ := storedBody_ok hu
    exact endBlock_decodes (hk.trans hw) (Nat.lt_of_lt_of_le hr hw.forward) hu

theorem blockFixed_moves {final : Bool} {s t : State} (h : execBlockFixed final s = .next t) : EngineMove s t :=
  decode_moves h atBlock_inStream fun _ _ hu => by
    obtain ⟨v, hv, hu⟩ := bind_ok_iff.mp hu
    cases hu
    obtain ⟨hk, hr⟩ := blockHeader_ok hv
    exact .inl ⟨hk.setPhase _, hr, rfl⟩

/-- BTYPE 10 and 11: the header is read, and the rule ends in an error. -/
theorem blockUnsupported_moves {final : Bool} {s t : State}
    (h : execBlockDynamicUnsupported final s = .next t) : EngineMove s t :=
  decode_moves h atBlock_inStream fun _ _ hu => by
    obtain ⟨v, hv, hu⟩ := bind_ok_iff.mp hu
    cases hu

/-- The optional fields one after the other, each at the end of the one before it. -/
theorem skipFields_eq (b : Nat → Byte) (flg : Byte) (stop : Nat) :
    skipFields b flg stop =
      (if flg.getLsbD 2 then skipExtra b stop 10 else .ok 10) >>= fun h =>
        (if flg.getLsbD 3 then skipZstring b (stop - h) h else .ok h) >>= fun h =>
          if flg.getLsbD 4 then skipZstring b (stop - h) h else .ok h := by
  unfold skipFields
  cases flg.getLsbD 2 <;> cases flg.getLsbD 3 <;> rfl

/-- The optional fields end within the bound they are given. -/
theorem skipFields_le {b : Nat → Byte} {flg : Byte} {stop h : Nat} (hs : 10 ≤ stop)
    (hr : skipFields b flg stop = .ok h) : h ≤ stop := by
  have hz {on : Bool} {a r : Nat} (ha : a ≤ stop)
      (h : (if on then skipZstring b (stop - a) a else .ok a) = .ok r) : r ≤ stop := by
    split at h
    · have := (skipZstring_ok h).2.1; omega
    · cases h; exact ha
  rw [skipFields_eq] at hr
  obtain ⟨a, ha, hr⟩ := bind_ok_iff.mp hr
  obtain ⟨c, hc, hr⟩ := bind_ok_iff.mp hr
  refine hz (hz ?_ hc) hr
  split at ha
  · unfold skipExtra at ha
    split at ha
    · cases ha
    · dsimp only at ha
      split at ha
      · cases ha
      · next hle => cases ha; omega
  · cases ha; exact hs

theorem optionalFields_le {flg : Byte} {stop : Nat} {s : State} {r : Nat × State} (hs : 10 ≤ stop)
    (hr : optionalFields flg stop s = .ok r) : r.1 ≤ stop := by
  obtain ⟨a, ha, hr⟩ := bind_ok_iff.mp hr
  split at hr
  · obtain ⟨h, -, rfl⟩ := (checkHeaderCrc_ok_iff _ _ _ _).mp hr
    exact h
  · cases hr
    exact skipFields_le hs ha

theorem gzipMember_moves {flg : Byte} {mtime : Word} {xfl os : Byte} {s t : State}
    (h : execGzipMember flg mtime xfl os s = .next t) : EngineMove s t := by
  refine atPlace_moves h fun hh u hu => ?_
  simp only [State.atHeader, Bool.and_eq_true, decide_eq_true_eq] at hh
  unfold memberHeader at hu
  dsimp only at hu
  split at hu
  · cases hu
  · obtain ⟨⟨a, v⟩, hv, hu⟩ := bind_ok_iff.mp hu
    cases hu
    have hle := optionalFields_le (by omega) hv
    have hf := (optionalFields_frame hv).1
    dsimp only at hle hf
    rw [hf]
    exact .openMember a _ hh.1 hh.2 (by omega)

theorem streamExec_moves {i : Instr} {s t : State} (h : streamExec i s = .next t) : EngineMove s t := by
  cases i with
  | clear | deflateCompress | deflateDecompress | gzipCompress | gzipDecompress | crc32 | reservedCmd => cases h
  | blockStored => exact blockStored_moves h
  | blockFixed => exact blockFixed_moves h
  | blockDynamicUnsupported | blockReserved => exact blockUnsupported_moves h
  | lit0To15 | lit16To79 | lit80To143 | lit144To159 | lit160To191 | lit192To255 =>
    exact literal_moves (by decide) h
  | eob => exact eob_moves h
  | len257 | len258To259 | len260To263 | len264To271 | len272To279 | len280To283 | len284To285 =>
    exact length_moves (by decide) h
  | litlenInvalid => exact atPlace_moves h fun _ _ hu => nomatch hu
  | dist0To15 | dist16To23 | dist24To27 | dist28To29 => exact atDistance_moves h fun _ _ hu => distanceCode_decodes hu
  | distInvalid => exact atDistance_moves h fun _ _ hu => nomatch hu
  | gzipMember flg mtime xfl os => exact gzipMember_moves (mtime := mtime) (xfl := xfl) (os := os) h

theorem stepStream_moves {sp : Space} {s t : State} (h : stepStream sp s = .next t) : EngineMove s t := by
  unfold stepStream at h
  split at h
  · exact streamExec_moves h
  · cases h; exact .error _

theorem stepMatching_moves {s u : State} (hc : s.compressing = true) (hp : s.phase = .matching)
    (h : stepMatching s = .ok u) : EngineMove s u := by
  unfold stepMatching at h
  split at h
  · next hi => cases h; exact .advance hc hp hi
  · unfold chooseBlock at h
    split at h
    · split at h
      · cases h
      · obtain ⟨v, hv, h⟩ := bind_ok_iff.mp h
        cases h
        exact .write hc ((keeps_emitStored hv).setPhase _) (by rw [hp]; exact Or.inl rfl)
    · obtain ⟨v, hv, h⟩ := bind_ok_iff.mp h
      cases h
      exact .write hc ((keeps_openFixed hv).setPhase _) (by rw [hp]; exact Or.inr rfl)

theorem stepEmitting_moves {left : List Token} {s u : State} (hc : s.compressing = true)
    (hp : s.phase = .emitting left) (h : stepEmitting left s = .ok u) : EngineMove s u := by
  cases left with
  | nil =>
    obtain ⟨v, hv, h⟩ := bind_ok_iff.mp h
    cases h
    exact .write hc ((keeps_putLitlen hv).setPhase _) (by simp [hp, Phase.NextWriting])
  | cons tok rest =>
    obtain ⟨v, hv, h⟩ := bind_ok_iff.mp h
    cases h
    exact .write hc ((keeps_putToken hv).setPhase _) (by simp [hp, Phase.NextWriting])

theorem stepFraming_moves {s u : State} (hc : s.cmdState = .busy .gzipCompress) (hp : s.phase = .framing)
    (h : stepFraming s = .ok u) : EngineMove s u := by
  obtain ⟨v, hv, h⟩ := bind_ok_iff.mp h
  cases h
  exact .framing hc hp (keeps_outAppendAll hv)

/-- The closing step sets the output's end to the writer's. -/
theorem keeps_closing {s u : State} (h : alignWriter s = .ok u) (c : Word) :
    Keeps s { u with outPos := u.wbase + u.wlen, crc := c } where
  frame := by rw [(keeps_alignWriter h).frame]
  forward := (keeps_alignWriter h).forward
  reader := (keeps_alignWriter h).reader
  writer := (keeps_alignWriter h).writer
  output := (keeps_alignWriter h).output
  cursors hc := by
    have := ((keeps_alignWriter h).cursors hc).1
    exact ⟨this, by rw [(keeps_alignWriter h).wbase]; exact this⟩

theorem stepClosing_moves {s u : State} (h : stepClosing s = .ok u) : EngineMove s u := by
  obtain ⟨v, hv, h⟩ := bind_ok_iff.mp h
  dsimp only at h
  split at h
  · obtain ⟨w, hw, h⟩ := bind_ok_iff.mp h
    cases h
    exact .finish ⟨w, _, (keeps_closing hv _).trans (keeps_outAppendAll hw), rfl⟩
  · cases h
    exact .finish ⟨_, _, keeps_closing hv v.crc, rfl⟩

/-- Every engine step that answers a state makes one of the moves. -/
theorem engineStep_moves {s t : State} (h : engineStep s = .next t) : EngineMove s t := by
  unfold engineStep at h
  split at h
  · exact stepStream_moves h
  · split at h
    · next hp => exact atPlace_moves h fun hc u hu => stepFraming_moves (by simpa using hc) hp hu
    · next hp => exact atPlace_moves h fun hc u hu => stepMatching_moves hc hp hu
    · next left hp => exact atPlace_moves h fun hc u hu => stepEmitting_moves hc hp hu
    · exact atPlace_moves h fun _ u hu => stepClosing_moves hu
    · exact atPlace_moves h fun _ u hu => by cases hu; exact .checksum _ _
    · cases h

/-! ### The matcher's step stays within the input -/

theorem matchLen_le (D : Nat → Byte) (c i limit : Nat) : matchLen D c i limit ≤ limit := by
  induction limit generalizing c i with
  | zero => exact Nat.le_refl _
  | succ limit ih =>
    rw [matchLen]
    split
    · exact Nat.succ_le_succ (ih _ _)
    · exact Nat.zero_le _

theorem chainWalk_le (D : Nat → Byte) (links : Table (Option Nat)) (i limit fuel : Nat) (cand : Option Nat)
    (best : Nat × Nat) (hb : best.1 ≤ limit) : (chainWalk D links i limit fuel cand best).1 ≤ limit := by
  induction fuel generalizing cand best with
  | zero => exact hb
  | succ fuel ih =>
    cases cand with
    | none => exact hb
    | some p =>
      have hlen := matchLen_le D p i limit
      simp only [chainWalk]
      split
      · exact hb
      · split
        · split
          · exact hlen
          · exact ih _ _ hlen
        · exact ih _ _ hb

/-- The match the matcher finds at its position, (0, 0) where fewer than three bytes are left. -/
def Matcher.found (D : Nat → Byte) (n : Nat) (m : Matcher) : Nat × Nat :=
  if m.pos + 3 ≤ n then longestMatch D n m.pos m else (0, 0)

theorem lz77Step_eq (D : Nat → Byte) (n : Nat) (m : Matcher) :
    lz77Step D n m =
      if 3 ≤ (m.found D n).1 then
        { insertRange D n m.pos (m.found D n).1 m with
          pos := m.pos + (m.found D n).1, tokens := m.tokens ++ [.copy (m.found D n).1 (m.found D n).2] }
      else { insertPos D n m.pos m with pos := m.pos + 1, tokens := m.tokens ++ [.literal (D m.pos)] } := rfl

theorem Matcher.found_le (D : Nat → Byte) (n : Nat) (m : Matcher) (h : m.pos ≤ n) : m.pos + (m.found D n).1 ≤ n := by
  unfold Matcher.found longestMatch
  split
  · have := chainWalk_le D m.prev m.pos (min 258 (n - m.pos)) 32768 (tableRead m.head (hashAt D m.pos)) (0, 0)
      (Nat.zero_le _)
    omega
  · exact h

/-- A matcher step advances within the input and adds one token. -/
theorem lz77Step_advances (D : Nat → Byte) (n : Nat) (m : Matcher) (h : m.pos < n) :
    m.pos < (lz77Step D n m).pos ∧ (lz77Step D n m).pos ≤ n ∧
      (lz77Step D n m).tokens.length = m.tokens.length + 1 := by
  have hle := m.found_le D n (Nat.le_of_lt h)
  rw [lz77Step_eq]
  split
  · next h3 => exact ⟨Nat.lt_add_of_pos_right (by omega), hle, by simp⟩
  · exact ⟨Nat.lt_succ_self _, h, by simp⟩

/-! ### The invariant along the moves -/

/-- The clauses of the invariant on the working registers. -/
structure State.WorkOk (s : State) : Prop where
  writer : s.WriterOk
  reader : s.ReaderOk
  cursors : s.CursorsOk

/-- The invariant but for the buffers, which no command start sets anew. -/
structure State.Sound (s : State) : Prop where
  status : s.StatusOk
  work : s.WorkOk
  phase : s.PhaseOk

theorem State.inv_iff (s : State) : s.Inv ↔ s.BuffersOk ∧ s.Sound := by
  constructor
  · rintro ⟨hbuf, hstatus, hw, hr, hc, hp⟩
    exact ⟨hbuf, hstatus, ⟨hw, hr, hc⟩, hp⟩
  · rintro ⟨hbuf, hstatus, ⟨hw, hr, hc⟩, hp⟩
    exact ⟨hbuf, hstatus, hw, hr, hc, hp⟩

theorem State.buffersOk_iff (s : State) :
    s.BuffersOk ↔ (Memory.wf s.inBuf = true ∧ tableBelow s.cfg.inCap s.inBuf = true) ∧ OutputOk s.cfg s.outBuf := by
  constructor
  · rintro ⟨hin, hout, hbelow, hfits⟩
    exact ⟨⟨hin, hbelow⟩, hout, hfits⟩
  · rintro ⟨⟨hin, hbelow⟩, hout, hfits⟩
    exact ⟨hin, hout, hbelow, hfits⟩

theorem Keeps.workOk {s t : State} (h : Keeps s t) (hs : s.WorkOk) : t.WorkOk := by
  obtain ⟨hw, ⟨hr, hd⟩, he, ho, hm⟩ := hs
  have hc := h.cursors ⟨he, ho⟩
  have hr' := h.reader hr
  have hw' := h.writer hw
  rw [h.frame] at hc hr' hw' ⊢
  exact ⟨hw', ⟨hr', hd⟩, hc.1, hc.2, hm⟩

theorem Keeps.buffersOk {s t : State} (h : Keeps s t) (hs : s.BuffersOk) : t.BuffersOk := by
  rw [State.buffersOk_iff] at hs ⊢
  rw [h.inBuf, h.cfg]
  exact ⟨hs.1, h.output hs.2⟩

theorem Keeps.statusOk {s t : State} (h : Keeps s t) (hs : s.StatusOk) : t.StatusOk := by
  rw [h.frame]
  exact hs

theorem ErrKind.code_le (e : ErrKind) : e.code.toNat ≤ 7 := by cases e <;> decide

/-- A BUSY block shows no error code. -/
theorem State.StatusOk.errCode_eq_zero {s : State} (h : s.StatusOk) (hb : s.busy = true) : s.errCode = 0#4 := by
  obtain ⟨-, hiff, -, hbusy⟩ := h
  by_contra hne
  exact absurd (hiff.mpr hne) (by simp [(hbusy hb).2])

theorem takeError_statusOk (b : Bool) (e : ErrKind) (s : State) : (takeError b e s).StatusOk :=
  ⟨fun _ => rfl, by simp [e.code_ne_zero], e.code_le, by simp [State.busy]⟩

/-- An IDLE block's clauses on the reader and the matcher's position ask nothing of IN_LEN. -/
theorem State.WorkOk.idle {s t : State} (h : s.WorkOk) (hi : t.cmdState = .idle) (hcfg : t.cfg = s.cfg)
    (hw : t.wbase = s.wbase ∧ t.wlen = s.wlen ∧ t.wcur = s.wcur ∧ t.wnb = s.wnb)
    (hr : t.rlen = s.rlen ∧ t.rpos = s.rpos) (ho : t.outPos = s.outPos) : t.WorkOk := by
  obtain ⟨⟨hw1, hw2⟩, ⟨hr1, -⟩, hc1, hc2, -⟩ := h
  obtain ⟨e1, e2, e3, e4⟩ := hw
  refine ⟨?_, ⟨?_, ?_⟩, ?_, ?_, ?_⟩
  · rw [State.WriterOk, e3, e4]; exact ⟨hw1, hw2⟩
  · rw [hr.1, hr.2]; exact hr1
  · simp [State.decompressing, hi]
  · rw [hcfg, e1, e2]; exact hc1
  · rw [hcfg, ho]; exact hc2
  · simp [State.compressing, hi]

theorem takeError_sound {b : Bool} {e : ErrKind} {s : State} (h : s.WorkOk) : (takeError b e s).Sound :=
  ⟨takeError_statusOk b e s, h.idle rfl (by simp) (by simp) (by simp) (by simp), rfl⟩

theorem takeError_buffersOk {b : Bool} {e : ErrKind} {s : State} (h : s.BuffersOk) : (takeError b e s).BuffersOk := by
  cases b
  · obtain ⟨h1, -, h3, -⟩ := h
    exact ⟨h1, rfl, h3, rfl⟩
  · exact h

theorem complete_sound {s : State} (h : s.WorkOk) (he : s.errCode = 0#4) : s.complete.Sound :=
  ⟨⟨by simp, by simp [he], by simp [he], by simp [State.busy]⟩,
    h.idle rfl rfl ⟨rfl, rfl, rfl, rfl⟩ ⟨rfl, rfl⟩ rfl, rfl⟩

theorem Finished.sound {s t : State} (h : Finished s t) (hs : s.Sound) (hb : s.busy = true) : t.Sound := by
  obtain ⟨u, w, hu, rfl⟩ := h
  obtain ⟨hw, hr, hc⟩ := hu.workOk hs.work
  exact complete_sound ⟨hw, hr, hc⟩ (hu.errCode.trans (hs.status.errCode_eq_zero hb))

theorem Finished.buffersOk {s t : State} (h : Finished s t) (hs : s.BuffersOk) : t.BuffersOk := by
  obtain ⟨u, w, hu, rfl⟩ := h
  have := hu.buffersOk hs
  rw [State.buffersOk_iff] at this ⊢
  exact ⟨this.1, this.2.cut⟩

/-- A stream place belongs to either decompress command. -/
theorem phaseOk_of_inStream {s : State} (hd : s.decompressing = true) (hp : s.phase.inStream = true) : s.PhaseOk := by
  unfold State.decompressing at hd
  unfold Phase.inStream at hp
  unfold State.PhaseOk
  split at hd
  · next hc => rw [hc]; split at hp <;> simp_all [phaseFits]
  · next hc => rw [hc]; split at hp <;> simp_all [phaseFits]
  · cases hd

/-- The places of a compress command after the matcher belong to either one. -/
theorem phaseOk_of_nextWriting {s : State} {tokens : List Token} {p : Phase} (hc : s.compressing = true)
    (hp : p.NextWriting tokens s.phase) : s.PhaseOk := by
  have hq : s.phase = .closing ∨ ∃ left, s.phase = .emitting left := by
    unfold Phase.NextWriting at hp
    split at hp
    · exact hp.imp_right fun h => ⟨_, h⟩
    · exact .inr ⟨_, hp⟩
    · exact .inl hp
    · exact hp.elim
  unfold State.compressing at hc
  unfold State.PhaseOk
  split at hc
  · next hcmd => rcases hq with hq | ⟨left, hq⟩ <;> rw [hcmd, hq] <;> rfl
  · next hcmd => rcases hq with hq | ⟨left, hq⟩ <;> rw [hcmd, hq] <;> rfl
  · cases hc

theorem EngineMove.sound {s t : State} (h : EngineMove s t) (hs : s.Sound) (hb : s.busy = true) : t.Sound := by
  obtain ⟨hstatus, hwork, hphase⟩ := hs
  cases h with
  | error e => exact takeError_sound hwork
  | finish hf => exact hf.sound ⟨hstatus, hwork, hphase⟩ hb
  | checksum c w => exact complete_sound ⟨hwork.writer, hwork.reader, hwork.cursors⟩ (hstatus.errCode_eq_zero hb)
  | decode hd hp hk =>
    obtain ⟨hk, -, hp'⟩ := hk
    refine ⟨hk.statusOk hstatus, hk.workOk hwork, phaseOk_of_inStream ?_ hp'⟩
    rw [State.decompressing, hk.cmdState]
    exact hd
  | openMember h c hc hp hh =>
    obtain ⟨hw, -, he, -, hm⟩ := hwork
    refine ⟨hstatus, ⟨hw, ⟨Nat.zero_le _, fun _ => ?_⟩, he, ?_, hm⟩, ?_⟩
    · show h + (s.inLen.toNat - 8 - h) ≤ s.inLen.toNat
      omega
    · exact capAdmits_zero _
    · show phaseFits s.cmdState .blockHeader = true
      rw [hc]; rfl
  | @framing u hc hp hk =>
    obtain ⟨-, hr, -, ho, hm⟩ := hk.workOk hwork
    refine ⟨hk.statusOk hstatus, ⟨writerOk_empty rfl rfl, hr, ho, ho, hm⟩, ?_⟩
    show phaseFits u.cmdState .matching = true
    rw [hk.cmdState, hc]; rfl
  | advance hc hp hi =>
    obtain ⟨hw, hr, he, ho, -⟩ := hwork
    exact ⟨hstatus, ⟨hw, hr, he, ho, fun _ => (lz77Step_advances _ _ _ hi).2.1⟩, hphase⟩
  | write hc hk hp =>
    refine ⟨hk.statusOk hstatus, hk.workOk hwork, phaseOk_of_nextWriting ?_ hp⟩
    rw [State.compressing, hk.cmdState]
    exact hc

theorem EngineMove.buffersOk {s t : State} (h : EngineMove s t) (hs : s.BuffersOk) : t.BuffersOk := by
  cases h with
  | error e => exact takeError_buffersOk hs
  | finish hf => exact hf.buffersOk hs
  | decode _ _ hk => exact hk.1.buffersOk hs
  | framing _ _ hk | write _ hk _ => exact hk.buffersOk hs
  | checksum | openMember | advance => exact hs

theorem engineStep_inv {s t : State} (hs : s.Inv) (hb : s.busy = true) (h : engineStep s = .next t) : t.Inv := by
  rw [State.inv_iff] at hs ⊢
  have hm := engineStep_moves h
  exact ⟨hm.buffersOk hs.1, hm.sound hs.2 hb⟩

/-! ### Command starts and the host's actions -/

/-- The start of a data command puts the working registers in order, whatever they held. -/
theorem restart_workOk (op : Op) (s : State) :
    State.WorkOk { (s.begin (.busy op)).restart with phase := op.firstPhase } :=
  ⟨writerOk_empty rfl rfl, ⟨Nat.zero_le _, fun _ => by simp⟩, capAdmits_zero _, capAdmits_zero _,
    fun _ => Nat.zero_le _⟩

theorem startCommand_sound {op : Op} {s : State} (h : s.WorkOk ∨ s.inLen.toNat ≤ s.cfg.inCap) :
    (startCommand op s).Sound := by
  by_cases hle : s.inLen.toNat ≤ s.cfg.inCap
  · rw [startCommand_ok op s hle]
    exact ⟨by simp [State.StatusOk], restart_workOk op s, by cases op <;> rfl⟩
  · rw [startCommand_over op s (by omega)]
    have hw := h.resolve_right hle
    exact ⟨takeError_statusOk _ _ _, hw.idle rfl (by simp) (by simp) (by simp) (by simp), rfl⟩

theorem startCommand_buffersOk {op : Op} {s : State} (h : s.BuffersOk) : (startCommand op s).BuffersOk := by
  by_cases hle : s.inLen.toNat ≤ s.cfg.inCap
  · rw [startCommand_ok op s hle]
    exact h
  · rw [startCommand_over op s (by omega)]
    exact h

/-- A run of a BUSY block's engine begins with one step. -/
theorem runEngine_succ_busy {fuel : Nat} {s t : State} (hb : s.busy = true) (h : runEngine (fuel + 1) s = .next t) :
    ∃ u, engineStep s = .next u ∧ runEngine fuel u = .next t := by
  cases he : engineStep s with
  | next u => exact ⟨u, rfl, by rwa [runEngine_succ_next fuel s u hb he] at h⟩
  | fault r => simp [runEngine, hb, he] at h
  | refused r => simp [runEngine, hb, he] at h

/-- A property that every engine step of a BUSY block keeps holds where the run of the engine stops. -/
theorem runEngine_induct {P : State → Prop} (hstep : ∀ s t, P s → s.busy = true → engineStep s = .next t → P t)
    {fuel : Nat} {s t : State} (hs : P s) (h : runEngine fuel s = .next t) : P t := by
  induction fuel generalizing s with
  | zero => cases h; exact hs
  | succ fuel ih =>
    cases hb : s.busy with
    | false => rw [runEngine_idle _ s hb] at h; cases h; exact hs
    | true =>
      obtain ⟨u, hu, h⟩ := runEngine_succ_busy hb h
      exact ih (hstep s u hs hb hu) h

/-- A command that answers a state began in an IDLE block. -/
theorem whenIdle_next {s t : State} {o : Outcome} (h : whenIdle s o = .next t) : s.cmdState = .idle ∧ o = .next t := by
  unfold whenIdle at h
  split at h
  · cases h
  · next hb => exact ⟨(State.busy_eq_false_iff s).mp (by simpa using hb), h⟩

theorem dataCommand_inv {op : Op} {s t : State} (hs : s.Inv) (h : dataCommand op s = .next t) : t.Inv := by
  rw [State.inv_iff] at hs
  have hstart : (startCommand op s).Inv :=
    (State.inv_iff _).mpr ⟨startCommand_buffersOk hs.1, startCommand_sound (.inl hs.2.work)⟩
  have h := (whenIdle_next h).2
  split at h
  · exact runEngine_induct (fun _ _ => engineStep_inv) hstart h
  · cases h; exact hstart

/-- CLEAR and the start of a reserved word only clear the flags. -/
theorem begin_idle_sound {s : State} (hw : s.WorkOk) (hp : s.phase = .rest) : (s.begin .idle).Sound :=
  ⟨by simp [State.StatusOk, State.busy], hw.idle rfl rfl ⟨rfl, rfl, rfl, rfl⟩ ⟨rfl, rfl⟩ rfl, by
    show phaseFits .idle s.phase = true
    rw [hp]; rfl⟩

/-- An IDLE block is at no command's place. -/
theorem State.PhaseOk.rest {s : State} (h : s.PhaseOk) (hi : s.cmdState = .idle) : s.phase = .rest := by
  unfold State.PhaseOk at h
  rw [hi] at h
  cases hp : s.phase <;> simp [hp, phaseFits] at h ⊢

theorem exec_cmd_inv {i : Instr} {s t : State} (hi : i.space = .cmd) (hs : s.Inv) (h : exec i s = .next t) : t.Inv := by
  obtain ⟨hbuf, -, hwork, hphase⟩ := (State.inv_iff s).mp hs
  cases i with
  | clear =>
    obtain ⟨hidle, h⟩ := whenIdle_next h
    cases h
    exact (State.inv_iff _).mpr ⟨hbuf, begin_idle_sound hwork (hphase.rest hidle)⟩
  | reservedCmd w =>
    obtain ⟨hidle, h⟩ := whenIdle_next h
    cases h
    exact (State.inv_iff _).mpr ⟨hbuf, takeError_sound (begin_idle_sound hwork (hphase.rest hidle)).work⟩
  | deflateCompress | deflateDecompress | gzipCompress | gzipDecompress | crc32 => exact dataCommand_inv hs h
  | _ => cases hi

theorem regWrite_inv {offset : Nat} {v : Word} {s : State} (hs : s.Inv) (hi : s.cmdState = .idle) :
    (s.regWrite offset v).Inv := by
  obtain ⟨hbuf, hstatus, hwork, hphase⟩ := (State.inv_iff s).mp hs
  refine (State.inv_iff _).mpr ⟨?_, ?_, hwork.idle (by simpa) (by simp) (by simp) (by simp) (by simp), ?_⟩
  · simpa [State.BuffersOk] using hbuf
  · simpa [State.StatusOk, State.busy] using hstatus
  · simpa [State.PhaseOk] using hphase

theorem putIn_inv {offset : Nat} {v : Byte} {s : State} (hs : s.Inv) (hlt : offset < s.cfg.inCap) :
    (s.putIn offset v).Inv := by
  obtain ⟨⟨hin, hout, hbelow, hfits⟩, hrest⟩ := hs
  exact ⟨⟨Memory.wf_tableWrite hin, hout, tableBelow_tableWrite hbelow hlt, hfits⟩, hrest⟩

theorem resetWith_inv (c : Config) : (State.resetWith c).Inv :=
  (State.inv_iff _).mpr ⟨⟨rfl, rfl, rfl, rfl⟩, by simp [State.StatusOk, State.resetWith, State.busy],
    ⟨writerOk_empty rfl rfl, ⟨Nat.zero_le _, nofun⟩, capAdmits_zero _, capAdmits_zero _, nofun⟩, rfl⟩

theorem hostAct_inv {a : HostAction} {s t : State} (hs : s.Inv) (h : hostAct a s = .next t) : t.Inv := by
  cases a with
  | writeReg width offset v =>
    simp only [hostAct, hostWriteReg] at h
    split at h
    · cases h
    · next hb => cases h; exact regWrite_inv hs ((State.busy_eq_false_iff s).mp (by simpa using hb))
  | readReg width offset =>
    simp only [hostAct, hostReadReg] at h
    split at h
    · split at h <;> cases h <;> exact hs
    · cases h
  | writeIn offset v =>
    simp only [hostAct, hostWriteIn] at h
    split at h
    · next hlt =>
      split at h
      · cases h
      · cases h; exact putIn_inv hs hlt
    · cases h
  | readIn offset =>
    simp only [hostAct, hostReadIn] at h
    split at h
    · split at h <;> cases h <;> exact hs
    · cases h
  | writeOut offset v => cases h
  | readOut offset =>
    simp only [hostAct, hostReadOut] at h
    split at h
    · split at h <;> cases h <;> exact hs
    · cases h
  | wait => cases h; exact hs
  | reset => cases h; exact resetWith_inv s.cfg

theorem hostWrite_inv {width offset : Nat} {v : Word} {s t : State} (hs : s.Inv)
    (h : hostWrite width offset v s = .next t) : t.Inv := by
  unfold hostWrite at h
  split at h
  · split at h
    · exact exec_cmd_inv (decodeCmd_space v) hs h
    · exact hostAct_inv (a := .writeReg width offset v) hs h
  · cases h

/-- The invariant says nothing of the host's pending actions. -/
theorem script_inv {s : State} (hs : s.Inv) (l : List HostEvent) : State.Inv { s with script := l } := hs

/-- Settles O60: every move of the engine, every command start and every host action keeps the invariant. -/
theorem stepKeepsTheInvariant : Obligations.StepKeepsTheInvariant := by
  intro s t hs h
  unfold step at h
  split at h
  · split at h
    · next hb => exact engineStep_inv hs hb h
    · cases h; exact hs
  · split at h
    · split at h
      · exact hostWrite_inv (script_inv hs _) h
      · exact hostAct_inv (script_inv hs _) h
    · next hturn =>
      refine engineStep_inv (script_inv hs _) ?_ h
      simp only [hostTurn, Bool.or_eq_true, not_or] at hturn
      simpa [State.busy] using hturn.1

/-- Settles O59, from the clauses of the invariant on empty buffers and zero registers. -/
theorem resetMeetsTheInvariant : Obligations.ResetMeetsTheInvariant := resetWith_inv

end Sys2Proof.Machine

namespace Sys2Proof.Machine

/-! ### A command ends within its bound -/

/-- How many engine steps the running command still makes at most: for each token in the making or to write, for each bit to
read, and the steps around them. -/
def State.remaining (s : State) : Nat :=
  match s.phase with
  | .rest => 0
  | .framing => 2 * (s.inLen.toNat - s.matcher.pos) + s.matcher.tokens.length + 4
  | .matching => 2 * (s.inLen.toNat - s.matcher.pos) + s.matcher.tokens.length + 3
  | .emitting left => left.length + 2
  | .closing => 1
  | .gzipHeader => 8 * s.inLen.toNat + 9
  | .blockHeader => 8 * s.rlen + 9 - s.rpos
  | .litlen => 8 * s.rlen + 9 - s.rpos
  | .dist _ => 8 * s.rlen + 9 - s.rpos
  | .checksum => 1

theorem State.remaining_inStream {s : State} (h : s.phase.inStream = true) : s.remaining = 8 * s.rlen + 9 - s.rpos := by
  unfold State.remaining
  cases hp : s.phase <;> simp [hp, Phase.inStream] at h ⊢

/-- A BUSY block has at least one step to make. -/
theorem State.Sound.remaining_pos {s : State} (h : s.Sound) (hb : s.busy = true) : 0 < s.remaining := by
  obtain ⟨-, ⟨-, ⟨hr, -⟩, -⟩, hp⟩ := h
  obtain ⟨op, hop⟩ := (State.busy_eq_true_iff s).mp hb
  rw [State.PhaseOk, hop] at hp
  unfold State.remaining
  cases hph : s.phase with
  | rest => rw [hph] at hp; cases op <;> cases hp
  | blockHeader | litlen | dist => simp only; omega
  | _ => simp

/-- Every move leaves less to do, or ends the command. -/
theorem EngineMove.remaining_lt {s t : State} (h : EngineMove s t) (hs : s.Sound) (hb : s.busy = true)
    (ht : t.busy = true) : t.remaining < s.remaining := by
  have hsound := h.sound hs hb
  cases h with
  | error e => simp [State.busy] at ht
  | finish hf => obtain ⟨u, w, -, rfl⟩ := hf; simp [State.busy] at ht
  | checksum c w => simp [State.busy] at ht
  | decode hd hp hk =>
    obtain ⟨hk, hlt, hp'⟩ := hk
    have hr := hsound.work.reader.1
    rw [State.remaining_inStream hp, State.remaining_inStream hp']
    rw [hk.rlen] at hr ⊢
    omega
  | openMember h c hc hp hh =>
    have e : State.remaining (openPayload h (s.inLen.toNat - 8) { s with crc := c }) =
        8 * (s.inLen.toNat - 8 - h) + 9 - 0 := rfl
    rw [e, State.remaining, hp]
    dsimp only
    omega
  | @framing u hc hp hk =>
    have e : State.remaining { u with wbase := u.outPos, wlen := 0, wcur := 0#8, wnb := 0, phase := .matching } =
        2 * (u.inLen.toNat - u.matcher.pos) + u.matcher.tokens.length + 3 := rfl
    rw [e, hk.inLen, hk.matcher, State.remaining, hp]
    exact Nat.lt_succ_self _
  | advance hc hp hi =>
    obtain ⟨h1, h2, h3⟩ := lz77Step_advances s.inByte s.inLen.toNat s.matcher hi
    simp only [State.remaining, hp, h3]
    omega
  | write hc hk hp =>
    unfold Phase.NextWriting at hp
    unfold State.remaining
    split at hp
    · next hps => rcases hp with hp | hp <;> simp only [hp, hps] <;> omega
    · next hps => simp [hp, hps]
    · next hps => simp [hp, hps]
    · exact hp.elim

theorem runEngine_ends {fuel : Nat} {s t : State} (hs : s.Sound) (hf : s.remaining ≤ fuel)
    (h : runEngine fuel s = .next t) : t.busy = false := by
  induction fuel generalizing s with
  | zero =>
    cases h
    by_contra hb
    have := hs.remaining_pos (by simpa using hb)
    omega
  | succ fuel ih =>
    cases hb : s.busy with
    | false => rw [runEngine_idle _ s hb] at h; cases h; exact hb
    | true =>
      obtain ⟨u, hu, h⟩ := runEngine_succ_busy hb h
      have hm := engineStep_moves hu
      cases hub : u.busy with
      | false => rw [runEngine_idle _ u hub] at h; cases h; exact hub
      | true =>
        have := hm.remaining_lt hs hb hub
        exact ih (hm.sound hs hb) (by omega) h

/-- The bound of 46_commands.md R241 covers what a command has to do at its start. -/
theorem startCommand_remaining_le {op : Op} {s : State} (h : s.inLen.toNat ≤ s.cfg.inCap) :
    (startCommand op s).remaining ≤ engineBound s.inLen.toNat := by
  rw [startCommand_ok op s h]
  cases op <;> simp [State.remaining, Op.firstPhase, engineBound, State.restart, State.begin, Matcher.restart] <;> omega

end Sys2Proof.Machine

namespace Sys2Proof.Machine

/-! ### The matcher of two blocks that differ in `prev` -/

/-- Two matchers agree on all but the entries of `prev` that no insertion of the running command has written, and their
links point backwards, so that no walk leaves the entries on which they agree. -/
structure ChainTwin (n i : Nat) (m m' : Matcher) : Prop where
  frame : m' = { m with prev := m'.prev }
  links : LinksBack n i m
  fresh : ∀ p, p < i → p + 3 ≤ n → i ≤ p + 32768 → tableRead m'.prev (p % 32768) = tableRead m.prev (p % 32768)

/-- At command start the matchers agree whatever `prev` holds. -/
theorem chainTwin_restart (n : Nat) (m m' : Matcher) : ChainTwin n m.restart.pos m.restart m'.restart where
  frame := rfl
  links := ⟨fun h p hp => by simp [Matcher.restart, tableRead] at hp, fun p hp => absurd hp (Nat.not_lt_zero p)⟩
  fresh p hp := absurd hp (Nat.not_lt_zero p)

theorem chainWalk_twin {D : Nat → Byte} {n i limit : Nat} {m m' : Matcher} (hm : ChainTwin n i m m') (hi : i + 3 ≤ n)
    (fuel : Nat) (cand : Option Nat) (best : Nat × Nat) (hc : ∀ p, cand = some p → p < i) :
    chainWalk D m'.prev i limit fuel cand best = chainWalk D m.prev i limit fuel cand best := by
  induction fuel generalizing cand best with
  | zero => rfl
  | succ fuel ih =>
    cases cand with
    | none => rfl
    | some p =>
      have hp := hc p rfl
      by_cases hfar : 32768 < i - p
      · simp only [chainWalk, hfar, if_true]
      · have hlink : chainLink m'.prev (p % 32768) = chainLink m.prev (p % 32768) := by
          rw [chainLink, chainLink, hm.fresh p hp (by omega) (by omega)]
        have hback : ∀ q, chainLink m.prev (p % 32768) = some q → q < i := by
          obtain ⟨o, ho, hq⟩ := hm.links.2 p hp (by omega) (by omega)
          intro q hq'
          rw [chainLink, ho] at hq'
          exact Nat.lt_trans (hq q hq') hp
        simp only [chainWalk, hlink, ih _ _ hback]

theorem Matcher.found_twin {D : Nat → Byte} {n : Nat} {m m' : Matcher} (hm : ChainTwin n m.pos m m') :
    m'.found D n = m.found D n := by
  have hpos : m'.pos = m.pos := by rw [hm.frame]
  have hhead : m'.head = m.head := by rw [hm.frame]
  unfold Matcher.found longestMatch
  rw [hpos, hhead]
  split
  · next hi => exact chainWalk_twin hm hi _ _ _ fun p hp => hm.links.1 _ p hp
  · rfl

theorem insertPos_twin {D : Nat → Byte} {n i : Nat} {m m' : Matcher} (hm : ChainTwin n i m m') :
    ChainTwin n (i + 1) (insertPos D n i m) (insertPos D n i m') where
  frame := by
    rw [hm.frame]
    unfold insertPos
    split <;> rfl
  links := insertPos_linksBack hm.links
  fresh p hp hpn hw := by
    have hhead : m'.head = m.head := by rw [hm.frame]
    unfold insertPos
    split
    · simp only [tableRead_tableWrite, hhead]
      by_cases hpi : p = i
      · rw [hpi, if_pos rfl, if_pos rfl]
      · rw [if_neg (by omega), if_neg (by omega)]
        exact hm.fresh p (by omega) hpn (by omega)
    · exact hm.fresh p (by omega) hpn (by omega)

theorem insertRange_twin {D : Nat → Byte} {n i k : Nat} {m m' : Matcher} (hm : ChainTwin n i m m') :
    ChainTwin n (i + k) (insertRange D n i k m) (insertRange D n i k m') := by
  induction k generalizing i m m' with
  | zero => exact hm
  | succ k ih =>
    rw [show i + (k + 1) = i + 1 + k by omega]
    exact ih (insertPos_twin hm)

/-- The agreement does not depend on the position and the tokens, which a step sets alike in both. -/
theorem ChainTwin.set {n i : Nat} {m m' : Matcher} (hm : ChainTwin n i m m') (pos : Nat) (tokens : List Token) :
    ChainTwin n i { m with pos := pos, tokens := tokens } { m' with pos := pos, tokens := tokens } where
  frame := by rw [hm.frame]
  links := hm.links
  fresh := hm.fresh

theorem lz77Step_twin {D : Nat → Byte} {n : Nat} {m m' : Matcher} (hm : ChainTwin n m.pos m m') :
    ChainTwin n (lz77Step D n m).pos (lz77Step D n m) (lz77Step D n m') := by
  have hpos : m'.pos = m.pos := by rw [hm.frame]
  have htok : m'.tokens = m.tokens := by rw [hm.frame]
  rw [lz77Step_eq, lz77Step_eq, Matcher.found_twin hm, hpos, htok]
  split
  · exact (insertRange_twin hm).set _ _
  · exact (insertPos_twin hm).set _ _

end Sys2Proof.Machine

namespace Sys2Proof.Machine

/-! ### Two runs of one command -/

/-- Both buffers list the same byte at an offset. -/
def SameByte (m m' : Memory) (a : Nat) : Prop := ∃ v, tableRead m a = some v ∧ tableRead m' a = some v

theorem SameByte.write {m m' : Memory} {a i : Nat} {v : Byte} (h : a ≠ i → SameByte m m' a) :
    SameByte (tableWrite m i v) (tableWrite m' i v) a := by
  by_cases hi : a = i
  · subst hi
    exact ⟨v, by simp, by simp⟩
  · obtain ⟨w, h1, h2⟩ := h hi
    exact ⟨w, by rw [tableRead_tableWrite_other _ _ _ _ hi, h1], by rw [tableRead_tableWrite_other _ _ _ _ hi, h2]⟩

/-- Two blocks run the command `op` and have come to the same place of it. They agree on all that the command has set or
reads: on OUT as far as the command has written it, on BFINAL once a header has set it (`fin`), and on what it has not
yet written where they agreed on it before (`old`). -/
structure Twin (old fin : Prop) (op : Op) (s t : State) : Prop where
  busy : s.cmdState = .busy op
  frame : t = { s with
    outLen := t.outLen, crcResult := t.crcResult, outBuf := t.outBuf, matcher := t.matcher, crc := t.crc,
    bfinal := t.bfinal, script := t.script, hostData := t.hostData, outEpoch := t.outEpoch }
  output : ∀ a, (a < s.outPos ∨ a < s.wbase + s.wlen) → SameByte s.outBuf t.outBuf a
  chains : ChainTwin s.inLen.toNat s.matcher.pos s.matcher t.matcher
  bfinal : fin → t.bfinal = s.bfinal
  results : old → t.outBuf = s.outBuf ∧ t.outEpoch = s.outEpoch ∧ t.outLen = s.outLen ∧ t.crcResult = s.crcResult

namespace Twin

variable {old fin fin' : Prop} {op : Op} {s t : State}

theorem cfg (h : Twin old fin op s t) : t.cfg = s.cfg := by rw [h.frame]
theorem cmdState (h : Twin old fin op s t) : t.cmdState = s.cmdState := by rw [h.frame]
theorem inLen (h : Twin old fin op s t) : t.inLen = s.inLen := by rw [h.frame]
theorem mtime (h : Twin old fin op s t) : t.mtime = s.mtime := by rw [h.frame]
theorem inBuf (h : Twin old fin op s t) : t.inBuf = s.inBuf := by rw [h.frame]
theorem inEpoch (h : Twin old fin op s t) : t.inEpoch = s.inEpoch := by rw [h.frame]
theorem freeCount (h : Twin old fin op s t) : t.freeCount = s.freeCount := by rw [h.frame]
theorem wbase (h : Twin old fin op s t) : t.wbase = s.wbase := by rw [h.frame]
theorem wlen (h : Twin old fin op s t) : t.wlen = s.wlen := by rw [h.frame]
theorem wcur (h : Twin old fin op s t) : t.wcur = s.wcur := by rw [h.frame]
theorem wnb (h : Twin old fin op s t) : t.wnb = s.wnb := by rw [h.frame]
theorem rbase (h : Twin old fin op s t) : t.rbase = s.rbase := by rw [h.frame]
theorem rlen (h : Twin old fin op s t) : t.rlen = s.rlen := by rw [h.frame]
theorem rpos (h : Twin old fin op s t) : t.rpos = s.rpos := by rw [h.frame]
theorem outPos (h : Twin old fin op s t) : t.outPos = s.outPos := by rw [h.frame]
theorem phase (h : Twin old fin op s t) : t.phase = s.phase := by rw [h.frame]
theorem matcherPos (h : Twin old fin op s t) : t.matcher.pos = s.matcher.pos := by rw [h.chains.frame]
theorem tokens (h : Twin old fin op s t) : t.matcher.tokens = s.matcher.tokens := by rw [h.chains.frame]

theorem inByte (h : Twin old fin op s t) : t.inByte = s.inByte := by
  funext a
  rw [State.inByte, State.inByte, h.inBuf, h.inEpoch]

theorem input (h : Twin old fin op s t) : t.input = s.input := by
  rw [State.input, State.input, h.inByte, h.inLen]

theorem outByte (h : Twin old fin op s t) {a : Nat} (ha : a < s.outPos) : t.outByte a = s.outByte a := by
  obtain ⟨v, h1, h2⟩ := h.output a (.inl ha)
  simp [State.outByte, h1, h2]

theorem canRead (h : Twin old fin op s t) (n : Nat) : t.canRead n = s.canRead n := by
  rw [State.canRead, State.canRead, h.rpos, h.rlen]

theorem field (h : Twin old fin op s t) (q n : Nat) : t.field q n = s.field q n :=
  State.field_congr h.inBuf h.inEpoch h.rbase h.rlen q n

theorem mono (h : Twin old fin op s t) (hf : fin' → fin) : Twin old fin' op s t :=
  { h with bfinal := fun hf' => h.bfinal (hf hf') }

/-! Changes that both blocks make alike. -/

theorem setPhase (h : Twin old fin op s t) (p : Phase) : Twin old fin op { s with phase := p } { t with phase := p } :=
  ⟨h.busy, by rw [h.frame], h.output, h.chains, h.bfinal, h.results⟩

theorem setRpos (h : Twin old fin op s t) (n : Nat) : Twin old fin op { s with rpos := n } { t with rpos := n } :=
  ⟨h.busy, by rw [h.frame], h.output, h.chains, h.bfinal, h.results⟩

theorem setBfinal (h : Twin old fin op s t) (b : Bool) :
    Twin old fin' op { s with bfinal := b } { t with bfinal := b } :=
  ⟨h.busy, by rw [h.frame], h.output, h.chains, fun _ => rfl, h.results⟩

theorem setCrc (h : Twin old fin op s t) (c c' : Word) : Twin old fin op { s with crc := c } { t with crc := c' } :=
  ⟨h.busy, by rw [h.frame], h.output, h.chains, h.bfinal, h.results⟩

theorem setCurrent (h : Twin old fin op s t) (c : Byte) (n : Nat) :
    Twin old fin op { s with wcur := c, wnb := n } { t with wcur := c, wnb := n } :=
  ⟨h.busy, by rw [h.frame], h.output, h.chains, h.bfinal, h.results⟩

end Twin

/-- Two runs of a rule raise the same error, or give related results. -/
def Both {α : Type} (R : α → α → Prop) : Except ErrKind α → Except ErrKind α → Prop
  | .ok a, .ok b => R a b
  | .error e, .error f => e = f
  | _, _ => False

theorem Both.bind {α β : Type} {R : α → α → Prop} {S : β → β → Prop} {x y : Except ErrKind α}
    {f g : α → Except ErrKind β} (h : Both R x y) (hfg : ∀ a b, R a b → Both S (f a) (g b)) :
    Both S (x >>= f) (y >>= g) := by
  cases x <;> cases y
  · exact h
  · exact h.elim
  · exact h.elim
  · exact hfg _ _ h

theorem Both.mono {α : Type} {R S : α → α → Prop} {x y : Except ErrKind α} (h : Both R x y)
    (hRS : ∀ a b, R a b → S a b) : Both S x y := by
  cases x <;> cases y
  · exact h
  · exact h.elim
  · exact h.elim
  · exact hRS _ _ h

/-- The relation, with the two runs that it relates. -/
theorem Both.with_ok {α : Type} {R : α → α → Prop} {x y : Except ErrKind α} (h : Both R x y) :
    Both (fun a b => R a b ∧ x = .ok a ∧ y = .ok b) x y := by
  cases x <;> cases y
  · exact h
  · exact h.elim
  · exact h.elim
  · exact ⟨h, rfl, rfl⟩

/-- Both runs take the same branch. -/
theorem Both.ite {α : Type} {R : α → α → Prop} {c c' : Prop} [Decidable c] [Decidable c'] {x y x' y' : Except ErrKind α}
    (hc : c' ↔ c) (hx : c → Both R x x') (hy : ¬ c → Both R y y') :
    Both R (if c then x else y) (if c' then x' else y') := by
  by_cases h : c
  · rw [if_pos h, if_pos (hc.mpr h)]; exact hx h
  · rw [if_neg h, if_neg (mt hc.mp h)]; exact hy h

theorem Both.refl {α : Type} {R : α → α → Prop} (x : Except ErrKind α) (h : ∀ a, R a a) : Both R x x := by
  cases x
  · rfl
  · exact h _

/-! #### The operations -/

section Operations

variable {old fin : Prop} {op : Op} {s t : State}

theorem outAppend_twin (h : Twin old fin op s t) (v : Byte) :
    Both (fun x y => Twin old fin op x y ∧ x.outPos = s.outPos + 1) (outAppend v s) (outAppend v t) := by
  rw [outAppend_eq, outAppend_eq, h.cfg, h.outPos]
  split
  · refine ⟨?_, rfl⟩
    exact ⟨h.busy, by rw [h.frame], fun a ha => .write fun hne => h.output a (by dsimp only at ha; omega), h.chains,
      h.bfinal, fun ho => ⟨congrArg (tableWrite · s.outPos v) (h.results ho).1, (h.results ho).2⟩⟩
  · rfl

theorem emitByte_twin (h : Twin old fin op s t) (b : Byte) :
    Both (Twin old fin op) (emitByte b s) (emitByte b t) := by
  rw [emitByte_eq, emitByte_eq, h.cfg, h.wbase, h.wlen]
  split
  · exact ⟨h.busy, by rw [h.frame], fun a ha => .write fun hne => h.output a (by dsimp only at ha; omega), h.chains,
      h.bfinal, fun ho => ⟨congrArg (tableWrite · (s.wbase + s.wlen) b) (h.results ho).1, (h.results ho).2⟩⟩
  · rfl

theorem outAppendAll_twin (bytes : List Byte) (h : Twin old fin op s t) :
    Both (Twin old fin op) (outAppendAll bytes s) (outAppendAll bytes t) := by
  induction bytes generalizing s t with
  | nil => exact h
  | cons v rest ih =>
    rw [outAppendAll_cons, outAppendAll_cons]
    exact (outAppend_twin h v).bind fun _ _ h' => ih h'.1

theorem writeBit_twin (h : Twin old fin op s t) (b : Bool) :
    Both (Twin old fin op) (writeBit b s) (writeBit b t) := by
  have hbit : t.withBit b = s.withBit b := by rw [State.withBit, State.withBit, h.wcur, h.wnb]
  rw [writeBit_eq, writeBit_eq, hbit, h.wnb]
  split
  · exact (emitByte_twin h _).bind fun _ _ h' => h'.setCurrent _ _
  · exact h.setCurrent _ _

theorem writeBits_twin (value n : Nat) (h : Twin old fin op s t) :
    Both (Twin old fin op) (writeBits value n s) (writeBits value n t) := by
  induction n generalizing value s t with
  | zero => exact h
  | succ n ih =>
    rw [writeBits_succ_bind, writeBits_succ_bind]
    exact (writeBit_twin h _).bind fun _ _ h' => ih _ h'

theorem writeBytes_twin (bytes : List Byte) (h : Twin old fin op s t) :
    Both (Twin old fin op) (writeBytes bytes s) (writeBytes bytes t) := by
  induction bytes generalizing s t with
  | nil => exact h
  | cons b rest ih =>
    rw [writeBytes_cons, writeBytes_cons]
    exact (writeBits_twin _ _ h).bind fun _ _ h' => ih h'

theorem alignWriter_twin (h : Twin old fin op s t) : Both (Twin old fin op) (alignWriter s) (alignWriter t) := by
  rw [alignWriter_eq, alignWriter_eq, h.wcur, h.wnb]
  split
  · exact (emitByte_twin h _).bind fun _ _ h' => h'.setCurrent _ _
  · exact h

theorem skipBits_twin (h : Twin old fin op s t) (n : Nat) :
    Both (Twin old fin op) (skipBits n s) (skipBits n t) := by
  unfold skipBits
  rw [h.canRead, h.rpos]
  split
  · exact h.setRpos _
  · rfl

theorem readBits_twin (h : Twin old fin op s t) (n : Nat) :
    Both (fun x y => y.1 = x.1 ∧ Twin old fin op x.2 y.2) (readBits n s) (readBits n t) := by
  unfold readBits
  rw [h.canRead, h.rpos, h.field]
  split
  · exact ⟨rfl, h.setRpos _⟩
  · rfl

theorem alignReader_twin (h : Twin old fin op s t) : Twin old fin op (alignReader s) (alignReader t) := by
  unfold alignReader
  rw [h.rpos]
  exact h.setRpos _

theorem copyFrom_twin {a : Nat} (k : Nat) (h : Twin old fin op s t) (ha : a < s.outPos) :
    Both (Twin old fin op) (copyFrom a k s) (copyFrom a k t) := by
  induction k generalizing a s t with
  | zero => exact h
  | succ k ih =>
    rw [copyFrom_succ, copyFrom_succ, h.outByte ha]
    exact (outAppend_twin h _).bind fun x y h' => ih h'.1 (by rw [h'.2]; omega)

theorem copyBack_twin {len dist : Nat} (h : Twin old fin op s t) (hd : 1 ≤ dist) :
    Both (Twin old fin op) (copyBack len dist s) (copyBack len dist t) := by
  unfold copyBack
  rw [h.outPos]
  split
  · rfl
  · next hle =>
    by_cases h0 : s.outPos = 0
    · omega
    · exact copyFrom_twin _ h (by omega)

theorem copyRaw_twin (k : Nat) (h : Twin old fin op s t) : Both (Twin old fin op) (copyRaw k s) (copyRaw k t) := by
  induction k generalizing s t with
  | zero => exact h
  | succ k ih =>
    rw [copyRaw_succ, copyRaw_succ]
    refine (readBits_twin h 8).bind fun x y ⟨hv, hxy⟩ => ?_
    rw [hv]
    exact (outAppend_twin hxy _).bind fun _ _ h' => ih h'.1

theorem putMatch_twin (len dist : Nat) (h : Twin old fin op s t) :
    Both (Twin old fin op) (putMatch len dist s) (putMatch len dist t) :=
  (writeBits_twin _ _ h).bind fun _ _ h => (writeBits_twin _ _ h).bind fun _ _ h =>
    (writeBits_twin _ _ h).bind fun _ _ h => writeBits_twin _ _ h

theorem putToken_twin (tok : Token) (h : Twin old fin op s t) :
    Both (Twin old fin op) (putToken tok s) (putToken tok t) := by
  cases tok with
  | literal b => exact writeBits_twin _ _ h
  | copy len dist => exact putMatch_twin len dist h

theorem emitStored_twin (data : List Byte) (h : Twin old fin op s t) :
    Both (Twin old fin op) (emitStored data s) (emitStored data t) :=
  (writeBits_twin _ _ h).bind fun _ _ h => (writeBits_twin _ _ h).bind fun _ _ h =>
    (alignWriter_twin h).bind fun _ _ h => (writeBits_twin _ _ h).bind fun _ _ h =>
      (writeBits_twin _ _ h).bind fun _ _ h => writeBytes_twin _ h

theorem openFixed_twin (h : Twin old fin op s t) : Both (Twin old fin op) (openFixed s) (openFixed t) :=
  (writeBits_twin _ _ h).bind fun _ _ h => writeBits_twin _ _ h

end Operations

end Sys2Proof.Machine

namespace Sys2Proof.Machine

/-! ### The engine's steps in two runs -/

/-- The places inside a fixed block, where BFINAL is the block header's. -/
def Phase.InBlock (p : Phase) : Prop := p = .litlen ∨ ∃ len, p = .dist len

/-- Two blocks in which the command `op` has ended alike. -/
structure SameEnd (old : Prop) (op : Op) (s t : State) : Prop where
  idle : s.cmdState = .idle
  frame : t = { s with
    outLen := t.outLen, crcResult := t.crcResult, outBuf := t.outBuf, matcher := t.matcher, crc := t.crc,
    bfinal := t.bfinal, script := t.script, hostData := t.hostData, outEpoch := t.outEpoch }
  output : op ≠ .crc32 → t.outLen = s.outLen ∧ t.outByte = s.outByte
  crcResult : op ≠ .deflateCompress → op ≠ .deflateDecompress → t.crcResult = s.crcResult
  results : old → t.outBuf = s.outBuf ∧ t.outEpoch = s.outEpoch ∧ t.outLen = s.outLen ∧ t.crcResult = s.crcResult

/-- The two runs after a step of each: at the same place of the command, or both at its end. -/
def Onward (old : Prop) (op : Op) (s t : State) : Prop := Twin old s.phase.InBlock op s t ∨ SameEnd old op s t

section Engine

variable {old fin : Prop} {op : Op} {s t : State}

theorem Twin.onward (h : Twin old True op s t) : Onward old op s t := .inl (h.mono fun _ => trivial)

theorem Twin.onward_outside (h : Twin old fin op s t) (hp : ¬ s.phase.InBlock) : Onward old op s t :=
  .inl (h.mono fun hp' => absurd hp' hp)

/-- Both take the same error. -/
theorem Twin.takeError (h : Twin old fin op s t) (e : ErrKind) :
    SameEnd old op (takeError false e s) (takeError false e t) where
  idle := rfl
  frame := by rw [h.frame]; rfl
  output _ := ⟨rfl, by funext a; simp [State.outByte, h.freeCount, tableRead]⟩
  crcResult h1 h2 := by
    have hc : computesCrc s.cmdState = true := by
      rw [h.busy]
      cases op <;> simp_all [computesCrc]
    simp [h.cmdState, hc, h.freeCount]
  results ho := by simp [h.cmdState, h.freeCount, (h.results ho).2.2.2]

/-- Both end with success and the same output. -/
theorem Twin.finish (h : Twin old fin op s t) {w w' : Word}
    (hw : op ≠ .deflateCompress → op ≠ .deflateDecompress → w' = w) (ho : old → w' = w) :
    SameEnd old op ({ s.setOutput s.outPos with crcResult := w }).complete
      ({ t.setOutput t.outPos with crcResult := w' }).complete where
  idle := rfl
  frame := by rw [h.frame]; rfl
  output _ := by
    refine ⟨by simp [h.outPos, h.freeCount], ?_⟩
    funext a
    simp only [State.outByte, State.complete_outBuf, State.complete_outEpoch, State.setOutput_outBuf,
      State.setOutput_outEpoch, tableRead_tableCut, h.outPos, h.freeCount]
    split
    · next ha =>
      obtain ⟨v, h1, h2⟩ := h.output a (.inl ha)
      rw [h1, h2]
    · rfl
  crcResult := hw
  results ho' := by simp [h.outPos, h.freeCount, (h.results ho').1, ho ho']

/-- A rule of both blocks that gives related results leads both onward. -/
theorem settle_onward (h : Twin old fin op s t) {r r' : Except ErrKind State} (hr : Both (Onward old op) r r')
    {s' t' : State} (hs : settle s r = .next s') (ht : settle t r' = .next t') : Onward old op s' t' := by
  cases r with
  | error e =>
    cases r' with
    | error f =>
      obtain rfl : e = f := hr
      cases hs; cases ht
      exact .inr (h.takeError e)
    | ok b => exact hr.elim
  | ok a =>
    cases r' with
    | error f => exact hr.elim
    | ok b => cases hs; cases ht; exact hr

theorem atPlace_onward (h : Twin old fin op s t) {here here' : Bool} {r r' : Except ErrKind State}
    (hr : here = true → Both (Onward old op) r r') {s' t' : State} (hs : atPlace here s r = .next s')
    (ht : atPlace here' t r' = .next t') : Onward old op s' t' :=
  have ⟨hh, hs⟩ := atPlace_next hs
  settle_onward h (hr hh) hs (atPlace_next ht).2

/-- Both matchers make one step. -/
theorem Twin.advance (h : Twin old fin op s t) :
    Twin old fin op { s with matcher := lz77Step s.inByte s.inLen.toNat s.matcher }
      { t with matcher := lz77Step t.inByte t.inLen.toNat t.matcher } where
  busy := h.busy
  frame := by rw [h.frame]
  output := h.output
  chains := by rw [h.inByte, h.inLen]; exact lz77Step_twin h.chains
  bfinal := h.bfinal
  results := h.results

/-- Both writers start where the header ends. -/
theorem Twin.startWriter (h : Twin old fin op s t) :
    Twin old fin op { s with wbase := s.outPos, wlen := 0, wcur := 0#8, wnb := 0 }
      { t with wbase := t.outPos, wlen := 0, wcur := 0#8, wnb := 0 } :=
  ⟨h.busy, by rw [h.frame], fun a ha => h.output a (.inl (ha.elim id id)), h.chains, h.bfinal, h.results⟩

/-- Both outputs end where the writer has come. -/
theorem Twin.closeOutput (h : Twin old fin op s t) :
    Twin old fin op { s with outPos := s.wbase + s.wlen } { t with outPos := t.wbase + t.wlen } :=
  ⟨h.busy, by rw [h.frame], fun a ha => h.output a (.inr (ha.elim id id)), h.chains, h.bfinal, h.results⟩

/-- Both readers take over the payload, and the output begins. -/
theorem Twin.openPayload (h : Twin old fin op s t) (a stop : Nat) :
    Twin old fin op (openPayload a stop s) (openPayload a stop t) :=
  ⟨h.busy, by rw [h.frame]; rfl, fun b hb => h.output b (.inr (hb.resolve_left (Nat.not_lt_zero b))), h.chains,
    h.bfinal, h.results⟩

/-! #### Compress commands -/

theorem stepMatching_onward (h : Twin old fin op s t) (hp : s.phase = .matching) :
    Both (Onward old op) (stepMatching s) (stepMatching t) := by
  refine .ite (by rw [h.matcherPos, h.inLen]) (fun _ => ?_) fun _ => ?_
  · exact h.advance.onward_outside (by simp [Phase.InBlock, hp])
  · unfold chooseBlock
    rw [h.tokens, h.inLen, h.input]
    split
    · split
      · rfl
      · exact (emitStored_twin _ h).bind fun _ _ h => (h.setPhase _).onward_outside (by simp [Phase.InBlock])
    · exact (openFixed_twin h).bind fun _ _ h => (h.setPhase _).onward_outside (by simp [Phase.InBlock])

theorem stepEmitting_onward (h : Twin old fin op s t) (left : List Token) :
    Both (Onward old op) (stepEmitting left s) (stepEmitting left t) := by
  cases left with
  | nil => exact (writeBits_twin _ _ h).bind fun _ _ h => (h.setPhase _).onward_outside (by simp [Phase.InBlock])
  | cons tok rest =>
    exact (putToken_twin tok h).bind fun _ _ h => (h.setPhase _).onward_outside (by simp [Phase.InBlock])

theorem stepFraming_onward (h : Twin old fin op s t) : Both (Onward old op) (stepFraming s) (stepFraming t) := by
  unfold stepFraming
  rw [h.mtime]
  exact (outAppendAll_twin _ h).bind fun _ _ h =>
    (h.startWriter.setPhase .matching).onward_outside (by simp [Phase.InBlock])

/-- A CRC_RESULT that the command does not write is as it was before, in both blocks. -/
theorem Twin.finish_kept (h : Twin old fin op s t) (hop : op = .deflateCompress ∨ op = .deflateDecompress) :
    SameEnd old op (s.setOutput s.outPos).complete (t.setOutput t.outPos).complete :=
  h.finish (fun h1 h2 => (hop.elim h1 h2).elim) fun ho => (h.results ho).2.2.2

theorem Twin.finish_crc (h : Twin old fin op s t) (w : Word) :
    SameEnd old op ({ s.setOutput s.outPos with crcResult := w }).complete
      ({ t.setOutput t.outPos with crcResult := w }).complete :=
  h.finish (fun _ _ => rfl) fun _ => rfl

theorem outAppendAll_crc {bytes : List Byte} {s t : State} (h : outAppendAll bytes s = .ok t) : t.crc = s.crc := by
  induction bytes generalizing s with
  | nil => cases h; rfl
  | cons v rest ih =>
    rw [outAppendAll_cons] at h
    obtain ⟨u, hu, h⟩ := bind_ok_iff.mp h
    obtain ⟨-, rfl⟩ := (outAppend_ok_iff _ _ _).mp hu
    exact (ih h :)

theorem appendFooter_twin (h : Twin old fin op s t) (hc : t.crc = s.crc) :
    Both (fun x y => Twin old fin op x y ∧ y.crc = x.crc) (appendFooter s) (appendFooter t) := by
  unfold appendFooter
  rw [hc, h.inLen]
  refine (outAppendAll_twin _ h).with_ok.mono fun x y ⟨h', hx, hy⟩ => ⟨h', ?_⟩
  rw [outAppendAll_crc hx, outAppendAll_crc hy, hc]

theorem stepClosing_onward (h : Twin old fin op s t) (hop : op = .deflateCompress ∨ op = .gzipCompress) :
    Both (Onward old op) (stepClosing s) (stepClosing t) := by
  unfold stepClosing
  refine (alignWriter_twin h).bind fun x y h => ?_
  dsimp only
  split
  · next hx =>
    split
    · refine (appendFooter_twin (h.closeOutput.setCrc _ _) ?_).bind fun a b ⟨h, hcrc⟩ => ?_
      · exact congrArg (crcFold crcSeed) h.input
      · rw [hcrc]
        exact .inr (h.finish_crc _)
    · next hy => exact absurd (h.cmdState.trans hx) hy
  · next hx =>
    split
    · next hy => exact absurd (h.cmdState.symm.trans hy) hx
    · exact .inr (h.closeOutput.finish_kept (hop.imp_right fun hg => absurd (hg ▸ h.busy) hx))

/-! #### Decompress commands -/

theorem finishMember_eq (s : State) :
    finishMember s =
      if crc32 (s.output s.outPos) ≠ rd32 s.inByte (s.inLen.toNat - 8) then .error .checksumMismatch
      else if BitVec.ofNat 32 s.outPos ≠ rd32 s.inByte (s.inLen.toNat - 4) then .error .lengthMismatch
      else .ok ({ (s.runCrc (s.output s.outPos)).setOutput s.outPos with
        crcResult := crc32 (s.output s.outPos) }).complete := rfl

theorem Twin.output_eq (h : Twin old fin op s t) : t.output t.outPos = s.output s.outPos := by
  rw [h.outPos]
  exact bytesFrom_congr fun k hk => h.outByte (by omega)

theorem finishMember_onward (h : Twin old fin op s t) : Both (Onward old op) (finishMember s) (finishMember t) := by
  rw [finishMember_eq, finishMember_eq, h.output_eq, h.inByte, h.inLen]
  refine .ite .rfl (fun _ => rfl) fun _ => .ite (by rw [h.outPos]) (fun _ => rfl) fun _ => ?_
  exact .inr ((h.setCrc _ _).finish_crc _)

theorem endStream_onward (h : Twin old fin op s t) (hop : op = .deflateDecompress ∨ op = .gzipDecompress) :
    Both (Onward old op) (endStream s) (endStream t) := by
  have hcheck : Both (Twin old fin op) (checkNoTrailing s) (checkNoTrailing t) := by
    unfold checkNoTrailing
    exact .ite (by rw [State.consumed, State.consumed, h.rpos, h.rlen]) (fun _ => rfl) fun _ => h
  refine hcheck.bind fun x y h => ?_
  split
  · next hx =>
    split
    · exact finishMember_onward h
    · next hy => exact absurd (h.cmdState.trans hx) hy
  · next hx =>
    split
    · next hy => exact absurd (h.cmdState.symm.trans hy) hx
    · exact .inr (h.finish_kept (hop.symm.imp_left fun hg => absurd (hg ▸ h.busy) hx))

theorem endBlock_onward (h : Twin old True op s t) (hop : op = .deflateDecompress ∨ op = .gzipDecompress) :
    Both (Onward old op) (endBlock s) (endBlock t) :=
  .ite (by rw [h.bfinal trivial]) (fun _ => endStream_onward h hop) fun _ => (h.setPhase _).onward

theorem blockHeader_twin (h : Twin old fin op s t) (final : Bool) :
    Both (Twin old True op) (blockHeader final s) (blockHeader final t) :=
  (skipBits_twin h 3).bind fun _ _ h => h.setBfinal final

theorem storedBody_onward (h : Twin old True op s t) (hop : op = .deflateDecompress ∨ op = .gzipDecompress) :
    Both (Onward old op) (storedBody s) (storedBody t) := by
  refine (readBits_twin (alignReader_twin h) 16).bind fun x y ⟨hlen, h⟩ => ?_
  refine (readBits_twin h 16).bind fun x' y' ⟨hnlen, h⟩ => ?_
  dsimp only
  rw [hlen, hnlen]
  refine .ite .rfl (fun _ => rfl) fun _ => ?_
  exact (copyRaw_twin _ h).bind fun _ _ h => endBlock_onward h hop

theorem literal_twin (width value : Nat) (h : Twin old fin op s t) :
    Both (Twin old fin op) (literal width value s) (literal width value t) :=
  (skipBits_twin h width).bind fun _ _ h => (outAppend_twin h _).mono fun _ _ h => h.1

theorem lengthCode_twin (width symbol : Nat) (h : Twin old fin op s t) :
    Both (Twin old fin op) (lengthCode width symbol s) (lengthCode width symbol t) := by
  refine (skipBits_twin h width).bind fun _ _ h => (readBits_twin h _).bind fun x y ⟨hv, h⟩ => ?_
  dsimp only
  rw [hv]
  exact h.setPhase _

/-- No distance symbol stands for distance 0. -/
theorem distBase_pos {d : Nat} (h : d ≤ 29) : 1 ≤ distBase d := by
  have hall : ∀ d < 30, 1 ≤ distBase d := by decide
  exact hall d (by omega)

theorem distanceCode_twin (len : Nat) {symbol : Nat} (h : Twin old fin op s t) (hd : symbol ≤ 29) :
    Both (Twin old fin op) (distanceCode len symbol s) (distanceCode len symbol t) := by
  have := distBase_pos hd
  refine (skipBits_twin h 5).bind fun _ _ h => (readBits_twin h _).bind fun x y ⟨hv, h⟩ => ?_
  dsimp only
  rw [hv]
  exact (copyBack_twin h (by omega)).bind fun _ _ h => h.setPhase _

theorem checkHeaderCrc_twin (stop a : Nat) (h : Twin old fin op s t) :
    Both (fun x y => y.1 = x.1 ∧ Twin old fin op x.2 y.2) (checkHeaderCrc stop a s) (checkHeaderCrc stop a t) := by
  rw [checkHeaderCrc_eq, checkHeaderCrc_eq, h.inByte]
  exact .ite .rfl (fun _ => rfl) fun _ => .ite .rfl (fun _ => rfl) fun _ => ⟨rfl, h.setCrc _ _⟩

theorem optionalFields_twin (flg : Byte) (stop : Nat) (h : Twin old fin op s t) :
    Both (fun x y => y.1 = x.1 ∧ Twin old fin op x.2 y.2) (optionalFields flg stop s) (optionalFields flg stop t) := by
  unfold optionalFields
  rw [h.inByte]
  refine Both.bind (.refl _ fun _ => rfl) fun a b (hab : a = b) => ?_
  subst hab
  exact .ite .rfl (fun _ => checkHeaderCrc_twin stop a h) fun _ => ⟨rfl, h⟩

theorem memberHeader_onward (flg : Byte) (h : Twin old fin op s t) :
    Both (Onward old op) (memberHeader flg s) (memberHeader flg t) := by
  unfold memberHeader
  dsimp only
  rw [h.inLen]
  refine .ite .rfl (fun _ => rfl) fun _ => (optionalFields_twin flg _ h).bind fun x y ⟨hv, h⟩ => ?_
  rw [hv]
  exact (h.openPayload _ _).onward_outside (by simp [Phase.InBlock, Machine.openPayload])

theorem stepChecksum_onward (h : Twin old fin op s t) (hop : op = .crc32) :
    Both (Onward old op) (stepChecksum s) (stepChecksum t) := by
  have hcrc : crc32 t.input = crc32 s.input := congrArg crc32 h.input
  refine .inr ⟨rfl, by rw [h.frame]; rfl, fun hne => absurd hop hne, fun _ _ => hcrc, fun ho => ?_⟩
  obtain ⟨h1, h2, h3, -⟩ := h.results ho
  exact ⟨h1, h2, h3, hcrc⟩

/-! #### The codes of a stream -/

theorem op_of_decompressing (hb : s.cmdState = .busy op) (hd : s.decompressing = true) :
    op = .deflateDecompress ∨ op = .gzipDecompress := by
  rw [State.decompressing, hb] at hd
  cases op <;> simp at hd ⊢

theorem op_of_compressing (hb : s.cmdState = .busy op) (hc : s.compressing = true) :
    op = .deflateCompress ∨ op = .gzipCompress := by
  rw [State.compressing, hb] at hc
  cases op <;> simp at hc ⊢

variable {s' t' : State} {r r' : Except ErrKind State}

theorem atLitlen_onward (h : Twin old s.phase.InBlock op s t)
    (hr : Twin old True op s t → op = .deflateDecompress ∨ op = .gzipDecompress → Both (Onward old op) r r')
    (hs : atPlace s.atLitlen s r = .next s') (ht : atPlace t.atLitlen t r' = .next t') : Onward old op s' t' := by
  refine atPlace_onward h (fun hh => ?_) hs ht
  simp only [State.atLitlen, Bool.and_eq_true, decide_eq_true_eq] at hh
  exact hr (h.mono fun _ => .inl hh.2) (op_of_decompressing h.busy hh.1)

theorem atBlock_onward (h : Twin old fin op s t)
    (hr : op = .deflateDecompress ∨ op = .gzipDecompress → Both (Onward old op) r r')
    (hs : atPlace s.atBlock s r = .next s') (ht : atPlace t.atBlock t r' = .next t') : Onward old op s' t' := by
  refine atPlace_onward h (fun hh => ?_) hs ht
  simp only [State.atBlock, Bool.and_eq_true, decide_eq_true_eq] at hh
  exact hr (op_of_decompressing h.busy hh.1)

theorem Twin.pendingLength (h : Twin old fin op s t) : t.pendingLength = s.pendingLength := by
  rw [State.pendingLength, State.pendingLength, State.decompressing, State.decompressing, h.phase, h.cmdState]

theorem atDistance_onward (h : Twin old s.phase.InBlock op s t) {rule rule' : Nat → Except ErrKind State}
    (hr : ∀ len, Twin old True op s t → Both (Twin old True op) (rule len) (rule' len))
    (hs : atDistance s rule = .next s') (ht : atDistance t rule' = .next t') : Onward old op s' t' := by
  cases hp : s.pendingLength with
  | none => rw [atDistance_none s rule hp] at hs; cases hs
  | some len =>
    rw [atDistance_some s rule len hp] at hs
    rw [atDistance_some t rule' len (h.pendingLength.trans hp)] at ht
    have hin : s.phase.InBlock := .inr ⟨len, ((pendingLength_eq_some_iff s len).mp hp).2⟩
    exact settle_onward h ((hr len (h.mono fun _ => hin)).mono fun _ _ h' => h'.onward) hs ht

theorem literal_onward {width value : Nat} (h : Twin old s.phase.InBlock op s t)
    (hs : atPlace s.atLitlen s (literal width value s) = .next s')
    (ht : atPlace t.atLitlen t (literal width value t) = .next t') : Onward old op s' t' :=
  atLitlen_onward h (fun h _ => (literal_twin _ _ h).mono fun _ _ h => h.onward) hs ht

theorem length_onward {width symbol : Nat} (h : Twin old s.phase.InBlock op s t)
    (hs : atPlace s.atLitlen s (lengthCode width symbol s) = .next s')
    (ht : atPlace t.atLitlen t (lengthCode width symbol t) = .next t') : Onward old op s' t' :=
  atLitlen_onward h (fun h _ => (lengthCode_twin _ _ h).mono fun _ _ h => h.onward) hs ht

theorem eob_onward (h : Twin old s.phase.InBlock op s t) (hs : execEob s = .next s') (ht : execEob t = .next t') :
    Onward old op s' t' :=
  atLitlen_onward h (fun h hop => (skipBits_twin h 7).bind fun _ _ h => endBlock_onward h hop) hs ht

theorem blockStored_onward {final : Bool} (h : Twin old fin op s t) (hs : execBlockStored final s = .next s')
    (ht : execBlockStored final t = .next t') : Onward old op s' t' :=
  atBlock_onward h (fun hop => (blockHeader_twin h final).bind fun _ _ h => storedBody_onward h hop) hs ht

theorem blockFixed_onward {final : Bool} (h : Twin old fin op s t) (hs : execBlockFixed final s = .next s')
    (ht : execBlockFixed final t = .next t') : Onward old op s' t' := by
  refine atBlock_onward h (fun _ => ?_) hs ht
  exact (blockHeader_twin h final).bind fun _ _ h => (h.setPhase _).onward

theorem blockUnsupported_onward {final : Bool} (h : Twin old fin op s t)
    (hs : execBlockDynamicUnsupported final s = .next s') (ht : execBlockDynamicUnsupported final t = .next t') :
    Onward old op s' t' := by
  refine atBlock_onward h (fun _ => ?_) hs ht
  exact (blockHeader_twin h final).bind fun _ _ _ => rfl

theorem streamExec_onward {i : Instr} (h : Twin old s.phase.InBlock op s t) (hs : streamExec i s = .next s')
    (ht : streamExec i t = .next t') : Onward old op s' t' := by
  cases i with
  | clear | deflateCompress | deflateDecompress | gzipCompress | gzipDecompress | crc32 | reservedCmd => cases hs
  | blockStored => exact blockStored_onward h hs ht
  | blockFixed => exact blockFixed_onward h hs ht
  | blockDynamicUnsupported | blockReserved => exact blockUnsupported_onward h hs ht
  | lit0To15 | lit16To79 | lit80To143 | lit144To159 | lit160To191 | lit192To255 => exact literal_onward h hs ht
  | eob => exact eob_onward h hs ht
  | len257 | len258To259 | len260To263 | len264To271 | len272To279 | len280To283 | len284To285 =>
    exact length_onward h hs ht
  | litlenInvalid => exact atLitlen_onward h (fun _ _ => by rfl) hs ht
  | dist0To15 c | dist16To23 c | dist24To27 c | dist28To29 c =>
    exact atDistance_onward h (fun len h => distanceCode_twin len h (by omega)) hs ht
  | distInvalid => exact atDistance_onward h (fun _ _ => by rfl) hs ht
  | gzipMember flg => exact atPlace_onward h (fun _ => memberHeader_onward flg h) hs ht

theorem Twin.streamBits (h : Twin old fin op s t) (q n : Nat) : t.streamBits q n = s.streamBits q n := by
  induction n generalizing q with
  | zero => rfl
  | succ n ih =>
    rw [State.streamBits, State.streamBits, ih, State.streamBit_congr h.inBuf h.inEpoch h.rbase h.rlen]

theorem Twin.fetch (h : Twin old fin op s t) (sp : Space) : t.fetch sp = s.fetch sp := by
  rw [State.fetch, State.fetch, State.window, State.window, h.rpos, h.rlen, h.streamBits]

theorem Twin.fetchSpace (h : Twin old fin op s t) : t.fetchSpace = s.fetchSpace := by
  rw [State.fetchSpace, State.fetchSpace, h.cmdState, h.phase]

theorem stepStream_onward {sp : Space} (h : Twin old s.phase.InBlock op s t) (hs : stepStream sp s = .next s')
    (ht : stepStream sp t = .next t') : Onward old op s' t' := by
  cases hf : s.fetch sp with
  | none =>
    rw [stepStream_none sp s hf] at hs
    rw [stepStream_none sp t ((h.fetch sp).trans hf)] at ht
    cases hs; cases ht
    exact .inr (h.takeError _)
  | some i =>
    rw [stepStream_some sp s i hf] at hs
    rw [stepStream_some sp t i ((h.fetch sp).trans hf)] at ht
    exact streamExec_onward h hs ht

theorem engineStep_onward (h : Twin old s.phase.InBlock op s t) (hs : engineStep s = .next s')
    (ht : engineStep t = .next t') : Onward old op s' t' := by
  cases hf : s.fetchSpace with
  | some sp =>
    rw [engineStep_stream s sp hf] at hs
    rw [engineStep_stream t sp (h.fetchSpace.trans hf)] at ht
    exact stepStream_onward h hs ht
  | none =>
    have hp := h.phase
    simp only [engineStep, hf, h.fetchSpace] at hs ht
    cases hps : s.phase <;> rw [hps] at hp <;> simp only [hps, hp] at hs ht
    case framing => exact atPlace_onward h (fun _ => stepFraming_onward h) hs ht
    case matching => exact atPlace_onward h (fun _ => stepMatching_onward h hps) hs ht
    case emitting left => exact atPlace_onward h (fun _ => stepEmitting_onward h left) hs ht
    case closing =>
      exact atPlace_onward h (fun hc => stepClosing_onward h (op_of_compressing h.busy hc)) hs ht
    case checksum =>
      refine atPlace_onward h (fun hc => stepChecksum_onward h ?_) hs ht
      simpa [h.busy] using hc
    all_goals cases hs

theorem SameEnd.not_busy (h : SameEnd old op s t) : s.busy = false ∧ t.busy = false := by
  refine ⟨State.busy_idle s h.idle, State.busy_idle t ?_⟩
  rw [h.frame]
  exact h.idle

theorem runEngine_onward {fuel : Nat} (h : Onward old op s t) (hs : runEngine fuel s = .next s')
    (ht : runEngine fuel t = .next t') : Onward old op s' t' := by
  induction fuel generalizing s t with
  | zero => cases hs; cases ht; exact h
  | succ fuel ih =>
    rcases h with h | h
    · obtain ⟨u, hu, hs⟩ := runEngine_succ_busy (State.busy_busy s op h.busy) hs
      obtain ⟨v, hv, ht⟩ := runEngine_succ_busy (State.busy_busy t op (h.cmdState.trans h.busy)) ht
      exact ih (engineStep_onward h hu hv) hs ht
    · rw [runEngine_idle _ s h.not_busy.1] at hs
      rw [runEngine_idle _ t h.not_busy.2] at ht
      cases hs; cases ht
      exact .inr h

end Engine
end Sys2Proof.Machine

namespace Sys2Proof.Machine

open Sys2Proof.Ref

/-! ### Noninterference of a whole command -/

/-- A data command's instruction starts its command. -/
theorem exec_commandOp {i : Instr} {op : Op} (h : commandOp i = some op) (s : State) : exec i s = dataCommand op s := by
  cases i <;> cases h <;> rfl

theorem sameInput_of_sameForCommands {s t : State} (h : SameForCommands s t) : SameInput s t := by
  obtain ⟨hcfg, hlen, hm, hin, hie, -, -, -, -, hfc⟩ := h
  exact ⟨hcfg, hlen, hm, hin, hie, hfc⟩

/-- The start of a command makes twins of two blocks with the same input. -/
theorem startCommand_twin {op : Op} {s t : State} (h : SameInput s t) (hle : s.inLen.toNat ≤ s.cfg.inCap) :
    Twin (SameForCommands s t) (startCommand op s).phase.InBlock op (startCommand op s) (startCommand op t) := by
  obtain ⟨hcfg, hlen, hm, hin, hie, hfc⟩ := h
  rw [startCommand_ok op s hle, startCommand_ok op t (by rwa [hcfg, hlen])]
  refine ⟨rfl, ?_, fun a ha => ?_, chainTwin_restart _ _ _, fun hp => ?_, fun hold => ?_⟩
  · simp [State.restart, State.begin, hcfg, hlen, hm, hin, hie, hfc]
  · simp at ha
  · cases op <;> simp [Phase.InBlock, Op.firstPhase] at hp
  · obtain ⟨-, -, -, -, -, hol, hob, hoe, hcr, -⟩ := hold
    exact ⟨hob, hoe, hol, hcr⟩

/-- What a command in one step answers, when its input is within IN_CAP, is IDLE. -/
theorem dataCommand_idle {op : Op} {s t : State} (hi : s.cmdState = .idle) (hp : s.cfg.pace = .whole)
    (hle : s.inLen.toNat ≤ s.cfg.inCap) (h : dataCommand op s = .next t) : t.busy = false := by
  rw [dataCommand_whole op s hi hp] at h
  exact runEngine_ends (startCommand_sound (.inr hle)) (startCommand_remaining_le hle) h

theorem dataCommand_sameEnd {op : Op} {s t s' t' : State} (hin : SameInput s t) (his : s.cmdState = .idle)
    (hit : t.cmdState = .idle) (hp : s.cfg.pace = .whole) (hle : s.inLen.toNat ≤ s.cfg.inCap)
    (hs : dataCommand op s = .next s') (ht : dataCommand op t = .next t') :
    SameEnd (SameForCommands s t) op s' t' := by
  have hidle := dataCommand_idle his hp hle hs
  have hpt : t.cfg.pace = .whole := by rw [hin.1, hp]
  rw [dataCommand_whole op s his hp] at hs
  rw [dataCommand_whole op t hit hpt, hin.2.1] at ht
  rcases runEngine_onward (.inl (startCommand_twin hin hle)) hs ht with h | h
  · rw [State.busy_busy s' op h.busy] at hidle
    cases hidle
  · exact h

/-- A command whose input exceeds IN_CAP is the start check's error. -/
theorem dataCommand_over {op : Op} {s t : State} (hi : s.cmdState = .idle) (hp : s.cfg.pace = .whole)
    (hgt : s.cfg.inCap < s.inLen.toNat) (h : dataCommand op s = .next t) :
    t = takeError true .capacityExceeded (s.begin (.busy op)) := by
  rw [dataCommand_whole op s hi hp, startCommand_over op s hgt, runEngine_idle _ _ rfl] at h
  cases h
  rfl

/-- The flags and the code of two blocks that took the same error. -/
theorem takeError_flags (b : Bool) (e : ErrKind) (s t : State) :
    (takeError b e t).cmdState = (takeError b e s).cmdState ∧ (takeError b e t).status = (takeError b e s).status ∧
      (takeError b e t).errCode = (takeError b e s).errCode :=
  ⟨rfl, by rw [State.status_takeError, State.status_takeError], rfl⟩

/-- An error of the start check keeps what both blocks agreed on. -/
theorem takeError_sameForCommands {c : CmdState} {s t : State} (e : ErrKind) (h : SameForCommands s t) :
    SameForCommands (takeError true e (s.begin c)) (takeError true e (t.begin c)) := by
  obtain ⟨hcfg, hlen, hm, hin, hie, -, hob, hoe, hcr, hfc⟩ := h
  exact ⟨hcfg, hlen, hm, hin, hie, rfl, hob, hoe, hcr, hfc⟩

theorem SameEnd.flags {old : Prop} {op : Op} {s t : State} (h : SameEnd old op s t) :
    t.cmdState = s.cmdState ∧ t.status = s.status ∧ t.errCode = s.errCode := by
  rw [h.frame]
  exact ⟨rfl, rfl, rfl⟩

theorem SameEnd.sameForCommands {old : Prop} {op : Op} {s t : State} (h : SameEnd old op s t) (ho : old) :
    SameForCommands s t := by
  obtain ⟨hob, hoe, hol, hcr⟩ := h.results ho
  refine ⟨?_, ?_, ?_, ?_, ?_, hol, hob, hoe, hcr, ?_⟩ <;> rw [h.frame]

/-- Settles O56: the two blocks run as twins, step by step, from the start of the command to its end, which they reach
within the bound; a command whose input exceeds IN_CAP ends in both with the error of the start check. -/
theorem commandsForgetTheWorkingState : Obligations.CommandsForgetTheWorkingState := by
  intro i op s t s' t' hop his hit hp hs ht
  rw [exec_commandOp hop] at hs ht
  by_cases hle : s.inLen.toNat ≤ s.cfg.inCap
  · refine ⟨fun hin => ?_, fun hold => ?_⟩
    · have hend := dataCommand_sameEnd hin his hit hp hle hs ht
      obtain ⟨hcmd, hstatus, hcode⟩ := hend.flags
      exact ⟨hcmd, hstatus, hcode, fun hne _ => ⟨(hend.output hne).1, congrFun (hend.output hne).2⟩,
        fun h1 h2 _ => hend.crcResult h1 h2⟩
    · have hend := dataCommand_sameEnd (sameInput_of_sameForCommands hold) his hit hp hle hs ht
      exact ⟨hend.sameForCommands hold, hend.flags⟩
  · have hover (hin : SameInput s t) :
        s' = takeError true .capacityExceeded (s.begin (.busy op)) ∧
          t' = takeError true .capacityExceeded (t.begin (.busy op)) := by
      refine ⟨dataCommand_over his hp (by omega) hs, dataCommand_over hit ?_ ?_ ht⟩
      · rw [hin.1, hp]
      · rw [hin.1, hin.2.1]; omega
    refine ⟨fun hin => ?_, fun hold => ?_⟩
    · obtain ⟨rfl, rfl⟩ := hover hin
      obtain ⟨hcmd, hstatus, hcode⟩ := takeError_flags true .capacityExceeded (s.begin (.busy op)) (t.begin (.busy op))
      exact ⟨hcmd, hstatus, hcode, fun _ h => absurd h hle, fun _ _ h => absurd h hle⟩
    · obtain ⟨rfl, rfl⟩ := hover (sameInput_of_sameForCommands hold)
      exact ⟨takeError_sameForCommands _ hold, takeError_flags _ _ _ _⟩

end Sys2Proof.Machine

namespace Sys2Proof.Machine

/-! ### No engine step and no command refuses -/

/-- The outcome is a state or a fault. -/
def NotRefused (o : Outcome) : Prop := ∀ r, o ≠ .refused r

theorem NotRefused.next (s : State) : NotRefused (.next s) := nofun

theorem NotRefused.fault (f : Fault) : NotRefused (.fault f) := nofun

theorem settle_notRefused (s : State) (r : Except ErrKind State) : NotRefused (settle s r) := by
  cases r with
  | ok t => exact .next t
  | error e => exact .next _

theorem atPlace_notRefused (here : Bool) (s : State) (r : Except ErrKind State) : NotRefused (atPlace here s r) := by
  cases here with
  | false => exact .fault _
  | true => exact settle_notRefused s r

theorem atDistance_notRefused (s : State) (rule : Nat → Except ErrKind State) : NotRefused (atDistance s rule) := by
  cases hp : s.pendingLength with
  | none => rw [atDistance_none s rule hp]; exact .fault _
  | some len => rw [atDistance_some s rule len hp]; exact settle_notRefused s _

theorem streamExec_notRefused (i : Instr) (s : State) : NotRefused (streamExec i s) := by
  cases i with
  | clear | deflateCompress | deflateDecompress | gzipCompress | gzipDecompress | crc32 | reservedCmd => exact .fault _
  | dist0To15 | dist16To23 | dist24To27 | dist28To29 | distInvalid => exact atDistance_notRefused s _
  | _ => exact atPlace_notRefused _ s _

theorem stepStream_notRefused (sp : Space) (s : State) : NotRefused (stepStream sp s) := by
  cases hf : s.fetch sp with
  | none => rw [stepStream_none sp s hf]; exact .next _
  | some i => rw [stepStream_some sp s i hf]; exact streamExec_notRefused i s

theorem engineStep_notRefused (s : State) : NotRefused (engineStep s) := by
  unfold engineStep
  split
  · exact stepStream_notRefused _ s
  · split
    iterate 5 · exact atPlace_notRefused _ s _
    · exact .fault _

theorem runEngine_notRefused (fuel : Nat) (s : State) : NotRefused (runEngine fuel s) := by
  induction fuel generalizing s with
  | zero => exact .next s
  | succ fuel ih =>
    cases hb : s.busy with
    | false => rw [runEngine_idle _ s hb]; exact .next s
    | true =>
      cases he : engineStep s with
      | next t => rw [runEngine_succ_next fuel s t hb he]; exact ih t
      | fault f => simp only [runEngine, hb, he]; exact .fault f
      | refused r => exact absurd he (engineStep_notRefused s r)

theorem whenIdle_notRefused (s : State) {o : Outcome} (h : NotRefused o) : NotRefused (whenIdle s o) := by
  cases hb : s.busy with
  | false => rwa [whenIdle_idle s o hb]
  | true => rw [whenIdle_busy s o hb]; exact .fault _

theorem dataCommand_notRefused (op : Op) (s : State) : NotRefused (dataCommand op s) := by
  refine whenIdle_notRefused s ?_
  split
  · exact runEngine_notRefused _ _
  · exact .next _

/-- A command instruction answers a state or a fault in every state. -/
theorem exec_cmd_notRefused {i : Instr} (hi : i.space = .cmd) (s : State) : NotRefused (exec i s) := by
  cases i with
  | clear | reservedCmd => exact whenIdle_notRefused s (.next _)
  | deflateCompress | deflateDecompress | gzipCompress | gzipDecompress | crc32 => exact dataCommand_notRefused _ s
  | _ => cases hi

/-! ### The host's accesses, one equation per case -/

theorem hostTurn_due {e : HostEvent} {s : State} (h : s.cmdState = .idle ∨ e.after = 0) (hw : e.action ≠ .wait) :
    hostTurn e s = true := by
  rcases h with h | h
  · exact hostTurn_idle e s (State.busy_idle s h)
  · simp [hostTurn, h, hw]

/-- The step on the host's turn for an action that is neither a register write nor WAIT. -/
theorem step_due {s : State} {after : Nat} {a : HostAction} {rest : List HostEvent}
    (ht : s.cmdState = .idle ∨ after = 0) (hs : s.script = ⟨after, a⟩ :: rest) (hwait : a ≠ .wait)
    (hw : ∀ width offset v, a ≠ .writeReg width offset v) : step s = hostAct a { s with script := rest } :=
  step_host s _ rest hs (hostTurn_due ht hwait) hw

/-- The step on the host's turn for a register write. -/
theorem step_writeReg_due {s : State} {after width offset : Nat} {v : Word} {rest : List HostEvent}
    (ht : s.cmdState = .idle ∨ after = 0) (hs : s.script = ⟨after, .writeReg width offset v⟩ :: rest) :
    step s = hostWrite width offset v { s with script := rest } :=
  step_write s after width offset v rest hs (hostTurn_due ht nofun)

theorem regAccessOk_iff (width offset : Nat) :
    regAccessOk width offset = true ↔ width = 4 ∧ offset % 4 = 0 ∧ offset ≤ 0x7C := by
  simp [regAccessOk, and_assoc]

section Accesses

variable {width offset : Nat} {s t : State}

theorem hostReadReg_bad (h : ¬ regAccessOk width offset = true) :
    hostReadReg width offset s = .refused .badRegisterAccess := if_neg h

theorem hostReadReg_notRefused (h : regAccessOk width offset = true) : NotRefused (hostReadReg width offset s) := by
  rw [hostReadReg, if_pos h]
  split
  · exact .next _
  · exact .next _

theorem hostWriteReg_notRefused (offset : Nat) (v : Word) (s : State) : NotRefused (hostWriteReg offset v s) := by
  unfold hostWriteReg
  split
  · exact .fault _
  · exact .next _

theorem hostWrite_bad (v : Word) (h : ¬ regAccessOk width offset = true) :
    hostWrite width offset v s = .refused .badRegisterAccess := if_neg h

theorem hostWrite_notRefused (v : Word) (h : regAccessOk width offset = true) :
    NotRefused (hostWrite width offset v s) := by
  rw [hostWrite, if_pos h]
  split
  · exact exec_cmd_notRefused (decodeCmd_space v) s
  · exact hostWriteReg_notRefused offset v s

theorem hostReadIn_outside (h : s.cfg.inCap ≤ offset) : hostReadIn offset s = .refused .badBufferAccess :=
  if_neg (Nat.not_lt.mpr h)

theorem hostWriteIn_outside (v : Byte) (h : s.cfg.inCap ≤ offset) :
    hostWriteIn offset v s = .refused .badBufferAccess := if_neg (Nat.not_lt.mpr h)

theorem hostReadOut_outside (h : s.cfg.fits offset = false) : hostReadOut offset s = .refused .badBufferAccess :=
  if_neg (by simp [h])

theorem hostReadReg_idle (hb : s.busy = false) :
    hostReadReg width offset s =
      if regAccessOk width offset then .next (s.answer (s.regRead offset)) else .refused .badRegisterAccess := by
  simp [hostReadReg, hb]

theorem hostReadIn_idle (hb : s.busy = false) :
    hostReadIn offset s =
      if offset < s.cfg.inCap then .next (s.answer ((s.inByte offset).setWidth 32)) else .refused .badBufferAccess := by
  simp [hostReadIn, hb]

theorem hostReadOut_idle (hb : s.busy = false) :
    hostReadOut offset s =
      if s.cfg.fits offset then .next (s.answer ((s.outByte offset).setWidth 32))
      else .refused .badBufferAccess := by
  simp [hostReadOut, hb]

theorem hostReadIn_busy (hb : s.busy = true) (h : offset < s.cfg.inCap) :
    hostReadIn offset s = .next s.answerFree := by
  rw [hostReadIn, if_pos h, if_pos hb]

theorem hostReadOut_busy (hb : s.busy = true) (h : s.cfg.fits offset = true) :
    hostReadOut offset s = .next s.answerFree := by
  rw [hostReadOut, if_pos h, if_pos hb]

theorem hostWriteIn_busy (v : Byte) (hb : s.busy = true) (h : offset < s.cfg.inCap) :
    hostWriteIn offset v s = .fault .hostWriteWhileBusy := by
  rw [hostWriteIn, if_pos h, if_pos hb]

theorem hostWriteIn_idle (v : Byte) (hb : s.busy = false) (h : offset < s.cfg.inCap) :
    hostWriteIn offset v s = .next (s.putIn offset v) := by
  rw [hostWriteIn, if_pos h, hb]
  rfl

/-- A byte write that answers a state is the write of that byte. -/
theorem hostWriteIn_next {v : Byte} (h : hostWriteIn offset v s = .next t) : t = s.putIn offset v := by
  unfold hostWriteIn at h
  split at h
  · split at h
    · cases h
    · cases h; rfl
  · cases h

/-- A register write as an update of the two registers that a host can write. -/
theorem State.regWrite_eq (s : State) (offset : Nat) (v : Word) :
    s.regWrite offset v = { s with
      inLen := if offset = 0x0C then v else s.inLen
      mtime := if offset = 0x14 then v else s.mtime } := by
  unfold State.regWrite
  split
  · next h => subst h; rfl
  · split <;> rfl

/-- A register write other than the CMD write, when it answers a state, is the write of that register. -/
theorem hostWrite_next {v : Word} (hcmd : width = 4 → offset ≠ 0) (h : hostWrite width offset v s = .next t) :
    t = s.regWrite offset v := by
  by_cases hok : regAccessOk width offset = true
  · have h0 : offset ≠ 0 := hcmd ((regAccessOk_iff width offset).mp hok).1
    rw [hostWrite, if_pos hok, if_neg h0, hostWriteReg] at h
    split at h
    · cases h
    · cases h; rfl
  · rw [hostWrite_bad v hok] at h
    cases h

end Accesses

/-! ### What a host read of an IDLE block answers -/

/-- The value that a host read of an IDLE block returns, where the access has a meaning. -/
def State.readValue (s : State) : HostAction → Option Word
  | .readReg width offset => if regAccessOk width offset then some (s.regRead offset) else none
  | .readIn offset => if offset < s.cfg.inCap then some ((s.inByte offset).setWidth 32) else none
  | .readOut offset => if s.cfg.fits offset then some ((s.outByte offset).setWidth 32) else none
  | .wait => some s.status
  | _ => none

/-- A read's answer is no part of what a read returns. -/
theorem State.readValue_answer (s : State) (v : Word) (a : HostAction) : (s.answer v).readValue a = s.readValue a := by
  cases a <;> rfl

theorem hostAct_read {s : State} {a : HostAction} {v : Word} (hb : s.busy = false) (h : s.readValue a = some v) :
    hostAct a s = .next (s.answer v) := by
  cases a with
  | readReg width offset | readIn offset | readOut offset =>
    obtain ⟨hok, hv⟩ := Option.ite_none_right_eq_some.mp h
    cases hv
    simp only [hostAct, hostReadReg_idle hb, hostReadIn_idle hb, hostReadOut_idle hb, if_pos hok]
  | wait => cases h; rfl
  | _ => cases h

/-- What a host action of an IDLE block that answers a state has done: a read has recorded its value; what is left are
the writes and reset. -/
theorem hostAct_next {s t : State} {a : HostAction} (hb : s.busy = false) (h : hostAct a s = .next t) :
    (∃ v, s.readValue a = some v ∧ t = s.answer v) ∨ (∃ offset v, a = .writeIn offset v) ∨
      (∃ width offset v, a = .writeReg width offset v) ∨ a = .reset := by
  cases a with
  | readReg | readIn | readOut =>
    simp only [hostAct, hostReadReg_idle hb, hostReadIn_idle hb, hostReadOut_idle hb] at h
    split at h
    · next hok => cases h; exact .inl ⟨_, if_pos hok, rfl⟩
    · cases h
  | writeReg width offset v => exact .inr (.inr (.inl ⟨width, offset, v, rfl⟩))
  | writeIn offset v => exact .inr (.inl ⟨offset, v, rfl⟩)
  | writeOut => cases h
  | wait => cases h; exact .inl ⟨s.status, rfl, rfl⟩
  | reset => exact .inr (.inr (.inr rfl))

/-- The step of an IDLE block for a read or WAIT. -/
theorem step_read {s : State} {after : Nat} {a : HostAction} {rest : List HostEvent} {v : Word}
    (hi : s.cmdState = .idle) (hs : s.script = ⟨after, a⟩ :: rest)
    (hv : State.readValue { s with script := rest } a = some v) :
    step s = .next (State.answer v { s with script := rest }) := by
  have hb := State.busy_idle s hi
  rw [step_host s _ rest hs (hostTurn_idle _ s hb) (by rintro width offset v rfl; cases hv)]
  exact hostAct_read hb hv

/-- A read or WAIT of an IDLE block records its value and changes nothing else. -/
theorem step_read_next {s t : State} {after : Nat} {a : HostAction} {rest : List HostEvent} (hi : s.cmdState = .idle)
    (hs : s.script = ⟨after, a⟩ :: rest) (h : step s = .next t) (hreset : a ≠ .reset)
    (hreg : ∀ width offset v, a ≠ .writeReg width offset v) (hin : ∀ offset v, a ≠ .writeIn offset v) :
    ∃ v, State.readValue { s with script := rest } a = some v ∧ t = State.answer v { s with script := rest } := by
  have hb := State.busy_idle s hi
  rw [step_host s _ rest hs (hostTurn_idle _ s hb) hreg] at h
  rcases hostAct_next (s := { s with script := rest }) hb h with hv | ⟨o, v, ha⟩ | ⟨w, o, v, ha⟩ | ha
  · exact hv
  · exact absurd ha (hin o v)
  · exact absurd ha (hreg w o v)
  · exact absurd ha hreset

/-! ### The statements of the host's accesses -/

/-- Settles O15: the access check of REG comes before anything else that a register access does, and beyond it neither a
register's read or write nor a command refuses. -/
theorem badRegisterAccessIsRefused : Obligations.BadRegisterAccessIsRefused := by
  intro s after width offset v rest ht
  refine ⟨fun hbad => ?_, fun hw ha hle => ?_⟩
  · have hbad : ¬ regAccessOk width offset = true := mt (regAccessOk_iff width offset).mp hbad
    exact ⟨fun hs => (step_due ht hs nofun nofun).trans (hostReadReg_bad hbad),
      fun hs => (step_writeReg_due ht hs).trans (hostWrite_bad v hbad)⟩
  · have hok : regAccessOk width offset = true := (regAccessOk_iff width offset).mpr ⟨hw, ha, hle⟩
    refine ⟨fun hs => ?_, fun hs => ?_⟩
    · rw [step_due ht hs nofun nofun]
      exact hostReadReg_notRefused hok
    · rw [step_writeReg_due ht hs]
      exact hostWrite_notRefused v hok

/-- Settles O16: on the host's turn a byte access is decided by its offset, and within the buffer by BUSY. -/
theorem bufferAccessesOfTheHost : Obligations.BufferAccessesOfTheHost := by
  intro s after offset v rest
  refine ⟨fun hi hlt => ⟨fun hs => ?_, fun hs => ?_⟩, fun hi hfits hs => ?_,
    fun ht => ⟨fun hs => ?_, fun hge => ⟨fun hs => ?_, fun hs => ?_⟩, fun hfits hs => ?_⟩,
    fun hb h0 => ⟨fun hlt hs => ?_, fun hlt hs => ?_, fun hfits hs => ?_⟩⟩
  · exact step_read hi hs (if_pos hlt)
  · refine ⟨State.putIn offset v { s with script := rest }, ?_, State.putIn_inByte_same offset v _,
      fun a ha => State.putIn_inByte_other offset a v _ ha, rfl⟩
    exact (step_due (.inl hi) hs nofun nofun).trans (hostWriteIn_idle v (State.busy_idle _ hi) hlt)
  · exact step_read hi hs (if_pos hfits)
  · exact step_due ht hs nofun nofun
  · exact (step_due ht hs nofun nofun).trans (hostReadIn_outside hge)
  · exact (step_due ht hs nofun nofun).trans (hostWriteIn_outside v hge)
  · exact (step_due ht hs nofun nofun).trans (hostReadOut_outside hfits)
  · exact (step_due (.inr h0) hs nofun nofun).trans (hostWriteIn_busy v hb hlt)
  · exact ⟨_, (step_due (.inr h0) hs nofun nofun).trans (hostReadIn_busy hb hlt)⟩
  · exact ⟨_, (step_due (.inr h0) hs nofun nofun).trans (hostReadOut_busy hb hfits)⟩

/-- Settles O18: a write that answers a state is the write of its register or byte, and a read only records its value,
which no read's answer is a part of. -/
theorem onlyTheCmdWriteHasASideEffect : Obligations.OnlyTheCmdWriteHasASideEffect := by
  intro s t after a rest hi hs h hreset hcmd
  refine ⟨?_, ?_, fun hreg hin => ?_, fun hread => ?_⟩
  · rintro width offset v rfl
    rw [step_writeReg_due (.inl hi) hs] at h
    rw [hostWrite_next (fun hw h0 => hcmd v (by rw [hw, h0])) h, State.regWrite_eq]
  · rintro offset v rfl
    rw [step_due (.inl hi) hs nofun nofun] at h
    obtain rfl := hostWriteIn_next h
    exact ⟨State.putIn_inByte_same offset v _, fun b hne => State.putIn_inByte_other offset b v _ hne,
      fun b hne => tableRead_tableWrite_other s.inBuf offset b v hne, rfl⟩
  · obtain ⟨v, -, rfl⟩ := step_read_next hi hs h hreset hreg hin
    rfl
  · have hreg : ∀ width offset v, a ≠ .writeReg width offset v := by
      rintro width offset v rfl
      simp at hread
    have hin : ∀ offset v, a ≠ .writeIn offset v := by
      rintro offset v rfl
      simp at hread
    obtain ⟨v, hv, rfl⟩ := step_read_next hi hs h hreset hreg hin
    exact ⟨_, step_read (rest := rest) hi rfl ((State.readValue_answer _ v a).trans hv), rfl⟩

end Sys2Proof.Machine

namespace Sys2Proof

/-! ### Codes read most significant bit first -/

/-- A code read succeeds when there are bits enough. -/
theorem takeMsb_isSome {n : Nat} (c : Nat) {bs : List Bool} (h : n ≤ bs.length) :
    ∃ v rest, takeMsb n c bs = some (v, rest) := by
  induction n generalizing c bs with
  | zero => exact ⟨c, bs, rfl⟩
  | succ n ih =>
    cases bs with
    | nil => simp at h
    | cons b bs => exact ih _ (by simpa using h)

/-- A code of `n + 1` bits is a code of `n` bits and a last bit, which doubles its value and adds at most 1. -/
theorem takeMsb_succ_some {n c v : Nat} {bs rest : List Bool} (h : takeMsb (n + 1) c bs = some (v, rest)) :
    ∃ u mid, takeMsb n c bs = some (u, mid) ∧ takeMsb 1 u mid = some (v, rest) ∧ 2 * u ≤ v ∧ v ≤ 2 * u + 1 := by
  rw [takeMsb_add n 1, Option.bind_eq_some_iff] at h
  obtain ⟨⟨u, mid⟩, hu, hv⟩ := h
  obtain ⟨hle, hlt, -⟩ := takeMsb_some hv
  exact ⟨u, mid, hu, hv, by omega, by omega⟩

theorem takeMsb_snoc {n c u v : Nat} {bs mid rest : List Bool} (hu : takeMsb n c bs = some (u, mid))
    (hv : takeMsb 1 u mid = some (v, rest)) : takeMsb (n + 1) c bs = some (v, rest) := by
  rw [takeMsb_add n 1, hu, Option.bind_some, hv]

/-! ### The literal/length codes by width (30_encoding.md R93) -/

/-- `LitlenCode n c i`: the code of `n` bits and value `c` is a literal/length code, and `i` is its instruction. -/
inductive LitlenCode : Nat → Nat → Instr → Prop where
  | seven {c : Nat} {i : Instr} (le : c ≤ 0x17) (eq : decodeCode7 c = i) : LitlenCode 7 c i
  | eight {c : Nat} {i : Instr} (ge : 0x30 ≤ c) (le : c ≤ 0xC7) (eq : decodeCode8 c = i) : LitlenCode 8 c i
  | nine {c : Nat} {i : Instr} (ge : 0x190 ≤ c) (lt : c < 0x200) (eq : decodeCode9 c = i) : LitlenCode 9 c i

/-- The decoder reads a literal/length code where it finds one: what its leading bits could be of a shorter width is
ruled out by their value. -/
theorem decodeLitlen_of_code {n c : Nat} {i : Instr} {bs rest : List Bool} (hc : LitlenCode n c i)
    (h : takeMsb n 0 bs = some (c, rest)) : decodeLitlen bs = some (i, rest) := by
  cases hc with
  | seven le eq => simp [decodeLitlen, h, le, eq]
  | eight ge le eq =>
    obtain ⟨c7, r7, h7, h8, -, hlt⟩ := takeMsb_succ_some h
    have n7 : ¬ c7 ≤ 0x17 := by omega
    simp [decodeLitlen, h7, n7, h8, ge, le, eq]
  | nine ge lt eq =>
    obtain ⟨c8, r8, h8, h9, -, hlt⟩ := takeMsb_succ_some h
    obtain ⟨c7, r7, h7, h8, -, hlt'⟩ := takeMsb_succ_some h8
    have n7 : ¬ c7 ≤ 0x17 := by omega
    have n8 : ¬ (0x30 ≤ c8 ∧ c8 ≤ 0xC7) := by omega
    simp [decodeLitlen, h7, n7, h8, n8, h9, ge, eq]

/-- Whatever the literal/length decoder reads is a code. -/
theorem code_of_decodeLitlen {i : Instr} {bs rest : List Bool} (h : decodeLitlen bs = some (i, rest)) :
    ∃ n c, LitlenCode n c i ∧ takeMsb n 0 bs = some (c, rest) := by
  unfold decodeLitlen at h
  split at h
  · cases h
  next c7 r7 h7 =>
  split at h
  · next le => cases h; exact ⟨7, c7, .seven le rfl, h7⟩
  split at h
  · cases h
  next c8 r8 h8 =>
  have h8 := takeMsb_snoc h7 h8
  split at h
  · next hin => cases h; exact ⟨8, c8, .eight hin.1 hin.2 rfl, h8⟩
  split at h
  · cases h
  next c9 r9 h9 =>
  have h9 := takeMsb_snoc h8 h9
  split at h
  · next ge => cases h; exact ⟨9, c9, .nine ge (takeMsb_some h9).2.1 rfl, h9⟩
  · cases h

/-- Every 9 bits begin with a code: beyond the codes of 7 and of 8 bits there are only codes of 9. -/
theorem exists_code_of_nine_bits {c9 : Nat} {bs rest : List Bool} (h9 : takeMsb 9 0 bs = some (c9, rest)) :
    ∃ n c i mid, LitlenCode n c i ∧ takeMsb n 0 bs = some (c, mid) := by
  obtain ⟨c8, r8, h8, -, hle9, -⟩ := takeMsb_succ_some h9
  obtain ⟨c7, r7, h7, -, hle8, -⟩ := takeMsb_succ_some h8
  by_cases is7 : c7 ≤ 0x17
  · exact ⟨7, c7, _, r7, .seven is7 rfl, h7⟩
  by_cases is8 : c8 ≤ 0xC7
  · exact ⟨8, c8, _, r8, .eight (by omega) is8 rfl, h8⟩
  · exact ⟨9, c9, _, rest, .nine (by omega) (takeMsb_some h9).2.1 rfl, h9⟩

/-- Settles O4: the first nine bits, read as one code, hold a code of 7, 8 or 9 bits. -/
theorem nineBitsAlwaysHoldACode : Obligations.NineBitsAlwaysHoldACode := by
  intro bits hlen
  obtain ⟨c9, rest, h9⟩ := takeMsb_isSome 0 hlen
  obtain ⟨n, c, i, mid, hc, h⟩ := exists_code_of_nine_bits h9
  exact ⟨i, mid, decodeLitlen_of_code hc h⟩

/-! ### The codes of the five contexts -/

/-- `Code sp i bits`: the bits are a code of the context `sp`, and `i` is its instruction. -/
inductive Code : Space → Instr → List Bool → Prop where
  | cmd (w : Word) : Code .cmd (decodeCmd w) (lsbBits 32 w.toNat)
  | block (final : Bool) {btype : Nat} (lt : btype < 4) :
    Code .block (decodeBtype final btype) (final :: lsbBits 2 btype)
  | litlen {n c : Nat} {i : Instr} (hc : LitlenCode n c i) : Code .litlen i (msbBits n c)
  | dist {c : Nat} (lt : c < 32) : Code .dist (decodeCode5 c) (msbBits 5 c)
  | gzip (flg : Byte) (mtime : Word) (xfl os : Byte) :
    Code .gzip (.gzipMember flg mtime xfl os) (encode (.gzipMember flg mtime xfl os))

/-! ### The decoder reads the codes -/

theorem takeLsb_toNat {n : Nat} (x : BitVec n) (rest : List Bool) :
    takeLsb n (lsbBits n x.toNat ++ rest) = some (x.toNat, rest) := by
  rw [takeLsb_lsbBits, Nat.mod_eq_of_lt x.isLt]

/-- A field of `n` bits is read exactly where the bits of a word of that width stand. -/
theorem takeLsb_some_iff {n v : Nat} {bs rest : List Bool} :
    takeLsb n bs = some (v, rest) ↔ ∃ x : BitVec n, v = x.toNat ∧ bs = lsbBits n x.toNat ++ rest := by
  constructor
  · intro h
    obtain ⟨hlt, hbs⟩ := takeLsb_some h
    exact ⟨⟨v, hlt⟩, rfl, hbs⟩
  · rintro ⟨x, rfl, rfl⟩
    exact takeLsb_toNat x rest

/-- A code of `n` bits is read exactly where its bits stand. -/
theorem takeMsb_some_iff {n v : Nat} {bs rest : List Bool} :
    takeMsb n 0 bs = some (v, rest) ↔ v < 2 ^ n ∧ bs = msbBits n v ++ rest := by
  constructor
  · intro h
    obtain ⟨-, hlt, hbs⟩ := takeMsb_some h
    exact ⟨by omega, hbs⟩
  · rintro ⟨hlt, rfl⟩
    rw [takeMsb_msbBits, Nat.mod_eq_of_lt hlt, Nat.zero_mul, Nat.zero_add]

theorem LitlenCode.lt {n c : Nat} {i : Instr} (h : LitlenCode n c i) : c < 2 ^ n := by
  cases h <;> omega

theorem decodeHeader_encode (flg : Byte) (mtime : Word) (xfl os : Byte) (rest : List Bool) :
    decodeHeader (encode (.gzipMember flg mtime xfl os) ++ rest) = some (.gzipMember flg mtime xfl os, rest) := by
  simp [decodeHeader, encode, takeLsb_lsbBits 24, takeLsb_toNat]

theorem code_of_decodeHeader {i : Instr} {bs rest : List Bool} (h : decodeHeader bs = some (i, rest)) :
    ∃ code, Code .gzip i code ∧ bs = code ++ rest := by
  simp only [decodeHeader, Option.bind_eq_bind, Option.bind_eq_some_iff, Prod.exists] at h
  obtain ⟨magic, r24, hmagic, h⟩ := h
  split at h
  · next hm =>
    simp only [Option.bind_eq_some_iff, Prod.exists, takeLsb_some_iff, Option.pure_def, Option.some.injEq,
      Prod.mk.injEq] at h
    obtain ⟨_, r32, ⟨flg, rfl, rfl⟩, _, r64, ⟨mtime, rfl, rfl⟩, _, r72, ⟨xfl, rfl, rfl⟩, _, r80, ⟨os, rfl, rfl⟩, rfl,
      rfl⟩ := h
    obtain ⟨-, rfl⟩ := takeLsb_some (hm ▸ hmagic)
    simp only [BitVec.ofNat_toNat, BitVec.setWidth_eq]
    exact ⟨_, .gzip flg mtime xfl os, by simp [encode]⟩
  · cases h

/-- The decoder of each context reads exactly its codes. -/
theorem decode_some_iff {sp : Space} {i : Instr} {bits rest : List Bool} :
    decode sp bits = some (i, rest) ↔ ∃ code, Code sp i code ∧ bits = code ++ rest := by
  constructor
  · intro h
    cases sp with
    | cmd =>
      simp only [decode, Option.map_eq_some_iff, Prod.exists, takeLsb_some_iff, Prod.mk.injEq] at h
      obtain ⟨_, _, ⟨w, rfl, rfl⟩, rfl, rfl⟩ := h
      rw [BitVec.ofNat_toNat, BitVec.setWidth_eq]
      exact ⟨_, .cmd w, rfl⟩
    | block =>
      simp only [decode, Option.map_eq_some_iff, Prod.exists, takeLsb_some_iff, Prod.mk.injEq] at h
      obtain ⟨_, _, ⟨x, rfl, rfl⟩, rfl, rfl⟩ := h
      exact ⟨_, .block _ (by omega), rfl⟩
    | litlen =>
      obtain ⟨n, c, hc, h⟩ := code_of_decodeLitlen h
      exact ⟨_, .litlen hc, (takeMsb_some_iff.mp h).2⟩
    | dist =>
      simp only [decode, Option.map_eq_some_iff, Prod.exists, takeMsb_some_iff, Prod.mk.injEq] at h
      obtain ⟨c, _, ⟨hlt, rfl⟩, rfl, rfl⟩ := h
      exact ⟨_, .dist hlt, rfl⟩
    | gzip => exact code_of_decodeHeader h
  · rintro ⟨code, hc, rfl⟩
    cases hc with
    | cmd w => simp [decode, takeLsb_toNat]
    | @block final btype lt => interval_cases btype <;> cases final <;> rfl
    | litlen hc => exact decodeLitlen_of_code hc (takeMsb_some_iff.mpr ⟨hc.lt, rfl⟩)
    | @dist c lt =>
      have h5 : takeMsb 5 0 (msbBits 5 c ++ rest) = some (c, rest) := takeMsb_some_iff.mpr ⟨lt, rfl⟩
      simp [decode, h5]
    | gzip flg mtime xfl os => exact decodeHeader_encode flg mtime xfl os rest

/-! ### A code's instruction is well formed, of its context, and encoded by it -/

/-- `bits` is the encoding of the well-formed instruction `i` of the context `sp`. -/
structure Encodes (sp : Space) (i : Instr) (bits : List Bool) : Prop where
  space : i.space = sp
  wf : i.wf = true
  encode : encode i = bits

/-- The six words that are not reserved are 0 to 5. -/
theorem reservedWord_iff (w : Word) : reservedWord w = true ↔ 6 ≤ w.toNat := by
  simp only [reservedWord, Bool.or_eq_true, decide_eq_true_eq, ne_eq, ← BitVec.toNat_inj, BitVec.extractLsb'_toNat,
    Nat.shiftRight_eq_div_pow, BitVec.toNat_ofNat]
  omega

theorem decodeCmd_encodes (w : Word) : Encodes .cmd (decodeCmd w) (lsbBits 32 w.toNat) := by
  unfold decodeCmd
  repeat' split
  iterate 6 next h => rw [h]; exact ⟨rfl, rfl, rfl⟩
  exact ⟨rfl, (reservedWord_iff w).mpr (by bv_omega), rfl⟩

theorem decodeBtype_encodes (final : Bool) {btype : Nat} (lt : btype < 4) :
    Encodes .block (decodeBtype final btype) (final :: lsbBits 2 btype) := by
  interval_cases btype <;> exact ⟨rfl, rfl, rfl⟩

/-- A code of a row of the table, which begins at `base` and has `k` free bits, from those bits. -/
theorem msbBits_row {n k base c : Nat} (h : base + c % 2 ^ k = c) :
    msbBits n (base + (BitVec.ofNat k c).toNat) = msbBits n c := by
  rw [BitVec.toNat_ofNat, h]

theorem decodeCode5_encodes {c : Nat} (lt : c < 32) : Encodes .dist (decodeCode5 c) (msbBits 5 c) := by
  unfold decodeCode5
  repeat' split
  · next h => exact ⟨rfl, rfl, by rw [encode, BitVec.toNat_ofNat, Nat.mod_eq_of_lt h]⟩
  all_goals exact ⟨rfl, rfl, msbBits_row (by omega)⟩

theorem decodeCode7_encodes {c : Nat} (le : c ≤ 0x17) : Encodes .litlen (decodeCode7 c) (msbBits 7 c) := by
  unfold decodeCode7
  repeat' split
  iterate 2 next h => rw [h]; exact ⟨rfl, rfl, rfl⟩
  all_goals exact ⟨rfl, rfl, msbBits_row (by omega)⟩

theorem decodeCode8_encodes {c : Nat} (ge : 0x30 ≤ c) (le : c ≤ 0xC7) :
    Encodes .litlen (decodeCode8 c) (msbBits 8 c) := by
  unfold decodeCode8
  repeat' split
  all_goals exact ⟨rfl, rfl, msbBits_row (by omega)⟩

theorem decodeCode9_encodes {c : Nat} (ge : 0x190 ≤ c) (lt : c < 0x200) :
    Encodes .litlen (decodeCode9 c) (msbBits 9 c) := by
  unfold decodeCode9
  repeat' split
  all_goals exact ⟨rfl, rfl, msbBits_row (by omega)⟩

theorem LitlenCode.encodes {n c : Nat} {i : Instr} (h : LitlenCode n c i) : Encodes .litlen i (msbBits n c) := by
  cases h with
  | seven le eq => exact eq ▸ decodeCode7_encodes le
  | eight ge le eq => exact eq ▸ decodeCode8_encodes ge le
  | nine ge lt eq => exact eq ▸ decodeCode9_encodes ge lt

theorem Code.encodes {sp : Space} {i : Instr} {bits : List Bool} (h : Code sp i bits) : Encodes sp i bits := by
  cases h with
  | cmd w => exact decodeCmd_encodes w
  | block final lt => exact decodeBtype_encodes final lt
  | litlen hc => exact hc.encodes
  | dist lt => exact decodeCode5_encodes lt
  | gzip => exact ⟨rfl, rfl, rfl⟩

/-- Settles O3: what decodes is a code of its context, and a code is the encoding of its instruction. -/
theorem decodedBitsAreTheEncoding : Obligations.DecodedBitsAreTheEncoding := by
  intro sp bits rest i h
  obtain ⟨code, hc, rfl⟩ := decode_some_iff.mp h
  obtain ⟨hspace, hwf, rfl⟩ := hc.encodes
  exact ⟨hspace, hwf, rfl⟩

/-! ### Every well-formed instruction has a code -/

theorem decodeCmd_reserved_eq {w : Word} (h : reservedWord w = true) : decodeCmd w = .reservedCmd w := by
  rw [reservedWord_iff] at h
  unfold decodeCmd
  repeat rw [if_neg (by bv_omega)]

/-- A literal/length instruction has a code: its row's first code and the free bits. -/
theorem exists_litlenCode {i : Instr} (h : i.space = .litlen) : ∃ n c, LitlenCode n c i := by
  cases i with
  | lit0To15 c => exact ⟨8, 0x30 + c.toNat, .eight (by omega) (by omega) (by revert c; decide)⟩
  | lit16To79 c => exact ⟨8, 0x40 + c.toNat, .eight (by omega) (by omega) (by revert c; decide)⟩
  | lit80To143 c => exact ⟨8, 0x80 + c.toNat, .eight (by omega) (by omega) (by revert c; decide)⟩
  | lit144To159 c => exact ⟨9, 0x190 + c.toNat, .nine (by omega) (by omega) (by revert c; decide)⟩
  | lit160To191 c => exact ⟨9, 0x1A0 + c.toNat, .nine (by omega) (by omega) (by revert c; decide)⟩
  | lit192To255 c => exact ⟨9, 0x1C0 + c.toNat, .nine (by omega) (by omega) (by revert c; decide)⟩
  | eob => exact ⟨7, 0, .seven (by omega) rfl⟩
  | len257 => exact ⟨7, 1, .seven (by omega) rfl⟩
  | len258To259 c => exact ⟨7, 2 + c.toNat, .seven (by omega) (by revert c; decide)⟩
  | len260To263 c => exact ⟨7, 4 + c.toNat, .seven (by omega) (by revert c; decide)⟩
  | len264To271 c => exact ⟨7, 8 + c.toNat, .seven (by omega) (by revert c; decide)⟩
  | len272To279 c => exact ⟨7, 16 + c.toNat, .seven (by omega) (by revert c; decide)⟩
  | len280To283 c => exact ⟨8, 0xC0 + c.toNat, .eight (by omega) (by omega) (by revert c; decide)⟩
  | len284To285 c => exact ⟨8, 0xC4 + c.toNat, .eight (by omega) (by omega) (by revert c; decide)⟩
  | litlenInvalid c => exact ⟨8, 0xC6 + c.toNat, .eight (by omega) (by omega) (by revert c; decide)⟩
  | _ => cases h

theorem exists_distCode {i : Instr} (h : i.space = .dist) : ∃ c < 32, decodeCode5 c = i := by
  cases i with
  | dist0To15 c => exact ⟨c.toNat, by omega, by revert c; decide⟩
  | dist16To23 c => exact ⟨16 + c.toNat, by omega, by revert c; decide⟩
  | dist24To27 c => exact ⟨24 + c.toNat, by omega, by revert c; decide⟩
  | dist28To29 c => exact ⟨28 + c.toNat, by omega, by revert c; decide⟩
  | distInvalid c => exact ⟨30 + c.toNat, by omega, by revert c; decide⟩
  | _ => cases h

theorem exists_btype {i : Instr} (h : i.space = .block) : ∃ final, ∃ btype < 4, decodeBtype final btype = i := by
  cases i with
  | blockStored final => exact ⟨final, 0, by decide, rfl⟩
  | blockFixed final => exact ⟨final, 1, by decide, rfl⟩
  | blockDynamicUnsupported final => exact ⟨final, 2, by decide, rfl⟩
  | blockReserved final => exact ⟨final, 3, by decide, rfl⟩
  | _ => cases h

theorem exists_cmdWord {i : Instr} (h : i.space = .cmd) (hwf : i.wf = true) : ∃ w, decodeCmd w = i := by
  cases i with
  | clear => exact ⟨0#32, rfl⟩
  | deflateCompress => exact ⟨1#32, rfl⟩
  | deflateDecompress => exact ⟨2#32, rfl⟩
  | gzipCompress => exact ⟨3#32, rfl⟩
  | gzipDecompress => exact ⟨4#32, rfl⟩
  | crc32 => exact ⟨5#32, rfl⟩
  | reservedCmd w => exact ⟨w, decodeCmd_reserved_eq hwf⟩
  | _ => cases h

theorem exists_code {i : Instr} (hwf : i.wf = true) : ∃ code, Code i.space i code := by
  cases h : i.space with
  | cmd => obtain ⟨w, rfl⟩ := exists_cmdWord h hwf; exact ⟨_, .cmd w⟩
  | block => obtain ⟨final, btype, lt, rfl⟩ := exists_btype h; exact ⟨_, .block final lt⟩
  | litlen => obtain ⟨n, c, hc⟩ := exists_litlenCode h; exact ⟨_, .litlen hc⟩
  | dist => obtain ⟨c, lt, rfl⟩ := exists_distCode h; exact ⟨_, .dist lt⟩
  | gzip =>
    cases i with
    | gzipMember flg mtime xfl os => exact ⟨_, .gzip flg mtime xfl os⟩
    | _ => cases h

/-- Settles O2: a well-formed instruction has a code, which is its encoding, and the decoder reads every code. -/
theorem decodeOfEncodeIsIdentity : Obligations.DecodeOfEncodeIsIdentity := by
  intro i rest hwf
  obtain ⟨code, hc⟩ := exists_code hwf
  rw [hc.encodes.encode]
  exact decode_some_iff.mpr ⟨code, hc, rfl⟩

end Sys2Proof

namespace Sys2Proof

open Sys2Proof.Machine Sys2Proof.Ref

/-! ### The symbol of a code (30_encoding.md R80, R93) -/

theorem litlenSymbol_decodeCode7 {c : Nat} (le : c ≤ 0x17) : litlenSymbol (decodeCode7 c) = some (256 + c) := by
  unfold decodeCode7
  repeat' split
  all_goals
    simp only [litlenSymbol, literalByte, lengthSymbol, BitVec.toNat_ofNat, Option.some.injEq]
    omega

theorem litlenSymbol_decodeCode8_literal {c : Nat} (ge : 0x30 ≤ c) (lt : c < 0xC0) :
    litlenSymbol (decodeCode8 c) = some (c - 0x30) := by
  unfold decodeCode8
  repeat' split
  all_goals
    simp only [litlenSymbol, literalByte, BitVec.toNat_ofNat, Option.some.injEq]
    omega

theorem litlenSymbol_decodeCode8_length {c : Nat} (ge : 0xC0 ≤ c) (le : c ≤ 0xC7) :
    litlenSymbol (decodeCode8 c) = some (280 + (c - 0xC0)) := by
  unfold decodeCode8
  repeat' split
  all_goals
    simp only [litlenSymbol, literalByte, lengthSymbol, BitVec.toNat_ofNat, Option.some.injEq]
    omega

theorem litlenSymbol_decodeCode9 {c : Nat} (ge : 0x190 ≤ c) (lt : c < 0x200) :
    litlenSymbol (decodeCode9 c) = some (144 + (c - 0x190)) := by
  unfold decodeCode9
  repeat' split
  all_goals
    simp only [litlenSymbol, literalByte, BitVec.toNat_ofNat, Option.some.injEq]
    omega

/-- The fixed code of a symbol is a literal/length code of that symbol. -/
theorem fixedCode_litlenCode {symbol : Nat} (h : symbol ≤ 287) :
    ∃ i, LitlenCode (fixedCode symbol).2 (fixedCode symbol).1 i ∧ litlenSymbol i = some symbol := by
  unfold fixedCode
  split
  · exact ⟨_, .eight (by omega) (by omega) rfl,
      (litlenSymbol_decodeCode8_literal (by omega) (by omega)).trans (congrArg some (by omega))⟩
  split
  · exact ⟨_, .nine (by omega) (by omega) rfl,
      (litlenSymbol_decodeCode9 (by omega) (by omega)).trans (congrArg some (by omega))⟩
  split
  · exact ⟨_, .seven (by omega) rfl, (litlenSymbol_decodeCode7 (by omega)).trans (congrArg some (by omega))⟩
  · exact ⟨_, .eight (by omega) (by omega) rfl,
      (litlenSymbol_decodeCode8_length (by omega) (by omega)).trans (congrArg some (by omega))⟩

/-- Settles O5: the code of each symbol is a code of that symbol, and the decoder reads every code. -/
theorem fixedCodeOfSymbolDecodesToIt : Obligations.FixedCodeOfSymbolDecodesToIt := by
  intro symbol rest hle
  obtain ⟨i, hc, hsym⟩ := fixedCode_litlenCode hle
  exact ⟨i, decode_some_iff.mpr ⟨_, .litlen hc, rfl⟩, hsym⟩

/-- Settles O1: each word written out is the encoding of its instruction. -/
theorem writtenOutWordsDecode : Obligations.WrittenOutWordsDecode :=
  ⟨rfl, rfl,
    decodeOfEncodeIsIdentity (.blockStored true) [] rfl,
    decodeOfEncodeIsIdentity (.blockFixed true) [] rfl,
    decodeOfEncodeIsIdentity (.blockDynamicUnsupported false) [] rfl,
    decodeOfEncodeIsIdentity (.lit80To143 17#6) [] rfl,
    decodeOfEncodeIsIdentity (.lit144To159 0#4) [] rfl,
    decodeOfEncodeIsIdentity .eob [] rfl,
    decodeOfEncodeIsIdentity (.len272To279 2#3) [] rfl,
    decodeOfEncodeIsIdentity (.litlenInvalid 1#1) [] rfl,
    decodeOfEncodeIsIdentity (.dist16To23 6#3) [] rfl,
    decodeOfEncodeIsIdentity (.distInvalid 1#1) [] rfl,
    decodeOfEncodeIsIdentity (.gzipMember 0#8 0x5F5E1000#32 4#8 255#8) [] rfl⟩

end Sys2Proof

namespace Sys2Proof.Machine

open Sys2Proof.Ref

/-! ### The tables of lengths and distances (30_encoding.md R84 to R87) -/

/-- The rows' ranges follow each other without gap from `a` up to, and without, `b`. -/
def tiles : Nat → Nat → List CodeRow → Bool
  | a, b, [] => decide (a = b)
  | a, b, r :: rest => decide (r.first = a) && decide (r.first ≤ r.last) && tiles (r.last + 1) b rest

theorem tiles_cons {a b : Nat} {r : CodeRow} {rest : List CodeRow} (h : tiles a b (r :: rest) = true) :
    r.first = a ∧ r.first ≤ r.last ∧ tiles (r.last + 1) b rest = true := by
  simpa [tiles, and_assoc] using h

theorem rowOfValue_head {rows : List CodeRow} {r : CodeRow} {v : Nat} (h : r.first ≤ v) (h' : v ≤ r.last) :
    rowOfValue (r :: rows) v = r := by
  simp [rowOfValue, h, h']

theorem rowOfValue_tail {rows : List CodeRow} {r : CodeRow} {v : Nat} (h : r.last < v) :
    rowOfValue (r :: rows) v = rowOfValue rows v := by
  simp [rowOfValue, Nat.not_le.mpr h]

/-- Every value of the table's range is in the range of a row. -/
theorem exists_row_of_tiles {a b v : Nat} {rows : List CodeRow} (ht : tiles a b rows = true) (ha : a ≤ v) (hb : v < b) :
    ∃ r ∈ rows, r.first ≤ v ∧ v ≤ r.last := by
  induction rows generalizing a with
  | nil => simp [tiles] at ht; omega
  | cons r rest ih =>
    obtain ⟨rfl, -, ht⟩ := tiles_cons ht
    by_cases hv : v ≤ r.last
    · exact ⟨r, List.mem_cons_self, ha, hv⟩
    · obtain ⟨q, hq, hr⟩ := ih ht (by omega)
      exact ⟨q, List.mem_cons_of_mem r hq, hr⟩

theorem first_ge_of_tiles {a b : Nat} {rows : List CodeRow} {r : CodeRow} (ht : tiles a b rows = true)
    (hr : r ∈ rows) : a ≤ r.first := by
  induction rows generalizing a with
  | nil => cases hr
  | cons q rest ih =>
    obtain ⟨rfl, hle, ht⟩ := tiles_cons ht
    cases hr with
    | head => exact Nat.le_refl _
    | tail _ hr => have := ih ht hr; omega

/-- The row a value lies in is the row the lookup finds. -/
theorem rowOfValue_of_tiles {a b v : Nat} {rows : List CodeRow} {r : CodeRow} (ht : tiles a b rows = true)
    (hr : r ∈ rows) (hf : r.first ≤ v) (hl : v ≤ r.last) : rowOfValue rows v = r := by
  induction rows generalizing a with
  | nil => cases hr
  | cons q rest ih =>
    obtain ⟨rfl, hle, ht⟩ := tiles_cons ht
    cases hr with
    | head => exact rowOfValue_head hf hl
    | tail _ hr =>
      have := first_ge_of_tiles ht hr
      rw [rowOfValue_tail (by omega), ih ht hr]

theorem lengthRows_tiles : tiles 3 259 lengthRows = true := by decide
theorem distanceRows_tiles : tiles 1 32769 distanceRows = true := by decide

/-- Each row of the lengths is the row of its symbol, and its extra bits reach its last length. -/
theorem lengthRows_row : ∀ r ∈ lengthRows, 257 ≤ r.symbol ∧ r.symbol ≤ 285 ∧ rowOfSymbol lengthRows r.symbol = r ∧
    r.last < r.first + 2 ^ r.extra := by decide

/-- Each row of the distances is the row of its symbol, and its extra bits reach its last distance exactly. -/
theorem distanceRows_row : ∀ r ∈ distanceRows, r.symbol ≤ 29 ∧ rowOfSymbol distanceRows r.symbol = r ∧
    r.last + 1 = r.first + 2 ^ r.extra ∧ 1 ≤ r.first ∧ r.last ≤ 32768 := by decide

theorem exists_distanceRow : ∀ d < 30, ∃ r ∈ distanceRows, r.symbol = d := by decide

/-- Settles O6: the rows tile the lengths 3 to 258, and a length's row is the row of its symbol. -/
theorem lengthSymbolCodesItsLength : Obligations.LengthSymbolCodesItsLength := by
  refine ⟨fun len hge hle => ?_, rfl⟩
  obtain ⟨r, hr, hf, hl⟩ := exists_row_of_tiles lengthRows_tiles hge (Nat.lt_succ_of_le hle)
  have hsym : lenSym len = (r.symbol, r.extra, len - r.first) := by
    rw [lenSym, rowOfValue_of_tiles lengthRows_tiles hr hf hl]
  obtain ⟨hlo, hhi, hrow, hextra⟩ := lengthRows_row r hr
  simp only [hsym, lenExtra, lenBase, hrow, true_and]
  omega

theorem distSym_of_row {r : CodeRow} {dist : Nat} (hr : r ∈ distanceRows) (hf : r.first ≤ dist) (hl : dist ≤ r.last) :
    distSym dist = (r.symbol, r.extra, dist - r.first) := by
  rw [distSym, rowOfValue_of_tiles distanceRows_tiles hr hf hl]

/-- Settles O7: the rows tile the window, and the extra bits of a row count its distances. -/
theorem distanceSymbolCodesItsDistance : Obligations.DistanceSymbolCodesItsDistance := by
  refine ⟨fun dist hge hle => ?_, fun d v hd hv => ?_⟩
  · obtain ⟨r, hr, hf, hl⟩ := exists_row_of_tiles distanceRows_tiles hge (Nat.lt_succ_of_le hle)
    obtain ⟨hsym, hrow, hextra, -, -⟩ := distanceRows_row r hr
    simp only [distSym_of_row hr hf hl, distExtra, distBase, hrow, true_and]
    omega
  · obtain ⟨r, hr, rfl⟩ := exists_distanceRow d (Nat.lt_succ_of_le hd)
    obtain ⟨-, hrow, hextra, hge, hle⟩ := distanceRows_row r hr
    simp only [distExtra, distBase, hrow] at hv ⊢
    rw [distSym_of_row hr (by omega) (by omega), Nat.add_sub_cancel_left]
    exact ⟨by omega, by omega, rfl⟩

/-! ### Codes that end the command with an error -/

/-- Taking an error sets the flags of a failure and keeps what is the host's. -/
theorem takeError_failed (b : Bool) (e : ErrKind) (s : State) :
    Failed e (takeError b e s) ∧ HostKept s (takeError b e s) := by
  refine ⟨⟨rfl, rfl, State.status_takeError b e s, rfl, rfl⟩, ?_⟩
  simp [HostKept]

theorem settle_error_failed (e : ErrKind) (s : State) :
    ∃ t, settle s (.error e) = .next t ∧ Failed e t ∧ HostKept s t :=
  ⟨_, rfl, takeError_failed false e s⟩

/-- A code of a distance symbol is run by that symbol. -/
theorem exec_distanceSymbol {i : Instr} {d : Nat} (h : distanceSymbol i = some d) (s : State) :
    exec i s = atDistance s fun len => distanceCode len d s := by
  cases i with
  | dist0To15 | dist16To23 | dist24To27 | dist28To29 => cases h; rfl
  | _ => cases h

/-- Bits that can be read can be read in two pieces: the first `m` skipped, then the field of the next `n`. -/
theorem skipBits_readBits {m n : Nat} {s : State} (h : s.canRead (m + n) = true) :
    skipBits m s = .ok { s with rpos := s.rpos + m } ∧
      readBits n { s with rpos := s.rpos + m } =
        .ok (s.field (s.rpos + m) n, { s with rpos := s.rpos + m + n }) := by
  have hm : s.canRead m = true := by simp only [State.canRead, decide_eq_true_eq] at h ⊢; omega
  have hn : State.canRead { s with rpos := s.rpos + m } n = true := by
    simp only [State.canRead, decide_eq_true_eq] at h ⊢
    omega
  have hfield : State.field { s with rpos := s.rpos + m } (s.rpos + m) n = s.field (s.rpos + m) n := by
    apply State.field_congr <;> rfl
  exact ⟨if_pos hm, (if_pos hn).trans (by rw [hfield])⟩

/-- A distance beyond the output is found before any byte is copied. -/
theorem distanceCode_beyond_output {len d : Nat} {s : State} (hr : s.canRead (5 + distExtra d) = true)
    (hfar : s.outPos < distBase d + s.field (s.rpos + 5) (distExtra d)) :
    distanceCode len d s = .error .malformedStream := by
  obtain ⟨hskip, hread⟩ := skipBits_readBits hr
  simp [distanceCode, hskip, hread, bind, Except.bind, copyBack, hfar]

/-- Settles O32: each of the three rules raises the error, and taking it sets the flags and keeps what is the host's. -/
theorem malformedCodesEndTheCommand : Obligations.MalformedCodesEndTheCommand := by
  refine fun s c => ⟨fun hp => ?_, fun len hlen => ⟨?_, fun i d hd hr hfar => ?_⟩⟩
  · have hexec : exec (.litlenInvalid c) s = settle s (.error .malformedStream) := by
      rw [exec, execLitlenInvalid, hp, atPlace_true]
    rw [hexec]
    exact settle_error_failed _ s
  · have hexec : exec (.distInvalid c) s = settle s (.error .malformedStream) := atDistance_some s _ len hlen
    rw [hexec]
    exact settle_error_failed _ s
  · rw [exec_distanceSymbol hd, atDistance_some s _ len hlen, distanceCode_beyond_output hr hfar]
    exact settle_error_failed _ s

end Sys2Proof.Machine

namespace Sys2Proof

/-! ### The bits of a field by their index -/

/-- Bit `k` of a field is its `k`-th bit in the stream. -/
theorem lsbBits_eq_map (n v : Nat) : lsbBits n v = (List.range n).map v.testBit := by
  induction n generalizing v with
  | zero => rfl
  | succ n ih => simp [lsbBits, ih, List.range_succ_eq_map, Function.comp_def, Nat.testBit_succ]

theorem lsbBits_succ_last (n v : Nat) : lsbBits (n + 1) v = lsbBits n v ++ [v.testBit n] := by
  simp [lsbBits_eq_map, List.range_succ]

theorem lsbBits_congr {n v w : Nat} (h : ∀ k, k < n → v.testBit k = w.testBit k) : lsbBits n v = lsbBits n w := by
  rw [lsbBits_eq_map, lsbBits_eq_map]
  exact List.map_congr_left fun k hk => h k (List.mem_range.mp hk)

/-- A wider field of the same value has zeros after its bits. -/
theorem lsbBits_pad {m v : Nat} (h : v < 2 ^ m) (k : Nat) :
    lsbBits (m + k) v = lsbBits m v ++ List.replicate k false := by
  induction k with
  | zero => simp
  | succ k ih =>
    have hbit : v.testBit (m + k) = false :=
      Nat.testBit_lt_two_pow (Nat.lt_of_lt_of_le h (Nat.pow_le_pow_right (by decide) (Nat.le_add_right m k)))
    rw [← Nat.add_assoc, lsbBits_succ_last, ih, hbit, List.replicate_succ', List.append_assoc]

end Sys2Proof

namespace Sys2Proof.Machine

open Sys2Proof.Ref

/-! ### The reader's bits by their index (40_bit_io.md R115, R116) -/

theorem State.streamBit_eq (s : State) (q : Nat) :
    s.streamBit q = (decide (q < 8 * s.rlen) && (s.inByte (s.rbase + q / 8)).getLsbD (q % 8)) := by
  unfold State.streamBit
  split
  · next h => simp [h]
  · next h => simp [h]

theorem State.field_succ (s : State) (q n : Nat) : s.field q (n + 1) = Nat.bit (s.streamBit q) (s.field (q + 1) n) := by
  rw [Nat.bit_val, State.field, Nat.add_comm]

theorem State.field_testBit (s : State) {q n k : Nat} (h : k < n) : (s.field q n).testBit k = s.streamBit (q + k) := by
  induction n generalizing q k with
  | zero => cases h
  | succ n ih =>
    rw [State.field_succ]
    cases k with
    | zero => exact Nat.testBit_bit_zero _ _
    | succ k => rw [Nat.testBit_bit_succ, ih (Nat.lt_of_succ_lt_succ h), Nat.add_assoc, Nat.add_comm 1 k]

/-- The field at a place of the stream is what the bits there read as. -/
theorem State.takeLsb_streamBits (s : State) (q n : Nat) (rest : List Bool) :
    takeLsb n (s.streamBits q n ++ rest) = some (s.field q n, rest) := by
  induction n generalizing q with
  | zero => rfl
  | succ n ih => simp [State.streamBits, takeLsb, ih, State.field]

theorem State.field_of_streamBits {s : State} {q n v : Nat} (h : s.streamBits q n = lsbBits n v) :
    s.field q n = v % 2 ^ n := by
  have hs := s.takeLsb_streamBits q n []
  rw [h, takeLsb_lsbBits, Option.some.injEq, Prod.mk.injEq] at hs
  exact hs.1.symm

theorem State.canRead_iff (s : State) (n : Nat) : s.canRead n = true ↔ s.rpos + n ≤ 8 * s.rlen + 7 :=
  decide_eq_true_iff

theorem State.canRead_eq_false_iff (s : State) (n : Nat) : s.canRead n = false ↔ 8 * s.rlen + 7 < s.rpos + n := by
  rw [← Bool.not_eq_true, State.canRead_iff, Nat.not_le]

/-- Settles O43: the value read is the field at the reader, whose bits are the stream's. -/
theorem readBitsReturnsTheStream : Obligations.ReadBitsReturnsTheStream := by
  intro s n
  refine ⟨fun h => ⟨s.field s.rpos n, ?_, s.field_lt s.rpos n, fun k hk => ?_⟩, fun h => ?_⟩
  · exact (readBits_ok_iff n s _).mpr ⟨(s.canRead_iff n).mpr h, rfl⟩
  · rw [State.field_testBit s hk, State.streamBit_eq]
  · exact (readBits_error_iff n s _).mpr ⟨(s.canRead_eq_false_iff n).mpr h, rfl⟩

/-! ### What the writer has written (40_bit_io.md R109 to R114) -/

theorem bytesFrom_succ_last (view : Nat → Byte) (a n : Nat) :
    bytesFrom view a (n + 1) = bytesFrom view a n ++ [view (a + n)] := by
  induction n generalizing a with
  | zero => rfl
  | succ n ih => rw [bytesFrom, ih, Nat.add_assoc, Nat.add_comm 1 n]; rfl

/-- The writer after its current byte is complete as `c` and is written. -/
def State.closeByte (c : Byte) (s : State) : State :=
  { s with outBuf := tableWrite s.outBuf (s.wbase + s.wlen) c, wlen := s.wlen + 1, wcur := 0#8, wnb := 0 }

theorem State.closeByte_outByte (c : Byte) (s : State) (a : Nat) :
    (s.closeByte c).outByte a = if a = s.wbase + s.wlen then c else s.outByte a := by
  simp only [State.outByte, State.closeByte, tableRead_tableWrite]
  split <;> rfl

/-- What is written when the current byte closes: the bytes before it, and all eight of its bits. -/
theorem State.closeByte_writtenBits (c : Byte) (s : State) :
    writtenBits (s.closeByte c) =
      (bytesFrom s.outByte s.wbase s.wlen).flatMap (fun b => lsbBits 8 b.toNat) ++ lsbBits 8 c.toNat := by
  have hold : bytesFrom (s.closeByte c).outByte s.wbase s.wlen = bytesFrom s.outByte s.wbase s.wlen :=
    bytesFrom_congr fun k hk => by rw [State.closeByte_outByte, if_neg (by omega)]
  have hnew : (s.closeByte c).outByte (s.wbase + s.wlen) = c := by rw [State.closeByte_outByte, if_pos rfl]
  have hbytes : writtenBits (s.closeByte c) =
      (bytesFrom (s.closeByte c).outByte s.wbase (s.wlen + 1)).flatMap (fun b => lsbBits 8 b.toNat) :=
    List.append_nil _
  rw [hbytes, bytesFrom_succ_last, hold, hnew, List.flatMap_append, List.flatMap_singleton]

theorem writeBit_keep (b : Bool) {s : State} (h : s.wnb + 1 ≠ 8) :
    writeBit b s = .ok { s with wcur := s.withBit b, wnb := s.wnb + 1 } := by
  rw [writeBit_eq, if_neg h]

theorem writeBit_close (b : Bool) {s : State} (h : s.wnb + 1 = 8) (hf : s.cfg.fits (s.wbase + s.wlen) = true) :
    writeBit b s = .ok (s.closeByte (s.withBit b)) := by
  rw [writeBit_eq, if_pos h, emitByte_eq, if_pos hf]
  rfl

theorem alignWriter_boundary {s : State} (h : s.wnb = 0) : alignWriter s = .ok s := by
  rw [alignWriter_eq, if_neg (by omega)]

theorem alignWriter_close {s : State} (h : 0 < s.wnb) (hf : s.cfg.fits (s.wbase + s.wlen) = true) :
    alignWriter s = .ok (s.closeByte s.wcur) := by
  rw [alignWriter_eq, if_pos h, emitByte_eq, if_pos hf]
  rfl

/-- The current byte with one bit more: its bits, and then that bit. -/
theorem State.withBit_bits {s : State} (b : Bool) (h : s.WriterOk) :
    lsbBits (s.wnb + 1) (s.withBit b).toNat = lsbBits s.wnb s.wcur.toNat ++ [b] := by
  obtain ⟨hn, hc⟩ := h
  have hlow (k : Nat) (hk : k < s.wnb) : (s.withBit b).toNat.testBit k = s.wcur.toNat.testBit k := by
    simp only [BitVec.testBit_toNat, State.withBit, BitVec.getLsbD_or, BitVec.getLsbD_shiftLeft]
    simp [hk]
  have htop : (s.withBit b).toNat.testBit s.wnb = b := by
    have hz : s.wcur.getLsbD s.wnb = false := Nat.testBit_lt_two_pow hc
    simp only [BitVec.testBit_toNat, State.withBit, BitVec.getLsbD_or, BitVec.getLsbD_shiftLeft, hz]
    simp [hn]
  rw [lsbBits_succ_last, lsbBits_congr hlow, htop]

/-- The writer went from `s` to `t` by appending `bits`: its invariants hold, and no other state and no byte outside the
bytes it completed has changed. -/
structure Appends (s : State) (bits : List Bool) (t : State) : Prop where
  frame : t = { s with wlen := t.wlen, wcur := t.wcur, wnb := t.wnb, outBuf := t.outBuf }
  writer : t.WriterOk
  written : writtenBits t = writtenBits s ++ bits
  count : 8 * t.wlen + t.wnb = 8 * s.wlen + s.wnb + bits.length
  others : ∀ a, a < s.wbase + s.wlen ∨ s.wbase + t.wlen ≤ a → t.outByte a = s.outByte a

theorem Appends.refl {s : State} (h : s.WriterOk) : Appends s [] s := ⟨rfl, h, by simp, rfl, fun _ _ => rfl⟩

theorem Appends.wbase {s t : State} {bits : List Bool} (h : Appends s bits t) : t.wbase = s.wbase := by rw [h.frame]

theorem Appends.cfg {s t : State} {bits : List Bool} (h : Appends s bits t) : t.cfg = s.cfg := by rw [h.frame]

/-- The writer moves on by whole bytes. -/
theorem Appends.wlen_le {s t : State} {bits : List Bool} (h : Appends s bits t) : s.wlen ≤ t.wlen := by
  have := h.count
  have := h.writer.1
  omega

theorem Appends.trans {s t u : State} {xs ys : List Bool} (h : Appends s xs t) (h' : Appends t ys u) :
    Appends s (xs ++ ys) u where
  frame := by rw [h'.frame, h.frame]
  writer := h'.writer
  written := by rw [h'.written, h.written, List.append_assoc]
  count := by rw [h'.count, h.count, List.length_append, Nat.add_assoc]
  others a ha := by
    have hle := h.wlen_le
    have hle' := h'.wlen_le
    rw [h'.others a (by rw [h.wbase]; omega), h.others a (by omega)]

/-- Room for the bytes that more bits complete is room for those that the bits after the first ones do. -/
theorem Appends.room {s t : State} {xs : List Bool} {n : Nat} (h : Appends s xs t)
    (hr : Room s (s.wbase + s.wlen) ((s.wnb + (xs.length + n)) / 8)) :
    Room t (t.wbase + t.wlen) ((t.wnb + n) / 8) := by
  intro k hk
  have hcount := h.count
  have hle := h.wlen_le
  have hfit := hr (t.wlen - s.wlen + k) (by omega)
  rwa [show s.wbase + s.wlen + (t.wlen - s.wlen + k) = s.wbase + t.wlen + k by omega, ← h.wbase, ← h.cfg] at hfit

/-- Closing the current byte appends the bits by which it is longer than before. -/
theorem closeByte_appends {s : State} {c : Byte} {bits : List Bool} (hlen : s.wnb + bits.length = 8)
    (hbits : lsbBits 8 c.toNat = lsbBits s.wnb s.wcur.toNat ++ bits) : Appends s bits (s.closeByte c) where
  frame := rfl
  writer := writerOk_empty rfl rfl
  written := by rw [State.closeByte_writtenBits, hbits, ← List.append_assoc]; rfl
  count := by
    show 8 * (s.wlen + 1) + 0 = _
    omega
  others a ha := by
    have hne : a ≠ s.wbase + s.wlen := by
      rcases ha with ha | ha
      · omega
      · exact Nat.ne_of_gt ha
    rw [State.closeByte_outByte, if_neg hne]

theorem writeBit_appends (b : Bool) {s : State} (hw : s.WriterOk)
    (hr : Room s (s.wbase + s.wlen) ((s.wnb + 1) / 8)) : ∃ t, writeBit b s = .ok t ∧ Appends s [b] t := by
  have hbits := s.withBit_bits b hw
  obtain ⟨hn, hc⟩ := hw
  by_cases h8 : s.wnb + 1 = 8
  · have hf : s.cfg.fits (s.wbase + s.wlen) = true := hr 0 (by omega)
    rw [h8] at hbits
    exact ⟨_, writeBit_close b h8 hf, closeByte_appends h8 hbits⟩
  · refine ⟨_, writeBit_keep b h8, rfl, ⟨?_, writerBit_lt b hc⟩, ?_, rfl, fun _ _ => rfl⟩
    · show s.wnb + 1 < 8
      omega
    · simp only [writtenBits, hbits, List.append_assoc]
      rfl

theorem writeList_cons (b : Bool) (rest : List Bool) (s : State) :
    writeList (b :: rest) s = writeBit b s >>= writeList rest := by
  rw [writeList]
  cases writeBit b s <;> rfl

theorem writeList_appends (bits : List Bool) {s : State} (hw : s.WriterOk)
    (hr : Room s (s.wbase + s.wlen) ((s.wnb + bits.length) / 8)) :
    ∃ t, writeList bits s = .ok t ∧ Appends s bits t := by
  induction bits generalizing s with
  | nil => exact ⟨s, rfl, .refl hw⟩
  | cons b rest ih =>
    rw [List.length_cons, Nat.add_comm rest.length] at hr
    obtain ⟨t, ht, hb⟩ := writeBit_appends b hw fun k hk => hr k (by omega)
    obtain ⟨u, hu, hrest⟩ := ih hb.writer (hb.room hr)
    exact ⟨u, by rw [writeList_cons, ht]; exact hu, hb.trans hrest⟩

/-- `write_bits` writes the bits of a field. -/
theorem writeBits_eq_writeList (v n : Nat) (s : State) : writeBits v n s = writeList (lsbBits n v) s := by
  induction n generalizing v s with
  | zero => rfl
  | succ n ih =>
    rw [writeBits_succ_bind, lsbBits, writeList_cons]
    exact congrArg _ (funext (ih (v / 2)))

/-- Settles O41: `write_bits` writes the bits of a field one by one, and each is appended. -/
theorem writeBitsAppendsTheBits : Obligations.WriteBitsAppendsTheBits := by
  intro s v n hw hr
  rw [← lsbBits_length n v] at hr
  obtain ⟨t, ht, ha⟩ := writeList_appends (lsbBits n v) hw hr
  exact ⟨t, (writeBits_eq_writeList v n s).trans ht, ha.writer, ha.written, ha.others, ha.frame⟩

/-- The flush completes the current byte with zero bits. -/
theorem alignWriter_appends {s : State} (hw : s.WriterOk) (h : 0 < s.wnb)
    (hf : s.cfg.fits (s.wbase + s.wlen) = true) :
    alignWriter s = .ok (s.closeByte s.wcur) ∧
      Appends s (List.replicate (8 - s.wnb) false) (s.closeByte s.wcur) := by
  obtain ⟨hn, hc⟩ := hw
  have hpad := lsbBits_pad hc (8 - s.wnb)
  rw [Nat.add_sub_cancel' hn.le] at hpad
  exact ⟨alignWriter_close h hf, closeByte_appends (by rw [List.length_replicate]; omega) hpad⟩

/-- Between bytes the writer's current byte is zero. -/
theorem State.WriterOk.wcur_eq_zero {s : State} (h : s.WriterOk) (h0 : s.wnb = 0) : s.wcur = 0#8 := by
  have hc := h.2
  rw [h0] at hc
  exact BitVec.eq_of_toNat_eq (Nat.lt_one_iff.mp hc)

/-- Settles O42: at a boundary the flush does nothing, and elsewhere it closes the current byte. -/
theorem flushPadsWithZeros : Obligations.FlushPadsWithZeros := by
  intro s hw hf
  by_cases h0 : s.wnb = 0
  · have hcur := hw.wcur_eq_zero h0
    refine ⟨s, alignWriter_boundary h0, h0, hcur, fun _ => by rw [← hcur], ?_⟩
    simp [h0]
  · have hpos := Nat.pos_of_ne_zero h0
    obtain ⟨ht, ha⟩ := alignWriter_appends hw hpos (hf hpos)
    refine ⟨_, ht, rfl, rfl, fun h => absurd h h0, ?_⟩
    rw [ha.written, Nat.mod_eq_of_lt (by omega)]

/-! ### Bits that run out (40_bit_io.md R115) -/

section Truncated

variable {s : State}

theorem bind_error {α β ε : Type} {x : Except ε α} {e : ε} {f : α → Except ε β} (h : x = .error e) :
    (x >>= f) = .error e := by
  rw [h]
  rfl

/-- A rule that skips bits fails as malformed when they run out, and when the rest of it does after them. -/
theorem skipBits_bind_malformed {α : Type} {n : Nat} {f : State → Except ErrKind α}
    (h : f { s with rpos := s.rpos + n } = .error .malformedStream) :
    (skipBits n s >>= f) = .error .malformedStream := by
  cases hr : s.canRead n with
  | false => rw [(skipBits_error_iff n s _).mpr ⟨hr, rfl⟩]; rfl
  | true => rw [(skipBits_ok_iff n s _).mpr ⟨hr, rfl⟩]; exact h

/-- A rule that reads a field fails as malformed when its bits run out, and when the rest of it does after them. -/
theorem readBits_bind_malformed {α : Type} {n : Nat} {f : Nat × State → Except ErrKind α}
    (h : s.canRead n = true → f (s.field s.rpos n, { s with rpos := s.rpos + n }) = .error .malformedStream) :
    (readBits n s >>= f) = .error .malformedStream := by
  cases hr : s.canRead n with
  | false => rw [(readBits_error_iff n s _).mpr ⟨hr, rfl⟩]; rfl
  | true => rw [(readBits_ok_iff n s _).mpr ⟨hr, rfl⟩]; exact h hr

/-- Bits that run out after a skip: the read there fails. -/
theorem canRead_after_skip {m n : Nat} (h : s.canRead (m + n) = false) :
    State.canRead { s with rpos := s.rpos + m } n = false := by
  rw [State.canRead_eq_false_iff] at h ⊢
  show 8 * s.rlen + 7 < s.rpos + m + n
  omega

/-- A rule that skips a code and reads its extra bits, of which not all are there. -/
theorem skipBits_readBits_malformed {α : Type} {m n : Nat} {f : Nat × State → Except ErrKind α}
    (h : s.canRead (m + n) = false) : (skipBits m s >>= fun t => readBits n t >>= f) = .error .malformedStream :=
  skipBits_bind_malformed <| readBits_bind_malformed fun hr => by
    rw [canRead_after_skip h] at hr
    cases hr

theorem lengthCode_truncated {width symbol : Nat} (h : s.canRead (width + lenExtra symbol) = false) :
    lengthCode width symbol s = .error .malformedStream :=
  skipBits_readBits_malformed h

theorem distanceCode_truncated {len d : Nat} (h : s.canRead (5 + distExtra d) = false) :
    distanceCode len d s = .error .malformedStream :=
  skipBits_readBits_malformed h

/-- The raw bytes fail at the first one that runs out, the bytes before it having room. -/
theorem copyRaw_truncated {n k : Nat} (hk : k < n) (h : 8 * s.rlen + 7 < s.rpos + 8 * (k + 1))
    (hroom : Room s s.outPos k) : copyRaw n s = .error .malformedStream := by
  induction k generalizing n s with
  | zero =>
    obtain ⟨n, rfl⟩ := Nat.exists_eq_add_of_lt hk
    rw [Nat.zero_add, copyRaw_succ]
    refine readBits_bind_malformed fun hr => ?_
    rw [State.canRead_iff] at hr
    omega
  | succ k ih =>
    obtain ⟨n, rfl⟩ := Nat.exists_eq_add_of_lt hk
    rw [copyRaw_succ]
    refine readBits_bind_malformed fun _ => ?_
    have hfit : s.cfg.fits s.outPos = true := hroom 0 (Nat.succ_pos k)
    rw [outAppend_eq, if_pos hfit]
    refine ih (by omega) ?_ fun j hj => ?_
    · show 8 * s.rlen + 7 < s.rpos + 8 + 8 * (k + 1)
      omega
    · show s.cfg.fits (s.outPos + 1 + j) = true
      rw [Nat.add_assoc, Nat.add_comm 1 j]
      exact hroom (j + 1) (by omega)

theorem blockHeader_bind {α : Type} (final : Bool) (s : State) (f : State → Except ErrKind α) :
    (blockHeader final s >>= f) = skipBits 3 s >>= fun t => f { t with bfinal := final } := by
  rw [blockHeader]
  cases skipBits 3 s <;> rfl

/-- A stored block fails as malformed when LEN or NLEN runs out, and at the first raw byte that does, the bytes before
it having room. -/
theorem storedBlock_truncated {final : Bool}
    (h : 8 * s.rlen + 7 < rawStart s 0 ∨
      ∃ k < storedLen s, 8 * s.rlen + 7 < rawStart s (k + 1) ∧ Room s s.outPos k) :
    (blockHeader final s >>= storedBody) = .error .malformedStream := by
  rw [blockHeader_bind]
  refine skipBits_bind_malformed <| readBits_bind_malformed fun _ => readBits_bind_malformed fun hr => ?_
  have hend : storedStart s + 16 + 16 ≤ 8 * s.rlen + 7 := (State.canRead_iff _ _).mp hr
  rcases h with hlen | ⟨k, hk, hraw, hroom⟩
  · rw [rawStart] at hlen
    omega
  · rw [rawStart] at hraw
    dsimp only
    split
    · rfl
    · refine bind_error (copyRaw_truncated (k := k) (Nat.lt_of_lt_of_eq hk ?_) ?_ hroom)
      · exact State.field_congr rfl rfl rfl rfl _ _
      · show 8 * s.rlen + 7 < storedStart s + 16 + 16 + 8 * (k + 1)
        omega

end Truncated

/-! ### The code at the reader -/

/-- What the decoder fetches stands at the reader, within the tolerance. -/
theorem fetch_some {s : State} {sp : Space} {i : Instr} (h : s.fetch sp = some i) :
    i.space = sp ∧ s.canRead (encode i).length = true ∧ s.streamBits s.rpos (encode i).length = encode i := by
  obtain ⟨⟨i, rest⟩, hdec, rfl⟩ := Option.map_eq_some_iff.mp h
  dsimp only
  obtain ⟨_, hc, hwindow⟩ := decode_some_iff.mp hdec
  obtain ⟨hspace, -, rfl⟩ := hc.encodes
  have hlen := congrArg List.length hwindow
  rw [State.window, State.streamBits_length, List.length_append] at hlen
  have hpos := (Laws.EncodingWidth.of_any i).1
  refine ⟨hspace, (s.canRead_iff _).mpr (by omega), ?_⟩
  rw [State.window, hlen, State.streamBits_append] at hwindow
  exact (List.append_inj hwindow (by simp)).1

theorem encode_length_block {i : Instr} (h : i.space = .block) : (encode i).length = 3 := by
  cases i with
  | blockStored | blockFixed | blockDynamicUnsupported | blockReserved => rfl
  | _ => cases h

theorem encode_length_dist {i : Instr} (h : i.space = .dist) : (encode i).length = 5 := by
  cases i with
  | dist0To15 | dist16To23 | dist24To27 | dist28To29 | distInvalid => exact msbBits_length 5 _
  | _ => cases h

/-- A gzip header is its magic and seven bytes more. -/
theorem encode_gzip {i : Instr} (h : i.space = .gzip) :
    (encode i).length = 80 ∧ ∃ rest, encode i = lsbBits 24 0x088B1F ++ rest := by
  cases i with
  | gzipMember flg mtime xfl os =>
    exact ⟨by simp [encode], _, by rw [encode, List.append_assoc, List.append_assoc, List.append_assoc]⟩
  | _ => cases h

/-- A gzip header that is fetched has the magic at the reader (44_gzip_framer.md R210). -/
theorem fetch_gzip_magic {s : State} {i : Instr} (h : s.fetch .gzip = some i) : s.field s.rpos 24 = 0x088B1F := by
  obtain ⟨hspace, -, hbits⟩ := fetch_some h
  obtain ⟨hlen, rest, hmagic⟩ := encode_gzip hspace
  rw [hlen, hmagic, State.streamBits_append s s.rpos 24 56] at hbits
  exact State.field_of_streamBits (List.append_inj hbits (by simp)).1

theorem State.busy_of_fetchSpace {s : State} {sp : Space} (h : s.fetchSpace = some sp) : s.busy = true := by
  cases hc : s.cmdState with
  | idle => simp [State.fetchSpace, hc] at h
  | busy op => exact State.busy_busy s op hc

/-- Where the decoder fetches no code, the step is the error. -/
theorem step_fetch_none {s : State} {sp : Space} (hs : s.script = []) (hsp : s.fetchSpace = some sp)
    (h : s.fetch sp = none) : step s = .next (takeError false .malformedStream s) := by
  rw [step_quiet s hs, if_pos (State.busy_of_fetchSpace hsp), engineStep_stream s sp hsp, stepStream_none sp s h]

/-- A code of a length symbol is run by that symbol, in as many bits as the code has. -/
theorem exec_lengthSymbol {i : Instr} {symbol : Nat} (h : lengthSymbol i = some symbol) (s : State) :
    exec i s = atPlace s.atLitlen s (lengthCode (encode i).length symbol s) := by
  cases i with
  | len257 | len258To259 | len260To263 | len264To271 | len272To279 | len280To283 | len284To285 =>
    cases h
    rw [encode, msbBits_length]
    rfl
  | _ => cases h

theorem exec_blockStored {s : State} (h : s.atBlock = true) (final : Bool) :
    exec (.blockStored final) s = settle s (blockHeader final s >>= storedBody) := by
  rw [exec, execBlockStored, h, atPlace_true]

/-- Settles O10: what is fetched stands whole within the tolerance, and a rule whose operands do not fails where they
run out. -/
theorem truncatedCodeIsMalformed : Obligations.TruncatedCodeIsMalformed := by
  refine ⟨fun s sp hs hsp hcut => ?_, fun s i => ⟨fun symbol hsym hp hr => ?_, fun d len hd hlen hr => ?_, ?_⟩⟩
  · have hnone : s.fetch sp = none := by
      refine Option.eq_none_iff_forall_ne_some.mpr fun i hi => ?_
      obtain ⟨hspace, hread, hbits⟩ := fetch_some hi
      rcases hcut with ⟨rfl, h⟩ | ⟨rfl, h⟩ | ⟨rfl, h⟩ | ⟨rfl, h | h⟩
      · rw [encode_length_block hspace, h] at hread
        cases hread
      · rw [encode_length_dist hspace, h] at hread
        cases hread
      · exact h i hspace hread hbits
      · rw [(encode_gzip hspace).1, h] at hread
        cases hread
      · exact h (fetch_gzip_magic hi)
    obtain ⟨hfailed, hkept⟩ := takeError_failed false .malformedStream s
    refine ⟨_, step_fetch_none hs hsp hnone, hfailed, hkept, fun hc => ?_⟩
    rw [takeError_running_crcResult, hc]
    rfl
  · rw [exec_lengthSymbol hsym, hp, atPlace_true, lengthCode_truncated hr]
    exact settle_error_failed _ s
  · rw [exec_distanceSymbol hd, atDistance_some s _ len hlen, distanceCode_truncated hr]
    exact settle_error_failed _ s
  · rintro final rfl hp
    have hfail (h : 8 * s.rlen + 7 < rawStart s 0 ∨
        ∃ k < storedLen s, 8 * s.rlen + 7 < rawStart s (k + 1) ∧ Room s s.outPos k) :
        ∃ t, exec (.blockStored final) s = .next t ∧ Failed .malformedStream t ∧ HostKept s t := by
      rw [exec_blockStored hp, storedBlock_truncated h]
      exact settle_error_failed _ s
    exact ⟨fun h => hfail (.inl h), fun k hk hraw hroom => hfail (.inr ⟨k, hk, hraw, hroom⟩)⟩

end Sys2Proof.Machine

namespace Sys2Proof.Machine

open Sys2Proof.Ref

/-! ### The hash chains (41_lz77_matcher.md R132, R138, R139) -/

theorem lastWithHash_some {D : Nat → Byte} {n h i p : Nat} (hp : lastWithHash D n h i = some p) :
    p < i ∧ p + 3 ≤ n ∧ hashAt D p = h := by
  induction i with
  | zero => cases hp
  | succ i ih =>
    rw [lastWithHash] at hp
    split at hp
    · next hi =>
      cases hp
      exact ⟨Nat.lt_succ_self _, hi⟩
    · obtain ⟨hlt, hrest⟩ := ih hp
      exact ⟨Nat.lt_succ_of_lt hlt, hrest⟩

/-- No position after the one `lastWithHash` finds has the hash, and none at all where it finds none. -/
theorem hashAt_ne_of_lastWithHash {D : Nat → Byte} {n h i q : Nat} (hq : q < i) (hqn : q + 3 ≤ n)
    (hlast : ∀ p, lastWithHash D n h i = some p → p < q) : hashAt D q ≠ h := by
  induction i with
  | zero => exact absurd hq (Nat.not_lt_zero q)
  | succ i ih =>
    rw [lastWithHash] at hlast
    split at hlast
    · have := hlast i rfl
      omega
    · next hi =>
      rcases Nat.lt_succ_iff_lt_or_eq.mp hq with hqi | rfl
      · exact ih hqi hlast
      · exact fun hhash => hi ⟨hqn, hhash⟩

/-- The insertion of a position makes the chains sound at the next one: it overwrites the link of the position 32768
before it, which leaves the window. -/
theorem insertPos_chainsSound {D : Nat → Byte} {n i : Nat} {m : Matcher} (hm : ChainsSound D n i m) :
    ChainsSound D n (i + 1) (insertPos D n i m) := by
  obtain ⟨hhead, hprev⟩ := hm
  unfold insertPos
  split
  · next hi =>
    refine ⟨fun h => ?_, fun p hp hpn hw => ?_⟩
    · simp only [tableRead_tableWrite, lastWithHash, hi, true_and, hhead, eq_comm (a := h)]
    · simp only [tableRead_tableWrite]
      by_cases hpi : p = i
      · subst hpi
        rw [if_pos rfl, hhead]
      · rw [if_neg (by omega)]
        exact hprev p (by omega) hpn (by omega)
  · next hi =>
    refine ⟨fun h => ?_, fun p hp hpn hw => hprev p (by omega) hpn (by omega)⟩
    rw [hhead, lastWithHash, if_neg fun hc => hi hc.1]

theorem insertRange_chainsSound {D : Nat → Byte} {n i k : Nat} {m : Matcher} (hm : ChainsSound D n i m) :
    ChainsSound D n (i + k) (insertRange D n i k m) := by
  induction k generalizing i m with
  | zero => exact hm
  | succ k ih =>
    rw [show i + (k + 1) = i + 1 + k by omega]
    exact ih (insertPos_chainsSound hm)

/-- At command start nothing is inserted, whatever `prev` holds. -/
theorem chainsSound_restart (D : Nat → Byte) (n : Nat) (m : Matcher) : ChainsSound D n 0 m.restart :=
  ⟨fun _ => rfl, fun p hp => absurd hp (Nat.not_lt_zero p)⟩

/-- A matcher step inserts every position it passes. -/
theorem lz77Step_chainsSound {D : Nat → Byte} {n : Nat} {m : Matcher} (hm : ChainsSound D n m.pos m) :
    ChainsSound D n (lz77Step D n m).pos (lz77Step D n m) := by
  rw [lz77Step_eq]
  split
  · exact insertRange_chainsSound hm
  · exact insertPos_chainsSound hm

/-- Settles O44: each insertion keeps the chains sound, and a step inserts the positions it passes. -/
theorem matcherKeepsItsChainsSound : Obligations.MatcherKeepsItsChainsSound := by
  intro D n m
  refine ⟨chainsSound_restart D n m, fun hlt hm => ?_⟩
  obtain ⟨hpos, hle, -⟩ := lz77Step_advances D n m hlt
  exact ⟨lz77Step_chainsSound hm, hpos, hle⟩

/-! ### The chain walk as the hash-free search (41_lz77_matcher.md R133, R140) -/

/-- The better of the best match so far and a match of length `len` at distance `dist`: only a longer one replaces it. -/
def better (best : Nat × Nat) (len dist : Nat) : Nat × Nat := if best.1 < len then (len, dist) else best

theorem better_of_lt {best : Nat × Nat} {len : Nat} (h : best.1 < len) (dist : Nat) :
    better best len dist = (len, dist) := if_pos h

theorem better_of_le {best : Nat × Nat} {len : Nat} (h : len ≤ best.1) (dist : Nat) : better best len dist = best :=
  if_neg (Nat.not_lt.mpr h)

theorem better_length (best : Nat × Nat) (len dist : Nat) : (better best len dist).1 = max best.1 len := by
  unfold better
  split
  · exact (max_eq_right (by omega)).symm
  · exact (max_eq_left (by omega)).symm

theorem scanBack_succ (D : Nat → Byte) (i limit k : Nat) :
    scanBack D i limit (k + 1) = better (scanBack D i limit k) (matchLen D (i - (k + 1)) i limit) (k + 1) := rfl

/-- Two searches agree as far as the matcher can tell: on the match, or that there is none of length 3. -/
def SameMatch (found best : Nat × Nat) : Prop := found = best ∨ found.1 < 3 ∧ best.1 < 3

theorem SameMatch.eq {found best : Nat × Nat} (h : SameMatch found best) (hlong : 3 ≤ best.1) : found = best :=
  h.resolve_right fun hshort => by omega

theorem SameMatch.lt_three {found best : Nat × Nat} (h : SameMatch found best) (hshort : best.1 < 3) :
    found.1 < 3 := by
  rcases h with rfl | ⟨hfound, -⟩
  · exact hshort
  · exact hfound

/-- Searches that agree still agree after one more candidate in both. -/
theorem SameMatch.candidate {found best : Nat × Nat} (h : SameMatch found best) (len dist : Nat) :
    SameMatch (better found len dist) (better best len dist) := by
  rcases h with rfl | ⟨hfound, hbest⟩
  · exact .inl rfl
  · by_cases hlen : 3 ≤ len
    · exact .inl (by rw [better_of_lt (by omega), better_of_lt (by omega)])
    · exact .inr (by rw [better_length, better_length]; omega)

/-- A candidate with fewer than three equal bytes makes no difference to the matcher. -/
theorem SameMatch.skip {found best : Nat × Nat} (h : SameMatch found best) {len : Nat} (hlen : len < 3) (dist : Nat) :
    SameMatch found (better best len dist) := by
  by_cases hbest : 3 ≤ best.1
  · rwa [better_of_le (by omega)]
  · have hfound := h.lt_three (by omega)
    exact .inr ⟨hfound, by rw [better_length]; omega⟩

/-- Distances whose candidates have fewer than three equal bytes make no difference to the matcher. -/
theorem SameMatch.scanBack_skip {D : Nat → Byte} {i limit j k : Nat} {found : Nat × Nat}
    (h : SameMatch found (scanBack D i limit j)) (hjk : j ≤ k)
    (hshort : ∀ d, j < d → d ≤ k → matchLen D (i - d) i limit < 3) : SameMatch found (scanBack D i limit k) := by
  induction k, hjk using Nat.le_induction with
  | base => exact h
  | succ k hjk ih =>
    rw [scanBack_succ]
    exact (ih fun d hd hdk => hshort d hd (by omega)).skip (hshort (k + 1) (by omega) (Nat.le_refl _)) _

/-- A search that has reached the cap is over. -/
theorem scanBack_full {D : Nat → Byte} {i limit j k : Nat} (hfull : limit ≤ (scanBack D i limit j).1) (hjk : j ≤ k) :
    scanBack D i limit k = scanBack D i limit j := by
  induction k, hjk using Nat.le_induction with
  | base => rfl
  | succ k hjk ih =>
    have hle := matchLen_le D (i - (k + 1)) i limit
    rw [scanBack_succ, ih, better_of_le (by omega)]

/-- Three equal bytes have equal hashes. -/
theorem hashAt_eq_of_matchLen {D : Nat → Byte} {p i limit : Nat} (h : 3 ≤ matchLen D p i limit) :
    hashAt D p = hashAt D i := by
  obtain ⟨h0, h1, h2⟩ : D p = D i ∧ D (p + 1) = D (i + 1) ∧ D (p + 2) = D (i + 2) := by
    by_contra hne
    have := matchLen_lt_three (limit := limit) hne
    omega
  rw [hashAt, hashAt, h0, h1, h2]

/-- A walk at a candidate within the window takes the better match, and goes on unless that match is new and at the
cap. -/
theorem chainWalk_near (D : Nat → Byte) (links : Table (Option Nat)) {i p : Nat} (limit fuel : Nat) (best : Nat × Nat)
    (hnear : i - p ≤ 32768) :
    chainWalk D links i limit (fuel + 1) (some p) best =
      if best.1 < matchLen D p i limit ∧ matchLen D p i limit = 258 then
        better best (matchLen D p i limit) (i - p)
      else
        chainWalk D links i limit fuel (chainLink links (p % 32768)) (better best (matchLen D p i limit) (i - p)) := by
  rw [chainWalk, if_neg (by omega)]
  by_cases hlong : best.1 < matchLen D p i limit
  · rw [better_of_lt hlong]
    simp only [hlong, if_true, true_and]
  · rw [better_of_le (Nat.not_lt.mp hlong)]
    simp only [hlong, if_false, false_and]

/-- Distances passed over by the chain make no difference to the matcher: their candidates have another hash. -/
theorem SameMatch.skip_unlinked {D : Nat → Byte} {n i limit j k : Nat} {found : Nat × Nat} {cand : Option Nat}
    (h : SameMatch found (scanBack D i limit j)) (hi : i + 3 ≤ n)
    (hc : lastWithHash D n (hashAt D i) (i - j) = cand) (hjk : j ≤ k) (hk : k ≤ i)
    (hbefore : ∀ p, cand = some p → k < i - p) : SameMatch found (scanBack D i limit k) := by
  refine h.scanBack_skip hjk fun d hd hdk => Nat.lt_of_not_le fun hge => ?_
  have hhash : hashAt D (i - d) = hashAt D i := hashAt_eq_of_matchLen hge
  refine hashAt_ne_of_lastWithHash (n := n) (i := i - j) (by omega) (by omega) (fun p hp => ?_) hhash
  have := hbefore p (hc.symm.trans hp)
  omega

/-- The walk from the first candidate at a distance above `j` on, when it agrees with the hash-free search over the
distances up to `j`: it agrees with it over the whole window. -/
theorem chainWalk_sameMatch {D : Nat → Byte} {n i limit : Nat} {m : Matcher} (hm : ChainsSound D n i m) (hi : i + 3 ≤ n)
    (hcap : limit ≤ 258) (fuel j : Nat) (best : Nat × Nat) (hj : j ≤ min i 32768) (hfuel : min i 32768 ≤ j + fuel)
    (hbest : SameMatch best (scanBack D i limit j)) :
    SameMatch (chainWalk D m.prev i limit fuel (lastWithHash D n (hashAt D i) (i - j)) best)
      (scanBack D i limit (min i 32768)) := by
  induction fuel generalizing j best with
  | zero =>
    obtain rfl : j = min i 32768 := by omega
    exact hbest
  | succ fuel ih =>
    generalize hc : lastWithHash D n (hashAt D i) (i - j) = cand
    have hskip {k : Nat} := hbest.skip_unlinked (k := k) hi hc
    cases cand with
    | none => exact hskip hj (by omega) nofun
    | some p =>
      obtain ⟨hp, hpn, hhash⟩ := lastWithHash_some hc
      by_cases hfar : 32768 < i - p
      · rw [chainWalk, if_pos hfar]
        exact hskip hj (by omega) (by rintro _ ⟨⟩; omega)
      · obtain ⟨k, hk⟩ : ∃ k, i - p = k + 1 := ⟨i - p - 1, by omega⟩
        have hstep : SameMatch (better best (matchLen D p i limit) (k + 1)) (scanBack D i limit (k + 1)) := by
          rw [scanBack_succ, show i - (k + 1) = p by omega]
          exact (hskip (by omega) (by omega) (by rintro _ ⟨⟩; omega)).candidate _ _
        rw [chainWalk_near _ _ _ _ _ (by omega), hk]
        split
        · next hlast =>
          rw [better_of_lt hlast.1] at hstep ⊢
          have hfound : _ = scanBack D i limit (k + 1) := hstep.resolve_right (by omega)
          rw [scanBack_full (by rw [← hfound]; omega) (show k + 1 ≤ min i 32768 by omega)]
          exact .inl hfound
        · have hlink : chainLink m.prev (p % 32768) = lastWithHash D n (hashAt D i) (i - (k + 1)) := by
            rw [chainLink, hm.2 p (by omega) hpn (by omega), hhash, show i - (k + 1) = p by omega]
            rfl
          rw [hlink]
          exact ih (k + 1) _ (by omega) (by omega) hstep

theorem longestMatch_sameMatch {D : Nat → Byte} {n i : Nat} {m : Matcher} (hi : i + 3 ≤ n) (hm : ChainsSound D n i m) :
    SameMatch (longestMatch D n i m) (bestMatch D n i) := by
  rw [longestMatch, hm.1]
  exact chainWalk_sameMatch hm hi (by omega) 32768 0 (0, 0) (by omega) (by omega) (.inl rfl)

/-- Settles O45: the walk and the search over all distances agree. -/
theorem chainSearchIsTheHashFreeSearch : Obligations.ChainSearchIsTheHashFreeSearch := by
  intro D n i m hi hm
  have hsame := longestMatch_sameMatch hi hm
  exact ⟨hsame.eq, hsame.lt_three⟩

/-! ### The tokens as the greedy tokens (41_lz77_matcher.md R135, R136) -/

/-- The position and the tokens after a step over sound chains, by the hash-free search. -/
theorem lz77Step_greedy {D : Nat → Byte} {n : Nat} {m : Matcher} (hm : ChainsSound D n m.pos m) :
    if m.pos + 3 ≤ n ∧ 3 ≤ (bestMatch D n m.pos).1 then
      (lz77Step D n m).pos = m.pos + (bestMatch D n m.pos).1 ∧
        (lz77Step D n m).tokens = m.tokens ++ [.copy (bestMatch D n m.pos).1 (bestMatch D n m.pos).2]
    else (lz77Step D n m).pos = m.pos + 1 ∧ (lz77Step D n m).tokens = m.tokens ++ [.literal (D m.pos)] := by
  rw [lz77Step_eq, Matcher.found]
  by_cases hi : m.pos + 3 ≤ n
  · have hsame := longestMatch_sameMatch hi hm
    by_cases hlong : 3 ≤ (bestMatch D n m.pos).1
    · rw [if_pos ⟨hi, hlong⟩, if_pos hi, hsame.eq hlong, if_pos hlong]
      exact ⟨rfl, rfl⟩
    · have hshort := hsame.lt_three (by omega)
      rw [if_neg fun h => hlong h.2, if_pos hi, if_neg (by omega)]
      exact ⟨rfl, rfl⟩
  · rw [if_neg fun h => hi h.1, if_neg hi]
    exact ⟨rfl, rfl⟩

theorem lz77Loop_greedy {D : Nat → Byte} {n : Nat} (fuel : Nat) {m : Matcher} (hm : ChainsSound D n m.pos m) :
    (lz77Loop D n fuel m).tokens = m.tokens ++ greedy D n fuel m.pos := by
  induction fuel generalizing m with
  | zero => exact (List.append_nil _).symm
  | succ fuel ih =>
    rw [lz77Loop, greedy]
    split
    · have hstep := lz77Step_greedy hm
      rw [ih (lz77Step_chainsSound hm)]
      split at hstep
      · next hc => rw [if_pos hc, hstep.1, hstep.2, List.append_assoc, List.singleton_append]
      · next hc => rw [if_neg hc, hstep.1, hstep.2, List.append_assoc, List.singleton_append]
    · exact (List.append_nil _).symm

/-- Settles O46: each step over sound chains makes the greedy token, and the chains are sound at the start. -/
theorem tokensAreTheGreedyTokens : Obligations.TokensAreTheGreedyTokens := by
  intro D n m
  rw [lz77, lz77Loop_greedy n (chainsSound_restart D n m)]
  rfl

/-! ### What the tokens stand for (41_lz77_matcher.md R130) -/

theorem eq_of_lt_matchLen {D : Nat → Byte} {c i limit k : Nat} (h : k < matchLen D c i limit) :
    D (c + k) = D (i + k) := by
  induction limit generalizing c i k with
  | zero => exact absurd h (Nat.not_lt_zero k)
  | succ limit ih =>
    rw [matchLen] at h
    split at h
    · next heq =>
      cases k with
      | zero => exact heq
      | succ k =>
        have := ih (Nat.lt_of_succ_lt_succ h)
        rwa [Nat.add_right_comm, Nat.add_right_comm i] at this
    · exact absurd h (Nat.not_lt_zero k)

/-- A match the search finds is a match at its distance, which is one of those searched. -/
theorem scanBack_match {D : Nat → Byte} {i limit k : Nat} (h : 0 < (scanBack D i limit k).1) :
    1 ≤ (scanBack D i limit k).2 ∧ (scanBack D i limit k).2 ≤ k ∧
      matchLen D (i - (scanBack D i limit k).2) i limit = (scanBack D i limit k).1 := by
  induction k with
  | zero => exact absurd h (Nat.lt_irrefl 0)
  | succ k ih =>
    rw [scanBack_succ] at h ⊢
    by_cases hlong : (scanBack D i limit k).1 < matchLen D (i - (k + 1)) i limit
    · rw [better_of_lt hlong]
      exact ⟨Nat.succ_pos k, Nat.le_refl _, rfl⟩
    · rw [better_of_le (by omega)] at h ⊢
      obtain ⟨hge, hle, hmatch⟩ := ih h
      exact ⟨hge, by omega, hmatch⟩

/-- The best match of a position: within the input and the window, at most 258 long, and a match. -/
theorem bestMatch_match {D : Nat → Byte} {n i : Nat} (h : 3 ≤ (bestMatch D n i).1) :
    (bestMatch D n i).1 ≤ 258 ∧ i + (bestMatch D n i).1 ≤ n ∧ 1 ≤ (bestMatch D n i).2 ∧
      (bestMatch D n i).2 ≤ 32768 ∧ (bestMatch D n i).2 ≤ i ∧
      ∀ k < (bestMatch D n i).1, D (i - (bestMatch D n i).2 + k) = D (i + k) := by
  unfold bestMatch at h ⊢
  obtain ⟨hge, hle, hmatch⟩ := scanBack_match (Nat.lt_of_lt_of_le (by decide) h)
  have hlimit := matchLen_le D (i - (scanBack D i (min 258 (n - i)) (min i 32768)).2) i (min 258 (n - i))
  rw [hmatch] at hlimit
  exact ⟨by omega, by omega, hge, by omega, by omega, fun k hk => eq_of_lt_matchLen (hmatch ▸ hk)⟩

/-- A copy of a match appends the bytes of the input it matches, overlapping or not. -/
theorem copyOnto_match {D : Nat → Byte} {i dist len : Nat} (hge : 1 ≤ dist) (hle : dist ≤ i)
    (h : ∀ k < len, D (i - dist + k) = D (i + k)) : copyOnto dist len (bytesFrom D 0 i) = bytesFrom D 0 (i + len) := by
  induction len generalizing i with
  | zero => rfl
  | succ len ih =>
    have hnext : (bytesFrom D 0 i).getD ((bytesFrom D 0 i).length - dist) 0#8 = D (0 + i) := by
      rw [bytesFrom_length, bytesFrom_getD D 0 i _ _ (by omega), Nat.zero_add, Nat.zero_add]
      exact h 0 (Nat.succ_pos len)
    rw [copyOnto, hnext, ← bytesFrom_succ_last, show i + (len + 1) = i + 1 + len by omega]
    refine ih (by omega) fun k hk => ?_
    rw [show i + 1 - dist + k = i - dist + (k + 1) by omega, show i + 1 + k = i + (k + 1) by omega]
    exact h (k + 1) (Nat.succ_lt_succ hk)

/-- The greedy tokens from a position on complete the bytes before it to the input. -/
theorem greedy_expand {D : Nat → Byte} {n : Nat} (fuel : Nat) {i : Nat} (hi : i ≤ n) (hfuel : n ≤ i + fuel) :
    (greedy D n fuel i).foldl expandToken (bytesFrom D 0 i) = bytesFrom D 0 n := by
  induction fuel generalizing i with
  | zero =>
    obtain rfl : i = n := by omega
    rfl
  | succ fuel ih =>
    rw [greedy]
    split
    · split
      · next hc =>
        obtain ⟨-, hin, hge, -, hle, hmatch⟩ := bestMatch_match hc.2
        rw [List.foldl_cons, expandToken, copyOnto_match hge hle hmatch]
        exact ih hin (by omega)
      · have hbyte : expandToken (bytesFrom D 0 i) (.literal (D i)) = bytesFrom D 0 (i + 1) := by
          rw [bytesFrom_succ_last, Nat.zero_add, expandToken]
        rw [List.foldl_cons, hbyte]
        exact ih (by omega) (by omega)
    · obtain rfl : i = n := by omega
      rfl

theorem greedy_legal (D : Nat → Byte) (n fuel i : Nat) : ∀ t ∈ greedy D n fuel i, t.legal = true := by
  induction fuel generalizing i with
  | zero => exact fun t ht => absurd ht List.not_mem_nil
  | succ fuel ih =>
    rw [greedy]
    split
    · split
      · next hc =>
        obtain ⟨hcap, -, hge, hle, -, -⟩ := bestMatch_match hc.2
        exact List.forall_mem_cons.mpr ⟨by simp [Token.legal, hc.2, hcap, hge, hle], ih _⟩
      · exact List.forall_mem_cons.mpr ⟨rfl, ih _⟩
    · exact fun t ht => absurd ht List.not_mem_nil

/-! ### The cost of the tokens (42_deflate_encoder.md R152) -/

@[simp] theorem symbolBits_length (symbol : Nat) : (symbolBits symbol).length = (fixedCode symbol).2 :=
  msbBits_length _ _

theorem fixedCode_length_literal {symbol : Nat} (h : symbol ≤ 255) :
    (fixedCode symbol).2 = if symbol ≤ 143 then 8 else 9 := by
  rw [fixedCode, if_pos h]
  split <;> rfl

theorem fixedCode_length_length {symbol : Nat} (h : 257 ≤ symbol) :
    (fixedCode symbol).2 = if symbol ≤ 279 then 7 else 8 := by
  rw [fixedCode, if_neg (by omega), if_neg (by omega)]
  split <;> rfl

/-- The cost of a legal token counts the bits it is sent in. -/
theorem tokenCost_eq_bits {t : Token} (h : t.legal = true) : tokenCost t = (tokenBits t).length := by
  cases t with
  | literal b => rw [tokenBits, symbolBits_length, fixedCode_length_literal (by have := b.isLt; omega), tokenCost]
  | copy len dist =>
    obtain ⟨⟨⟨hge, hle⟩, -⟩, -⟩ : ((3 ≤ len ∧ len ≤ 258) ∧ 1 ≤ dist) ∧ dist ≤ 32768 := by simpa [Token.legal] using h
    obtain ⟨hsym, -⟩ := lengthSymbolCodesItsLength.1 len hge hle
    simp only [tokenBits, List.length_append, symbolBits_length, lsbBits_length, msbBits_length,
      fixedCode_length_length hsym, tokenCost]

/-- Settles O47: the greedy tokens are legal and complete the empty output to the input; a legal token costs its bits. -/
theorem tokensExpandToTheInput : Obligations.TokensExpandToTheInput := by
  refine ⟨fun D n m => ?_, fun tokens hlegal => ?_⟩
  · rw [tokensAreTheGreedyTokens D n m]
    exact ⟨greedy_expand n (Nat.zero_le n) (by omega), greedy_legal D n n 0⟩
  · rw [fixedCost, List.map_congr_left fun t ht => tokenCost_eq_bits (hlegal t ht)]

end Sys2Proof.Machine

namespace Sys2Proof

/-! ### Fields in two parts, and codes as fields (30_encoding.md R75, 40_bit_io.md R110) -/

theorem lsbBits_add (m n v : Nat) : lsbBits (m + n) v = lsbBits m v ++ lsbBits n (v / 2 ^ m) := by
  simp [lsbBits_eq_map, List.range_add, Function.comp_def, Nat.testBit_div_two_pow, Nat.add_comm]

/-- A field sends only the low bits of its value. -/
theorem lsbBits_mod (n v : Nat) : lsbBits n (v % 2 ^ n) = lsbBits n v :=
  lsbBits_congr fun k hk => by simp [Nat.testBit_mod_two_pow, hk]

/-- A code is sent as the field of its reversed bits (00_scope.md R16). -/
theorem lsbBits_revBits (n c : Nat) : lsbBits n (Machine.revBits n c) = msbBits n c := by
  induction n with
  | zero => rfl
  | succ n ih =>
    have hbit : Machine.revBits (n + 1) c = Nat.bit (c.testBit n) (Machine.revBits n c) := by
      rw [Nat.bit_val, Machine.revBits, Nat.add_comm]
    rw [hbit, lsbBits, msbBits, Nat.testBit_bit_zero, Nat.bit_div_two, ih]

end Sys2Proof

namespace Sys2Proof.Machine

open Sys2Proof.Ref

/-! ### Bytes as bits (40_bit_io.md R114) -/

/-- The bits of a byte sequence, each byte's bit 0 first. -/
def bytesBits (bytes : List Byte) : List Bool := bytes.flatMap fun b => lsbBits 8 b.toNat

@[simp] theorem bytesBits_nil : bytesBits [] = [] := rfl

@[simp] theorem bytesBits_cons (b : Byte) (rest : List Byte) :
    bytesBits (b :: rest) = lsbBits 8 b.toNat ++ bytesBits rest := rfl

@[simp] theorem bytesBits_append (xs ys : List Byte) : bytesBits (xs ++ ys) = bytesBits xs ++ bytesBits ys :=
  List.flatMap_append

@[simp] theorem bytesBits_length (bytes : List Byte) : (bytesBits bytes).length = 8 * bytes.length := by
  induction bytes with
  | nil => rfl
  | cons b rest ih => rw [bytesBits_cons, List.length_append, lsbBits_length, ih, List.length_cons]; omega

/-- Bytes are read back from their bits. -/
theorem bytesBits_injective {xs ys : List Byte} (h : bytesBits xs = bytesBits ys) : xs = ys := by
  have hlen : xs.length = ys.length := by
    have := congrArg List.length h
    rw [bytesBits_length, bytesBits_length] at this
    omega
  induction xs generalizing ys with
  | nil => exact (List.length_eq_zero_iff.mp hlen.symm).symm
  | cons x xs ih =>
    cases ys with
    | nil => cases hlen
    | cons y ys =>
      rw [bytesBits_cons, bytesBits_cons] at h
      have hread := congrArg (takeLsb 8) h
      rw [takeLsb_toNat, takeLsb_toNat] at hread
      obtain ⟨hxy, hrest⟩ := Prod.mk.inj (Option.some.inj hread)
      rw [BitVec.eq_of_toNat_eq hxy, ih hrest (Nat.succ.inj hlen)]

/-- The zero bits from bit `n` of a sequence up to the byte boundary. -/
def padding (n : Nat) : List Bool := List.replicate ((8 - n % 8) % 8) false

@[simp] theorem padding_length (n : Nat) : (padding n).length = (8 - n % 8) % 8 := List.length_replicate

theorem padding_mod (n : Nat) : padding (n % 8) = padding n := by rw [padding, padding, Nat.mod_mod]

theorem lsbBits_packedByte (bits : List Bool) (k : Nat) :
    lsbBits 8 (packedByte bits k).toNat = (List.range 8).map fun j => bits.getD (8 * k + j) false := by
  rw [lsbBits_eq_map]
  refine List.map_congr_left fun j hj => ?_
  rw [BitVec.testBit_toNat, packedByte, BitVec.getLsbD_ofFnLE, dif_pos (List.mem_range.mp hj)]

/-- Packed bytes hold the bits one after the other, with zeros after them. -/
theorem bytesBits_packedBytes (bits : List Bool) (n : Nat) :
    bytesBits ((List.range n).map (packedByte bits)) = (List.range (8 * n)).map fun q => bits.getD q false := by
  induction n with
  | zero => rfl
  | succ n ih =>
    rw [List.range_succ, List.map_append, bytesBits_append, ih, Nat.mul_succ, List.range_add, List.map_append,
      List.map_map, List.map_singleton, bytesBits_cons, bytesBits_nil, List.append_nil, lsbBits_packedByte]
    rfl

theorem bytesBits_pack (bits : List Bool) : bytesBits (pack bits) = bits ++ padding bits.length := by
  rw [pack, bytesBits_packedBytes]
  refine List.ext_getElem ?_ fun q h₁ h₂ => ?_
  · simp only [List.length_map, List.length_range, List.length_append, padding_length, byteCount]
    omega
  · rw [List.getElem_map, List.getElem_range, List.getD_eq_getElem?_getD]
    by_cases hq : q < bits.length
    · rw [List.getElem_append_left hq, List.getElem?_eq_getElem hq, Option.getD_some]
    · rw [List.getElem_append_right (by omega), List.getElem?_eq_none (by omega), Option.getD_none]
      simp [padding]

/-- A 16-bit number as two bytes is sent as a 16-bit field. -/
theorem bytesBits_le16 (v : Nat) : bytesBits (le16 v) = lsbBits 16 v := by
  rw [le16, bytesBits_cons, bytesBits_cons, bytesBits_nil, List.append_nil, BitVec.toNat_ofNat, BitVec.toNat_ofNat,
    lsbBits_mod, lsbBits_mod]
  exact (lsbBits_add 8 8 v).symm

/-- NLEN is the ones' complement of LEN (30_encoding.md R73). -/
theorem lsbBits_complement {n : Nat} (h : n ≤ 65535) : lsbBits 16 (n ^^^ 0xFFFF) = lsbBits 16 (65535 - n) := by
  refine lsbBits_congr fun k hk => ?_
  have hsub : (65535 - n).testBit k = (decide (k < 16) && !n.testBit k) := by
    rw [show 65535 - n = 2 ^ 16 - (n + 1) by omega, Nat.testBit_two_pow_sub_succ (by omega)]
  rw [hsub, Nat.testBit_xor, show (0xFFFF : Nat) = 2 ^ 16 - 1 from rfl, Nat.testBit_two_pow_sub_one]
  simp [hk]

/-- The bits of a stored block: its header, the padding to the byte boundary, LEN, NLEN and the data. -/
theorem bytesBits_storedBlock {data : List Byte} (h : data.length ≤ 65535) :
    bytesBits (storedBlock data) =
      lsbBits 1 1 ++ lsbBits 2 0 ++ padding 3 ++ lsbBits 16 data.length ++ lsbBits 16 (data.length ^^^ 0xFFFF) ++
        bytesBits data := by
  rw [storedBlock, bytesBits_append, bytesBits_append, bytesBits_append, bytesBits_le16, bytesBits_le16,
    lsbBits_complement h]
  rfl

end Sys2Proof.Machine

namespace Sys2Proof.Machine

open Sys2Proof.Ref

/-! ### What a rule that writes bits answers (40_bit_io.md R109 to R112, 60_exceptions.md R262) -/

/-- Every byte the writer has appended is listed in OUT, so it stays when the rest of OUT becomes unspecified. -/
def State.Listed (s : State) : Prop := ∀ k, k < s.wlen → ∃ v, tableRead s.outBuf (s.wbase + k) = some v

/-- The rule's answer `r` is that of writing `bits` from `s` on: it appends them, or a byte they complete does not fit. -/
def Writes (s : State) (bits : List Bool) (r : Except ErrKind State) : Prop :=
  match r with
  | .ok t => Appends s bits t ∧ (s.Listed → t.Listed)
  | .error e => e = .capacityExceeded ∧ ¬ Room s (s.wbase + s.wlen) ((s.wnb + bits.length) / 8)

theorem Writes.nil {s : State} (hw : s.WriterOk) : Writes s [] (.ok s) := ⟨.refl hw, id⟩

/-- Two rules in a row write the bits of the first and then those of the second. -/
theorem Writes.bind {s : State} {xs ys : List Bool} {r : Except ErrKind State} {f : State → Except ErrKind State}
    (h : Writes s xs r) (hf : ∀ t, Appends s xs t → Writes t ys (f t)) : Writes s (xs ++ ys) (r >>= f) := by
  cases r with
  | error e =>
    obtain ⟨he, hroom⟩ := h
    refine ⟨he, fun hr => hroom fun k hk => hr k ?_⟩
    rw [List.length_append]
    omega
  | ok t =>
    obtain ⟨ha, hl⟩ := h
    have hy := hf t ha
    show Writes s (xs ++ ys) (f t)
    cases hft : f t with
    | error e =>
      rw [hft] at hy
      obtain ⟨he, hroom⟩ := hy
      exact ⟨he, fun hr => hroom (ha.room (by rwa [← List.length_append]))⟩
    | ok u =>
      rw [hft] at hy
      obtain ⟨ha', hl'⟩ := hy
      exact ⟨ha.trans ha', fun h => hl' (hl h)⟩

theorem State.Listed.closeByte {s : State} (h : s.Listed) (c : Byte) : (s.closeByte c).Listed := by
  intro k hk
  show ∃ v, tableRead (tableWrite s.outBuf (s.wbase + s.wlen) c) (s.wbase + k) = some v
  have hk : k < s.wlen + 1 := hk
  rw [tableRead_tableWrite]
  split
  · exact ⟨c, rfl⟩
  · exact h k (by omega)

theorem not_room_of_full {s : State} {a n : Nat} (hf : ¬ s.cfg.fits a = true) (hn : 0 < n) : ¬ Room s a n :=
  fun hr => hf (hr 0 hn)

theorem writeBit_full (b : Bool) {s : State} (h : s.wnb + 1 = 8) (hf : ¬ s.cfg.fits (s.wbase + s.wlen) = true) :
    writeBit b s = .error .capacityExceeded := by
  rw [writeBit_eq, if_pos h, emitByte_eq, if_neg hf]
  rfl

theorem alignWriter_full {s : State} (h : 0 < s.wnb) (hf : ¬ s.cfg.fits (s.wbase + s.wlen) = true) :
    alignWriter s = .error .capacityExceeded := by
  rw [alignWriter_eq, if_pos h, emitByte_eq, if_neg hf]
  rfl

theorem writeBit_writes (b : Bool) {s : State} (hw : s.WriterOk) : Writes s [b] (writeBit b s) := by
  have happends := writeBit_appends b hw
  by_cases h8 : s.wnb + 1 = 8
  · by_cases hf : s.cfg.fits (s.wbase + s.wlen) = true
    · obtain ⟨t, ht, ha⟩ := happends fun k hk => by rwa [show k = 0 by omega]
      have hclose := writeBit_close b h8 hf
      obtain rfl := Except.ok.inj (ht.symm.trans hclose)
      rw [hclose]
      exact ⟨ha, fun h => h.closeByte _⟩
    · rw [writeBit_full b h8 hf]
      exact ⟨rfl, not_room_of_full hf (by rw [List.length_singleton]; omega)⟩
  · obtain ⟨t, ht, ha⟩ := happends fun k hk => by have := hw.1; omega
    have hkeep := writeBit_keep b h8
    obtain rfl := Except.ok.inj (ht.symm.trans hkeep)
    rw [hkeep]
    exact ⟨ha, id⟩

theorem writeList_writes (bits : List Bool) {s : State} (hw : s.WriterOk) : Writes s bits (writeList bits s) := by
  induction bits generalizing s with
  | nil => exact .nil hw
  | cons b rest ih =>
    rw [writeList_cons]
    exact (writeBit_writes b hw).bind fun t ht => ih ht.writer

theorem writeBits_writes (v n : Nat) {s : State} (hw : s.WriterOk) : Writes s (lsbBits n v) (writeBits v n s) := by
  rw [writeBits_eq_writeList]
  exact writeList_writes _ hw

theorem writeBytes_writes (bytes : List Byte) {s : State} (hw : s.WriterOk) :
    Writes s (bytesBits bytes) (writeBytes bytes s) := by
  induction bytes generalizing s with
  | nil => exact .nil hw
  | cons b rest ih =>
    rw [writeBytes_cons, bytesBits_cons]
    exact (writeBits_writes b.toNat 8 hw).bind fun t ht => ih ht.writer

theorem alignWriter_writes {s : State} (hw : s.WriterOk) : Writes s (padding s.wnb) (alignWriter s) := by
  by_cases h0 : s.wnb = 0
  · rw [alignWriter_boundary h0, h0]
    exact .nil hw
  · have hpos := Nat.pos_of_ne_zero h0
    have hlt := hw.1
    have hpad : (8 - s.wnb % 8) % 8 = 8 - s.wnb := by omega
    rw [padding, hpad]
    by_cases hf : s.cfg.fits (s.wbase + s.wlen) = true
    · obtain ⟨ht, ha⟩ := alignWriter_appends hw hpos hf
      rw [ht]
      exact ⟨ha, fun h => h.closeByte _⟩
    · rw [alignWriter_full hpos hf]
      exact ⟨rfl, not_room_of_full hf (by rw [List.length_replicate]; omega)⟩

/-- The bits in the current byte after `bits` from a byte boundary on. -/
theorem Appends.wnb {s t : State} {bits : List Bool} (h : Appends s bits t) (h0 : s.wnb = 0) :
    t.wnb = bits.length % 8 := by
  have hcount := h.count
  have hlt := h.writer.1
  omega

/-! ### The parts of a block (42_deflate_encoder.md R156 to R159) -/

theorem putLitlen_writes (symbol : Nat) {s : State} (hw : s.WriterOk) :
    Writes s (symbolBits symbol) (putLitlen symbol s) := by
  have h := writeBits_writes (revBits (fixedCode symbol).2 (fixedCode symbol).1) (fixedCode symbol).2 hw
  rwa [lsbBits_revBits] at h

theorem putMatch_writes (len dist : Nat) {s : State} (hw : s.WriterOk) :
    Writes s (tokenBits (.copy len dist)) (putMatch len dist s) := by
  rw [tokenBits, ← lsbBits_revBits, List.append_assoc, List.append_assoc]
  refine (putLitlen_writes _ hw).bind fun t ht => ?_
  refine (writeBits_writes _ _ ht.writer).bind fun u hu => ?_
  exact (writeBits_writes _ _ hu.writer).bind fun v hv => writeBits_writes _ _ hv.writer

theorem putToken_writes (tok : Token) {s : State} (hw : s.WriterOk) : Writes s (tokenBits tok) (putToken tok s) := by
  cases tok with
  | literal b => exact putLitlen_writes b.toNat hw
  | copy len dist => exact putMatch_writes len dist hw

/-- The three header bits of the one fixed block: BFINAL = 1 and BTYPE = 01. -/
def fixedHeader : List Bool := [true, true, false]

theorem openFixed_writes {s : State} (hw : s.WriterOk) : Writes s fixedHeader (openFixed s) :=
  (writeBits_writes 1 1 hw).bind fun _ ht => writeBits_writes 1 2 ht.writer

/-- A stored block is written from a byte boundary on, where the header's padding has five bits. -/
theorem emitStored_writes {data : List Byte} {s : State} (hw : s.WriterOk) (h0 : s.wnb = 0)
    (hlen : data.length ≤ 65535) : Writes s (bytesBits (storedBlock data)) (emitStored data s) := by
  rw [bytesBits_storedBlock hlen]
  simp only [List.append_assoc]
  refine (writeBits_writes 1 1 hw).bind fun t ht => ?_
  refine (writeBits_writes 0 2 ht.writer).bind fun u hu => ?_
  have hwnb : u.wnb = 3 := (ht.trans hu).wnb h0
  have halign := alignWriter_writes hu.writer
  rw [hwnb] at halign
  refine halign.bind fun v hv => ?_
  refine (writeBits_writes _ 16 hv.writer).bind fun x hx => ?_
  exact (writeBits_writes _ 16 hx.writer).bind fun y hy => writeBytes_writes data hy.writer

end Sys2Proof.Machine

namespace Sys2Proof.Machine

open Sys2Proof.Ref

/-! ### A block on its way (42_deflate_encoder.md R150 to R157) -/

/-- The block that the encoder writes from its start state on. -/
abbrev State.block (s₀ : State) : List Byte := encodedBlock s₀.input (inputTokens s₀)

/-- The errors of the encoder itself, with their reasons: the block cannot be written, or it does not fit in OUT. -/
inductive BlockError (s₀ : State) : ErrKind → Prop where
  | tooLarge (h : tooLarge s₀.inLen.toNat (inputTokens s₀)) : BlockError s₀ .inputTooLarge
  | noRoom (h : ¬ tooLarge s₀.inLen.toNat (inputTokens s₀)) (hr : ¬ Room s₀ s₀.wbase s₀.block.length) :
      BlockError s₀ .capacityExceeded

/-- The encoder that began at `s₀` has sent `bits` at `t`; only the matcher, the writer and the place have moved. -/
structure Sent (s₀ : State) (bits : List Bool) (t : State) : Prop where
  start : s₀.wlen = 0 ∧ s₀.wnb = 0
  appends : Appends { s₀ with matcher := t.matcher, phase := t.phase } bits t
  listed : t.Listed

/-- The matcher and the engine's place are none of the writer's concern. -/
theorem Appends.setPlace {s t : State} {bits : List Bool} (h : Appends s bits t) (m : Matcher) (p : Phase) :
    Appends { s with matcher := m, phase := p } bits { t with matcher := m, phase := p } where
  frame := by rw [h.frame]
  writer := h.writer
  written := h.written
  count := h.count
  others := h.others

namespace Sent

variable {s₀ t u : State} {bits more : List Bool}

theorem cmdState (h : Sent s₀ bits t) : t.cmdState = s₀.cmdState := by rw [h.appends.frame]
theorem errCode (h : Sent s₀ bits t) : t.errCode = s₀.errCode := by rw [h.appends.frame]
theorem inLen (h : Sent s₀ bits t) : t.inLen = s₀.inLen := by rw [h.appends.frame]
theorem inByte (h : Sent s₀ bits t) : t.inByte = s₀.inByte := by rw [h.appends.frame]; rfl
theorem input (h : Sent s₀ bits t) : t.input = s₀.input := by rw [State.input, State.input, h.inByte, h.inLen]
theorem crcResult (h : Sent s₀ bits t) : t.crcResult = s₀.crcResult := by rw [h.appends.frame]
theorem freeCount (h : Sent s₀ bits t) : t.freeCount = s₀.freeCount := by rw [h.appends.frame]
theorem wbase (h : Sent s₀ bits t) : t.wbase = s₀.wbase := by rw [h.appends.frame]

theorem hostKept (h : Sent s₀ bits t) : HostKept s₀ t := by
  rw [HostKept, h.appends.frame]
  exact ⟨rfl, rfl, rfl, rfl, rfl, rfl, rfl⟩

theorem writer (h : Sent s₀ bits t) : t.WriterOk := h.appends.writer

theorem wnb (h : Sent s₀ bits t) : t.wnb = bits.length % 8 := h.appends.wnb h.start.2

theorem nil (h : s₀.wlen = 0 ∧ s₀.wnb = 0) (hw : s₀.WriterOk) : Sent s₀ [] s₀ :=
  ⟨h, .refl hw, fun k hk => by rw [h.1] at hk; cases hk⟩

theorem setPlace (h : Sent s₀ bits t) (m : Matcher) (p : Phase) :
    Sent s₀ bits { t with matcher := m, phase := p } :=
  ⟨h.start, h.appends.setPlace m p, h.listed⟩

/-- Sending more bits of the block, and moving on to another place. -/
theorem append (h : Sent s₀ bits t) (ha : Appends t more u) (hl : t.Listed → u.Listed) (p : Phase) :
    Sent s₀ (bits ++ more) { u with phase := p } := by
  have hm : u.matcher = t.matcher := by rw [ha.frame]
  have hstep := (h.appends.trans ha).setPlace t.matcher p
  refine ⟨h.start, ?_, hl h.listed⟩
  rw [← hm] at hstep
  exact hstep

/-- Bits of the block that do not fit in OUT are the encoder's error. -/
theorem noRoom (h : Sent s₀ bits t) (hnt : ¬ tooLarge s₀.inLen.toNat (inputTokens s₀))
    (hp : bits ++ more <+: bytesBits s₀.block) (hr : ¬ Room t (t.wbase + t.wlen) ((t.wnb + more.length) / 8)) :
    BlockError s₀ .capacityExceeded := by
  refine .noRoom hnt fun hroom => hr (h.appends.room fun k hk => ?_)
  obtain ⟨hlen, hnb⟩ := h.start
  have hle := hp.length_le
  rw [List.length_append, bytesBits_length] at hle
  have hk : k < (s₀.wnb + (bits.length + more.length)) / 8 := hk
  show s₀.cfg.fits (s₀.wbase + s₀.wlen + k) = true
  rw [hlen, Nat.add_zero]
  exact hroom k (by omega)

end Sent

/-! ### The encoder's places -/

/-- What the encoder that began at `s₀` has done at each of its places: the matcher makes the input's tokens; a fixed
block is written token by token; the whole block is written up to its last byte's padding. -/
inductive Encoding (s₀ t : State) : Prop where
  | matching (fuel : Nat) (hp : t.phase = .matching) (hs : Sent s₀ [] t)
      (hf : s₀.inLen.toNat ≤ t.matcher.pos + fuel)
      (ht : (lz77Loop s₀.inByte s₀.inLen.toNat fuel t.matcher).tokens = inputTokens s₀)
  | emitting (sent left : List Token) (hp : t.phase = .emitting left)
      (hs : Sent s₀ (fixedHeader ++ sent.flatMap tokenBits) t) (ht : sent ++ left = inputTokens s₀)
      (hnt : ¬ tooLarge s₀.inLen.toNat (inputTokens s₀)) (hb : s₀.block = pack (fixedBlockBits (inputTokens s₀)))
  | closing (bits : List Bool) (hp : t.phase = .closing) (hs : Sent s₀ bits t)
      (hnt : ¬ tooLarge s₀.inLen.toNat (inputTokens s₀))
      (hb : bytesBits s₀.block = bits ++ padding bits.length)

/-- The encoder goes on to its next place, or ends with an error of its own. -/
def Encodes (s₀ : State) (r : Except ErrKind State) : Prop :=
  match r with
  | .ok t => Encoding s₀ t
  | .error e => BlockError s₀ e

/-- A rule that sends the next bits of the block and moves on to the place `p`. -/
theorem Sent.encodes {s₀ t : State} {bits more : List Bool} {r : Except ErrKind State} {p : Phase}
    (h : Sent s₀ bits t) (hr : Writes t more r) (hnt : ¬ tooLarge s₀.inLen.toNat (inputTokens s₀))
    (hp : bits ++ more <+: bytesBits s₀.block)
    (hnext : ∀ u : State, Sent s₀ (bits ++ more) { u with phase := p } → Encoding s₀ { u with phase := p }) :
    Encodes s₀ (r >>= fun u => .ok { u with phase := p }) := by
  cases r with
  | error e =>
    obtain ⟨rfl, hroom⟩ := hr
    exact h.noRoom hnt hp hroom
  | ok u =>
    obtain ⟨ha, hl⟩ := hr
    exact hnext u (h.append ha hl p)

/-! #### The block choice (42_deflate_encoder.md R154, R155) -/

theorem State.input_length (s : State) : s.input.length = s.inLen.toNat := bytesFrom_length _ _ _

/-- The estimate of the cost is the number of the bits. -/
theorem fixedCost_inputTokens (s : State) : fixedCost (inputTokens s) = codedBits (inputTokens s) :=
  tokensExpandToTheInput.2 _ (tokensExpandToTheInput.1 s.inByte s.inLen.toNat s.matcher).2

theorem choosesStored_iff (s : State) : choosesStored s.inLen.toNat (inputTokens s) = true ↔
    0 < s.inLen.toNat ∧ 8 * (s.inLen.toNat + 5) ≤ codedBits (inputTokens s) := by
  rw [choosesStored, Bool.and_eq_true, decide_eq_true_iff, decide_eq_true_iff, fixedCost_inputTokens, storedCost]

theorem State.block_stored {s : State} (h : choosesStored s.inLen.toNat (inputTokens s) = true) :
    s.block = storedBlock s.input := by
  rw [State.block, encodedBlock, State.input_length, if_pos ((choosesStored_iff s).mp h)]

theorem State.block_fixed {s : State} (h : ¬ choosesStored s.inLen.toNat (inputTokens s) = true) :
    s.block = pack (fixedBlockBits (inputTokens s)) := by
  rw [State.block, encodedBlock, State.input_length, if_neg fun hc => h ((choosesStored_iff s).mpr hc)]

/-- Packing keeps the bits in front. -/
theorem prefix_bytesBits_of_pack {block : List Byte} {bits : List Bool} (h : block = pack bits) :
    bits <+: bytesBits block := by
  rw [h, bytesBits_pack]
  exact List.prefix_append _ _

/-- A fixed block begins with its header and its first tokens. -/
theorem fixedBlockBits_prefix (sent left : List Token) :
    fixedHeader ++ sent.flatMap tokenBits <+: fixedBlockBits (sent ++ left) :=
  ⟨left.flatMap tokenBits ++ symbolBits 256, by simp [fixedBlockBits, fixedHeader]⟩

theorem chooseBlock_encodes {s₀ t : State} (h : Sent s₀ [] t) (ht : t.matcher.tokens = inputTokens s₀) :
    Encodes s₀ (chooseBlock t) := by
  rw [chooseBlock, h.inLen, h.input, ht]
  split
  · next hc =>
    obtain ⟨-, hcost⟩ := (choosesStored_iff s₀).mp hc
    split
    · next hbig => exact BlockError.tooLarge ⟨hcost, hbig⟩
    · next hbig =>
      have hblock := State.block_stored hc
      have hwrites := emitStored_writes h.writer h.wnb (data := s₀.input) (by rw [State.input_length]; omega)
      refine h.encodes hwrites (fun hl => hbig hl.2) (by rw [hblock]; exact List.prefix_rfl) fun u hu => ?_
      refine .closing _ rfl hu (fun hl => hbig hl.2) ?_
      rw [hblock, List.nil_append, bytesBits_length, padding, Nat.mul_mod_right]
      exact (List.append_nil _).symm
  · next hc =>
    have hnt : ¬ tooLarge s₀.inLen.toNat (inputTokens s₀) := fun hl =>
      hc ((choosesStored_iff s₀).mpr ⟨by have := hl.2; omega, hl.1⟩)
    have hblock := State.block_fixed hc
    have hprefix := (fixedBlockBits_prefix [] (inputTokens s₀)).trans (prefix_bytesBits_of_pack hblock)
    refine h.encodes (openFixed_writes h.writer) hnt hprefix fun u hu => ?_
    exact .emitting [] _ rfl hu rfl hnt hblock

/-! #### One step from each place -/

theorem stepMatching_encodes {s₀ t : State} {fuel : Nat} (hp : t.phase = .matching) (h : Sent s₀ [] t)
    (hf : s₀.inLen.toNat ≤ t.matcher.pos + fuel)
    (ht : (lz77Loop s₀.inByte s₀.inLen.toNat fuel t.matcher).tokens = inputTokens s₀) :
    Encodes s₀ (stepMatching t) := by
  rw [stepMatching]
  split
  · next hlt =>
    rw [h.inLen] at hlt
    obtain ⟨hadv, -, -⟩ := lz77Step_advances s₀.inByte s₀.inLen.toNat t.matcher hlt
    cases fuel with
    | zero => omega
    | succ fuel =>
      rw [lz77Loop, if_pos hlt] at ht
      have hstep : lz77Step t.inByte t.inLen.toNat t.matcher = lz77Step s₀.inByte s₀.inLen.toNat t.matcher := by
        rw [h.inByte, h.inLen]
      rw [hstep]
      exact .matching fuel hp (h.setPlace _ t.phase) (by dsimp only; omega) ht
  · next hge =>
    rw [h.inLen] at hge
    have hend : lz77Loop s₀.inByte s₀.inLen.toNat fuel t.matcher = t.matcher := by
      cases fuel with
      | zero => rfl
      | succ fuel => rw [lz77Loop, if_neg hge]
    rw [hend] at ht
    exact chooseBlock_encodes h ht

theorem stepEmitting_encodes {s₀ t : State} {sent left : List Token}
    (h : Sent s₀ (fixedHeader ++ sent.flatMap tokenBits) t) (ht : sent ++ left = inputTokens s₀)
    (hnt : ¬ tooLarge s₀.inLen.toNat (inputTokens s₀)) (hb : s₀.block = pack (fixedBlockBits (inputTokens s₀))) :
    Encodes s₀ (stepEmitting left t) := by
  have hprefix := prefix_bytesBits_of_pack hb
  cases left with
  | nil =>
    rw [List.append_nil] at ht
    subst ht
    refine h.encodes (putLitlen_writes 256 h.writer) hnt hprefix fun u hu => .closing _ rfl hu hnt ?_
    rw [hb, bytesBits_pack]
    rfl
  | cons tok rest =>
    have hsent : fixedHeader ++ (sent ++ [tok]).flatMap tokenBits =
        fixedHeader ++ sent.flatMap tokenBits ++ tokenBits tok := by simp
    have ht' : (sent ++ [tok]) ++ rest = inputTokens s₀ := by rw [← List.append_cons, ht]
    have hnext := fixedBlockBits_prefix (sent ++ [tok]) rest
    rw [ht', hsent] at hnext
    refine h.encodes (putToken_writes tok h.writer) hnt (hnext.trans hprefix) fun u hu => ?_
    rw [← hsent] at hu
    exact .emitting (sent ++ [tok]) rest rfl hu ht' hnt hb

theorem State.fetchSpace_compressing {s : State} (h : s.compressing = true) : s.fetchSpace = none := by
  unfold State.compressing at h
  unfold State.fetchSpace
  split at h
  · next hc => rw [hc]
  · next hc => rw [hc]
  · cases h

theorem engineStep_matching {s : State} (hc : s.compressing = true) (hp : s.phase = .matching) :
    engineStep s = settle s (stepMatching s) := by
  rw [engineStep, State.fetchSpace_compressing hc]
  simp only [hp, hc]
  rfl

theorem engineStep_emitting {s : State} {left : List Token} (hc : s.compressing = true)
    (hp : s.phase = .emitting left) : engineStep s = settle s (stepEmitting left s) := by
  rw [engineStep, State.fetchSpace_compressing hc]
  simp only [hp, hc]
  rfl

theorem engineStep_closing {s : State} (hc : s.compressing = true) (hp : s.phase = .closing) :
    engineStep s = settle s (stepClosing s) := by
  rw [engineStep, State.fetchSpace_compressing hc]
  simp only [hp, hc]
  rfl

/-- Before the closing, a step of the encoder goes on or ends with an error of its own. -/
theorem Encoding.step {s₀ t : State} (h : Encoding s₀ t) (hc : t.compressing = true) (hp : t.phase ≠ .closing) :
    ∃ r, engineStep t = settle t r ∧ Encodes s₀ r := by
  cases h with
  | matching fuel hp hs hf ht =>
    exact ⟨_, engineStep_matching hc hp, stepMatching_encodes hp hs hf ht⟩
  | emitting sent left hp hs ht hnt hb =>
    exact ⟨_, engineStep_emitting hc hp, stepEmitting_encodes hs ht hnt hb⟩
  | closing bits hp' => exact absurd hp' hp

theorem Encoding.sent {s₀ t : State} (h : Encoding s₀ t) : ∃ bits, Sent s₀ bits t := by
  cases h with
  | matching fuel hp hs hf ht => exact ⟨_, hs⟩
  | emitting sent left hp hs ht hnt hb => exact ⟨_, hs⟩
  | closing bits hp hs hnt hb => exact ⟨_, hs⟩

end Sys2Proof.Machine

namespace Sys2Proof.Machine

open Sys2Proof.Ref

/-! ### The end of DEFLATE_COMPRESS (46_commands.md R243, 60_exceptions.md R262, R270, R271) -/

/-- How DEFLATE_COMPRESS of an input within IN_CAP ends: with one of the encoder's two errors, or with the block. -/
inductive DeflateResult (s t : State) : Prop where
  | tooLarge (h : tooLarge s.inLen.toNat (inputTokens s)) (ht : Failed .inputTooLarge t)
  | noRoom (h : ¬ tooLarge s.inLen.toNat (inputTokens s)) (hr : ¬ Room s 0 s.block.length)
      (ht : Failed .capacityExceeded t)
  | done (h : ¬ tooLarge s.inLen.toNat (inputTokens s)) (ht : Succeeded t) (hpos : t.outPos = s.block.length)
      (hlen : t.outLen = lengthWord s.block.length s.freeCount) (hout : t.output s.block.length = s.block)

/-- The command that began at `s` has ended at `t`. -/
structure DeflateEnd (s t : State) : Prop where
  kept : HostKept s t
  crcResult : t.crcResult = s.crcResult
  result : DeflateResult s t

theorem DeflateEnd.idle {s t : State} (h : DeflateEnd s t) : t.cmdState = .idle := by
  cases h.result with
  | tooLarge _ ht => exact ht.1
  | noRoom _ _ ht => exact ht.1
  | done _ ht => exact ht.1

theorem hostKept_trans {s t u : State} (h : HostKept s t) (h' : HostKept t u) : HostKept s u := by
  obtain ⟨h1, h2, h3, h4, h5, h6, h7⟩ := h
  obtain ⟨k1, k2, k3, k4, k5, k6, k7⟩ := h'
  exact ⟨k1.trans h1, k2.trans h2, k3.trans h3, k4.trans h4, k5.trans h5, k6.trans h6, k7.trans h7⟩

/-- A listed byte stays when the bytes beyond a length become unspecified. -/
theorem State.setOutput_outByte {s : State} {n a : Nat} (ha : a < n) (h : ∃ v, tableRead s.outBuf a = some v) :
    (s.setOutput n).outByte a = s.outByte a := by
  obtain ⟨v, hv⟩ := h
  rw [State.outByte, State.outByte, State.setOutput_outBuf, tableRead_tableCut, if_pos ha, hv]
  rfl

/-- Whole bytes that were sent stand in OUT from the encoder's start on. -/
theorem Sent.whole {s₀ t : State} {bytes : List Byte} (h : Sent s₀ (bytesBits bytes) t) :
    t.wlen = bytes.length ∧ bytesFrom t.outByte s₀.wbase bytes.length = bytes := by
  obtain ⟨hlen₀, hnb₀⟩ := h.start
  have hnb : t.wnb = 0 := by rw [h.wnb, bytesBits_length, Nat.mul_mod_right]
  have hcount : 8 * t.wlen + t.wnb = 8 * s₀.wlen + s₀.wnb + (bytesBits bytes).length := h.appends.count
  rw [bytesBits_length] at hcount
  have hlen : t.wlen = bytes.length := by omega
  have hstart : writtenBits { s₀ with matcher := t.matcher, phase := t.phase } = [] := by
    simp only [writtenBits, hlen₀, hnb₀]
    rfl
  have hwritten := h.appends.written
  rw [hstart, List.nil_append, writtenBits, hnb, lsbBits, List.append_nil, h.wbase, hlen] at hwritten
  exact ⟨hlen, bytesBits_injective hwritten⟩

/-- What the end of the command needs of the state in which it began. -/
structure DeflateStart (s : State) : Prop where
  cmdState : s.cmdState = .busy .deflateCompress
  wbase : s.wbase = 0
  errCode : s.errCode = 0#4

theorem startCommand_deflateStart {s : State} (h : s.inLen.toNat ≤ s.cfg.inCap) :
    DeflateStart (startCommand .deflateCompress s) := by
  rw [startCommand_ok _ s h]
  exact ⟨rfl, rfl, rfl⟩

/-- Taking the encoder's error ends the command. -/
theorem Sent.takeError_end {s₀ t : State} {bits : List Bool} {e : ErrKind} (h : Sent s₀ bits t)
    (h₀ : DeflateStart s₀) (he : BlockError s₀ e) :
    DeflateEnd s₀ (takeError false e t) := by
  obtain ⟨hfailed, hkept⟩ := takeError_failed false e t
  refine ⟨hostKept_trans h.hostKept hkept, ?_, ?_⟩
  · rw [takeError_running_crcResult, h.cmdState, h₀.cmdState]
    exact h.crcResult
  · cases he with
    | tooLarge ht => exact .tooLarge ht hfailed
    | noRoom hnt hr =>
      rw [h₀.wbase] at hr
      exact .noRoom hnt hr hfailed

/-- With the whole block written, the command succeeds. -/
theorem Sent.complete_end {s₀ t : State} (h : Sent s₀ (bytesBits s₀.block) t) (h₀ : DeflateStart s₀)
    (hnt : ¬ tooLarge s₀.inLen.toNat (inputTokens s₀)) :
    DeflateEnd s₀ (State.setOutput (t.wbase + t.wlen) { t with outPos := t.wbase + t.wlen }).complete := by
  obtain ⟨hlen, hbytes⟩ := h.whole
  have hwbase : t.wbase = 0 := h.wbase.trans h₀.wbase
  have hend : t.wbase + t.wlen = s₀.block.length := by rw [hwbase, hlen, Nat.zero_add]
  rw [hend]
  refine ⟨h.hostKept, h.crcResult, .done hnt ⟨rfl, rfl, State.status_complete _, h.errCode.trans h₀.errCode⟩ rfl ?_ ?_⟩
  · rw [← h.freeCount]
    rfl
  · rw [h₀.wbase] at hbytes
    refine (bytesFrom_congr fun k hk => ?_).trans hbytes
    have hlisted := h.listed k (by rwa [hlen])
    rw [hwbase] at hlisted
    exact State.setOutput_outByte (s := { t with outPos := s₀.block.length }) (by rwa [Nat.zero_add]) hlisted

theorem stepClosing_deflate {t : State} (ht : t.cmdState = .busy .deflateCompress) :
    stepClosing t = alignWriter t >>= fun u =>
      .ok (State.setOutput (u.wbase + u.wlen) { u with outPos := u.wbase + u.wlen }).complete := by
  rw [stepClosing]
  cases hu : alignWriter t with
  | error e => rfl
  | ok u =>
    have hcmd : u.cmdState = .busy .deflateCompress := (keeps_alignWriter hu).cmdState.trans ht
    simp only [bind, Except.bind, hcmd]
    rfl

/-- The closing step ends the command: the last byte's padding fits and the block is whole, or it does not fit. -/
theorem closing_end {s₀ t : State} {bits : List Bool} (h₀ : DeflateStart s₀) (h : Sent s₀ bits t)
    (hnt : ¬ tooLarge s₀.inLen.toNat (inputTokens s₀)) (hbits : bytesBits s₀.block = bits ++ padding bits.length) :
    ∃ u, settle t (stepClosing t) = .next u ∧ DeflateEnd s₀ u := by
  have halign := alignWriter_writes h.writer
  rw [h.wnb, padding_mod] at halign
  rw [stepClosing_deflate (h.cmdState.trans h₀.cmdState)]
  cases hr : alignWriter t with
  | error e =>
    rw [hr] at halign
    obtain ⟨rfl, hroom⟩ := halign
    exact ⟨_, rfl, h.takeError_end h₀ (h.noRoom hnt (by rw [hbits]) hroom)⟩
  | ok u =>
    rw [hr] at halign
    obtain ⟨ha, hl⟩ := halign
    have hwhole := h.append ha hl u.phase
    rw [← hbits] at hwhole
    exact ⟨_, rfl, hwhole.complete_end h₀ hnt⟩

/-- The command that began at `s₀` writes its block at `t`, or has ended there. -/
def Deflating (s₀ t : State) : Prop := Encoding s₀ t ∨ DeflateEnd s₀ t

/-- Each step of the command goes on with the block or ends the command. -/
theorem Encoding.step_deflate {s₀ t : State} (h₀ : DeflateStart s₀) (h : Encoding s₀ t) :
    ∃ u, engineStep t = .next u ∧ Deflating s₀ u := by
  obtain ⟨bits, hs⟩ := h.sent
  have hc : t.compressing = true := by rw [State.compressing, hs.cmdState, h₀.cmdState]
  by_cases hp : t.phase = .closing
  · cases h with
    | matching fuel hp' => rw [hp] at hp'; cases hp'
    | emitting sent left hp' => rw [hp] at hp'; cases hp'
    | closing bits hp' hs hnt hbits =>
      obtain ⟨u, hu, hend⟩ := closing_end h₀ hs hnt hbits
      exact ⟨u, (engineStep_closing hc hp).trans hu, .inr hend⟩
  · obtain ⟨r, hr, he⟩ := h.step hc hp
    cases r with
    | error e => exact ⟨_, hr, .inr (hs.takeError_end h₀ he)⟩
    | ok u => exact ⟨u, hr, .inl he⟩

theorem Deflating.step {s₀ t : State} (h₀ : DeflateStart s₀) (h : Deflating s₀ t) (hb : t.busy = true) :
    ∃ u, engineStep t = .next u ∧ Deflating s₀ u := by
  rcases h with h | h
  · exact h.step_deflate h₀
  · rw [State.busy_idle t h.idle] at hb
    cases hb

/-- Where the command has stopped, it has ended. -/
theorem Deflating.ended {s₀ t : State} (h₀ : DeflateStart s₀) (h : Deflating s₀ t) (hb : t.busy = false) :
    DeflateEnd s₀ t := by
  rcases h with h | h
  · obtain ⟨bits, hs⟩ := h.sent
    rw [State.busy_busy t .deflateCompress (hs.cmdState.trans h₀.cmdState)] at hb
    cases hb
  · exact h

/-! ### The command's run -/

/-- A run of the engine answers a state with a property that every step of a BUSY block answers one with. -/
theorem runEngine_answers {P : State → Prop} (hstep : ∀ s, P s → s.busy = true → ∃ t, engineStep s = .next t ∧ P t)
    (fuel : Nat) {s : State} (hs : P s) : ∃ t, runEngine fuel s = .next t ∧ P t := by
  induction fuel generalizing s with
  | zero => exact ⟨s, rfl, hs⟩
  | succ fuel ih =>
    cases hb : s.busy with
    | false => exact ⟨s, runEngine_idle _ s hb, hs⟩
    | true =>
      obtain ⟨t, ht, hp⟩ := hstep s hs hb
      rw [runEngine_succ_next fuel s t hb ht]
      exact ih hp

theorem runEngine_sound {fuel : Nat} {s t : State} (hs : s.Sound) (h : runEngine fuel s = .next t) : t.Sound :=
  runEngine_induct (fun _ _ hs hb h => (engineStep_moves h).sound hs hb) hs h

/-- At its start the encoder has sent nothing, and the matcher has the whole input before it. -/
theorem encoding_start {s : State} (h : s.inLen.toNat ≤ s.cfg.inCap) :
    Encoding (startCommand .deflateCompress s) (startCommand .deflateCompress s) := by
  rw [startCommand_ok _ s h]
  exact .matching s.inLen.toNat rfl (.nil ⟨rfl, rfl⟩ (writerOk_empty rfl rfl)) (Nat.le_add_left _ _) rfl

/-- The working state does not enter the command's end. -/
theorem DeflateEnd.of_start {s t : State} (h : s.inLen.toNat ≤ s.cfg.inCap)
    (ht : DeflateEnd (startCommand .deflateCompress s) t) : DeflateEnd s t := by
  rw [startCommand_ok _ s h] at ht
  obtain ⟨hkept, hcrc, hres⟩ := ht
  refine ⟨hkept, hcrc, ?_⟩
  cases hres with
  | tooLarge hl ht => exact .tooLarge hl ht
  | noRoom hnt hr ht => exact .noRoom hnt hr ht
  | done hnt ht hpos hlen hout => exact .done hnt ht hpos hlen hout

/-- DEFLATE_COMPRESS of an input within IN_CAP ends in one of the three ways, and what it wrote lies below OUT_CAP. -/
theorem deflateCompress_ends {s : State} (hi : s.cmdState = .idle) (hp : s.cfg.pace = .whole)
    (hle : s.inLen.toNat ≤ s.cfg.inCap) :
    ∃ t, exec .deflateCompress s = .next t ∧ DeflateEnd s t ∧ capAdmits s.cfg t.outPos = true := by
  have h₀ := startCommand_deflateStart hle
  have hsound : (startCommand .deflateCompress s).Sound := startCommand_sound (.inr hle)
  obtain ⟨t, hrun, ht⟩ := runEngine_answers (fun _ => Deflating.step h₀) (engineBound s.inLen.toNat)
    (.inl (encoding_start hle))
  have hidle := runEngine_ends hsound (startCommand_remaining_le hle) hrun
  have hend : DeflateEnd s t := .of_start hle (ht.ended h₀ hidle)
  obtain ⟨-, hcap, -⟩ := (runEngine_sound hsound hrun).work.cursors
  rw [hend.kept.1] at hcap
  exact ⟨t, (dataCommand_whole .deflateCompress s hi hp).trans hrun, hend, hcap⟩

/-- Settles O49: the command ends in one of three ways, and each of the two cases leaves one of them. -/
theorem deflateCompressErrors : Obligations.DeflateCompressErrors := by
  intro s hi hp hle
  obtain ⟨t, ht, ⟨hkept, hcrc, hres⟩, hcap⟩ := deflateCompress_ends hi hp hle
  refine ⟨fun hbig => ?_, fun cap hnt hout hlt => ?_⟩
  · cases hres with
    | tooLarge _ hf => exact ⟨t, ht, hf, hkept, hcrc⟩
    | noRoom hnt => exact absurd hbig hnt
    | done hnt => exact absurd hbig hnt
  · cases hres with
    | tooLarge hbig => exact absurd hbig hnt
    | noRoom _ _ hf => exact ⟨t, ht, hf, hkept, hcrc⟩
    | done _ _ hpos =>
      rw [capAdmits, hout, decide_eq_true_iff, hpos] at hcap
      exact absurd hcap (Nat.not_le.mpr hlt)

/-- Settles O50: without tokens the block is the fixed block of two bytes, for which there is room. -/
theorem emptyInputCompressesToTwoBytes : Obligations.EmptyInputCompressesToTwoBytes := by
  intro s hi hp hlen hroom
  have hn : s.inLen.toNat = 0 := by rw [hlen]; rfl
  obtain ⟨t, ht, ⟨hkept, hcrc, hres⟩, -⟩ := deflateCompress_ends hi hp (by rw [hn]; exact Nat.zero_le _)
  have hblock : s.block = [0x03#8, 0x00#8] := by
    rw [State.block, State.input, inputTokens, hn]
    show encodedBlock [] [] = _
    decide
  cases hres with
  | tooLarge hbig => exact absurd hbig.2 (by rw [hn]; decide)
  | noRoom _ hr => exact absurd hroom (by rwa [hblock] at hr)
  | done _ hs _ hout hbytes =>
    rw [hblock] at hout hbytes
    exact ⟨t, ht, hs, hkept, hcrc, hout, hbytes⟩

end Sys2Proof.Machine

namespace Sys2Proof.Machine

open Sys2Proof.Ref

/-! ### The step runs the code at the reader (43_deflate_decoder.md R171, R176, R177) -/

/-- A well-formed instruction whose bits stand at the reader, within the tolerance, is fetched. -/
theorem fetch_encode {s : State} {i : Instr} (hwf : i.wf = true) (hr : s.canRead (encode i).length = true)
    (hbits : s.streamBits s.rpos (encode i).length = encode i) : s.fetch i.space = some i := by
  rw [State.canRead_iff] at hr
  have hwidth := (Laws.EncodingWidth.of_any i).2
  obtain ⟨k, hk⟩ := Nat.exists_eq_add_of_le
    (show (encode i).length ≤ min i.space.window (8 * s.rlen + 7 - s.rpos) by omega)
  rw [State.fetch, State.window, hk, State.streamBits_append, hbits, decodeOfEncodeIsIdentity i _ hwf]
  rfl

/-- No command word is fetched from a stream. -/
theorem State.fetchSpace_ne_cmd (s : State) : s.fetchSpace ≠ some .cmd := by
  unfold State.fetchSpace
  split <;> simp

theorem engineStep_encode {s : State} {i : Instr} (hwf : i.wf = true) (hsp : s.fetchSpace = some i.space)
    (hr : s.canRead (encode i).length = true) (hbits : s.streamBits s.rpos (encode i).length = encode i) :
    engineStep s = exec i s := by
  have hcmd : i.space ≠ .cmd := fun h => s.fetchSpace_ne_cmd (h ▸ hsp)
  rw [engineStep_stream s _ hsp, stepStream_some _ s i (fetch_encode hwf hr hbits), streamExec_eq_exec i s hcmd]

/-- Which bits stand at the reader does not depend on the host's pending actions. -/
theorem State.streamBits_script (s : State) (l : List HostEvent) (q n : Nat) :
    State.streamBits { s with script := l } q n = s.streamBits q n := by
  induction n generalizing q with
  | zero => rfl
  | succ n ih => exact congrArg (s.streamBit q :: ·) (ih (q + 1))

theorem hostTurn_waiting {e : HostEvent} {s : State} (hb : s.busy = true) (h : e.action = .wait ∨ e.after ≠ 0) :
    hostTurn e s = false := by
  rcases h with h | h <;> simp [hostTurn, hb, h]

/-- Settles O9: without a host action that is due, the step is the engine's, and the engine runs what it fetches. -/
theorem stepRunsTheCodeAtTheReader : Obligations.StepRunsTheCodeAtTheReader := by
  intro s i hwf hsp hr hbits
  have hb := State.busy_of_fetchSpace hsp
  refine ⟨fun hs => ?_, fun e rest hs he => ?_⟩
  · rw [step_quiet s hs, if_pos hb, engineStep_encode hwf hsp hr hbits]
  · rw [step_engine s e rest hs (hostTurn_waiting hb he)]
    exact engineStep_encode hwf hsp hr ((s.streamBits_script _ _ _).trans hbits)

/-! ### Output bytes as they are appended (00_scope.md R17) -/

/-- From `s` to `t` the decoder appended `n` bytes, and moved its reader: each of them is listed, and no other entry of
OUT has changed. -/
structure Wrote (s : State) (n : Nat) (t : State) : Prop where
  frame : t = { s with rpos := t.rpos, outPos := s.outPos + n, outBuf := t.outBuf }
  listed : ∀ k, k < n → (tableRead t.outBuf (s.outPos + k)).isSome = true
  others : ∀ a, a < s.outPos ∨ s.outPos + n ≤ a → tableRead t.outBuf a = tableRead s.outBuf a

namespace Wrote

variable {s t u : State} {m n : Nat}

theorem outPos (h : Wrote s n t) : t.outPos = s.outPos + n := by rw [h.frame]
theorem cfg (h : Wrote s n t) : t.cfg = s.cfg := by rw [h.frame]
theorem outEpoch (h : Wrote s n t) : t.outEpoch = s.outEpoch := by rw [h.frame]
theorem rlen (h : Wrote s n t) : t.rlen = s.rlen := by rw [h.frame]

theorem refl (s : State) : Wrote s 0 s := ⟨rfl, fun _ hk => absurd hk (Nat.not_lt_zero _), fun _ _ => rfl⟩

theorem trans (h : Wrote s m t) (h' : Wrote t n u) : Wrote s (m + n) u where
  frame := by rw [h'.frame, h.frame, ← Nat.add_assoc]
  listed k hk := by
    by_cases hkm : k < m
    · rw [h'.others _ (by rw [h.outPos]; omega)]
      exact h.listed k hkm
    · rw [show s.outPos + k = t.outPos + (k - m) by rw [h.outPos]; omega]
      exact h'.listed (k - m) (by omega)
  others a ha := by rw [h'.others a (by rw [h.outPos]; omega), h.others a (by omega)]

/-- The reader's position before the bytes does not matter. -/
theorem of_rpos {r : Nat} (h : Wrote { s with rpos := r } n t) : Wrote s n t := ⟨h.frame, h.listed, h.others⟩

theorem outByte (h : Wrote s n t) {a : Nat} (ha : a < s.outPos ∨ s.outPos + n ≤ a) : t.outByte a = s.outByte a := by
  rw [State.outByte, State.outByte, h.others a ha, h.outEpoch]

/-- Room for more bytes is room for those that follow the ones written. -/
theorem room (h : Wrote s m t) (hr : Room s s.outPos (m + n)) : Room t t.outPos n := by
  intro k hk
  rw [h.cfg, h.outPos, Nat.add_assoc]
  exact hr (m + k) (by omega)

end Wrote

/-- A byte that fits is appended, and reads as itself. -/
theorem outAppend_wrote {s : State} (v : Byte) (h : s.cfg.fits s.outPos = true) :
    ∃ t, outAppend v s = .ok t ∧ Wrote s 1 t ∧ t.rpos = s.rpos ∧ t.outByte s.outPos = v := by
  have happend := (outAppend_ok_iff v s _).mpr ⟨h, rfl⟩
  refine ⟨_, happend, ⟨rfl, fun k hk => ?_, fun a ha => ?_⟩, rfl, (outAppend_bytes happend).1⟩
  · obtain rfl : k = 0 := by omega
    exact Option.isSome_iff_exists.mpr ⟨v, tableRead_tableWrite_same _ _ _⟩
  · exact tableRead_tableWrite_other _ _ _ _ (by omega)

/-- A rule whose first operation succeeds goes on with what it answers. -/
theorem ok_bind {α β ε : Type} (a : α) (f : α → Except ε β) : (Except.ok a >>= f) = f a := rfl

/-! ### Literals and lengths (43_deflate_decoder.md R173, R175) -/

/-- A literal code is run with its byte's value, in as many bits as the code has. -/
theorem exec_literalByte {i : Instr} {b : Byte} (h : literalByte i = some b) (s : State) :
    ∃ value, b = BitVec.ofNat 8 value ∧ exec i s = atPlace s.atLitlen s (literal (encode i).length value s) := by
  cases i with
  | lit0To15 | lit16To79 | lit80To143 | lit144To159 | lit160To191 | lit192To255 =>
    cases h
    rw [encode, msbBits_length]
    exact ⟨_, rfl, rfl⟩
  | _ => cases h

/-- Settles O28: the code is passed, and the byte appended after it. -/
theorem literalCodesAppendTheirByte : Obligations.LiteralCodesAppendTheirByte := by
  intro s i b hi hp hr hfit
  obtain ⟨value, rfl, hexec⟩ := exec_literalByte hi s
  obtain ⟨t, ht, hw, hpos, hbyte⟩ :=
    outAppend_wrote (s := { s with rpos := s.rpos + (encode i).length }) (BitVec.ofNat 8 value) hfit
  refine ⟨t, ?_, hbyte, fun a ha => hw.outByte (Nat.lt_or_gt_of_ne ha), by rw [hw.frame, hpos]⟩
  rw [hexec, hp, atPlace_true, literal, (skipBits_ok_iff _ s _).mpr ⟨hr, rfl⟩, ok_bind, ht, settle_ok]

theorem lengthSymbol_range {i : Instr} {symbol : Nat} (h : lengthSymbol i = some symbol) :
    257 ≤ symbol ∧ symbol ≤ 285 := by
  cases i with
  | len257 | len258To259 | len260To263 | len264To271 | len272To279 | len280To283 | len284To285 => cases h; omega
  | _ => cases h

/-- Every extra value of a length symbol codes a length in 3 to 258 (30_encoding.md R84). -/
theorem length_range {symbol v : Nat} (h : 257 ≤ symbol ∧ symbol ≤ 285) (hv : v < 2 ^ lenExtra symbol) :
    3 ≤ lenBase symbol + v ∧ lenBase symbol + v ≤ 258 := by
  have hall : ∀ k < 29, 3 ≤ lenBase (257 + k) ∧ lenBase (257 + k) + 2 ^ lenExtra (257 + k) ≤ 259 := by decide
  obtain ⟨k, rfl⟩ := Nat.exists_eq_add_of_le h.1
  have := hall k (by omega)
  omega

theorem lengthCode_ok {width symbol : Nat} {s : State} (hr : s.canRead (width + lenExtra symbol) = true) :
    lengthCode width symbol s = .ok { s with
      rpos := s.rpos + width + lenExtra symbol,
      phase := .dist (lenBase symbol + s.field (s.rpos + width) (lenExtra symbol)) } := by
  obtain ⟨hskip, hread⟩ := skipBits_readBits hr
  rw [lengthCode, hskip, ok_bind, hread]
  rfl

/-- Settles O30: the code and its extra bits are read, and their length is in the range of its symbol. -/
theorem lengthCodesHoldTheirLength : Obligations.LengthCodesHoldTheirLength := by
  intro s i symbol hsym hp hr
  obtain ⟨hge, hle⟩ := length_range (lengthSymbol_range hsym) (s.field_lt (s.rpos + (encode i).length) _)
  refine ⟨_, rfl, hge, hle, ?_⟩
  rw [exec_lengthSymbol hsym, hp, atPlace_true, lengthCode_ok hr, settle_ok]

/-! ### The back-reference copy (43_deflate_decoder.md R178) -/

/-- A copy from before the cursor, with room for its bytes: each byte it writes is the byte at its source, which the copy
itself may have written. -/
theorem copyFrom_wrote {a k : Nat} {s : State} (ha : a < s.outPos) (hroom : Room s s.outPos k) :
    ∃ t, copyFrom a k s = .ok t ∧ Wrote s k t ∧ ∀ j, j < k → t.outByte (s.outPos + j) = t.outByte (a + j) := by
  induction k generalizing a s with
  | zero => exact ⟨s, rfl, .refl s, fun _ hj => absurd hj (Nat.not_lt_zero _)⟩
  | succ k ih =>
    obtain ⟨u, hu, hw, -, hbyte⟩ := outAppend_wrote (s.outByte a) (hroom 0 (Nat.succ_pos k))
    have hpos := hw.outPos
    obtain ⟨t, ht, hw', hcopy⟩ := ih (a := a + 1) (s := u) (by omega) (hw.room (by rwa [Nat.add_comm 1 k]))
    refine ⟨t, ?_, by rw [Nat.add_comm k 1]; exact hw.trans hw', fun j hj => ?_⟩
    · rw [copyFrom_succ, hu, ok_bind, ht]
    · cases j with
      | zero =>
        calc t.outByte s.outPos = u.outByte s.outPos := hw'.outByte (by omega)
          _ = s.outByte a := hbyte
          _ = u.outByte a := (hw.outByte (.inl ha)).symm
          _ = t.outByte a := (hw'.outByte (by omega)).symm
      | succ j =>
        have hj' := hcopy j (by omega)
        rwa [hpos, Nat.add_assoc, Nat.add_assoc, Nat.add_comm 1 j] at hj'

theorem distanceSymbol_le {i : Instr} {d : Nat} (h : distanceSymbol i = some d) : d ≤ 29 := by
  cases i with
  | dist0To15 | dist16To23 | dist24To27 | dist28To29 => cases h; omega
  | _ => cases h

/-- With its extra bits there and its distance within the output, a distance code is the copy. -/
theorem distanceCode_copies {len d dist : Nat} {s : State} (hr : s.canRead (5 + distExtra d) = true)
    (hd : dist = distBase d + s.field (s.rpos + 5) (distExtra d)) (hback : dist ≤ s.outPos) :
    distanceCode len d s =
      copyFrom (s.outPos - dist) len { s with rpos := s.rpos + 5 + distExtra d } >>= fun t =>
        .ok { t with phase := .litlen } := by
  obtain ⟨hskip, hread⟩ := skipBits_readBits hr
  rw [distanceCode, hskip, ok_bind, hread, ok_bind]
  dsimp only
  rw [← hd, copyBack, if_neg (Nat.not_lt.mpr hback)]
  rfl

/-- Settles O31: the distance is in the window, and the copy runs from that far before the cursor. -/
theorem distanceCodesCopy : Obligations.DistanceCodesCopy := by
  intro s i d len dist hd hlen hr hdist hback hroom
  obtain ⟨hge, hle, -⟩ :=
    distanceSymbolCodesItsDistance.2 d _ (distanceSymbol_le hd) (s.field_lt (s.rpos + 5) (distExtra d))
  rw [← hdist] at hge hle
  obtain ⟨t, ht, hw, hcopy⟩ := copyFrom_wrote (k := len) (a := s.outPos - dist)
    (s := { s with rpos := s.rpos + 5 + distExtra d }) (Nat.sub_lt_self hge hback) hroom
  have hframe := (copyFrom_frame ht).1
  refine ⟨hge, hle, { t with phase := .litlen }, ?_, fun k hk => ?_, fun a ha => hw.outByte ha, by rw [hframe]⟩
  · rw [exec_distanceSymbol hd, atDistance_some s _ len hlen, distanceCode_copies hr hdist hback, ht]
    rfl
  · rw [Nat.sub_add_comm hback]
    exact hcopy k hk

/-! ### The end of a block and of a stream (43_deflate_decoder.md R170, R179) -/

theorem exec_eob {s : State} (hp : s.atLitlen = true) (hr : s.canRead 7 = true) :
    exec .eob s = settle s (endBlock { s with rpos := s.rpos + 7 }) := by
  rw [exec, execEob, hp, atPlace_true, (skipBits_ok_iff 7 s _).mpr ⟨hr, rfl⟩]
  rfl

theorem endBlock_more {s : State} (h : s.bfinal = false) : endBlock s = .ok { s with phase := .blockHeader } := by
  rw [endBlock, h]
  rfl

theorem endBlock_final {s : State} (h : s.bfinal = true) : endBlock s = endStream s := if_pos h

theorem exec_eob_final {s : State} (hp : s.atLitlen = true) (hr : s.canRead 7 = true) (hf : s.bfinal = true) :
    exec .eob s = settle s (endStream { s with rpos := s.rpos + 7 }) := by
  rw [exec_eob hp hr, endBlock_final]
  exact hf

/-- Settles O33: with BFINAL = 0 the end of the block is the place before the next header. -/
theorem endOfBlockGoesToTheNextHeader : Obligations.EndOfBlockGoesToTheNextHeader := by
  intro s hp hr hf
  rw [exec_eob hp hr, endBlock_more, settle_ok]
  exact hf

theorem endStream_trailing {s : State} (h : s.consumed < s.rlen) : endStream s = .error .malformedStream :=
  bind_error (if_pos h)

theorem endStream_raw {s : State} (h : s.rlen ≤ s.consumed) (hc : s.cmdState = .busy .deflateDecompress) :
    endStream s = .ok (s.setOutput s.outPos).complete := by
  rw [endStream, checkNoTrailing, if_neg (Nat.not_lt.mpr h)]
  simp only [bind, Except.bind, hc]
  rfl

theorem endStream_gzip {s : State} (h : s.rlen ≤ s.consumed) (hc : s.cmdState = .busy .gzipDecompress) :
    endStream s = finishMember s := by
  rw [endStream, checkNoTrailing, if_neg (Nat.not_lt.mpr h)]
  simp only [bind, Except.bind, hc]

/-- The decoder went from `s` to `u` without leaving the command and holds the stream's whole output, each byte of it
listed as far as OUT listed it in `s`. -/
structure AtEnd (s : State) (out : List Byte) (u : State) : Prop where
  frame : u = { s with rpos := u.rpos, bfinal := u.bfinal, outPos := out.length, outBuf := u.outBuf }
  output : u.output out.length = out
  listed : ∀ a, a < out.length → (a < s.outPos → (tableRead s.outBuf a).isSome = true) →
    (tableRead u.outBuf a).isSome = true

namespace AtEnd

variable {s u : State} {out : List Byte}

theorem outPos (h : AtEnd s out u) : u.outPos = out.length := by rw [h.frame]
theorem cmdState (h : AtEnd s out u) : u.cmdState = s.cmdState := by rw [h.frame]
theorem errCode (h : AtEnd s out u) : u.errCode = s.errCode := by rw [h.frame]
theorem rlen (h : AtEnd s out u) : u.rlen = s.rlen := by rw [h.frame]
theorem inLen (h : AtEnd s out u) : u.inLen = s.inLen := by rw [h.frame]
theorem inByte (h : AtEnd s out u) : u.inByte = s.inByte := by rw [h.frame]; rfl
theorem crcResult (h : AtEnd s out u) : u.crcResult = s.crcResult := by rw [h.frame]
theorem hostKept (h : AtEnd s out u) : HostKept s u := by rw [h.frame]; exact ⟨rfl, rfl, rfl, rfl, rfl, rfl, rfl⟩

/-- Completing the command leaves the output as its result, whatever the CRC unit and CRC_RESULT hold. -/
theorem produced (h : AtEnd s out u) (herr : s.errCode = 0#4) (hlen : out.length < 2 ^ 32) (c w : Word) :
    Produced s ({ State.setOutput u.outPos { u with crc := c } with crcResult := w }).complete out := by
  refine ⟨⟨rfl, rfl, State.status_complete _, h.errCode.trans herr⟩, h.hostKept, ?_, fun a ha hold => ?_⟩
  · show lengthWord u.outPos u.freeCount = _
    rw [h.outPos, lengthWord, if_pos hlen]
  · have hbyte : (u.setOutput u.outPos).outByte a = u.outByte a :=
      State.setOutput_outByte (by rwa [h.outPos]) (Option.isSome_iff_exists.mp (h.listed a ha hold))
    have hout := bytesFrom_getD u.outByte 0 out.length a 0#8 ha
    rw [← State.output, h.output, Nat.zero_add] at hout
    exact hbyte.trans hout.symm

/-- The end of a raw stream: the trailing-data check, then success. -/
theorem endsRaw (h : AtEnd s out u) (hc : s.cmdState = .busy .deflateDecompress) (herr : s.errCode = 0#4)
    (hlen : out.length < 2 ^ 32) : EndsRaw s u.consumed out (settle s (endStream u)) := by
  refine ⟨fun hlt => ?_, fun hle => ?_⟩
  · obtain ⟨hfailed, hkept⟩ := takeError_failed false .malformedStream s
    rw [endStream_trailing (by rwa [h.rlen])]
    refine ⟨_, rfl, hfailed, hkept, ?_⟩
    rw [takeError_running_crcResult, hc]
    rfl
  · rw [endStream_raw (by rwa [h.rlen]) (h.cmdState.trans hc)]
    exact ⟨_, rfl, h.produced herr hlen u.crc u.crcResult, h.crcResult⟩

/-- The end of a gzip payload: the trailing-data check, the CRC32, the length, then success. -/
theorem endsMember (h : AtEnd s out u) (hc : s.cmdState = .busy .gzipDecompress) (herr : s.errCode = 0#4)
    (hlen : out.length < 2 ^ 32) : EndsMember s u.consumed out (settle s (endStream u)) := by
  refine ⟨fun hlt => ?_, fun hle => ?_⟩
  · rw [endStream_trailing (by rwa [h.rlen])]
    exact settle_error_failed _ s
  have hfit (w : Word) : BitVec.ofNat 32 out.length = w ↔ out.length = w.toNat := by
    rw [BitVec.toNat_eq, BitVec.toNat_ofNat, Nat.mod_eq_of_lt hlen]
  rw [endStream_gzip (by rwa [h.rlen]) (h.cmdState.trans hc), finishMember_eq, h.inLen, h.inByte, h.outPos, h.output]
  refine ⟨fun hcrc => ?_, fun hcrc => ⟨fun hl => ?_, fun hl => ?_⟩⟩
  · rw [if_pos hcrc]
    exact settle_error_failed _ s
  · rw [if_neg (not_not.mpr hcrc), if_pos (mt (hfit _).mp hl)]
    exact settle_error_failed _ s
  · rw [if_neg (not_not.mpr hcrc), if_neg (not_not.mpr ((hfit _).mpr hl))]
    have hdone := h.produced herr hlen (crcFold crcSeed out) (crc32 out)
    rw [h.outPos] at hdone
    exact ⟨_, rfl, hdone, rfl⟩

end AtEnd

/-- At an end-of-block code the output is what was decoded before it. -/
theorem atEnd_eob (s : State) : AtEnd s (s.output s.outPos) { s with rpos := s.rpos + 7 } := by
  have hlen : (s.output s.outPos).length = s.outPos := bytesFrom_length _ _ _
  refine ⟨by rw [hlen], by rw [hlen]; rfl, fun a ha hold => hold (by rwa [hlen] at ha)⟩

theorem atLitlen_of_phase {s : State} (hd : s.decompressing = true) (hp : s.phase = .litlen) : s.atLitlen = true := by
  simp [State.atLitlen, hd, hp]

/-- Settles O34: the trailing-data check, and the result of what was decoded before the code. -/
theorem endOfRawStream : Obligations.EndOfRawStream := by
  intro s hc hp herr hr hf hlen
  have hd : s.decompressing = true := by rw [State.decompressing, hc]
  have hlength : (s.output s.outPos).length = s.outPos := bytesFrom_length _ _ _
  rw [exec_eob_final (atLitlen_of_phase hd hp) hr hf]
  obtain ⟨htrailing, hdone⟩ := (atEnd_eob s).endsRaw hc herr (by rwa [hlength])
  refine ⟨htrailing, fun hle => ?_⟩
  obtain ⟨t, ht, ⟨hs, hkept, hout, hbytes⟩, hcrc⟩ := hdone hle
  rw [hlength] at hout hbytes
  refine ⟨t, ht, hs, hkept, hcrc, hout, fun a ha hold => ?_⟩
  rw [hbytes a ha fun _ => hold, State.output, bytesFrom_getD _ _ _ _ _ ha, Nat.zero_add]

/-- Settles O35: the trailing-data check and the footer's, with what was decoded before the code. -/
theorem gzipFooterChecks : Obligations.GzipFooterChecks := by
  intro s hc hp herr hr hf hlen
  have hd : s.decompressing = true := by rw [State.decompressing, hc]
  rw [exec_eob_final (atLitlen_of_phase hd hp) hr hf]
  exact (atEnd_eob s).endsMember hc herr (by rwa [State.output, bytesFrom_length])

/-! ### Block headers (43_deflate_decoder.md R171 to R174) -/

theorem blockHeader_canRead {α : Type} {final : Bool} {s : State} (hr : s.canRead 3 = true)
    (f : State → Except ErrKind α) :
    (blockHeader final s >>= f) = f { s with rpos := s.rpos + 3, bfinal := final } := by
  rw [blockHeader_bind, (skipBits_ok_iff 3 s _).mpr ⟨hr, rfl⟩]
  rfl

/-- Settles O37: the header is read, and its rule only moves to the symbol loop. -/
theorem fixedBlockEntersTheSymbolLoop : Obligations.FixedBlockEntersTheSymbolLoop := by
  intro s final hp hr
  rw [exec, execBlockFixed, hp, atPlace_true, blockHeader_canRead hr]
  rfl

/-- Settles O38: the header is read, and either rule raises the error. -/
theorem unsupportedBlockTypes : Obligations.UnsupportedBlockTypes := by
  intro s final hp hr
  refine ⟨?_, ?_⟩
  · rw [exec, execBlockDynamicUnsupported, hp, atPlace_true, blockHeader_canRead hr]
    exact settle_error_failed _ s
  · rw [exec, execBlockReserved, hp, atPlace_true, blockHeader_canRead hr]
    exact settle_error_failed _ s

/-! ### Stored blocks (43_deflate_decoder.md R172) -/

/-- The ones' complement of a 16-bit number. -/
theorem xor_ones {n : Nat} (h : n < 65536) : n ^^^ 0xFFFF = 65535 - n := by
  have hbits := lsbBits_complement (Nat.le_of_lt_succ h)
  have hread := congrArg (fun bits => takeLsb 16 (bits ++ [])) hbits
  simp only [takeLsb_lsbBits, Option.some.injEq, Prod.mk.injEq, and_true] at hread
  have hxor : n ^^^ 0xFFFF < 2 ^ 16 := Nat.xor_lt_two_pow h (by decide)
  omega

/-- LEN and NLEN agree exactly when they add up to all ones. -/
theorem complement_iff {len nlen : Nat} (h : nlen < 65536) : len ≠ nlen ^^^ 0xFFFF ↔ len + nlen ≠ 65535 := by
  rw [xor_ones h]
  omega

/-- The reader at a place of the stream, after a header with a given BFINAL. -/
def State.readAt (q : Nat) (final : Bool) (s : State) : State := { s with rpos := q, bfinal := final }

theorem readBits_readAt {s : State} {q n : Nat} (final : Bool) (h : q + n ≤ 8 * s.rlen + 7) :
    readBits n (s.readAt q final) = .ok (s.field q n, s.readAt (q + n) final) := by
  have hfield : (s.readAt q final).field q n = s.field q n := by apply State.field_congr <;> rfl
  rw [← hfield]
  exact (readBits_ok_iff n _ _).mpr ⟨(State.canRead_iff _ _).mpr h, rfl⟩

theorem storedBody_eq (s : State) :
    storedBody s = readBits 16 (alignReader s) >>= fun l => readBits 16 l.2 >>= fun m =>
      if l.1 ≠ m.1 ^^^ 0xFFFF then .error .malformedStream else copyRaw l.1 m.2 >>= endBlock := rfl

/-- With LEN and NLEN there, a stored block is their check, the raw bytes and the end of the block. -/
theorem storedBlock_eq {s : State} (final : Bool) (h : rawStart s 0 ≤ 8 * s.rlen + 7) :
    (blockHeader final s >>= storedBody) =
      if storedLen s + storedNlen s ≠ 65535 then .error .malformedStream
      else copyRaw (storedLen s) (s.readAt (rawStart s 0) final) >>= endBlock := by
  have hraw : rawStart s 0 = storedStart s + 16 + 16 := rfl
  have hheader : s.canRead 3 = true := by
    rw [State.canRead_iff]
    have : storedStart s = 8 * ((s.rpos + 3 + 7) / 8) := rfl
    omega
  have hlen := readBits_readAt (s := s) (q := storedStart s) (n := 16) final (by omega)
  have hnlen := readBits_readAt (s := s) (q := storedStart s + 16) (n := 16) final (by omega)
  have halign : alignReader { s with rpos := s.rpos + 3, bfinal := final } = s.readAt (storedStart s) final := rfl
  have hcheck : storedLen s ≠ storedNlen s ^^^ 0xFFFF ↔ storedLen s + storedNlen s ≠ 65535 :=
    complement_iff (s.field_lt _ 16)
  rw [blockHeader_canRead hheader, storedBody_eq, halign, hlen, ok_bind, hnlen, ok_bind, ← hraw]
  exact if_congr hcheck rfl rfl

/-- Raw bytes that are all there and have room are appended one by one. -/
theorem copyRaw_wrote {k : Nat} {s : State} (hr : s.rpos + 8 * k ≤ 8 * s.rlen + 7) (hroom : Room s s.outPos k) :
    ∃ t, copyRaw k s = .ok t ∧ Wrote s k t ∧
      ∀ j, j < k → t.outByte (s.outPos + j) = BitVec.ofNat 8 (s.field (s.rpos + 8 * j) 8) := by
  induction k generalizing s with
  | zero => exact ⟨s, rfl, .refl s, fun _ hj => absurd hj (Nat.not_lt_zero _)⟩
  | succ k ih =>
    have hread := (readBits_ok_iff 8 s _).mpr ⟨(s.canRead_iff 8).mpr (by omega), rfl⟩
    obtain ⟨u, hu, hw, hrpos, hbyte⟩ := outAppend_wrote (s := { s with rpos := s.rpos + 8 })
      (BitVec.ofNat 8 (s.field s.rpos 8)) (hroom 0 (Nat.succ_pos k))
    replace hw := hw.of_rpos
    have hpos := hw.outPos
    have hfield (q : Nat) : u.field q 8 = s.field q 8 := by apply State.field_congr <;> rw [hw.frame]
    obtain ⟨t, ht, hw', hbytes⟩ := ih (s := u) (by rw [hrpos, hw.rlen]; dsimp only; omega)
      (hw.room (by rwa [Nat.add_comm 1 k]))
    refine ⟨t, ?_, by rw [Nat.add_comm k 1]; exact hw.trans hw', fun j hj => ?_⟩
    · rw [copyRaw_succ, hread, ok_bind, hu, ok_bind, ht]
    · cases j with
      | zero => exact (hw'.outByte (by omega)).trans hbyte
      | succ j =>
        have hj' := hbytes j (by omega)
        rw [hpos, hrpos, hfield] at hj'
        rwa [Nat.add_assoc, Nat.add_comm 1 j, show s.rpos + 8 + 8 * j = s.rpos + 8 * (j + 1) by omega] at hj'

theorem rawBytes_length (s : State) : (rawBytes s).length = storedLen s := by
  rw [rawBytes, List.length_map, List.length_range]

theorem rawBytes_getD {s : State} {k : Nat} (h : k < storedLen s) :
    (rawBytes s).getD k 0#8 = BitVec.ofNat 8 (s.field (rawStart s k) 8) := by
  simp [rawBytes, List.getD, h]

/-- The raw bytes of the stored block at the reader, all there and with room, are appended. -/
theorem copyRaw_rawBytes {s : State} (final : Bool) (hr : rawStart s (storedLen s) ≤ 8 * s.rlen + 7)
    (hroom : Room s s.outPos (storedLen s)) :
    ∃ u, copyRaw (storedLen s) (s.readAt (rawStart s 0) final) = .ok u ∧
      Wrote (s.readAt (rawStart s 0) final) (storedLen s) u ∧ u.rpos = rawStart s (storedLen s) ∧
      ∀ k, k < storedLen s → u.outByte (s.outPos + k) = (rawBytes s).getD k 0#8 := by
  obtain ⟨u, hu, hw, hbytes⟩ := copyRaw_wrote (k := storedLen s) (s := s.readAt (rawStart s 0) final) hr hroom
  refine ⟨u, hu, hw, by rw [copyRaw_frame hu]; rfl, fun k hk => ?_⟩
  rw [rawBytes_getD hk]
  refine (hbytes k hk).trans (congrArg (BitVec.ofNat 8) ?_)
  apply State.field_congr <;> rfl

theorem bytesFrom_add (view : Nat → Byte) (a m n : Nat) :
    bytesFrom view a (m + n) = bytesFrom view a m ++ bytesFrom view (a + m) n := by
  induction n with
  | zero => simp [bytesFrom]
  | succ n ih => rw [← Nat.add_assoc, bytesFrom_succ_last, bytesFrom_succ_last, ih, List.append_assoc, Nat.add_assoc]

/-- The bytes of a view are a list where the view holds its entries. -/
theorem bytesFrom_eq_of_beginsWith {view : Nat → Byte} {a : Nat} {bytes : List Byte} (h : BeginsWith view a bytes) :
    bytesFrom view a bytes.length = bytes := by
  refine List.ext_getElem (bytesFrom_length _ _ _) fun k hk hk' => ?_
  rw [← List.getD_eq_getElem _ 0#8, ← List.getD_eq_getElem _ 0#8, bytesFrom_getD _ _ _ _ _ hk', h k hk']

/-- After the bytes of the last block the output is what was decoded before it and those bytes. -/
theorem Wrote.atEnd {s u : State} {q : Nat} {final : Bool} {bytes : List Byte}
    (h : Wrote (s.readAt q final) bytes.length u) (hb : BeginsWith u.outByte s.outPos bytes) :
    AtEnd s (s.output s.outPos ++ bytes) u := by
  have hlen : (s.output s.outPos ++ bytes).length = s.outPos + bytes.length := by
    rw [List.length_append, State.output, bytesFrom_length]
  have hold : bytesFrom u.outByte 0 s.outPos = s.output s.outPos :=
    bytesFrom_congr fun k hk => h.outByte (.inl (by rwa [Nat.zero_add]))
  refine ⟨?_, ?_, fun a ha hlisted => ?_⟩
  · rw [hlen, h.frame]
    rfl
  · rw [hlen, State.output, bytesFrom_add, hold, Nat.zero_add, bytesFrom_eq_of_beginsWith hb]
  · rw [hlen] at ha
    rcases Nat.lt_or_ge a s.outPos with hlt | hge
    · rw [h.others a (.inl hlt)]
      exact hlisted hlt
    · obtain ⟨k, rfl⟩ := Nat.exists_eq_add_of_le hge
      exact h.listed k (by omega)

/-- Settles O36: the check of LEN and NLEN, and then the raw bytes and the end of the block. -/
theorem storedBlockCopiesRawBytes : Obligations.StoredBlockCopiesRawBytes := by
  intro s hp
  refine ⟨fun hr hne final => ?_, fun hr heq hroom => ?_⟩
  · rw [exec_blockStored hp, storedBlock_eq final hr, if_pos hne]
    exact settle_error_failed _ s
  have hexec (final : Bool) {u : State} (hu : copyRaw (storedLen s) (s.readAt (rawStart s 0) final) = .ok u) :
      exec (.blockStored final) s = settle s (endBlock u) := by
    have hr0 : rawStart s 0 ≤ rawStart s (storedLen s) := Nat.add_le_add_left (Nat.zero_le _) _
    rw [exec_blockStored hp, storedBlock_eq final (hr0.trans hr), if_neg (not_not.mpr heq), hu]
    rfl
  refine ⟨?_, fun herr hlen => ?_⟩
  · obtain ⟨u, hu, hw, -, hbytes⟩ := copyRaw_rawBytes false hr hroom
    have hframe := copyRaw_frame hu
    refine ⟨{ u with phase := .blockHeader }, ?_, hbytes, fun a ha => hw.outByte ha, by rw [hframe]; rfl⟩
    rw [hexec false hu, endBlock_more (by rw [hframe]; rfl), settle_ok]
  · obtain ⟨u, hu, hw, hrpos, hbytes⟩ := copyRaw_rawBytes true hr hroom
    have hfinal : u.bfinal = true := by rw [hw.frame]; rfl
    have hend : AtEnd s (s.output s.outPos ++ rawBytes s) u :=
      Wrote.atEnd (by rwa [rawBytes_length]) fun k hk => hbytes k (by rwa [rawBytes_length] at hk)
    have hlen' : (s.output s.outPos ++ rawBytes s).length < 2 ^ 32 := by
      rwa [List.length_append, State.output, bytesFrom_length, rawBytes_length]
    have hused : u.consumed = rawStart s (storedLen s) / 8 := by
      have hbyte : rawStart s (storedLen s) = 8 * ((s.rpos + 3 + 7) / 8) + 32 + 8 * storedLen s := rfl
      rw [State.consumed, hrpos]
      omega
    rw [hexec true hu, endBlock_final hfinal, ← hused]
    exact ⟨fun hc => hend.endsRaw hc herr hlen', fun hc => hend.endsMember hc herr hlen'⟩

end Sys2Proof.Machine

namespace Sys2Proof.Machine

open Sys2Proof.Ref

/-! ### The optional fields one by one (44_gzip_framer.md R211) -/

/-- A zero-terminated field whose zero byte comes within the fuel is skipped to the offset after it. -/
theorem skipZstring_terminated {b : Nat → Byte} {fuel a c : Nat} (hac : a < c) (hfuel : c ≤ a + fuel)
    (hz : b (c - 1) = 0#8) (hne : ∀ k, a ≤ k → k + 1 < c → b k ≠ 0#8) : skipZstring b fuel a = .ok c := by
  induction fuel generalizing a with
  | zero => omega
  | succ fuel ih =>
    rw [skipZstring]
    rcases Nat.eq_or_lt_of_le (Nat.succ_le_of_lt hac) with rfl | hlt
    · exact if_pos hz
    · rw [if_neg (hne a (Nat.le_refl a) hlt)]
      exact ih hlt (by omega) fun k hk => hne k (by omega)

/-- Without a zero byte before `stop` a zero-terminated field runs past it. -/
theorem skipZstring_unterminated {b : Nat → Byte} {stop a : Nat} (ha : a ≤ stop)
    (hne : ∀ k, a ≤ k → k < stop → b k ≠ 0#8) : skipZstring b (stop - a) a = .error .malformedStream := by
  obtain ⟨fuel, rfl⟩ := Nat.exists_eq_add_of_le ha
  rw [Nat.add_sub_cancel_left]
  induction fuel generalizing a with
  | zero => rfl
  | succ fuel ih =>
    rw [skipZstring, if_neg (hne a (Nat.le_refl a) (by omega))]
    exact ih (by omega) fun k hk hlt => hne k (by omega) (by omega)

/-- FEXTRA, if present, is skipped where it ends before the footer, and is malformed where it does not. -/
theorem skipExtra_of_afterExtra {b : Nat → Byte} {flg : Byte} {stop a : Nat} (hstop : 10 ≤ stop)
    (h : AfterExtra b flg a) :
    (if flg.getLsbD 2 then skipExtra b stop 10 else .ok 10) = if stop < a then .error .malformedStream else .ok a := by
  unfold AfterExtra at h
  split at h
  · next hf =>
    rw [if_pos hf, skipExtra]
    split
    · rw [if_pos (by omega)]
    · subst h; rfl
  · next hf => rw [if_neg hf, h, if_neg (by omega)]

/-- A zero-terminated field, if present, is skipped where it ends before the footer. -/
theorem skipZstring_of_afterText {b : Nat → Byte} {on : Bool} {stop a c : Nat} (h : AfterText b on a c)
    (hc : c ≤ stop) : (if on then skipZstring b (stop - a) a else .ok a) = .ok c := by
  cases on with
  | false => exact congrArg Except.ok (show a = c from Eq.symm h)
  | true =>
    obtain ⟨hac, hz, hne⟩ := h
    exact skipZstring_terminated hac (by omega) hz hne

theorem afterText_le {b : Nat → Byte} {on : Bool} {a c : Nat} (h : AfterText b on a c) : a ≤ c := by
  cases on with
  | false => exact Nat.le_of_eq (Eq.symm h)
  | true => exact Nat.le_of_lt h.1

/-! ### FEXTRA, FNAME and FCOMMENT together -/

/-- FEXTRA, FNAME and FCOMMENT, those that FLG selects, end before offset `c`. -/
def FieldsEnd (view : Nat → Byte) (flg : Byte) (c : Nat) : Prop :=
  ∃ a b, AfterExtra view flg a ∧ AfterText view (flg.getLsbD 3) a b ∧ AfterText view (flg.getLsbD 4) b c

section Fields

variable {view : Nat → Byte} {flg : Byte} {stop a b c : Nat}

theorem skipFields_of_fieldsEnd (hstop : 10 ≤ stop) (h : FieldsEnd view flg c) (hc : c ≤ stop) :
    skipFields view flg stop = .ok c := by
  obtain ⟨a, b, ha, hb, hcc⟩ := h
  have hbc := afterText_le hcc
  have hab := afterText_le hb
  rw [skipFields_eq, skipExtra_of_afterExtra hstop ha, if_neg (by omega), ok_bind,
    skipZstring_of_afterText hb (by omega), ok_bind, skipZstring_of_afterText hcc hc]

theorem skipFields_extra_beyond (hstop : 10 ≤ stop) (ha : AfterExtra view flg a) (hlt : stop < a) :
    skipFields view flg stop = .error .malformedStream := by
  rw [skipFields_eq, skipExtra_of_afterExtra hstop ha, if_pos hlt]
  rfl

theorem skipFields_name_unterminated (hstop : 10 ≤ stop) (ha : AfterExtra view flg a) (hle : a ≤ stop)
    (hf : flg.getLsbD 3 = true) (hne : ∀ k, a ≤ k → k < stop → view k ≠ 0#8) :
    skipFields view flg stop = .error .malformedStream := by
  rw [skipFields_eq, skipExtra_of_afterExtra hstop ha, if_neg (by omega), ok_bind, if_pos hf,
    skipZstring_unterminated hle hne]
  rfl

theorem skipFields_comment_unterminated (hstop : 10 ≤ stop) (ha : AfterExtra view flg a)
    (hb : AfterText view (flg.getLsbD 3) a b) (hle : b ≤ stop) (hf : flg.getLsbD 4 = true)
    (hne : ∀ k, b ≤ k → k < stop → view k ≠ 0#8) : skipFields view flg stop = .error .malformedStream := by
  have hab := afterText_le hb
  rw [skipFields_eq, skipExtra_of_afterExtra hstop ha, if_neg (by omega), ok_bind,
    skipZstring_of_afterText hb hle, ok_bind, if_pos hf, skipZstring_unterminated hle hne]

end Fields

/-! ### The member header's rule (44_gzip_framer.md R210) -/

section MemberHeader

variable {s : State} {flg : Byte} {c : Nat}

theorem exec_gzipMember (hp : s.atHeader = true) (mtime : Word) (xfl os : Byte) :
    exec (.gzipMember flg mtime xfl os) s = settle s (memberHeader flg s) := by
  rw [exec, execGzipMember, hp, atPlace_true]

theorem exec_gzipMember_failed {e : ErrKind} (hp : s.atHeader = true) (h : memberHeader flg s = .error e)
    (mtime : Word) (xfl os : Byte) :
    ∃ t, exec (.gzipMember flg mtime xfl os) s = .next t ∧ Failed e t ∧ HostKept s t := by
  rw [exec_gzipMember hp, h]
  exact settle_error_failed e s

theorem memberHeader_short (h : s.inLen.toNat < 18) : memberHeader flg s = .error .malformedStream := if_pos h

theorem memberHeader_eq (h : 18 ≤ s.inLen.toNat) :
    memberHeader flg s = skipFields s.inByte flg (s.inLen.toNat - 8) >>= fun c =>
      (if flg.getLsbD 1 then checkHeaderCrc (s.inLen.toNat - 8) c s else .ok (c, s)) >>= fun r =>
        .ok (openPayload r.1 (s.inLen.toNat - 8) r.2) := by
  rw [memberHeader, if_neg (by omega), optionalFields]
  cases skipFields s.inByte flg (s.inLen.toNat - 8) <;> rfl

theorem memberHeader_skipFields_error {e : ErrKind} (h : 18 ≤ s.inLen.toNat)
    (he : skipFields s.inByte flg (s.inLen.toNat - 8) = .error e) : memberHeader flg s = .error e := by
  rw [memberHeader_eq h, he]
  rfl

/-- With the fields before it ended before the footer, FHCRC is the last check. -/
theorem memberHeader_of_fieldsEnd (h : 18 ≤ s.inLen.toNat) (hend : FieldsEnd s.inByte flg c)
    (hc : c ≤ s.inLen.toNat - 8) :
    memberHeader flg s =
      (if flg.getLsbD 1 then checkHeaderCrc (s.inLen.toNat - 8) c s else .ok (c, s)) >>= fun r =>
        .ok (openPayload r.1 (s.inLen.toNat - 8) r.2) := by
  rw [memberHeader_eq h, skipFields_of_fieldsEnd (by omega) hend hc, ok_bind]

theorem memberHeader_crc_error {e : ErrKind} (h : 18 ≤ s.inLen.toNat) (hend : FieldsEnd s.inByte flg c)
    (hc : c ≤ s.inLen.toNat - 8) (hf : flg.getLsbD 1 = true)
    (he : checkHeaderCrc (s.inLen.toNat - 8) c s = .error e) : memberHeader flg s = .error e := by
  rw [memberHeader_of_fieldsEnd h hend hc, if_pos hf, he]
  rfl

end MemberHeader

/-! ### A header's bytes in a view (30_encoding.md R90, R91) -/

theorem beginsWith_append {view : Nat → Byte} {a : Nat} {xs ys : List Byte} (h : BeginsWith view a (xs ++ ys)) :
    BeginsWith view a xs ∧ BeginsWith view (a + xs.length) ys := by
  refine ⟨fun k hk => ?_, fun k hk => ?_⟩
  · rw [h k (by rw [List.length_append]; omega), List.getD_append _ _ _ _ hk]
  · rw [Nat.add_assoc, h (xs.length + k) (by rw [List.length_append]; omega),
      List.getD_append_right _ _ _ _ (Nat.le_add_right _ _), Nat.add_sub_cancel_left]

theorem rd16_of_beginsWith {view : Nat → Byte} {a n : Nat} (h : BeginsWith view a (le16 n)) :
    rd16 view a = BitVec.ofNat 16 n := by
  have hlow : view a = BitVec.ofNat 8 n := h 0 Nat.two_pos
  have hhigh : view (a + 1) = BitVec.ofNat 8 (n / 256) := h 1 Nat.one_lt_two
  apply BitVec.eq_of_toNat_eq
  rw [rd16, hlow, hhigh, BitVec.toNat_append, BitVec.toNat_ofNat, BitVec.toNat_ofNat, BitVec.toNat_ofNat,
    ← Nat.shiftLeft_add_eq_or_of_lt (by omega), Nat.shiftLeft_eq]
  omega

theorem afterText_of_beginsWith {view : Nat → Byte} {a : Nat} {field : Option (List Byte)}
    (hok : ∀ text, field = some text → 0#8 ∉ text) (h : BeginsWith view a (zeroTerminated field)) :
    AfterText view field.isSome a (a + (zeroTerminated field).length) := by
  cases field with
  | none => rfl
  | some text =>
    obtain ⟨htext, hzero⟩ := beginsWith_append h
    have hlen : a + (zeroTerminated (some text)).length = a + text.length + 1 := by
      rw [zeroTerminated, List.length_append]; rfl
    rw [hlen]
    refine ⟨by omega, hzero 0 Nat.one_pos, fun k hk hlt heq => hok text rfl ?_⟩
    obtain ⟨j, rfl⟩ := Nat.exists_eq_add_of_le hk
    have hj : j < text.length := by omega
    rw [htext j hj, List.getD_eq_getElem _ _ hj] at heq
    exact heq ▸ List.getElem_mem hj

/-- FEXTRA as a header holds it: its length and its data. -/
def extraBytes : Option (List Byte) → List Byte
  | none => []
  | some data => le16 data.length ++ data

/-- The ten bytes that every header begins with. -/
def fixedBytes (h : Header) : List Byte := [0x1f#8, 0x8b#8, 8#8, h.flg] ++ le32 h.mtime ++ [h.xfl, h.os]

theorem fixedBytes_length (h : Header) : (fixedBytes h).length = 10 := rfl

theorem header_front_eq (h : Header) :
    h.front = fixedBytes h ++ extraBytes h.extra ++ zeroTerminated h.name ++ zeroTerminated h.comment := by
  rw [Header.front]
  cases h.extra <;> rfl

/-- A flag's bit stands where the flag is set. -/
theorem getLsbD_flag (on : Bool) (v : Byte) (i : Nat) :
    (if on then v else 0#8).getLsbD i = (on && v.getLsbD i) := by
  cases on
  · exact BitVec.getLsbD_zero
  · rfl

theorem header_flg_bits (h : Header) :
    h.flg.getLsbD 1 = h.headerCrc ∧ h.flg.getLsbD 2 = h.extra.isSome ∧ h.flg.getLsbD 3 = h.name.isSome ∧
      h.flg.getLsbD 4 = h.comment.isSome := by
  simp only [Header.flg, BitVec.getLsbD_or, BitVec.getLsbD_and, getLsbD_flag]
  simp

theorem afterExtra_of_beginsWith {view : Nat → Byte} {flg : Byte} {field : Option (List Byte)}
    (hflg : flg.getLsbD 2 = field.isSome) (hok : ∀ data, field = some data → data.length < 65536)
    (h : BeginsWith view 10 (extraBytes field)) : AfterExtra view flg (10 + (extraBytes field).length) := by
  rw [AfterExtra, hflg]
  cases field with
  | none => rfl
  | some data =>
    have hlen := hok data rfl
    have hrd := rd16_of_beginsWith (beginsWith_append h).1
    have htwo : (le16 data.length).length = 2 := rfl
    rw [Option.isSome_some, if_pos rfl, hrd, extraBytes, List.length_append, BitVec.toNat_ofNat]
    omega

/-- The fields of a well-formed header end where its bytes before FHCRC do. -/
theorem header_fieldsEnd {view : Nat → Byte} {h : Header} (hok : h.ok) (hb : BeginsWith view 0 h.front) :
    FieldsEnd view h.flg h.front.length := by
  obtain ⟨hextra, hname, hcomment⟩ := hok
  obtain ⟨-, hflgExtra, hflgName, hflgComment⟩ := header_flg_bits h
  rw [header_front_eq] at hb ⊢
  obtain ⟨hb, hbComment⟩ := beginsWith_append hb
  obtain ⟨hb, hbName⟩ := beginsWith_append hb
  obtain ⟨-, hbExtra⟩ := beginsWith_append hb
  rw [Nat.zero_add, fixedBytes_length] at hbExtra
  rw [Nat.zero_add, List.length_append, fixedBytes_length] at hbName
  rw [Nat.zero_add, List.length_append, List.length_append, fixedBytes_length] at hbComment
  rw [List.length_append, List.length_append, List.length_append, fixedBytes_length]
  have hext := afterExtra_of_beginsWith hflgExtra hextra hbExtra
  have htext := afterText_of_beginsWith hname hbName
  have hlast := afterText_of_beginsWith hcomment hbComment
  rw [← hflgName] at htext
  rw [← hflgComment] at hlast
  exact ⟨_, _, hext, htext, hlast⟩

theorem header_front_length_ge (h : Header) : 10 ≤ h.front.length := by
  rw [header_front_eq, List.length_append, List.length_append, List.length_append, fixedBytes_length]
  omega

/-! ### The statements of the member header -/

/-- FHCRC as a header holds it passes the check, and the CRC unit has run over the bytes before it. -/
theorem checkHeaderCrc_header {s : State} {h : Header} {stop : Nat} (hc : h.headerCrc = true)
    (hb : BeginsWith s.inByte 0 h.bytes) (hstop : h.front.length + 2 ≤ stop) :
    checkHeaderCrc stop h.front.length s = .ok (h.front.length + 2, s.runCrc h.front) := by
  rw [Header.bytes, if_pos hc] at hb
  obtain ⟨hfront, hcrc⟩ := beginsWith_append hb
  rw [Nat.zero_add] at hcrc
  rw [checkHeaderCrc_ok_iff, bytesFrom_eq_of_beginsWith hfront, rd16_of_beginsWith hcrc]
  refine ⟨hstop, BitVec.eq_of_toNat_eq ?_, rfl⟩
  rw [BitVec.toNat_ofNat, BitVec.toNat_setWidth]
  exact Nat.mod_mod _ _

/-- Settles O39: the fields before FHCRC end where the header's bytes before it do, and then the payload begins, after
FHCRC and its run of the CRC unit or at once. -/
theorem gzipHeaderHandsOverThePayload : Obligations.GzipHeaderHandsOverThePayload := by
  intro s h hok hp hb hlen
  have hten := header_front_length_ge h
  have hfront : BeginsWith s.inByte 0 h.front := (beginsWith_append hb).1
  have hcrcBit := (header_flg_bits h).1
  cases hc : h.headerCrc with
  | false =>
    have hbytes : h.bytes = h.front := by rw [Header.bytes, hc]; exact List.append_nil _
    rw [hbytes] at hlen ⊢
    rw [exec_gzipMember hp, memberHeader_of_fieldsEnd (by omega) (header_fieldsEnd hok hfront) (by omega), hcrcBit, hc]
    rfl
  | true =>
    have hbytes : h.bytes.length = h.front.length + 2 := by
      rw [Header.bytes, hc, if_pos rfl, List.length_append]; rfl
    rw [hbytes] at hlen ⊢
    rw [exec_gzipMember hp, memberHeader_of_fieldsEnd (by omega) (header_fieldsEnd hok hfront) (by omega), hcrcBit, hc,
      if_pos rfl, checkHeaderCrc_header hc hb (by omega), ok_bind, settle_ok, openPayload, State.runCrc, if_pos rfl,
      crcSeed]

/-- Settles O40: each field that does not end before the footer, and a wrong header CRC, is the error that the rule
raises once the fields before it are skipped. -/
theorem gzipHeaderErrors : Obligations.GzipHeaderErrors := by
  rintro s _ hp rfl
  refine ⟨fun hshort flg => exec_gzipMember_failed hp (memberHeader_short hshort), ?_, ?_⟩
  · intro hlen flg mtime xfl os a ha
    have hstop : 10 ≤ s.inLen.toNat - 8 := by omega
    have hskip (he : skipFields s.inByte flg (s.inLen.toNat - 8) = .error .malformedStream) :=
      exec_gzipMember_failed hp (memberHeader_skipFields_error hlen he) mtime xfl os
    refine ⟨fun hlt => hskip (skipFields_extra_beyond hstop ha hlt),
      fun hle hf hne => hskip (skipFields_name_unterminated hstop ha hle hf hne),
      fun b _ hab hb => ⟨fun hf hne => hskip (skipFields_comment_unterminated hstop ha hab hb hf hne), ?_⟩⟩
    intro c hbc hc hf
    have hcrc {e : ErrKind} (he : checkHeaderCrc (s.inLen.toNat - 8) c s = .error e) :=
      exec_gzipMember_failed hp (memberHeader_crc_error hlen ⟨a, b, ha, hab, hbc⟩ hc hf he) mtime xfl os
    exact ⟨fun hlt => hcrc ((checkHeaderCrc_error_iff _ _ _ _).mpr (.inl ⟨hlt, rfl⟩)),
      fun hle hne => hcrc ((checkHeaderCrc_error_iff _ _ _ _).mpr (.inr ⟨hle, hne, rfl⟩))⟩
  · intro h hok hc hb hlen hne
    have hten := header_front_length_ge h
    have hdiffer : rd16 s.inByte h.front.length ≠ (crc32 (bytesFrom s.inByte 0 h.front.length)).setWidth 16 := by
      rw [bytesFrom_eq_of_beginsWith hb]
      exact fun heq => hne (by rw [heq, BitVec.toNat_setWidth])
    have he := (checkHeaderCrc_error_iff (s.inLen.toNat - 8) h.front.length s _).mpr
      (.inr ⟨by omega, hdiffer, rfl⟩)
    exact exec_gzipMember_failed hp
      (memberHeader_crc_error (by omega) (header_fieldsEnd hok hb) (by omega) ((header_flg_bits h).1.trans hc) he) _ _ _

end Sys2Proof.Machine

namespace Sys2Proof.Machine

/-! ### The steps of the CRC table (45_crc32.md R230, R232)

A step is linear over XOR and only shifts a word whose low bit is 0, so the table need only hold what eight steps make of
the low byte. -/

theorem crcShift_xor (a b : Word) : crcShift (a ^^^ b) = crcShift a ^^^ crcShift b := by
  rw [crcShift, crcShift, crcShift, BitVec.getLsbD_xor, BitVec.ushiftRight_xor_distrib]
  cases a.getLsbD 0 <;> cases b.getLsbD 0
  · rfl
  · exact BitVec.xor_assoc _ _ _
  · change (a >>> 1) ^^^ (b >>> 1) ^^^ 0xEDB88320#32 = (a >>> 1) ^^^ 0xEDB88320#32 ^^^ (b >>> 1)
    ac_rfl
  · calc (a >>> 1) ^^^ (b >>> 1)
      _ = (a >>> 1) ^^^ (b >>> 1) ^^^ (0xEDB88320#32 ^^^ 0xEDB88320#32) := by rw [BitVec.xor_self, BitVec.xor_zero]
      _ = (a >>> 1) ^^^ 0xEDB88320#32 ^^^ ((b >>> 1) ^^^ 0xEDB88320#32) := by ac_rfl

theorem crcShifts_xor (j : Nat) (a b : Word) : crcShifts j (a ^^^ b) = crcShifts j a ^^^ crcShifts j b := by
  induction j generalizing a b with
  | zero => rfl
  | succ j ih => rw [crcShifts, crcShift_xor, ih]; rfl

/-- While the bits that leave the word are 0, no step adds the polynomial. -/
theorem crcShifts_of_low_clear {j : Nat} {c : Word} (h : ∀ i < j, c.getLsbD i = false) : crcShifts j c = c >>> j := by
  induction j generalizing c with
  | zero => exact (BitVec.ushiftRight_zero c).symm
  | succ j ih =>
    have hshift : crcShift c = c >>> 1 := by rw [crcShift, h 0 j.succ_pos]; rfl
    have hclear : ∀ i < j, (c >>> 1).getLsbD i = false := fun i hi => by
      rw [BitVec.getLsbD_ushiftRight]; exact h _ (by omega)
    rw [crcShifts, hshift, ih hclear, ← BitVec.shiftRight_add, Nat.add_comm]

theorem crcShifts_high_bytes (c : Word) : crcShifts 8 (c >>> 8 <<< 8) = c >>> 8 := by
  have hclear : ∀ i < 8, (c >>> 8 <<< 8).getLsbD i = false := fun i hi => by simp [hi]
  rw [crcShifts_of_low_clear hclear]
  ext i
  simpa using BitVec.lt_of_getLsbD

theorem xor_byte_eq_low_xor_high (c : Word) (b : Byte) :
    c ^^^ b.setWidth 32 = ((c ^^^ b.setWidth 32).setWidth 8).setWidth 32 ^^^ (c >>> 8 <<< 8) := by
  refine BitVec.eq_of_getLsbD_eq fun i hi => ?_
  by_cases h : i < 8
  · simp [h, hi]
  · simp [h, hi, BitVec.getLsbD_of_ge b i (by omega), Nat.add_sub_cancel' (Nat.le_of_not_lt h)]

/-- Settles O27: by linearity the steps run on the low byte, which is the table's entry, and on the rest, which they only
shift. -/
theorem crcTableStepIsEightShifts : Obligations.CrcTableStepIsEightShifts := by
  intro c b
  rw [xor_byte_eq_low_xor_high, crcShifts_xor, crcShifts_high_bytes]
  rfl

end Sys2Proof.Machine

namespace Sys2Proof.Machine

open Sys2Proof.Ref

/-! ### DEFLATE_COMPRESS that succeeds (46_commands.md R243) -/

/-- Settles O48: of the three ways in which the command ends, a block that can be written and has room leaves one. -/
theorem deflateCompressResult : Obligations.DeflateCompressResult := by
  rintro s _ hi hp hle hnt rfl hroom hlen
  obtain ⟨t, ht, ⟨hkept, hcrc, hres⟩, -⟩ := deflateCompress_ends hi hp hle
  cases hres with
  | tooLarge hbig => exact absurd hbig hnt
  | noRoom _ hr => exact absurd hroom hr
  | done _ hs _ hout hbytes =>
    rw [lengthWord, if_pos hlen] at hout
    exact ⟨t, ht, hs, hkept, hcrc, hout, hbytes⟩

/-! ### CMD words and commands that end at their start (46_commands.md R240, R242, R248, R249) -/

theorem hostKept_refl (s : State) : HostKept s s := ⟨rfl, rfl, rfl, rfl, rfl, rfl, rfl⟩

theorem begin_hostKept (c : CmdState) (s : State) : HostKept s (s.begin c) := hostKept_refl s

/-- Settles O8: the host's turn of an IDLE block is due, and every CMD word decodes to a well-formed instruction. -/
theorem stepRunsTheCommandWord : Obligations.StepRunsTheCommandWord := by
  intro s after w rest hi hs
  refine ⟨(decodeCmd_encodes w).wf, ?_⟩
  rw [step_writeReg_due (.inl hi) hs, hostWrite, regAccessOk_aligned rfl (Nat.zero_le _)]
  rfl

theorem exec_reservedCmd_idle {s : State} (hi : s.cmdState = .idle) (w : Word) :
    exec (.reservedCmd w) s = .next (takeError true .illegalCommand (s.begin .idle)) :=
  whenIdle_idle s _ (State.busy_idle s hi)

theorem State.begin_idle_eq {s : State} (hi : s.cmdState = .idle) :
    s.begin .idle = { s with doneBit := false, errorBit := false, errCode := 0#4 } := by
  rw [State.begin, ← hi]

/-- Settles O22: CLEAR only begins no command, and a word of OP 0 with a bit of RSVD is reserved. -/
theorem clearClearsOnlyTheFlags : Obligations.ClearClearsOnlyTheFlags := by
  intro s hi
  rw [← State.begin_idle_eq hi]
  refine ⟨whenIdle_idle s _ (State.busy_idle s hi), State.status_begin_idle s, fun w _ hrsvd => ?_⟩
  have hreserved : reservedWord w = true := by simp [reservedWord, hrsvd]
  rw [decodeCmd_reserved_eq hreserved, exec_reservedCmd_idle hi]
  exact ⟨_, rfl, (takeError_failed true .illegalCommand _).1⟩

/-- Settles O23: a reserved word is its own instruction, whose error is one of the start checks. -/
theorem reservedWordsRaiseIllegalCommand : Obligations.ReservedWordsRaiseIllegalCommand := by
  intro s w hi hreserved
  obtain ⟨hfailed, hkept⟩ := takeError_failed true .illegalCommand (s.begin .idle)
  refine ⟨decodeCmd_reserved_eq hreserved, _, exec_reservedCmd_idle hi w, hfailed,
    hostKept_trans (begin_hostKept _ s) hkept, rfl, rfl, fun _ => rfl, ?_⟩
  rw [State.begin_idle_eq hi, takeError, State.flagError, ← hi]
  rfl

/-- A data command with more input than IN_CAP ends at its start, in either pace. -/
theorem dataCommand_rejects {op : Op} {s : State} (hi : s.cmdState = .idle) (hgt : s.cfg.inCap < s.inLen.toNat) :
    dataCommand op s = .next (takeError true .capacityExceeded (s.begin (.busy op))) := by
  cases hp : s.cfg.pace with
  | whole => rw [dataCommand_whole op s hi hp, startCommand_over op s hgt, runEngine_idle _ _ rfl]
  | stepwise => rw [dataCommand_stepwise op s hi hp, startCommand_over op s hgt]

/-- Settles O24: the error is one of the start checks, which leave OUT and CRC_RESULT. -/
theorem inputOverCapacityIsRejected : Obligations.InputOverCapacityIsRejected := by
  intro i op s hop hi hgt
  obtain ⟨hfailed, hkept⟩ := takeError_failed true .capacityExceeded (s.begin (.busy op))
  rw [exec_commandOp hop, dataCommand_rejects hi hgt]
  exact ⟨_, rfl, hfailed, hostKept_trans (begin_hostKept _ s) hkept, rfl, fun _ => rfl⟩

theorem startCommand_hostKept (op : Op) (s : State) : HostKept s (startCommand op s) := by
  by_cases hle : s.inLen.toNat ≤ s.cfg.inCap
  · rw [startCommand_ok op s hle]
    exact hostKept_refl s
  · rw [startCommand_over op s (by omega)]
    exact (takeError_failed _ _ _).2

/-- Settles O25: the start is the whole step, and sets each register that the command reads. -/
theorem stepwiseStartOfACommand : Obligations.StepwiseStartOfACommand := by
  intro i op s hop hi hp hle
  have hkept := startCommand_hostKept op s
  have hphase : (startCommand op s).PhaseOk := (startCommand_sound (.inr hle)).phase
  have hstatus : (startCommand op s).status = 1#32 := by simp [startCommand_ok op s hle, State.status, State.busy]
  rw [exec_commandOp hop, dataCommand_stepwise op s hi hp]
  rw [startCommand_ok op s hle] at hkept hphase hstatus ⊢
  exact ⟨_, rfl, rfl, hstatus, rfl, hphase, rfl, rfl, rfl, rfl, rfl, rfl, fun _ => rfl, rfl, hkept, rfl, rfl, rfl, rfl⟩

/-! ### CRC32 (46_commands.md R247) -/

theorem engineStep_checksum {s : State} (hc : s.cmdState = .busy .crc32) (hp : s.phase = .checksum) :
    engineStep s = settle s (stepChecksum s) := by
  simp [engineStep, State.fetchSpace, hc, hp, atPlace_true]

/-- Settles O26: the command is one engine step. -/
theorem crc32Result : Obligations.Crc32Result := by
  intro s hi hp hle
  have hstep := engineStep_checksum (s := startCommand .crc32 s) (by rw [startCommand_ok _ s hle]; rfl)
    (by rw [startCommand_ok _ s hle]; rfl)
  have hrun : exec .crc32 s = settle (startCommand .crc32 s) (stepChecksum (startCommand .crc32 s)) := by
    refine (dataCommand_whole .crc32 s hi hp).trans ?_
    rw [startCommand_ok _ s hle] at hstep ⊢
    exact (runEngine_succ_next _ _ _ rfl hstep).trans (runEngine_idle _ _ rfl)
  rw [hrun, startCommand_ok _ s hle]
  exact ⟨_, rfl, ⟨rfl, rfl, State.status_complete _, rfl⟩, hostKept_refl s, rfl, rfl, rfl, rfl⟩

/-! ### A command ends (46_commands.md R241) -/

/-- Where the decoder reads a code, its command runs and it stands at the place of that code. -/
theorem fetchSpace_places {s : State} :
    (s.fetchSpace = some .block → s.atBlock = true) ∧ (s.fetchSpace = some .litlen → s.atLitlen = true) ∧
      (s.fetchSpace = some .dist → ∃ len, s.pendingLength = some len) ∧
      (s.fetchSpace = some .gzip → s.atHeader = true) := by
  unfold State.fetchSpace
  split <;> simp_all [State.atBlock, State.atLitlen, State.pendingLength, State.atHeader, State.decompressing]

theorem settle_answers (s : State) (r : Except ErrKind State) : ∃ t, settle s r = .next t := by
  cases r <;> exact ⟨_, rfl⟩

theorem atPlace_answers {here : Bool} {s : State} (h : here = true) (r : Except ErrKind State) :
    ∃ t, atPlace here s r = .next t := by
  rw [h, atPlace_true]
  exact settle_answers s r

theorem atDistance_answers {s : State} (h : ∃ len, s.pendingLength = some len) (rule : Nat → Except ErrKind State) :
    ∃ t, atDistance s rule = .next t := by
  obtain ⟨len, hlen⟩ := h
  rw [atDistance_some s rule len hlen]
  exact settle_answers s _

/-- A stream code in its place answers a state. -/
theorem streamExec_answers {i : Instr} {s : State} (h : s.fetchSpace = some i.space) :
    ∃ t, streamExec i s = .next t := by
  obtain ⟨hblock, hlitlen, hdist, hgzip⟩ := fetchSpace_places (s := s)
  cases i with
  | clear | deflateCompress | deflateDecompress | gzipCompress | gzipDecompress | crc32 | reservedCmd =>
    exact absurd h s.fetchSpace_ne_cmd
  | blockStored | blockFixed | blockDynamicUnsupported | blockReserved => exact atPlace_answers (hblock h) _
  | dist0To15 | dist16To23 | dist24To27 | dist28To29 | distInvalid => exact atDistance_answers (hdist h) _
  | gzipMember => exact atPlace_answers (hgzip h) _
  | _ => exact atPlace_answers (hlitlen h) _

theorem stepStream_answers {sp : Space} {s : State} (h : s.fetchSpace = some sp) : ∃ t, stepStream sp s = .next t := by
  cases hf : s.fetch sp with
  | none => exact ⟨_, stepStream_none sp s hf⟩
  | some i =>
    rw [stepStream_some sp s i hf]
    exact streamExec_answers (by rw [(fetch_some hf).1, h])

/-- At every place of a running command the engine's step answers a state. -/
theorem engineStep_answers {s : State} (hb : s.busy = true) (hp : s.PhaseOk) : ∃ t, engineStep s = .next t := by
  cases hf : s.fetchSpace with
  | some sp =>
    rw [engineStep_stream s sp hf]
    exact stepStream_answers hf
  | none =>
    obtain ⟨op, hop⟩ := (State.busy_eq_true_iff s).mp hb
    rw [State.PhaseOk, hop] at hp
    have hplace : ∃ here r, engineStep s = atPlace here s r ∧ here = true := by
      cases hph : s.phase <;> cases op <;>
        simp [phaseFits, State.fetchSpace, engineStep, State.compressing, hop, hph] at hp hf ⊢
    obtain ⟨here, r, hstep, htrue⟩ := hplace
    rw [hstep]
    exact atPlace_answers htrue r

/-- No move of the engine changes what the host set. -/
theorem EngineMove.hostKept {s t : State} (h : EngineMove s t) : HostKept s t := by
  cases h with
  | error e => exact (takeError_failed false e s).2
  | finish hf => obtain ⟨u, w, hu, rfl⟩ := hf; rw [hu.frame]; exact hostKept_refl s
  | decode _ _ hk => rw [hk.1.frame]; exact hostKept_refl s
  | framing _ _ hk | write _ hk _ => rw [hk.frame]; exact hostKept_refl s
  | checksum | openMember | advance => exact hostKept_refl s

/-- A command that runs, or has ended with success or an error. -/
def RunsOrEnded (t : State) : Prop := t.busy = true ∨ Succeeded t ∨ ∃ e, Failed e t

theorem EngineMove.runsOrEnded {s t : State} (h : EngineMove s t) (hs : s.Sound) (hb : s.busy = true) :
    RunsOrEnded t := by
  have hcode := hs.status.errCode_eq_zero hb
  have hbusy {u : State} (hc : u.cmdState = s.cmdState) : RunsOrEnded u := .inl (by rwa [State.busy, hc])
  cases h with
  | error e => exact .inr (.inr ⟨e, (takeError_failed false e s).1⟩)
  | finish hf =>
    obtain ⟨u, w, hu, rfl⟩ := hf
    exact .inr (.inl ⟨rfl, rfl, State.status_complete _, hu.errCode.trans hcode⟩)
  | checksum => exact .inr (.inl ⟨rfl, rfl, State.status_complete _, hcode⟩)
  | decode _ _ hk => exact hbusy hk.1.cmdState
  | framing _ _ hk | write _ hk _ => exact hbusy hk.cmdState
  | openMember | advance => exact hbusy rfl

theorem startCommand_runsOrEnded (op : Op) (s : State) : RunsOrEnded (startCommand op s) := by
  by_cases hle : s.inLen.toNat ≤ s.cfg.inCap
  · rw [startCommand_ok op s hle]
    exact .inl rfl
  · rw [startCommand_over op s (by omega)]
    exact .inr (.inr ⟨_, (takeError_failed _ _ _).1⟩)

/-- A data command within IN_CAP, in one step, answers a state in which it has ended. -/
theorem dataCommand_ends {op : Op} {s : State} (hi : s.cmdState = .idle) (hp : s.cfg.pace = .whole)
    (hle : s.inLen.toNat ≤ s.cfg.inCap) :
    ∃ t, dataCommand op s = .next t ∧ t.busy = false ∧ HostKept s t ∧ RunsOrEnded t := by
  obtain ⟨t, hrun, -, hkept, hends⟩ := runEngine_answers (P := fun u => u.Sound ∧ HostKept s u ∧ RunsOrEnded u)
    (fun u ⟨hsound, hkept, _⟩ hb => by
      obtain ⟨v, hv⟩ := engineStep_answers hb hsound.phase
      have hmove := engineStep_moves hv
      exact ⟨v, hv, hmove.sound hsound hb, hostKept_trans hkept hmove.hostKept, hmove.runsOrEnded hsound hb⟩)
    (engineBound s.inLen.toNat)
    ⟨startCommand_sound (.inr hle), startCommand_hostKept op s, startCommand_runsOrEnded op s⟩
  have hcmd := (dataCommand_whole op s hi hp).trans hrun
  exact ⟨t, hcmd, dataCommand_idle hi hp hle hcmd, hkept, hends⟩

/-- Settles O54: every step of the engine answers a state that runs or has ended, and the bound covers them all. -/
theorem everyCommandEnds : Obligations.EveryCommandEnds := by
  intro i op s hop hi hp
  rw [exec_commandOp hop]
  by_cases hle : s.inLen.toNat ≤ s.cfg.inCap
  · obtain ⟨t, ht, hidle, hkept, hends⟩ := dataCommand_ends (op := op) hi hp hle
    exact ⟨t, ht, hkept, hends.resolve_left (by simp [hidle])⟩
  · rw [dataCommand_rejects hi (by omega)]
    obtain ⟨hfailed, hkept⟩ := takeError_failed true .capacityExceeded (s.begin (.busy op))
    exact ⟨_, rfl, hostKept_trans (begin_hostKept _ s) hkept, .inr ⟨_, hfailed⟩⟩

end Sys2Proof.Machine

namespace Sys2Proof.Machine

open Sys2Proof.Ref

/-! ### Bytes that OUT lists, so that they stay when the bytes beyond them become unspecified -/

/-- OUT lists `bytes` from offset `a` on. -/
def State.Lists (s : State) (a : Nat) (bytes : List Byte) : Prop :=
  ∀ k, k < bytes.length → tableRead s.outBuf (a + k) = some (bytes.getD k 0#8)

section Lists

variable {s t : State} {a n : Nat} {xs ys bytes : List Byte}

theorem State.lists_nil (s : State) (a : Nat) : s.Lists a [] := fun _ hk => absurd hk (Nat.not_lt_zero _)

theorem State.Lists.append (hx : s.Lists a xs) (hy : s.Lists (a + xs.length) ys) : s.Lists a (xs ++ ys) := by
  intro k hk
  by_cases hkx : k < xs.length
  · rw [hx k hkx, List.getD_append _ _ _ _ hkx]
  · obtain ⟨j, rfl⟩ := Nat.exists_eq_add_of_le (Nat.le_of_not_lt hkx)
    rw [List.length_append] at hk
    rw [← Nat.add_assoc, hy j (by omega), List.getD_append_right _ _ _ _ (Nat.le_add_right _ _),
      Nat.add_sub_cancel_left]

/-- Bytes that are there to read, and listed. -/
theorem lists_of_beginsWith (hl : ∀ k, k < bytes.length → (tableRead s.outBuf (a + k)).isSome = true)
    (hb : BeginsWith s.outByte a bytes) : s.Lists a bytes := by
  intro k hk
  obtain ⟨v, hv⟩ := Option.isSome_iff_exists.mp (hl k hk)
  rw [← hb k hk, State.outByte, hv]
  rfl

theorem State.Lists.beginsWith (h : s.Lists a bytes) : BeginsWith s.outByte a bytes := by
  intro k hk
  rw [State.outByte, h k hk]
  rfl

theorem State.Lists.output_eq (h : s.Lists 0 bytes) : s.output bytes.length = bytes :=
  bytesFrom_eq_of_beginsWith h.beginsWith

/-- Listed bytes are the result of a command that sets its output's end after them. -/
theorem State.Lists.setOutput (h : s.Lists 0 bytes) : (s.setOutput bytes.length).Lists 0 bytes := by
  intro k hk
  rw [State.setOutput_outBuf, tableRead_tableCut, if_pos (by omega)]
  exact h k hk

/-- The decoder's new bytes leave the old ones listed. -/
theorem Wrote.lists_old (h : Wrote s n t) (hl : s.Lists a bytes) (ha : a + bytes.length ≤ s.outPos) :
    t.Lists a bytes :=
  fun k hk => (h.others _ (by omega)).trans (hl k hk)

theorem Wrote.lists_new (h : Wrote s bytes.length t) (hb : BeginsWith t.outByte s.outPos bytes) :
    t.Lists s.outPos bytes :=
  lists_of_beginsWith h.listed hb

/-- Bytes that all have room are appended one by one. -/
theorem outAppendAll_lists (hroom : Room s s.outPos bytes.length) :
    ∃ t, outAppendAll bytes s = .ok t ∧ Wrote s bytes.length t ∧ t.rpos = s.rpos ∧ t.Lists s.outPos bytes := by
  induction bytes generalizing s with
  | nil => exact ⟨s, rfl, .refl s, rfl, s.lists_nil _⟩
  | cons v rest ih =>
    rw [List.length_cons, Nat.add_comm] at hroom
    obtain ⟨u, hu, hw, hrpos, hbyte⟩ := outAppend_wrote v (hroom 0 (by omega))
    obtain ⟨t, ht, hw', hrpos', hrest⟩ := ih (hw.room hroom)
    have hpos := hw.outPos
    have hfirst : u.Lists s.outPos [v] := hw.lists_new fun k hk => by
      obtain rfl : k = 0 := by simpa using hk
      exact hbyte
    refine ⟨t, by rw [outAppendAll_cons, hu, ok_bind, ht], ?_, hrpos'.trans hrpos, ?_⟩
    · rw [List.length_cons, Nat.add_comm]
      exact hw.trans hw'
    · rw [hpos] at hrest
      exact (hw'.lists_old hfirst hpos.ge).append hrest

/-- Bytes that do not all have room end the command. -/
theorem outAppendAll_full (hroom : ¬ Room s s.outPos bytes.length) :
    outAppendAll bytes s = .error .capacityExceeded := by
  induction bytes generalizing s with
  | nil => exact absurd (fun _ hk => absurd hk (Nat.not_lt_zero _)) hroom
  | cons v rest ih =>
    rw [outAppendAll_cons]
    by_cases hf : s.cfg.fits s.outPos = true
    · rw [outAppend_eq, if_pos hf, ok_bind]
      refine ih fun hrest => hroom fun k hk => ?_
      cases k with
      | zero => exact hf
      | succ k =>
        rw [Nat.add_comm k, ← Nat.add_assoc]
        exact hrest k (Nat.lt_of_succ_lt_succ hk)
    · rw [outAppend_eq, if_neg hf]
      rfl

end Lists

/-! ### No byte of OUT that the encoder writes over becomes unspecified -/

/-- Every byte that OUT listed in `s` it lists in `t`. -/
def ListsMore (s t : State) : Prop := ∀ a, (tableRead s.outBuf a).isSome = true → (tableRead t.outBuf a).isSome = true

section ListsMore

variable {s t : State}

theorem ListsMore.refl (s : State) : ListsMore s s := fun _ h => h

theorem ListsMore.trans {u : State} (h : ListsMore s t) (h' : ListsMore t u) : ListsMore s u :=
  fun a ha => h' a (h a ha)

/-- The engine's place is not the output's concern. -/
theorem ListsMore.setPhase (h : ListsMore s t) (p : Phase) : ListsMore s { t with phase := p } := h

theorem isSome_tableWrite {m : Memory} {a i : Nat} {v : Byte} (h : (tableRead m a).isSome = true) :
    (tableRead (tableWrite m i v) a).isSome = true := by
  rw [tableRead_tableWrite]
  split
  · rfl
  · exact h

theorem writeBits_listsMore {v n : Nat} (h : writeBits v n s = .ok t) : ListsMore s t := by
  induction n generalizing v s with
  | zero => cases h; exact .refl _
  | succ n ih =>
    rw [writeBits_succ_bind] at h
    obtain ⟨u, hu, h⟩ := bind_ok_iff.mp h
    refine ListsMore.trans ?_ (ih h)
    rcases writeBit_ok_cases hu with ⟨-, rfl⟩ | ⟨-, -, rfl⟩
    · exact fun a ha => ha
    · exact fun a ha => isSome_tableWrite ha

theorem alignWriter_listsMore (h : alignWriter s = .ok t) : ListsMore s t := by
  rcases alignWriter_ok_cases h with ⟨-, rfl⟩ | ⟨-, -, rfl⟩
  · exact .refl t
  · exact fun a ha => isSome_tableWrite ha

theorem writeBytes_listsMore {bytes : List Byte} (h : writeBytes bytes s = .ok t) : ListsMore s t := by
  induction bytes generalizing s with
  | nil => cases h; exact .refl _
  | cons b rest ih =>
    rw [writeBytes_cons] at h
    obtain ⟨u, hu, h⟩ := bind_ok_iff.mp h
    exact (writeBits_listsMore hu).trans (ih h)

theorem putToken_listsMore {tok : Token} (h : putToken tok s = .ok t) : ListsMore s t := by
  cases tok with
  | literal b => exact writeBits_listsMore h
  | copy len dist =>
    obtain ⟨u, hu, h⟩ := bind_ok_iff.mp h
    obtain ⟨v, hv, h⟩ := bind_ok_iff.mp h
    obtain ⟨w, hw, h⟩ := bind_ok_iff.mp h
    exact (writeBits_listsMore hu).trans <| (writeBits_listsMore hv).trans <|
      (writeBits_listsMore hw).trans (writeBits_listsMore h)

theorem emitStored_listsMore {data : List Byte} (h : emitStored data s = .ok t) : ListsMore s t := by
  obtain ⟨u, hu, h⟩ := bind_ok_iff.mp h
  obtain ⟨v, hv, h⟩ := bind_ok_iff.mp h
  obtain ⟨w, hw, h⟩ := bind_ok_iff.mp h
  obtain ⟨x, hx, h⟩ := bind_ok_iff.mp h
  obtain ⟨y, hy, h⟩ := bind_ok_iff.mp h
  exact (writeBits_listsMore hu).trans <| (writeBits_listsMore hv).trans <| (alignWriter_listsMore hw).trans <|
    (writeBits_listsMore hx).trans <| (writeBits_listsMore hy).trans (writeBytes_listsMore h)

theorem chooseBlock_listsMore (h : chooseBlock s = .ok t) : ListsMore s t := by
  unfold chooseBlock at h
  split at h
  · split at h
    · cases h
    · obtain ⟨u, hu, h⟩ := bind_ok_iff.mp h
      cases h
      exact (emitStored_listsMore hu).setPhase _
  · obtain ⟨u, hu, h⟩ := bind_ok_iff.mp h
    cases h
    obtain ⟨v, hv, hu⟩ := bind_ok_iff.mp hu
    exact ((writeBits_listsMore hv).trans (writeBits_listsMore hu)).setPhase _

theorem stepMatching_listsMore (h : stepMatching s = .ok t) : ListsMore s t := by
  unfold stepMatching at h
  split at h
  · cases h; exact fun a ha => ha
  · exact chooseBlock_listsMore h

theorem stepEmitting_listsMore {left : List Token} (h : stepEmitting left s = .ok t) : ListsMore s t := by
  cases left with
  | nil =>
    obtain ⟨u, hu, h⟩ := bind_ok_iff.mp h
    cases h
    exact (writeBits_listsMore hu).setPhase _
  | cons tok rest =>
    obtain ⟨u, hu, h⟩ := bind_ok_iff.mp h
    cases h
    exact (putToken_listsMore hu).setPhase _

/-- A step of the encoder before its closing, whether it goes on or errs, drops no byte of OUT. -/
theorem Encoding.step_listsMore {s₀ : State} (h : Encoding s₀ t) (hc : t.compressing = true)
    (hp : t.phase ≠ .closing) :
    ∃ r, engineStep t = settle t r ∧ Encodes s₀ r ∧ ∀ u, r = .ok u → ListsMore t u := by
  cases h with
  | matching fuel hp hs hf ht =>
    exact ⟨_, engineStep_matching hc hp, stepMatching_encodes hp hs hf ht, fun _ => stepMatching_listsMore⟩
  | emitting sent left hp hs ht hnt hb =>
    exact ⟨_, engineStep_emitting hc hp, stepEmitting_encodes hs ht hnt hb, fun _ => stepEmitting_listsMore⟩
  | closing bits hp' => exact absurd hp' hp

end ListsMore

/-! ### How GZIP_COMPRESS ends (44_gzip_framer.md R200 to R204, 60_exceptions.md R271) -/

/-- The footer of the member of the block's input (44_gzip_framer.md R200). -/
def State.footer (s : State) : List Byte := le32 (crc32 s.input) ++ le32 s.inLen

/-- The member of the block's input: its header, its block and its footer (44_gzip_framer.md R204). -/
def State.member (s : State) : List Byte := gzipHeaderBytes s.mtime ++ s.block ++ s.footer

theorem State.member_eq (s : State) : s.member = encodedMember s.mtime s.input (inputTokens s) := by
  have hlen : BitVec.ofNat 32 s.input.length = s.inLen := by
    rw [State.input_length, BitVec.ofNat_toNat, BitVec.setWidth_eq]
  rw [encodedMember, hlen, List.append_assoc, State.member]
  rfl

theorem gzipHeaderBytes_length (mtime : Word) : (gzipHeaderBytes mtime).length = 10 := rfl

theorem State.footer_length (s : State) : s.footer.length = 8 := rfl

theorem State.member_length (s : State) : s.member.length = 10 + s.block.length + 8 := by
  rw [State.member, List.length_append, List.length_append, gzipHeaderBytes_length, State.footer_length]

/-- How GZIP_COMPRESS of an input within IN_CAP ends: with one of its errors, or with the member. -/
inductive GzipResult (s t : State) : Prop where
  | noHeader (hr : ¬ Room s 0 10) (ht : Failed .capacityExceeded t)
  | tooLarge (hr : Room s 0 10) (h : tooLarge s.inLen.toNat (inputTokens s)) (ht : Failed .inputTooLarge t)
  | noRoom (h : ¬ tooLarge s.inLen.toNat (inputTokens s)) (hr : ¬ Room s 0 s.member.length)
      (ht : Failed .capacityExceeded t)
  | done (h : ¬ tooLarge s.inLen.toNat (inputTokens s)) (ht : Succeeded t) (hpos : t.outPos = s.member.length)
      (hcrc : t.crcResult = crc32 s.input) (hlen : t.outLen = lengthWord s.member.length s.freeCount)
      (hout : t.output s.member.length = s.member)

/-- The command that began at `s` has ended at `t`. -/
structure GzipEnd (s t : State) : Prop where
  kept : HostKept s t
  result : GzipResult s t

theorem GzipEnd.idle {s t : State} (h : GzipEnd s t) : t.cmdState = .idle := by
  cases h.result with
  | noHeader _ ht => exact ht.1
  | tooLarge _ _ ht => exact ht.1
  | noRoom _ _ ht => exact ht.1
  | done _ ht => exact ht.1

/-- Taking an error is one of the command's ends when the error is. -/
theorem gzipEnd_takeError {s t : State} {e : ErrKind} (hk : HostKept s t)
    (hres : Failed e (takeError false e t) → GzipResult s (takeError false e t)) :
    GzipEnd s (takeError false e t) :=
  have ⟨hfailed, hkept⟩ := takeError_failed false e t
  ⟨hostKept_trans hk hkept, hres hfailed⟩

/-- Room for all of the output is room for a part of it. -/
theorem room_part {s t : State} {a n total : Nat} (hcfg : t.cfg = s.cfg) (h : a + n ≤ total) (hr : Room s 0 total) :
    Room t a n := by
  intro k hk
  have := hr (a + k) (by omega)
  rwa [Nat.zero_add, ← hcfg] at this

/-! #### The member header -/

/-- What the rule of GZIP_COMPRESS needs of the state in which it began. -/
structure GzipStart (s : State) : Prop where
  cmdState : s.cmdState = .busy .gzipCompress
  phase : s.phase = .framing
  outPos : s.outPos = 0
  errCode : s.errCode = 0#4
  matcher : s.matcher.restart = s.matcher

theorem startCommand_gzipStart {s : State} (h : s.inLen.toNat ≤ s.cfg.inCap) :
    GzipStart (startCommand .gzipCompress s) := by
  rw [startCommand_ok _ s h]
  exact ⟨rfl, rfl, rfl, rfl, rfl⟩

/-- From `s` to `t` the member header was written, and the bit writer starts after it. -/
structure Framed (s t : State) : Prop where
  frame : t = { s with
    outBuf := t.outBuf, outPos := 10, wbase := 10, wlen := 0, wcur := 0#8, wnb := 0, phase := .matching }
  lists : t.Lists 0 (gzipHeaderBytes s.mtime)

theorem stepFraming_framed {s : State} (h : GzipStart s) (hr : Room s 0 10) :
    ∃ t, stepFraming s = .ok t ∧ Framed s t := by
  obtain ⟨t, ht, hw, hrpos, hl⟩ := outAppendAll_lists (s := s) (bytes := gzipHeaderBytes s.mtime) (by rwa [h.outPos])
  have hpos : t.outPos = 10 := by rw [hw.outPos, h.outPos]; rfl
  refine ⟨_, by rw [stepFraming, ht, ok_bind]; rfl, ?_, ?_⟩
  · rw [hpos, hw.frame, hrpos]
  · rw [h.outPos] at hl
    exact hl

theorem stepFraming_full {s : State} (h : GzipStart s) (hr : ¬ Room s 0 10) :
    stepFraming s = .error .capacityExceeded :=
  bind_error (outAppendAll_full (by rwa [h.outPos]))

namespace Framed

variable {s t : State}

theorem hostKept (h : Framed s t) : HostKept s t := by rw [h.frame]; exact hostKept_refl s
theorem cmdState (h : Framed s t) : t.cmdState = s.cmdState := by rw [h.frame]
theorem errCode (h : Framed s t) : t.errCode = s.errCode := by rw [h.frame]
theorem freeCount (h : Framed s t) : t.freeCount = s.freeCount := by rw [h.frame]
theorem cfg (h : Framed s t) : t.cfg = s.cfg := by rw [h.frame]
theorem inLen (h : Framed s t) : t.inLen = s.inLen := by rw [h.frame]
theorem matcher (h : Framed s t) : t.matcher = s.matcher := by rw [h.frame]
theorem wbase (h : Framed s t) : t.wbase = 10 := by rw [h.frame]
theorem wlen (h : Framed s t) : t.wlen = 0 := by rw [h.frame]
theorem inByte (h : Framed s t) : t.inByte = s.inByte := by rw [h.frame]; rfl
theorem input (h : Framed s t) : t.input = s.input := by rw [State.input, State.input, h.inByte, h.inLen]

theorem inputTokens (h : Framed s t) : Ref.inputTokens t = Ref.inputTokens s := by
  rw [Ref.inputTokens, Ref.inputTokens, h.inByte, h.inLen, h.matcher]

theorem block (h : Framed s t) : t.block = s.block := by rw [State.block, State.block, h.input, h.inputTokens]

/-- After the header the encoder has sent nothing, and the matcher has the whole input before it. -/
theorem encoding (h : Framed s t) (h₀ : GzipStart s) : Encoding t t := by
  refine .matching t.inLen.toNat (by rw [h.frame]) (.nil ?_ ?_) (Nat.le_add_left _ _) ?_
  · rw [h.frame]; exact ⟨rfl, rfl⟩
  · rw [h.frame]; exact writerOk_empty rfl rfl
  · rw [Ref.inputTokens, lz77, h.matcher, h₀.matcher]

end Framed

/-! #### The end of the block and the footer -/

/-- The output at its end in the closing step, after the CRC unit has run over the input. -/
def State.closed (s : State) : State := State.runCrc s.input { s with outPos := s.wbase + s.wlen }

theorem stepClosing_gzip {t : State} (ht : t.cmdState = .busy .gzipCompress) :
    stepClosing t = alignWriter t >>= fun u => outAppendAll u.footer u.closed >>= fun v =>
      .ok ({ v.setOutput v.outPos with crcResult := crc32 u.input }).complete := by
  rw [stepClosing]
  cases hu : alignWriter t with
  | error e => rfl
  | ok u =>
    have hcmd : u.cmdState = .busy .gzipCompress := (keeps_alignWriter hu).cmdState.trans ht
    rw [ok_bind, ok_bind]
    dsimp only
    split
    · show (outAppendAll u.footer u.closed >>= fun v =>
        Except.ok ({ v.setOutput v.outPos with crcResult := v.crc ^^^ 0xFFFFFFFF#32 }).complete) = _
      cases hv : outAppendAll u.footer u.closed with
      | error e => rfl
      | ok v =>
        have hcrc : v.crc = crcFold crcSeed u.input := outAppendAll_crc hv
        rw [ok_bind, hcrc]
        rfl
    · next hne => exact absurd hcmd hne

section Closing

variable {s s₁ t u : State} {bits : List Bool}

/-- With the block whole, OUT lists the header and the block. -/
theorem Sent.lists_block (h₁ : Framed s s₁) (h : Sent s₁ (bytesBits s₁.block) u) (hl : ListsMore s₁ u) :
    u.wlen = s.block.length ∧ u.Lists 0 (gzipHeaderBytes s.mtime ++ s.block) := by
  obtain ⟨hlen, hbytes⟩ := h.whole
  rw [h₁.block] at hlen hbytes
  rw [h₁.wbase] at hbytes
  have hold : u.Lists 0 (gzipHeaderBytes s.mtime) := by
    have hheader := h₁.lists
    refine lists_of_beginsWith (fun k hk => hl _ (by rw [hheader k hk]; rfl)) fun k hk => ?_
    rw [← hheader.beginsWith k hk]
    refine (h.appends.others _ (.inl ?_)).trans rfl
    show 0 + k < s₁.wbase + s₁.wlen
    rw [gzipHeaderBytes_length] at hk
    rw [h₁.wbase]
    omega
  refine ⟨hlen, hold.append (lists_of_beginsWith (fun k hk => ?_) fun k hk => ?_)⟩
  · have hk' := h.listed k (by rwa [hlen])
    rw [h.wbase, h₁.wbase] at hk'
    exact Option.isSome_iff_exists.mpr hk'
  · have hk' := bytesFrom_getD u.outByte 10 s.block.length k 0#8 hk
    rw [hbytes] at hk'
    exact hk'.symm

/-- The encoder's error ends the command. -/
theorem Sent.takeError_gzipEnd {e : ErrKind} (h₁ : Framed s s₁) (hr : Room s 0 10) (h : Sent s₁ bits t)
    (he : BlockError s₁ e) : GzipEnd s (takeError false e t) := by
  refine gzipEnd_takeError (hostKept_trans h₁.hostKept h.hostKept) fun hfailed => ?_
  cases he with
  | tooLarge ht =>
    rw [h₁.inLen, h₁.inputTokens] at ht
    exact .tooLarge hr ht hfailed
  | noRoom hnt hfull =>
    rw [h₁.inLen, h₁.inputTokens] at hnt
    rw [h₁.wbase, h₁.block] at hfull
    have hlen := s.member_length
    exact .noRoom hnt (fun hroom => hfull (room_part h₁.cfg (by omega) hroom)) hfailed

/-- With the block whole, the footer ends the command: it fits and the member is whole, or it does not fit. -/
theorem footer_end (h₀ : GzipStart s) (h₁ : Framed s s₁) (hnt : ¬ tooLarge s.inLen.toNat (inputTokens s))
    (ht : HostKept s t) (h : Sent s₁ (bytesBits s₁.block) u) (hl : ListsMore s₁ u) :
    ∃ w, settle t (outAppendAll u.footer u.closed >>= fun v =>
      .ok ({ v.setOutput v.outPos with crcResult := crc32 u.input }).complete) = .next w ∧ GzipEnd s w := by
  obtain ⟨hlen, hlists⟩ := h.lists_block h₁ hl
  have hinput : u.input = s.input := h.input.trans h₁.input
  have hfooter : u.footer = s.footer := by rw [State.footer, State.footer, hinput, h.inLen, h₁.inLen]
  have hpos : u.closed.outPos = 10 + s.block.length := by
    show u.wbase + u.wlen = _
    rw [h.wbase, h₁.wbase, hlen]
  have hmember := s.member_length
  rw [hfooter, hinput]
  by_cases hroom : Room u.closed u.closed.outPos s.footer.length
  · obtain ⟨v, hv, hw, -, hnew⟩ := outAppendAll_lists hroom
    have hend : v.outPos = s.member.length := by rw [hw.outPos, hpos, State.footer_length, hmember]
    have hold : v.Lists 0 (gzipHeaderBytes s.mtime ++ s.block) := by
      refine hw.lists_old hlists ?_
      rw [hpos, List.length_append, gzipHeaderBytes_length]
      omega
    have hall : v.Lists 0 s.member := by
      refine hold.append ?_
      rwa [List.length_append, gzipHeaderBytes_length, Nat.zero_add, ← hpos]
    have hkept : HostKept u v := by rw [hw.frame]; exact hostKept_refl u
    have hcode : v.errCode = u.errCode := by rw [hw.frame]; rfl
    have hfree : v.freeCount = u.freeCount := by rw [hw.frame]; rfl
    rw [hv, ok_bind, settle_ok, hend]
    refine ⟨_, rfl, hostKept_trans h₁.hostKept (hostKept_trans h.hostKept hkept), .done hnt ?_ hend rfl ?_ ?_⟩
    · exact ⟨rfl, rfl, State.status_complete _, hcode.trans (h.errCode.trans (h₁.errCode.trans h₀.errCode))⟩
    · rw [← h₁.freeCount, ← h.freeCount, ← hfree]
      rfl
    · exact hall.setOutput.output_eq
  · rw [outAppendAll_full hroom]
    refine ⟨_, rfl, gzipEnd_takeError ht fun hfailed => .noRoom hnt (fun hr => hroom ?_) hfailed⟩
    have hcfg : u.cfg = s.cfg := by rw [h.hostKept.1, h₁.cfg]
    exact room_part hcfg (by rw [hpos, State.footer_length]; omega) hr

/-- The closing step ends the command. -/
theorem closing_gzipEnd (h₀ : GzipStart s) (hr : Room s 0 10) (h₁ : Framed s s₁) (h : Sent s₁ bits t)
    (hl : ListsMore s₁ t) (hnt : ¬ tooLarge s₁.inLen.toNat (inputTokens s₁))
    (hbits : bytesBits s₁.block = bits ++ padding bits.length) :
    ∃ w, settle t (stepClosing t) = .next w ∧ GzipEnd s w := by
  have halign := alignWriter_writes h.writer
  rw [h.wnb, padding_mod] at halign
  rw [stepClosing_gzip (h.cmdState.trans (h₁.cmdState.trans h₀.cmdState))]
  cases halg : alignWriter t with
  | error e =>
    rw [halg] at halign
    obtain ⟨rfl, hroom⟩ := halign
    exact ⟨_, rfl, h.takeError_gzipEnd h₁ hr (h.noRoom hnt (by rw [hbits]) hroom)⟩
  | ok u =>
    rw [halg] at halign
    obtain ⟨ha, hlisted⟩ := halign
    have hwhole := h.append ha hlisted u.phase
    rw [← hbits] at hwhole
    rw [h₁.inLen, h₁.inputTokens] at hnt
    rw [ok_bind]
    exact footer_end h₀ h₁ hnt (hostKept_trans h₁.hostKept h.hostKept) hwhole
      (hl.trans (alignWriter_listsMore halg))

end Closing

/-! #### The command's run -/

/-- The command that began at `s` is at its start, writes its block after the header, or has ended. -/
inductive WritesMember (s t : State) : Prop where
  | start (h : t = s)
  | block {s₁ : State} (hr : Room s 0 10) (h₁ : Framed s s₁) (h : Encoding s₁ t) (hl : ListsMore s₁ t)
  | ended (h : GzipEnd s t)

theorem engineStep_framing {s : State} (h : GzipStart s) : engineStep s = settle s (stepFraming s) := by
  have hc : s.compressing = true := by rw [State.compressing, h.cmdState]
  rw [engineStep, State.fetchSpace_compressing hc]
  simp only [h.phase, h.cmdState]
  rfl

/-- The first step writes the header, for which there is room or not. -/
theorem GzipStart.step {s : State} (h : GzipStart s) : ∃ u, engineStep s = .next u ∧ WritesMember s u := by
  rw [engineStep_framing h]
  by_cases hr : Room s 0 10
  · obtain ⟨t, ht, h₁⟩ := stepFraming_framed h hr
    rw [ht]
    exact ⟨t, rfl, .block hr h₁ (h₁.encoding h) (.refl t)⟩
  · rw [stepFraming_full h hr]
    exact ⟨_, rfl, .ended (gzipEnd_takeError (hostKept_refl s) fun hfailed => .noHeader hr hfailed)⟩

/-- Each step after the header goes on with the block or ends the command. -/
theorem Encoding.step_gzip {s s₁ t : State} (h₀ : GzipStart s) (hr : Room s 0 10) (h₁ : Framed s s₁)
    (h : Encoding s₁ t) (hl : ListsMore s₁ t) : ∃ u, engineStep t = .next u ∧ WritesMember s u := by
  obtain ⟨bits, hs⟩ := h.sent
  have hc : t.compressing = true := by rw [State.compressing, hs.cmdState, h₁.cmdState, h₀.cmdState]
  by_cases hp : t.phase = .closing
  · cases h with
    | matching fuel hp' => rw [hp] at hp'; cases hp'
    | emitting sent left hp' => rw [hp] at hp'; cases hp'
    | closing bits hp' hs hnt hbits =>
      obtain ⟨u, hu, hend⟩ := closing_gzipEnd h₀ hr h₁ hs hl hnt hbits
      exact ⟨u, (engineStep_closing hc hp).trans hu, .ended hend⟩
  · obtain ⟨r, hstep, he, hmore⟩ := h.step_listsMore hc hp
    cases r with
    | error e => exact ⟨_, hstep, .ended (hs.takeError_gzipEnd h₁ hr he)⟩
    | ok u => exact ⟨u, hstep, .block hr h₁ he (hl.trans (hmore u rfl))⟩

theorem WritesMember.step {s t : State} (h₀ : GzipStart s) (h : WritesMember s t) (hb : t.busy = true) :
    ∃ u, engineStep t = .next u ∧ WritesMember s u := by
  cases h with
  | start h => rw [h]; exact h₀.step
  | block hr h₁ h hl => exact h.step_gzip h₀ hr h₁ hl
  | ended h => rw [State.busy_idle t h.idle] at hb; cases hb

/-- Where the command has stopped, it has ended. -/
theorem WritesMember.gzipEnd {s t : State} (h₀ : GzipStart s) (h : WritesMember s t) (hb : t.busy = false) :
    GzipEnd s t := by
  have hrunning (hc : t.cmdState = s.cmdState) : GzipEnd s t := by
    rw [State.busy_busy t _ (hc.trans h₀.cmdState)] at hb
    cases hb
  cases h with
  | start h => exact hrunning (by rw [h])
  | block hr h₁ h hl => obtain ⟨bits, hs⟩ := h.sent; exact hrunning (hs.cmdState.trans h₁.cmdState)
  | ended h => exact h

/-- The working state does not enter the command's end. -/
theorem GzipEnd.of_start {s t : State} (hle : s.inLen.toNat ≤ s.cfg.inCap)
    (ht : GzipEnd (startCommand .gzipCompress s) t) : GzipEnd s t := by
  rw [startCommand_ok _ s hle] at ht
  obtain ⟨hkept, hres⟩ := ht
  refine ⟨hkept, ?_⟩
  cases hres with
  | noHeader hr ht => exact .noHeader hr ht
  | tooLarge hr hl ht => exact .tooLarge hr hl ht
  | noRoom hnt hr ht => exact .noRoom hnt hr ht
  | done hnt ht hpos hcrc hlen hout => exact .done hnt ht hpos hcrc hlen hout

/-- GZIP_COMPRESS of an input within IN_CAP ends in one of the four ways, and what it wrote lies below OUT_CAP. -/
theorem gzipCompress_ends {s : State} (hi : s.cmdState = .idle) (hp : s.cfg.pace = .whole)
    (hle : s.inLen.toNat ≤ s.cfg.inCap) :
    ∃ t, exec .gzipCompress s = .next t ∧ GzipEnd s t ∧ capAdmits s.cfg t.outPos = true := by
  have h₀ := startCommand_gzipStart hle
  have hsound : (startCommand .gzipCompress s).Sound := startCommand_sound (.inr hle)
  obtain ⟨t, hrun, ht⟩ := runEngine_answers (fun _ => WritesMember.step h₀) (engineBound s.inLen.toNat) (.start rfl)
  have hidle := runEngine_ends hsound (startCommand_remaining_le hle) hrun
  have hend : GzipEnd s t := .of_start hle (ht.gzipEnd h₀ hidle)
  obtain ⟨-, hcap, -⟩ := (runEngine_sound hsound hrun).work.cursors
  rw [hend.kept.1] at hcap
  exact ⟨t, (dataCommand_whole .gzipCompress s hi hp).trans hrun, hend, hcap⟩

/-- OUT_CAP leaves no room for more bytes than it is. -/
theorem not_room_of_outCap {s : State} {cap n : Nat} (hcap : s.cfg.outCap = some cap) (hlt : cap < n) :
    ¬ Room s 0 n := by
  intro hr
  have := hr cap hlt
  simp [Config.fits, hcap] at this

/-- Settles O51: the command ends in one of four ways, and each of the four cases leaves one of them. -/
theorem gzipCompressResult : Obligations.GzipCompressResult := by
  rintro s _ hi hp hle rfl
  rw [← State.member_eq]
  obtain ⟨t, ht, ⟨hkept, hres⟩, hcap⟩ := gzipCompress_ends hi hp hle
  have hten : 10 ≤ s.member.length := by rw [State.member_length]; omega
  refine ⟨fun hnt hroom hlen => ?_, fun cap hout hlt => ?_, fun hroom hbig => ?_, fun cap hout hnt hlt => ?_⟩
  · cases hres with
    | noHeader hr => exact absurd (room_part rfl (by omega) hroom) hr
    | tooLarge _ hbig => exact absurd hbig hnt
    | noRoom _ hr => exact absurd hroom hr
    | done _ hs _ hcrc hl hbytes =>
      rw [lengthWord, if_pos hlen] at hl
      exact ⟨t, ht, hs, hkept, hcrc, hl, hbytes⟩
  · cases hres with
    | noHeader _ hf | noRoom _ _ hf => exact ⟨t, ht, hf, hkept⟩
    | tooLarge hr => exact absurd hr (not_room_of_outCap hout hlt)
    | done _ _ hpos =>
      rw [capAdmits, hout, decide_eq_true_iff, hpos] at hcap
      omega
  · cases hres with
    | noHeader hr => exact absurd hroom hr
    | tooLarge _ _ hf => exact ⟨t, ht, hf, hkept⟩
    | noRoom hnt | done hnt => exact absurd hbig hnt
  · cases hres with
    | noHeader _ hf | noRoom _ _ hf => exact ⟨t, ht, hf, hkept⟩
    | tooLarge _ hbig => exact absurd hbig hnt
    | done _ _ hpos =>
      rw [capAdmits, hout, decide_eq_true_iff, hpos] at hcap
      omega

end Sys2Proof.Machine

namespace Sys2Proof.Machine

open Sys2Proof.Ref

/-! ### Bits of the reader's slice (40_bit_io.md R115, R116) -/

theorem State.streamBits_eq_map (s : State) (q n : Nat) :
    s.streamBits q n = (List.range n).map fun k => s.streamBit (q + k) := by
  induction n generalizing q with
  | zero => rfl
  | succ n ih =>
    rw [State.streamBits, ih, List.range_succ_eq_map, List.map_cons, List.map_map]
    simp [Function.comp_def, Nat.add_assoc, Nat.add_comm 1]

/-- From bit `q` on the reader's slice reads as `bits`, all within the tolerance. -/
structure State.Reads (s : State) (q : Nat) (bits : List Bool) : Prop where
  within : q + bits.length ≤ 8 * s.rlen + 7
  bits_eq : s.streamBits q bits.length = bits

section Reads

variable {s t : State} {q : Nat} {xs ys bits : List Bool}

theorem State.Reads.split (h : s.Reads q (xs ++ ys)) : s.Reads q xs ∧ s.Reads (q + xs.length) ys := by
  obtain ⟨hlen, hbits⟩ := h
  rw [List.length_append] at hlen hbits
  rw [State.streamBits_append] at hbits
  obtain ⟨hx, hy⟩ := List.append_inj hbits (State.streamBits_length _ _ _)
  exact ⟨⟨by omega, hx⟩, ⟨by omega, hy⟩⟩

/-- A field that stands at a place is what a read there returns. -/
theorem State.Reads.field_eq {n v : Nat} (h : s.Reads q (lsbBits n v)) (hv : v < 2 ^ n) : s.field q n = v := by
  have hbits := h.bits_eq
  rw [lsbBits_length] at hbits
  rw [State.field_of_streamBits hbits, Nat.mod_eq_of_lt hv]

/-- Bits are read where the slice's bytes hold them, zeros past its end. -/
theorem reads_of_getD (hlen : bits.length ≤ 8 * s.rlen + 7)
    (h : ∀ k, k < bits.length →
      bits.getD k false = (decide (k < 8 * s.rlen) && (s.inByte (s.rbase + k / 8)).getLsbD (k % 8))) :
    s.Reads 0 bits := by
  refine ⟨by omega, ?_⟩
  rw [State.streamBits_eq_map]
  refine List.ext_getElem (by simp) fun k hk hk' => ?_
  rw [List.getElem_map, List.getElem_range, Nat.zero_add, State.streamBit_eq, ← h k hk', List.getD_eq_getElem _ _ hk']

theorem getD_bytesBits {bytes : List Byte} {k : Nat} (hk : k < 8 * bytes.length) :
    (bytesBits bytes).getD k false = (bytes.getD (k / 8) 0#8).getLsbD (k % 8) := by
  induction bytes generalizing k with
  | nil => simp at hk
  | cons b rest ih =>
    rw [bytesBits_cons]
    by_cases h8 : k < 8
    · rw [List.getD_append _ _ _ _ (by rwa [lsbBits_length]), Nat.div_eq_of_lt h8, Nat.mod_eq_of_lt h8,
        lsbBits_eq_map, List.getD_eq_getElem _ _ (by simpa using h8)]
      simp [BitVec.testBit_toNat]
    · obtain ⟨j, rfl⟩ := Nat.exists_eq_add_of_le (Nat.le_of_not_lt h8)
      rw [List.length_cons] at hk
      rw [List.getD_append_right _ _ _ _ (by rw [lsbBits_length]; omega), lsbBits_length, Nat.add_sub_cancel_left,
        ih (by omega), show (8 + j) / 8 = j / 8 + 1 by omega, List.getD_cons_succ, Nat.add_mod_left]

/-- The bits of the bytes with which the slice begins. -/
theorem reads_bytesBits {bytes : List Byte} (hlen : bytes.length ≤ s.rlen)
    (hb : BeginsWith s.inByte s.rbase bytes) : s.Reads 0 (bytesBits bytes) := by
  refine reads_of_getD (by rw [bytesBits_length]; omega) fun k hk => ?_
  rw [bytesBits_length] at hk
  rw [getD_bytesBits hk, hb (k / 8) (by omega), decide_eq_true (by omega), Bool.true_and]

end Reads

/-! ### The codes that stand for a symbol (30_encoding.md R80, R82) -/

/-- Each symbol's bits are those of an instruction that stands for it. -/
theorem exists_symbolCode {symbol : Nat} (h : symbol ≤ 287) :
    ∃ i : Instr, Sys2Proof.Encodes .litlen i (symbolBits symbol) ∧ litlenSymbol i = some symbol := by
  obtain ⟨i, hc, hsym⟩ := fixedCode_litlenCode h
  exact ⟨i, hc.encodes, hsym⟩

/-- The instruction of a byte's symbol is the literal of that byte. -/
theorem literalByte_of_litlenSymbol {i : Instr} {b : Byte} (h : litlenSymbol i = some b.toNat) :
    literalByte i = some b := by
  have hb := b.isLt
  cases i with
  | lit0To15 | lit16To79 | lit80To143 | lit144To159 | lit160To191 | lit192To255 =>
    exact congrArg some (BitVec.eq_of_toNat_eq (Option.some.inj h))
  | eob | len257 | len258To259 | len260To263 | len264To271 | len272To279 | len280To283 | len284To285
  | litlenInvalid =>
    have := Option.some.inj h
    omega
  | _ => cases h

/-- The instruction of a length symbol is a code of it. -/
theorem lengthSymbol_of_litlenSymbol {i : Instr} {symbol : Nat} (h : litlenSymbol i = some symbol)
    (hge : 257 ≤ symbol) (hle : symbol ≤ 285) : lengthSymbol i = some symbol := by
  cases i with
  | lit0To15 | lit16To79 | lit80To143 | lit144To159 | lit160To191 | lit192To255 =>
    have := Option.some.inj h
    omega
  | eob | litlenInvalid =>
    have := Option.some.inj h
    omega
  | len257 | len258To259 | len260To263 | len264To271 | len272To279 | len280To283 | len284To285 => exact h
  | _ => cases h

theorem distanceSymbol_decodeCode5 : ∀ d < 30, distanceSymbol (decodeCode5 d) = some d := by decide

/-! ### The run of a command as steps of its engine (46_commands.md R241) -/

/-- The engine makes a step from `s` to `t`. -/
def Steps (s t : State) : Prop := s.busy = true ∧ engineStep s = .next t

/-- Steps of the engine lead from `s` to `t`. -/
def Leads : State → State → Prop := Relation.ReflTransGen Steps

/-- A run that ends does so at the end to which the steps lead. -/
theorem runEngine_eq_of_leads {fuel : Nat} {s t u : State} (h : Leads s u) (hu : u.busy = false)
    (hrun : runEngine fuel s = .next t) (ht : t.busy = false) : t = u := by
  induction h using Relation.ReflTransGen.head_induction_on generalizing fuel with
  | refl => rw [runEngine_idle _ _ hu] at hrun; cases hrun; rfl
  | head hstep _ ih =>
    obtain ⟨hb, hnext⟩ := hstep
    cases fuel with
    | zero => cases hrun; rw [hb] at ht; cases ht
    | succ fuel => exact ih (by rwa [runEngine_succ_next _ _ _ hb hnext] at hrun)

/-- A data command in one step answers the end to which its engine's steps lead. -/
theorem dataCommand_of_leads {op : Op} {s u : State} (hi : s.cmdState = .idle) (hp : s.cfg.pace = .whole)
    (hle : s.inLen.toNat ≤ s.cfg.inCap) (h : Leads (startCommand op s) u) (hu : u.busy = false) :
    dataCommand op s = .next u := by
  obtain ⟨t, ht, hidle, -⟩ := dataCommand_ends (op := op) hi hp hle
  have hrun := ht
  rw [dataCommand_whole op s hi hp] at hrun
  rw [ht, runEngine_eq_of_leads h hu hrun hidle]

/-! ### The decoder on its way through a stream (43_deflate_decoder.md R170 to R178) -/

/-- The decoder that began at `s₀` stands at bit `q` and at the place `p` of its stream, in a block whose BFINAL is
`final`, with the output `out`. -/
structure Reached (s₀ : State) (q : Nat) (p : Phase) (final : Bool) (out : List Byte) (t : State) : Prop where
  frame : t = { s₀ with rpos := q, phase := p, bfinal := final, outPos := out.length, outBuf := t.outBuf }
  lists : t.Lists 0 out

namespace Reached

variable {s₀ t u : State} {q q' : Nat} {p p' : Phase} {final final' : Bool} {out out' bytes : List Byte}
  {bits : List Bool}

theorem rpos (h : Reached s₀ q p final out t) : t.rpos = q := by rw [h.frame]
theorem phase (h : Reached s₀ q p final out t) : t.phase = p := by rw [h.frame]
theorem bfinal (h : Reached s₀ q p final out t) : t.bfinal = final := by rw [h.frame]
theorem outPos (h : Reached s₀ q p final out t) : t.outPos = out.length := by rw [h.frame]
theorem cfg (h : Reached s₀ q p final out t) : t.cfg = s₀.cfg := by rw [h.frame]
theorem rlen (h : Reached s₀ q p final out t) : t.rlen = s₀.rlen := by rw [h.frame]
theorem inLen (h : Reached s₀ q p final out t) : t.inLen = s₀.inLen := by rw [h.frame]
theorem inByte (h : Reached s₀ q p final out t) : t.inByte = s₀.inByte := by rw [h.frame]; rfl
theorem cmdState (h : Reached s₀ q p final out t) : t.cmdState = s₀.cmdState := by rw [h.frame]
theorem errCode (h : Reached s₀ q p final out t) : t.errCode = s₀.errCode := by rw [h.frame]
theorem crcResult (h : Reached s₀ q p final out t) : t.crcResult = s₀.crcResult := by rw [h.frame]
theorem hostKept (h : Reached s₀ q p final out t) : HostKept s₀ t := by rw [h.frame]; exact hostKept_refl s₀

theorem decompressing (h : Reached s₀ q p final out t) (hd : s₀.decompressing = true) : t.decompressing = true := by
  rwa [State.decompressing, h.cmdState]

theorem field (h : Reached s₀ q p final out t) (a n : Nat) : t.field a n = s₀.field a n := by
  apply State.field_congr <;> rw [h.frame]

theorem reads (h : Reached s₀ q p final out t) {a : Nat} (hr : s₀.Reads a bits) : t.Reads a bits := by
  obtain ⟨hlen, hbits⟩ := hr
  refine ⟨by rwa [h.rlen], ?_⟩
  rw [State.streamBits_eq_map] at hbits ⊢
  rw [← hbits]
  simp only [List.length_map, List.length_range]
  refine List.map_congr_left fun k _ => ?_
  apply State.streamBit_congr <;> rw [h.frame]

/-- Bits that stand at the reader can be read. -/
theorem canRead (h : Reached s₀ q p final out t) (hr : s₀.Reads q bits) : t.canRead bits.length = true := by
  rw [State.canRead_iff, h.rpos, h.rlen]
  exact hr.within

theorem setRpos (h : Reached s₀ q p final out t) (q' : Nat) : Reached s₀ q' p final out { t with rpos := q' } :=
  ⟨by rw [h.frame], h.lists⟩

theorem setPhase (h : Reached s₀ q p final out t) (p' : Phase) : Reached s₀ q p' final out { t with phase := p' } :=
  ⟨by rw [h.frame], h.lists⟩

theorem setBfinal (h : Reached s₀ q p final out t) (b : Bool) : Reached s₀ q p b out { t with bfinal := b } :=
  ⟨by rw [h.frame], h.lists⟩

/-- Appended bytes lengthen the output. -/
theorem wrote (h : Reached s₀ q p final out t) (hw : Wrote t bytes.length u) (hpos : u.rpos = q')
    (hb : BeginsWith u.outByte out.length bytes) : Reached s₀ q' p final (out ++ bytes) u := by
  refine ⟨?_, (hw.lists_old h.lists (by rw [h.outPos]; omega)).append ?_⟩
  · rw [hw.frame, hpos, h.outPos, List.length_append, h.frame]
  · have hnew := hw.lists_new (bytes := bytes) (by rwa [h.outPos])
    rwa [h.outPos, ← Nat.zero_add out.length] at hnew

/-- Room for all of the output is room for what it grows by. -/
theorem room (h : Reached s₀ q p final out t) {n : Nat} (hroom : Room s₀ 0 (out.length + n)) : Room t t.outPos n :=
  room_part h.cfg (by rw [h.outPos]) hroom

/-- The same place of the stream with more output is the end of what the decoder does from there. -/
theorem atEnd (h : Reached s₀ q p final out t) (h' : Reached s₀ q' p final' out' u) : AtEnd t out' u where
  frame := by rw [h'.frame, h.frame]
  output := h'.lists.output_eq
  listed a ha _ := by
    have := h'.lists a ha
    rw [Nat.zero_add] at this
    rw [this]
    rfl

theorem busy (h : Reached s₀ q p final out t) (hd : s₀.decompressing = true) : t.busy = true := by
  have ht := h.decompressing hd
  unfold State.decompressing at ht
  split at ht
  · next hc => exact State.busy_busy t _ hc
  · next hc => exact State.busy_busy t _ hc
  · cases ht

end Reached

/-- The context in which a running decoder reads at each place of a stream. -/
theorem fetchSpace_of_phase {s : State} (hd : s.decompressing = true) :
    (s.phase = .blockHeader → s.fetchSpace = some .block) ∧ (s.phase = .litlen → s.fetchSpace = some .litlen) ∧
      ∀ len, s.phase = .dist len → s.fetchSpace = some .dist := by
  unfold State.decompressing at hd
  unfold State.fetchSpace
  split at hd
  · next hc => rw [hc]; refine ⟨fun h => ?_, fun h => ?_, fun len h => ?_⟩ <;> rw [h]
  · next hc => rw [hc]; refine ⟨fun h => ?_, fun h => ?_, fun len h => ?_⟩ <;> rw [h]
  · cases hd

namespace Reached

variable {s₀ t : State} {q : Nat} {p : Phase} {final : Bool} {out out' : List Byte}

/-- The engine runs the code that stands at the reader. -/
theorem engineStep_code {i : Instr} {sp : Space} {code : List Bool} (h : Reached s₀ q p final out t)
    (hsp : t.fetchSpace = some sp) (hi : Sys2Proof.Encodes sp i code) (hr : s₀.Reads q code) :
    engineStep t = exec i t := by
  obtain ⟨rfl, hwf, rfl⟩ := hi
  have hbits := (h.reads hr).bits_eq
  rw [← h.rpos] at hbits
  exact engineStep_encode hwf hsp (h.canRead hr) hbits

/-! #### One item of a fixed block -/

theorem literal_step (hd : s₀.decompressing = true) (h : Reached s₀ q .litlen final out t) {b : Byte}
    (hr : s₀.Reads q (symbolBits b.toNat)) (hroom : Room s₀ 0 (out.length + 1)) :
    ∃ u, Steps t u ∧ Reached s₀ (q + (symbolBits b.toNat).length) .litlen final (out ++ [b]) u := by
  have hp := atLitlen_of_phase (h.decompressing hd) h.phase
  obtain ⟨i, hi, hsym⟩ := exists_symbolCode (symbol := b.toNat) (by have := b.isLt; omega)
  have hstep := h.engineStep_code ((fetchSpace_of_phase (h.decompressing hd)).2.1 h.phase) hi hr
  obtain ⟨value, rfl, hexec⟩ := exec_literalByte (literalByte_of_litlenSymbol hsym) t
  rw [hi.encode] at hexec
  have hskip := (skipBits_ok_iff _ t _).mpr ⟨h.canRead hr, rfl⟩
  have hnext := h.setRpos (q + (symbolBits (BitVec.ofNat 8 value : Byte).toNat).length)
  rw [h.rpos] at hskip
  obtain ⟨u, hu, hw, hpos, hbyte⟩ := outAppend_wrote (BitVec.ofNat 8 value) (hnext.room hroom 0 Nat.one_pos)
  refine ⟨u, ⟨h.busy hd, ?_⟩, hnext.wrote hw hpos fun k hk => ?_⟩
  · rw [hstep, hexec, hp, atPlace_true, Machine.literal, hskip, ok_bind, hu, settle_ok]
  · obtain rfl : k = 0 := by simpa using hk
    rw [hnext.outPos] at hbyte
    exact hbyte

theorem length_step (hd : s₀.decompressing = true) (h : Reached s₀ q .litlen final out t) {symbol v : Nat}
    (hge : 257 ≤ symbol) (hle : symbol ≤ 285) (hv : v < 2 ^ lenExtra symbol)
    (hr : s₀.Reads q (symbolBits symbol ++ lsbBits (lenExtra symbol) v)) :
    ∃ u, Steps t u ∧ Reached s₀ (q + (symbolBits symbol ++ lsbBits (lenExtra symbol) v).length)
      (.dist (lenBase symbol + v)) final out u := by
  have hp := atLitlen_of_phase (h.decompressing hd) h.phase
  obtain ⟨hcode, hextra⟩ := hr.split
  obtain ⟨i, hi, hsym⟩ := exists_symbolCode (symbol := symbol) (by omega)
  have hstep := h.engineStep_code ((fetchSpace_of_phase (h.decompressing hd)).2.1 h.phase) hi hcode
  have hread := h.canRead hr
  rw [List.length_append, lsbBits_length] at hread
  refine ⟨_, ⟨h.busy hd, ?_⟩, (h.setRpos _).setPhase _⟩
  rw [hstep, exec_lengthSymbol (lengthSymbol_of_litlenSymbol hsym hge hle), hp, atPlace_true, hi.encode,
    lengthCode_ok hread, settle_ok, h.rpos, h.field, hextra.field_eq hv, List.length_append, lsbBits_length,
    Nat.add_assoc]

/-- The bytes of a copy complete the output as the copy on lists does. -/
theorem append_copied {dist len : Nat} {u : State} (hge : 1 ≤ dist) (hle : dist ≤ out.length) (hout : u.Lists 0 out)
    (h : ∀ j, j < len → u.outByte (out.length + j) = u.outByte (out.length - dist + j)) :
    out ++ bytesFrom u.outByte out.length len = copyOnto dist len out := by
  have hold : bytesFrom u.outByte 0 out.length = out := bytesFrom_eq_of_beginsWith hout.beginsWith
  have hcopy := copyOnto_match (D := u.outByte) hge hle fun k hk => (h k hk).symm
  rw [hold, bytesFrom_add, hold, Nat.zero_add] at hcopy
  exact hcopy.symm

theorem distance_step (hd : s₀.decompressing = true) {len : Nat} (h : Reached s₀ q (.dist len) final out t)
    {symbol v : Nat} (hle : symbol ≤ 29) (hv : v < 2 ^ distExtra symbol)
    (hr : s₀.Reads q (msbBits 5 symbol ++ lsbBits (distExtra symbol) v))
    (hback : distBase symbol + v ≤ out.length) (hroom : Room s₀ 0 (out.length + len)) :
    ∃ u, Steps t u ∧ Reached s₀ (q + (msbBits 5 symbol ++ lsbBits (distExtra symbol) v).length) .litlen final
      (copyOnto (distBase symbol + v) len out) u := by
  obtain ⟨hcode, hextra⟩ := hr.split
  rw [msbBits_length] at hextra
  have hlen := (pendingLength_eq_some_iff t len).mpr ⟨h.decompressing hd, h.phase⟩
  have hstep := h.engineStep_code ((fetchSpace_of_phase (h.decompressing hd)).2.2 len h.phase)
    (decodeCode5_encodes (by omega)) hcode
  have hread := h.canRead hr
  rw [List.length_append, msbBits_length, lsbBits_length] at hread ⊢
  have hdist : distBase symbol + v = distBase symbol + t.field (t.rpos + 5) (distExtra symbol) := by
    rw [h.rpos, h.field, hextra.field_eq hv]
  have hpos := distBase_pos hle
  have hnext := h.setRpos (q + (5 + distExtra symbol))
  obtain ⟨u, hu, hw, hcopy⟩ := copyFrom_wrote (k := len) (a := t.outPos - (distBase symbol + v))
    (by rw [hnext.outPos]; omega) (hnext.room hroom)
  rw [hnext.outPos] at hcopy
  have hurpos : u.rpos = q + (5 + distExtra symbol) := by rw [(copyFrom_frame hu).1]
  have hlists := hw.lists_old hnext.lists (by rw [hnext.outPos]; omega)
  have hout := append_copied (by omega) hback hlists hcopy
  have hwrote : Wrote { t with rpos := q + (5 + distExtra symbol) } (bytesFrom u.outByte out.length len).length u := by
    rwa [bytesFrom_length]
  have hreached := hnext.wrote hwrote hurpos fun k hk =>
    (bytesFrom_getD _ _ _ _ _ (by rwa [bytesFrom_length] at hk)).symm
  rw [hout] at hreached
  refine ⟨_, ⟨h.busy hd, ?_⟩, hreached.setPhase .litlen⟩
  rw [hstep, exec_distanceSymbol (distanceSymbol_decodeCode5 symbol (by omega)), atDistance_some t _ len hlen,
    distanceCode_copies hread hdist (by rwa [h.outPos]), h.rpos, Nat.add_assoc, hu, ok_bind, settle_ok]

end Reached

end Sys2Proof.Machine

namespace Sys2Proof.Machine

open Sys2Proof.Ref

/-! ### The output only grows (43_deflate_decoder.md R170, R178) -/

theorem copyOnto_length (dist len : Nat) (out : List Byte) : (copyOnto dist len out).length = out.length + len := by
  induction len generalizing out with
  | zero => rfl
  | succ len ih => rw [copyOnto, ih, List.length_append, List.length_singleton, Nat.add_assoc, Nat.add_comm 1]

section Grows

variable {out out' : List Byte}

theorem expand_copy {ls lv ds dv : Nat} (h : (Item.copy ls lv ds dv).expand out = some out') :
    distBase ds + dv ≤ out.length ∧ out' = copyOnto (distBase ds + dv) (lenBase ls + lv) out := by
  rw [Item.expand, Option.ite_none_right_eq_some] at h
  exact ⟨h.1, (Option.some.inj h.2).symm⟩

theorem Item.length_le_expand {it : Item} (h : it.expand out = some out') : out.length ≤ out'.length := by
  cases it with
  | lit b => cases h; rw [List.length_append]; exact Nat.le_add_right _ _
  | copy ls lv ds dv => rw [(expand_copy h).2, copyOnto_length]; exact Nat.le_add_right _ _

theorem length_le_expandItems {items : List Item} (h : expandItems items out = some out') :
    out.length ≤ out'.length := by
  induction items generalizing out with
  | nil => cases h; exact Nat.le_refl _
  | cons it rest ih =>
    obtain ⟨mid, hit, hrest⟩ := Option.bind_eq_some_iff.mp h
    exact (Item.length_le_expand hit).trans (ih hrest)

theorem Block.length_le_expand {b : Block} (h : b.expand out = some out') : out.length ≤ out'.length := by
  cases b with
  | stored padding data => cases h; rw [List.length_append]; exact Nat.le_add_right _ _
  | fixed items => exact length_le_expandItems h

theorem length_le_streamOutput {blocks : List Block} (h : streamOutput blocks out = some out') :
    out.length ≤ out'.length := by
  induction blocks generalizing out with
  | nil => cases h; exact Nat.le_refl _
  | cons b rest ih =>
    obtain ⟨mid, hb, hrest⟩ := Option.bind_eq_some_iff.mp h
    exact (Block.length_le_expand hb).trans (ih hrest)

end Grows

/-! ### A whole stream (43_deflate_decoder.md R170 to R178) -/

theorem room_le {s : State} {a m n : Nat} (h : Room s a n) (hle : m ≤ n) : Room s a m :=
  fun k hk => h k (Nat.lt_of_lt_of_le hk hle)

namespace Reached

variable {s₀ t : State} {q : Nat} {final : Bool} {out out' : List Byte}

/-- An item takes one step, or the two of a length and a distance. -/
theorem item (hd : s₀.decompressing = true) (h : Reached s₀ q .litlen final out t) {it : Item} (hok : it.ok)
    (hr : s₀.Reads q it.bits) (hout : it.expand out = some out') (hroom : Room s₀ 0 out'.length) :
    ∃ u, Leads t u ∧ Reached s₀ (q + it.bits.length) .litlen final out' u := by
  cases it with
  | lit b =>
    cases hout
    rw [List.length_append] at hroom
    obtain ⟨u, hstep, hu⟩ := h.literal_step hd hr hroom
    exact ⟨u, .single hstep, hu⟩
  | copy ls lv ds dv =>
    obtain ⟨hge, hle, hlv, hds, hdv⟩ := hok
    obtain ⟨hback, rfl⟩ := expand_copy hout
    rw [copyOnto_length] at hroom
    rw [Item.bits, List.append_assoc] at hr ⊢
    obtain ⟨hrlen, hrdist⟩ := hr.split
    obtain ⟨u, hstep, hu⟩ := h.length_step hd hge hle hlv hrlen
    obtain ⟨v, hstep', hv⟩ := hu.distance_step hd hds hdv hrdist hback hroom
    rw [List.length_append, ← Nat.add_assoc]
    exact ⟨v, .tail (.single hstep) hstep', hv⟩

theorem items (hd : s₀.decompressing = true) (h : Reached s₀ q .litlen final out t) {items : List Item}
    (hok : ∀ it ∈ items, it.ok) (hr : s₀.Reads q (items.flatMap Item.bits))
    (hout : expandItems items out = some out') (hroom : Room s₀ 0 out'.length) :
    ∃ u, Leads t u ∧ Reached s₀ (q + (items.flatMap Item.bits).length) .litlen final out' u := by
  induction items generalizing q out t with
  | nil => cases hout; exact ⟨t, .refl, h⟩
  | cons it rest ih =>
    obtain ⟨hit, hrest⟩ := List.forall_mem_cons.mp hok
    obtain ⟨mid, hmid, hout⟩ := Option.bind_eq_some_iff.mp hout
    rw [List.flatMap_cons] at hr ⊢
    obtain ⟨hrit, hrrest⟩ := hr.split
    obtain ⟨u, hlead, hu⟩ := h.item hd hit hrit hmid (room_le hroom (length_le_expandItems hout))
    obtain ⟨v, hlead', hv⟩ := ih hu hrest hrrest hout
    rw [List.length_append, ← Nat.add_assoc]
    exact ⟨v, hlead.trans hlead', hv⟩

end Reached

/-- The engine's step at `t` is the last of a block: it ends the block at bit `q` with the output `out`. -/
def AtBlockEnd (s₀ : State) (q : Nat) (final : Bool) (out : List Byte) (t : State) : Prop :=
  ∃ q' p final' old u, Reached s₀ q' p final' old t ∧ Reached s₀ q p final out u ∧
    engineStep t = settle t (endBlock u)

/-- After a block that is not the last the decoder stands before the next header. -/
theorem AtBlockEnd.next {s₀ t : State} {q : Nat} {out : List Byte} (hd : s₀.decompressing = true)
    (h : AtBlockEnd s₀ q false out t) : ∃ u, Steps t u ∧ Reached s₀ q .blockHeader false out u := by
  obtain ⟨q', p, final', old, u, ht, hu, hstep⟩ := h
  rw [endBlock_more hu.bfinal, settle_ok] at hstep
  exact ⟨_, ⟨ht.busy hd, hstep⟩, hu.setPhase .blockHeader⟩

/-- The bytes that stand at a place are what reads of eight bits there return. -/
theorem State.Reads.byte_eq {s : State} {q k : Nat} {bytes : List Byte} (h : s.Reads q (bytesBits bytes))
    (hk : k < bytes.length) : s.field (q + 8 * k) 8 = (bytes.getD k 0#8).toNat := by
  induction bytes generalizing q k with
  | nil => exact absurd hk (Nat.not_lt_zero _)
  | cons b rest ih =>
    obtain ⟨hb, hrest⟩ := h.split
    cases k with
    | zero => exact hb.field_eq b.isLt
    | succ k =>
      rw [lsbBits_length] at hrest
      rw [List.getD_cons_succ, ← ih hrest (Nat.lt_of_succ_lt_succ hk), Nat.mul_succ, Nat.add_comm (8 * k),
        Nat.add_assoc]

namespace Reached

variable {s₀ t : State} {q : Nat} {final final' : Bool} {out out' : List Byte}

theorem readAt (h : Reached s₀ q .blockHeader final' out t) (q' : Nat) (final : Bool) :
    Reached s₀ q' .blockHeader final out (t.readAt q' final) := (h.setRpos q').setBfinal final

theorem atBlock (hd : s₀.decompressing = true) (h : Reached s₀ q .blockHeader final' out t) : t.atBlock = true := by
  simp [State.atBlock, h.decompressing hd, h.phase]

/-- The engine runs the block header that stands at the reader. -/
theorem engineStep_header (hd : s₀.decompressing = true) (h : Reached s₀ q .blockHeader final' out t) {btype : Nat}
    (hlt : btype < 4) (hr : s₀.Reads q (final :: lsbBits 2 btype)) :
    engineStep t = exec (decodeBtype final btype) t :=
  h.engineStep_code ((fetchSpace_of_phase (h.decompressing hd)).1 h.phase) (decodeBtype_encodes final hlt) hr

/-- A fixed block's header leads into the symbol loop. -/
theorem fixed_step (hd : s₀.decompressing = true) (h : Reached s₀ q .blockHeader final' out t)
    (hr : s₀.Reads q [final, true, false]) : ∃ u, Steps t u ∧ Reached s₀ (q + 3) .litlen final out u := by
  have hexec := fixedBlockEntersTheSymbolLoop t final (h.atBlock hd) (h.canRead hr)
  rw [h.rpos] at hexec
  exact ⟨_, ⟨h.busy hd, (h.engineStep_header hd (btype := 1) (by decide) hr).trans hexec⟩,
    ((h.setRpos (q + 3)).setBfinal final).setPhase .litlen⟩

/-- The end-of-block code's step ends the block. -/
theorem eob (hd : s₀.decompressing = true) (h : Reached s₀ q .litlen final out t)
    (hr : s₀.Reads q (symbolBits 256)) : AtBlockEnd s₀ (q + (symbolBits 256).length) final out t := by
  have ht := h.decompressing hd
  have hcode : Sys2Proof.Encodes .litlen .eob (symbolBits 256) := ⟨rfl, rfl, rfl⟩
  refine ⟨_, _, _, _, _, h, h.setRpos _, ?_⟩
  rw [h.engineStep_code ((fetchSpace_of_phase ht).2.1 h.phase) hcode hr,
    exec_eob (atLitlen_of_phase ht h.phase) (h.canRead hr), h.rpos]
  rfl

theorem fixed (hd : s₀.decompressing = true) (h : Reached s₀ q .blockHeader final' out t) {items : List Item}
    (hok : ∀ it ∈ items, it.ok) (hr : s₀.Reads q ((Block.fixed items).bits final))
    (hout : expandItems items out = some out') (hroom : Room s₀ 0 out'.length) :
    ∃ u, Leads t u ∧ AtBlockEnd s₀ (q + ((Block.fixed items).bits final).length) final out' u := by
  rw [Block.bits, List.append_assoc] at hr ⊢
  obtain ⟨hrheader, hr⟩ := hr.split
  obtain ⟨hritems, hreob⟩ := hr.split
  obtain ⟨t', hstep, ht'⟩ := h.fixed_step hd hrheader
  obtain ⟨u, hlead, hu⟩ := ht'.items hd hok hritems hout hroom
  refine ⟨u, .head hstep hlead, ?_⟩
  rw [List.length_append, List.length_append, ← Nat.add_assoc, ← Nat.add_assoc]
  exact hu.eob hd hreob

/-- The fields of the stored block that stands at the reader. -/
theorem stored_fields (h : Reached s₀ q .blockHeader final' out t) {padding : List Bool} {data : List Byte}
    (hok : (Block.stored padding data).ok q) (hr : s₀.Reads q ((Block.stored padding data).bits final)) :
    storedLen t = data.length ∧ storedNlen t = 65535 - data.length ∧ rawBytes t = data ∧
      rawStart t data.length = q + ((Block.stored padding data).bits final).length := by
  obtain ⟨hpad, halign, hlt⟩ := hok
  have hbits : (Block.stored padding data).bits final =
      ([final, false, false] ++ padding) ++ (lsbBits 16 data.length ++ (lsbBits 16 (65535 - data.length) ++
        bytesBits data)) := by
    simp only [Block.bits, bytesBits, List.append_assoc]
  rw [hbits] at hr ⊢
  obtain ⟨-, hr⟩ := hr.split
  have hstart : storedStart t = q + ([final, false, false] ++ padding).length := by
    rw [storedStart, h.rpos, List.length_append]
    simp only [List.length_cons, List.length_nil]
    omega
  rw [← hstart] at hr
  obtain ⟨hrlen, hr⟩ := hr.split
  obtain ⟨hrnlen, hrdata⟩ := hr.split
  rw [lsbBits_length] at hrnlen hrdata
  rw [lsbBits_length] at hrdata
  have hlen : storedLen t = data.length := by rw [storedLen, h.field, hrlen.field_eq hlt]
  refine ⟨hlen, by rw [storedNlen, h.field, hrnlen.field_eq (by omega)], ?_, ?_⟩
  · rw [rawBytes, hlen]
    refine List.ext_getElem (by simp) fun k _ hk => ?_
    rw [List.getElem_map, List.getElem_range, ← List.getD_eq_getElem _ 0#8 hk, h.field]
    exact BitVec.eq_of_toNat_eq ((BitVec.toNat_ofNat _ _).trans
      ((Nat.mod_eq_of_lt (State.field_lt _ _ _)).trans (hrdata.byte_eq hk)))
  · simp only [rawStart, hstart, List.length_append, lsbBits_length, bytesBits_length]
    omega

/-- A stored block is one step. -/
theorem stored (hd : s₀.decompressing = true) (h : Reached s₀ q .blockHeader final' out t) {padding : List Bool}
    {data : List Byte} (hok : (Block.stored padding data).ok q)
    (hr : s₀.Reads q ((Block.stored padding data).bits final)) (hroom : Room s₀ 0 (out ++ data).length) :
    AtBlockEnd s₀ (q + ((Block.stored padding data).bits final).length) final (out ++ data) t := by
  obtain ⟨hlen, hnlen, hbytes, hend⟩ := h.stored_fields hok hr
  obtain ⟨-, -, hlt⟩ := hok
  have hwithin : rawStart t data.length ≤ 8 * t.rlen + 7 := by rw [hend, h.rlen]; exact hr.within
  have hheader : s₀.Reads q [final, false, false] := by
    simp only [Block.bits, List.append_assoc] at hr
    exact hr.split.1
  have hbody : rawStart t 0 ≤ 8 * t.rlen + 7 := (Nat.add_le_add_left (Nat.zero_le _) _).trans hwithin
  rw [List.length_append] at hroom
  obtain ⟨u, hu, hw, hrpos, hnew⟩ := copyRaw_rawBytes (s := t) final (by rwa [hlen]) (by rw [hlen]; exact h.room hroom)
  rw [hlen] at hw hrpos hnew
  rw [hbytes, h.outPos] at hnew
  refine ⟨_, _, _, _, u, h, (h.readAt _ final).wrote hw (hrpos.trans hend) hnew, ?_⟩
  rw [h.engineStep_header hd (btype := 0) (by decide) hheader]
  show exec (.blockStored final) t = _
  rw [exec_blockStored (h.atBlock hd), storedBlock_eq final hbody, if_neg (by omega), hu, ok_bind]

theorem block (hd : s₀.decompressing = true) (h : Reached s₀ q .blockHeader final' out t) {b : Block} (hok : b.ok q)
    (hr : s₀.Reads q (b.bits final)) (hout : b.expand out = some out') (hroom : Room s₀ 0 out'.length) :
    ∃ u, Leads t u ∧ AtBlockEnd s₀ (q + (b.bits final).length) final out' u := by
  cases b with
  | stored padding data => cases hout; exact ⟨t, .refl, h.stored hd hok hr hroom⟩
  | fixed items => exact h.fixed hd hok hr hout hroom

/-- The blocks of a stream one after the other, up to the step that ends the last. -/
theorem stream (hd : s₀.decompressing = true) {b : Block} {rest : List Block}
    (h : Reached s₀ q .blockHeader final' out t) (hok : streamOk q (b :: rest))
    (hr : s₀.Reads q (streamBits (b :: rest))) (hout : streamOutput (b :: rest) out = some out')
    (hroom : Room s₀ 0 out'.length) :
    ∃ u, Leads t u ∧ AtBlockEnd s₀ (q + (streamBits (b :: rest)).length) true out' u := by
  induction rest generalizing b q out t final' with
  | nil =>
    obtain ⟨mid, hmid, hlast⟩ := Option.bind_eq_some_iff.mp hout
    cases hlast
    rw [streamBits, streamBits, List.append_nil] at hr ⊢
    exact h.block hd hok.1 hr hmid hroom
  | cons b' rest ih =>
    obtain ⟨hb, hrest⟩ := hok
    obtain ⟨mid, hmid, hout⟩ := Option.bind_eq_some_iff.mp hout
    rw [streamBits] at hr ⊢
    obtain ⟨hrb, hrrest⟩ := hr.split
    obtain ⟨u, hlead, hu⟩ := h.block hd hb hrb hmid (room_le hroom (length_le_streamOutput hout))
    obtain ⟨v, hstep, hv⟩ := hu.next hd
    obtain ⟨w, hlead', hw⟩ := ih hv hrest hrrest hout
    rw [List.length_append, ← Nat.add_assoc]
    exact ⟨w, (hlead.tail hstep).trans hlead', hw⟩

end Reached

end Sys2Proof.Machine

namespace Sys2Proof.Machine

open Sys2Proof.Ref

/-! ### From the first block header to the end of the command (46_commands.md R244, R246) -/

/-- The decoder is about to read the first block header of a stream. -/
structure OpensStream (s : State) : Prop where
  decompressing : s.decompressing = true
  phase : s.phase = .blockHeader
  rpos : s.rpos = 0
  outPos : s.outPos = 0
  errCode : s.errCode = 0#4

/-- A command that began at `s` succeeded with the output `out`. -/
structure Decompressed (s : State) (out : List Byte) (t : State) : Prop where
  succeeded : Succeeded t
  kept : HostKept s t
  outLen : t.outLen = BitVec.ofNat 32 out.length
  output : t.output out.length = out

section Streams

variable {s₀ t u : State} {q q' : Nat} {p p' : Phase} {final : Bool} {out old : List Byte} {blocks : List Block}

theorem OpensStream.reached (h : OpensStream s₀) : Reached s₀ 0 .blockHeader s₀.bfinal [] s₀ := by
  obtain ⟨-, hphase, hrpos, hpos, -⟩ := h
  refine ⟨?_, State.lists_nil _ _⟩
  cases s₀
  cases hphase
  cases hrpos
  cases hpos
  rfl

/-- A stream that the reader's slice carries runs to the step that ends its last block, and uses the whole slice. -/
theorem OpensStream.stream (h : OpensStream s₀) (hne : blocks ≠ []) (hok : streamOk 0 blocks)
    (hout : streamOutput blocks [] = some out) (hc : Carries s₀.inByte s₀.rbase s₀.rlen (streamBits blocks))
    (hroom : Room s₀ 0 out.length) :
    ∃ t q, Leads s₀ t ∧ AtBlockEnd s₀ q true out t ∧ s₀.rlen ≤ (q + 7) / 8 := by
  obtain ⟨hlen, hused, hbits⟩ := hc
  obtain ⟨b, rest, rfl⟩ := List.exists_cons_of_ne_nil hne
  obtain ⟨t, hlead, ht⟩ := h.reached.stream h.decompressing hok (reads_of_getD hlen hbits) hout hroom
  rw [Nat.zero_add] at ht
  exact ⟨t, _, hlead, ht, hused⟩

/-- What the end of a stream produces is all of its output, since a running decoder lists what it has decoded. -/
theorem Reached.decompressed (h : Reached s₀ q p final old t) (hu : Produced t u out) : Decompressed s₀ out u := by
  obtain ⟨hs, hkept, hlen, hbytes⟩ := hu
  refine ⟨hs, hostKept_trans h.hostKept hkept, hlen, bytesFrom_eq_of_beginsWith fun a ha => ?_⟩
  rw [Nat.zero_add]
  refine hbytes a ha fun hlt => ?_
  have hlisted := h.lists a (by rwa [← h.outPos])
  rw [Nat.zero_add] at hlisted
  rw [hlisted, Option.isSome_some]

/-- The last block's step ends a raw stream. -/
theorem AtBlockEnd.endsRaw (h : AtBlockEnd s₀ q true out t) (hc : s₀.cmdState = .busy .deflateDecompress)
    (herr : s₀.errCode = 0#4) (hlen : out.length < 2 ^ 32) (hused : s₀.rlen ≤ (q + 7) / 8) :
    ∃ v, Steps t v ∧ Decompressed s₀ out v ∧ v.crcResult = s₀.crcResult := by
  obtain ⟨q', p, final, old, u, ht, hu, hstep⟩ := h
  obtain ⟨-, hdone⟩ := (ht.atEnd hu).endsRaw (ht.cmdState.trans hc) (ht.errCode.trans herr) hlen
  obtain ⟨v, hv, hproduced, hcrc⟩ := hdone (by rwa [ht.rlen, State.consumed, hu.rpos])
  rw [endBlock_final hu.bfinal, hv] at hstep
  exact ⟨v, ⟨State.busy_busy t _ (ht.cmdState.trans hc), hstep⟩, ht.decompressed hproduced, hcrc.trans ht.crcResult⟩

/-- The last block's step ends a gzip payload whose footer agrees. -/
theorem AtBlockEnd.endsMember (h : AtBlockEnd s₀ q true out t) (hc : s₀.cmdState = .busy .gzipDecompress)
    (herr : s₀.errCode = 0#4) (hlen : out.length < 2 ^ 32) (hused : s₀.rlen ≤ (q + 7) / 8)
    (hcrc : crc32 out = rd32 s₀.inByte (s₀.inLen.toNat - 8))
    (hlength : out.length = (rd32 s₀.inByte (s₀.inLen.toNat - 4)).toNat) :
    ∃ v, Steps t v ∧ Decompressed s₀ out v ∧ v.crcResult = crc32 out := by
  obtain ⟨q', p, final, old, u, ht, hu, hstep⟩ := h
  obtain ⟨-, hdone⟩ := (ht.atEnd hu).endsMember (ht.cmdState.trans hc) (ht.errCode.trans herr) hlen
  obtain ⟨-, hdone⟩ := hdone (by rwa [ht.rlen, State.consumed, hu.rpos])
  obtain ⟨-, hdone⟩ := hdone (by rwa [ht.inByte, ht.inLen])
  obtain ⟨v, hv, hproduced, hresult⟩ := hdone (by rwa [ht.inByte, ht.inLen])
  rw [endBlock_final hu.bfinal, hv] at hstep
  exact ⟨v, ⟨State.busy_busy t _ (ht.cmdState.trans hc), hstep⟩, ht.decompressed hproduced, hresult⟩

end Streams

/-- A data command whose engine's steps lead to success succeeds. -/
theorem dataCommand_decompressed {op : Op} {s s₁ t v : State} {out : List Byte} (hi : s.cmdState = .idle)
    (hp : s.cfg.pace = .whole) (hle : s.inLen.toNat ≤ s.cfg.inCap) (hlead : Leads (startCommand op s) t)
    (hstep : Steps t v) (hkept : HostKept s s₁) (hv : Decompressed s₁ out v) :
    dataCommand op s = .next v ∧ Decompressed s out v := by
  obtain ⟨hs, hkept', hlen, hout⟩ := hv
  exact ⟨dataCommand_of_leads hi hp hle (hlead.tail hstep) (State.busy_idle v hs.1), hs, hostKept_trans hkept hkept',
    hlen, hout⟩

/-! ### DEFLATE_DECOMPRESS of a well-formed stream (46_commands.md R244) -/

theorem opensStream_deflate {s : State} (hle : s.inLen.toNat ≤ s.cfg.inCap) :
    OpensStream (startCommand .deflateDecompress s) := by
  rw [startCommand_ok _ s hle]
  exact ⟨rfl, rfl, rfl, rfl, rfl⟩

/-- Settles O52: the engine's steps lead through the blocks to the end of the last, which leaves no byte of IN. -/
theorem deflateDecompressResult : Obligations.DeflateDecompressResult := by
  intro s blocks out hi hp hle hne hok hout hc hroom hlen
  have hopens := opensStream_deflate hle
  have hstart := startCommand_ok .deflateDecompress s hle
  obtain ⟨t, q, hlead, ht, hused⟩ := hopens.stream hne hok hout (by rwa [hstart]) (by rwa [hstart])
  obtain ⟨v, hstep, hv, hcrc⟩ := ht.endsRaw (by rw [hstart]; rfl) hopens.errCode hlen hused
  obtain ⟨hrun, hs, hkept, hlength, houtput⟩ :=
    dataCommand_decompressed hi hp hle hlead hstep (startCommand_hostKept _ s) hv
  exact ⟨v, hrun, hs, hkept, hcrc.trans (by rw [hstart]; rfl), hlength, houtput⟩

/-! ### GZIP_DECOMPRESS of a well-formed member (46_commands.md R246) -/

/-- A 32-bit number as four bytes is sent as a 32-bit field. -/
theorem bytesBits_le32 (v : Word) : bytesBits (le32 v) = lsbBits 32 v.toNat := by
  simp only [le32, bytesBits_cons, bytesBits_nil, List.append_nil, BitVec.extractLsb'_toNat, lsbBits_mod,
    Nat.shiftRight_eq_div_pow]
  rw [lsbBits_add 8 24, lsbBits_add 8 16, lsbBits_add 8 8, Nat.div_div_eq_div_mul, Nat.div_div_eq_div_mul, pow_zero,
    Nat.div_one]
  rfl

/-- The fixed part of a member header is sent as its instruction. -/
theorem bytesBits_fixedBytes (h : Header) :
    bytesBits (fixedBytes h) = encode (.gzipMember h.flg h.mtime h.xfl h.os) := by
  rw [fixedBytes, bytesBits_append, bytesBits_append, bytesBits_le32, encode]
  simp only [bytesBits_cons, bytesBits_nil, List.append_nil, List.append_assoc]
  rfl

theorem rd32_of_beginsWith {view : Nat → Byte} {a : Nat} {w : Word} (h : BeginsWith view a (le32 w)) :
    rd32 view a = w := by
  have h0 : view a = w.extractLsb' 0 8 := h 0 (show 0 < 4 by decide)
  have h1 : view (a + 1) = w.extractLsb' 8 8 := h 1 (show 1 < 4 by decide)
  have h2 : view (a + 2) = w.extractLsb' 16 8 := h 2 (show 2 < 4 by decide)
  have h3 : view (a + 3) = w.extractLsb' 24 8 := h 3 (show 3 < 4 by decide)
  rw [rd32, h0, h1, h2, h3, BitVec.extractLsb'_append_extractLsb'_eq_extractLsb' (show 24 = 16 + 8 from rfl),
    BitVec.extractLsb'_append_extractLsb'_eq_extractLsb' (show 16 = 8 + 8 from rfl),
    BitVec.extractLsb'_append_extractLsb'_eq_extractLsb' (show 8 = 0 + 8 from rfl)]
  exact BitVec.extractLsb'_eq_self

theorem header_begins_with_fixedBytes {view : Nat → Byte} {h : Header} (hb : BeginsWith view 0 h.bytes) :
    BeginsWith view 0 (fixedBytes h) ∧ (fixedBytes h).length ≤ h.bytes.length := by
  rw [Header.bytes, header_front_eq, List.append_assoc, List.append_assoc, List.append_assoc] at hb ⊢
  exact ⟨(beginsWith_append hb).1, by rw [List.length_append]; exact Nat.le_add_right _ _⟩

/-- The command's first step reads a well-formed member header and opens the payload. -/
theorem gzipHeader_step {s : State} {h : Header} {n : Nat} (hle : s.inLen.toNat ≤ s.cfg.inCap) (hok : h.ok)
    (hlen : s.inLen.toNat = h.bytes.length + n + 8) (hb : BeginsWith s.inByte 0 h.bytes) :
    ∃ s₁, Steps (startCommand .gzipDecompress s) s₁ ∧ OpensStream s₁ ∧ s₁.cmdState = .busy .gzipDecompress ∧
      HostKept s s₁ ∧ s₁.rbase = h.bytes.length ∧ s₁.rlen = n := by
  have hstart := startCommand_ok .gzipDecompress s hle
  obtain ⟨hfixed, hten⟩ := header_begins_with_fixedBytes hb
  have hreads : (startCommand .gzipDecompress s).Reads 0 (bytesBits (fixedBytes h)) := by
    rw [hstart]
    exact reads_bytesBits (hten.trans (by show _ ≤ s.inLen.toNat; omega)) hfixed
  rw [bytesBits_fixedBytes] at hreads
  have hrpos : (startCommand .gzipDecompress s).rpos = 0 := by rw [hstart]; rfl
  have hstep := engineStep_encode (s := startCommand .gzipDecompress s) (i := .gzipMember h.flg h.mtime h.xfl h.os) rfl
    (by rw [hstart]; rfl) ((State.canRead_iff _ _).mpr (by rw [hrpos]; exact hreads.within))
    (by rw [hrpos]; exact hreads.bits_eq)
  have hexec := gzipHeaderHandsOverThePayload (startCommand .gzipDecompress s) h hok (by rw [hstart]; rfl)
    (by rw [hstart]; exact hb) (by rw [hstart]; show _ ≤ s.inLen.toNat; omega)
  refine ⟨_, ⟨by rw [hstart]; rfl, hstep.trans hexec⟩, ?_⟩
  rw [hstart]
  refine ⟨⟨rfl, rfl, rfl, rfl, rfl⟩, rfl, hostKept_refl s, rfl, ?_⟩
  show s.inLen.toNat - 8 - h.bytes.length = n
  omega

theorem hostKept_inByte {s t : State} (h : HostKept s t) : t.inByte = s.inByte := by
  obtain ⟨-, -, -, hbuf, hepoch, -, -⟩ := h
  funext a
  rw [State.inByte, State.inByte, hbuf, hepoch]

/-- Settles O53: the header opens the payload, whose stream runs to its end, and the footer agrees with its output. -/
theorem gzipDecompressResult : Obligations.GzipDecompressResult := by
  intro s h n blocks out hi hp hle hok hlen hb hne hblocks hout hc hfooter hroom hlt
  obtain ⟨s₁, hstep₁, hopens, hcmd, hkept₁, hrbase, hrlen⟩ := gzipHeader_step hle hok hlen hb
  have hview := hostKept_inByte hkept₁
  have ⟨hcfg, hinLen, _⟩ := hkept₁
  obtain ⟨hcrcField, hlenField⟩ := beginsWith_append hfooter
  have hcrcAt := rd32_of_beginsWith hcrcField
  have hlenAt := rd32_of_beginsWith hlenField
  have hfour : (le32 (crc32 out)).length = 4 := rfl
  obtain ⟨t, q, hlead, ht, hused⟩ := hopens.stream hne hblocks hout (by rwa [hview, hrbase, hrlen])
    fun k hk => by rw [hcfg]; exact hroom k hk
  obtain ⟨v, hstep, hv, hcrc⟩ := ht.endsMember hcmd hopens.errCode hlt hused
    (by rw [hview, hinLen, hlen, Nat.add_sub_cancel, hcrcAt])
    (by
      rw [hview, hinLen, hlen, show h.bytes.length + n + 8 - 4 = h.bytes.length + n + 4 from rfl, ← hfour, hlenAt,
        BitVec.toNat_ofNat, Nat.mod_eq_of_lt hlt])
  obtain ⟨hrun, hs, hkept, hlength, houtput⟩ :=
    dataCommand_decompressed hi hp hle (hlead.head hstep₁) hstep hkept₁ hv
  exact ⟨v, hrun, hs, hkept, hcrc, hlength, houtput⟩

end Sys2Proof.Machine

namespace Sys2Proof.Machine

open Sys2Proof.Ref

/-! ### The tokens of the encoder as items of a fixed block (30_encoding.md R86, R87) -/

/-- The symbols and extra values that a token is sent in. -/
def tokenItem : Token → Item
  | .literal b => .lit b
  | .copy len dist => .copy (lenSym len).1 (lenSym len).2.2 (distSym dist).1 (distSym dist).2.2

theorem Token.legal_copy_iff {len dist : Nat} :
    (Token.copy len dist).legal = true ↔ (3 ≤ len ∧ len ≤ 258) ∧ 1 ≤ dist ∧ dist ≤ 32768 := by
  simp [Token.legal, and_assoc]

theorem tokenItem_ok {t : Token} (h : t.legal = true) : (tokenItem t).ok := by
  cases t with
  | literal b => trivial
  | copy len dist =>
    obtain ⟨⟨hlen, hlen'⟩, hdist, hdist'⟩ := Token.legal_copy_iff.mp h
    obtain ⟨hge, hle, -, hv, -⟩ := lengthSymbolCodesItsLength.1 len hlen hlen'
    obtain ⟨hd, -, hdv, -⟩ := distanceSymbolCodesItsDistance.1 dist hdist hdist'
    exact ⟨hge, hle, hv, hd, hdv⟩

theorem tokenItem_bits {t : Token} (h : t.legal = true) : (tokenItem t).bits = tokenBits t := by
  cases t with
  | literal b => rfl
  | copy len dist =>
    obtain ⟨⟨hlen, hlen'⟩, hdist, hdist'⟩ := Token.legal_copy_iff.mp h
    obtain ⟨-, -, hextra, -⟩ := lengthSymbolCodesItsLength.1 len hlen hlen'
    obtain ⟨-, hextra', -⟩ := distanceSymbolCodesItsDistance.1 dist hdist hdist'
    rw [tokenItem, Item.bits, tokenBits, hextra, hextra']

/-- A copy that reaches back within the output is expanded as its token. -/
theorem tokenItem_expand_copy {len dist : Nat} {out : List Byte} (h : (Token.copy len dist).legal = true)
    (hback : dist ≤ out.length) : (tokenItem (.copy len dist)).expand out = some (copyOnto dist len out) := by
  obtain ⟨⟨hlen, hlen'⟩, hdist, hdist'⟩ := Token.legal_copy_iff.mp h
  obtain ⟨-, -, -, -, hbase⟩ := lengthSymbolCodesItsLength.1 len hlen hlen'
  obtain ⟨-, -, -, hbase'⟩ := distanceSymbolCodesItsDistance.1 dist hdist hdist'
  rw [tokenItem, Item.expand, hbase, hbase', if_pos hback]

theorem tokenItems_ok {tokens : List Token} (h : ∀ t ∈ tokens, t.legal = true) :
    ∀ it ∈ tokens.map tokenItem, it.ok :=
  List.forall_mem_map.mpr fun t ht => tokenItem_ok (h t ht)

theorem tokenItems_bits {tokens : List Token} (h : ∀ t ∈ tokens, t.legal = true) :
    (tokens.map tokenItem).flatMap Item.bits = tokens.flatMap tokenBits := by
  rw [List.flatMap_map]
  exact List.flatMap_congr fun t ht => tokenItem_bits (h t ht)

/-- The items of the greedy tokens from a position on complete the bytes before it to the input. -/
theorem greedy_expandItems {D : Nat → Byte} {n : Nat} (fuel : Nat) {i : Nat} (hi : i ≤ n) (hfuel : n ≤ i + fuel) :
    expandItems ((greedy D n fuel i).map tokenItem) (bytesFrom D 0 i) = some (bytesFrom D 0 n) := by
  induction fuel generalizing i with
  | zero =>
    obtain rfl : i = n := by omega
    rfl
  | succ fuel ih =>
    rw [greedy]
    split
    · split
      · next hc =>
        obtain ⟨hcap, hin, hge, hle, hback, hmatch⟩ := bestMatch_match hc.2
        have hlegal := Token.legal_copy_iff.mpr ⟨⟨hc.2, hcap⟩, hge, hle⟩
        rw [List.map_cons, expandItems, tokenItem_expand_copy hlegal (by rwa [bytesFrom_length]),
          copyOnto_match hge hback hmatch]
        exact ih hin (by omega)
      · have hbyte : (tokenItem (.literal (D i))).expand (bytesFrom D 0 i) = some (bytesFrom D 0 (i + 1)) := by
          rw [bytesFrom_succ_last, Nat.zero_add]
          rfl
        rw [List.map_cons, expandItems, hbyte]
        exact ih (by omega) (by omega)
    · obtain rfl : i = n := by omega
      rfl

/-! ### The encoder's block as a block of a stream (42_deflate_encoder.md R150, R154, R156) -/

/-- The block that the encoder writes, as the decoder accepts it. -/
def State.codedBlock (s : State) : Block :=
  if choosesStored s.inLen.toNat (inputTokens s) then .stored (padding 3) s.input
  else .fixed ((inputTokens s).map tokenItem)

section CodedBlock

variable {s : State}

theorem inputTokens_legal (s : State) : ∀ t ∈ inputTokens s, t.legal = true :=
  (tokensExpandToTheInput.1 s.inByte s.inLen.toNat s.matcher).2

/-- A stored block is only written for an input whose length fits LEN. -/
theorem input_length_le_of_stored (h : ¬ tooLarge s.inLen.toNat (inputTokens s))
    (hc : choosesStored s.inLen.toNat (inputTokens s) = true) : s.input.length ≤ 65535 := by
  rw [State.input_length]
  exact Nat.le_of_not_lt fun hlt => h ⟨((choosesStored_iff s).mp hc).2, hlt⟩

theorem codedBlock_ok (h : ¬ tooLarge s.inLen.toNat (inputTokens s)) : s.codedBlock.ok 0 := by
  rw [State.codedBlock]
  split
  · next hc => exact ⟨by decide, by decide, Nat.lt_succ_of_le (input_length_le_of_stored h hc)⟩
  · exact tokenItems_ok (inputTokens_legal s)

theorem codedBlock_expand (s : State) : s.codedBlock.expand [] = some s.input := by
  rw [State.codedBlock]
  split
  · rfl
  · rw [Block.expand, inputTokens, tokensAreTheGreedyTokens]
    exact greedy_expandItems _ (Nat.zero_le _) (Nat.le_add_left _ _)

theorem bytesBits_block (h : ¬ tooLarge s.inLen.toNat (inputTokens s)) :
    bytesBits s.block = s.codedBlock.bits true ++ padding (s.codedBlock.bits true).length := by
  rw [State.codedBlock]
  split
  · next hc =>
    have hle := input_length_le_of_stored h hc
    have hbits : (Block.stored (padding 3) s.input).bits true = bytesBits (storedBlock s.input) := by
      rw [bytesBits_storedBlock hle, lsbBits_complement hle]
      rfl
    rw [State.block_stored hc, hbits, bytesBits_length, padding, Nat.mul_mod_right]
    exact (List.append_nil _).symm
  · next hc =>
    have hbits : (Block.fixed ((inputTokens s).map tokenItem)).bits true = fixedBlockBits (inputTokens s) := by
      rw [Block.bits, tokenItems_bits (inputTokens_legal s)]
      rfl
    rw [State.block_fixed hc, hbits, bytesBits_pack]

/-- Bytes that hold a bit sequence and its padding carry it. -/
theorem carries_of_beginsWith {view : Nat → Byte} {base : Nat} {block : List Byte} {bits : List Bool}
    (h : bytesBits block = bits ++ padding bits.length) (hb : BeginsWith view base block) :
    Carries view base block.length bits := by
  have hlen := congrArg List.length h
  rw [bytesBits_length, List.length_append, padding_length] at hlen
  refine ⟨by omega, by rw [byteCount]; omega, fun q hq => ?_⟩
  have hq' : q < 8 * block.length := by omega
  rw [hb (q / 8) (by omega), ← getD_bytesBits hq', h, List.getD_append _ _ _ _ hq, decide_eq_true hq', Bool.true_and]

/-- What the encoder wrote is a well-formed stream of one block, whose output is the input. -/
theorem codedBlock_stream {view : Nat → Byte} {base : Nat} (h : ¬ tooLarge s.inLen.toNat (inputTokens s))
    (hb : BeginsWith view base s.block) :
    streamOk 0 [s.codedBlock] ∧ streamOutput [s.codedBlock] [] = some s.input ∧
      Carries view base s.block.length (streamBits [s.codedBlock]) := by
  refine ⟨⟨codedBlock_ok h, trivial⟩, ?_, ?_⟩
  · rw [streamOutput, codedBlock_expand]
    rfl
  · rw [streamBits, streamBits, List.append_nil]
    exact carries_of_beginsWith (bytesBits_block h) hb

end CodedBlock

theorem input_length_lt (s : State) : s.input.length < 2 ^ 32 := by
  rw [State.input_length]
  exact s.inLen.isLt

theorem ofNat_input_length (s : State) : BitVec.ofNat 32 s.input.length = s.inLen := by
  rw [State.input_length, BitVec.ofNat_toNat, BitVec.setWidth_eq]

/-! ### The round trips (46_commands.md R251) -/

theorem errCode_ne_of_failed {e : ErrKind} {t : State} (h : Failed e t) : t.errCode ≠ 0#4 := by
  obtain ⟨-, -, -, hcode, -⟩ := h
  rw [hcode]
  exact e.code_ne_zero

/-- A data command that ends without an error was within IN_CAP. -/
theorem dataCommand_within {op : Op} {s t : State} (hi : s.cmdState = .idle) (h : dataCommand op s = .next t)
    (ht : t.errCode = 0#4) : s.inLen.toNat ≤ s.cfg.inCap := by
  by_contra hgt
  rw [dataCommand_rejects hi (Nat.lt_of_not_le hgt)] at h
  cases h
  exact errCode_ne_of_failed (takeError_failed true .capacityExceeded (s.begin (.busy op))).1 ht

/-- OUT moved to IN: what the command wrote is what the next one reads. -/
theorem beginsWith_of_output {t u : State} {bytes : List Byte} (hout : t.output bytes.length = bytes)
    (hlen : t.outLen = BitVec.ofNat 32 bytes.length) (hlt : bytes.length < 2 ^ 32) (hu : u.inLen = t.outLen)
    (hcopy : ∀ a, a < t.outLen.toNat → u.inByte a = t.outByte a) :
    u.inLen.toNat = bytes.length ∧ BeginsWith u.inByte 0 bytes := by
  have hn : t.outLen.toNat = bytes.length := by rw [hlen, BitVec.toNat_ofNat, Nat.mod_eq_of_lt hlt]
  refine ⟨by rw [hu, hn], fun k hk => ?_⟩
  have hk' := bytesFrom_getD t.outByte 0 bytes.length k 0#8 hk
  rw [← State.output, hout] at hk'
  rw [hk', Nat.zero_add]
  exact hcopy k (by rwa [hn])

/-- Settles O57: the block is a well-formed stream of the input. -/
theorem deflateRoundTrip : Obligations.DeflateRoundTrip := by
  intro s t u hi hp ht herr hlt hi' hp' hu hle' hcopy hroom
  have hle := dataCommand_within hi ht herr
  obtain ⟨t', ht', ⟨-, -, hres⟩, -⟩ := deflateCompress_ends hi hp hle
  obtain rfl : t' = t := by rw [ht] at ht'; cases ht'; rfl
  cases hres with
  | tooLarge _ hf | noRoom _ _ hf => exact absurd herr (errCode_ne_of_failed hf)
  | done hnt _ _ hlen hout =>
    rw [lengthWord, if_pos hlt] at hlen
    obtain ⟨hinLen, hb⟩ := beginsWith_of_output hout hlen hlt hu hcopy
    obtain ⟨hok, hexpand, hcarries⟩ := codedBlock_stream hnt hb
    rw [← hinLen] at hcarries
    rw [← State.input_length] at hroom ⊢
    obtain ⟨v, hv, hs, -, -, hvlen, hvout⟩ :=
      deflateDecompressResult u _ _ hi' hp' hle' (List.cons_ne_nil _ _) hok hexpand hcarries hroom (input_length_lt s)
    exact ⟨v, hv, hs, hvlen.trans (ofNat_input_length s), hvout⟩

/-- The header that GZIP_COMPRESS writes (44_gzip_framer.md R201). -/
def writtenHeader (mtime : Word) : Header :=
  { otherFlags := 0#8, mtime := mtime, xfl := 0#8, os := 255#8, extra := none, name := none, comment := none,
    headerCrc := false }

theorem writtenHeader_ok (mtime : Word) : (writtenHeader mtime).ok := by
  refine ⟨fun _ h => ?_, fun _ h => ?_, fun _ h => ?_⟩ <;> cases h

theorem writtenHeader_bytes (mtime : Word) : (writtenHeader mtime).bytes = gzipHeaderBytes mtime := by
  have hflg : (writtenHeader mtime).flg = 0#8 := by simp [Header.flg, writtenHeader]
  rw [Header.bytes, Header.front, hflg]
  simp [writtenHeader, zeroTerminated, gzipHeaderBytes]

/-- Settles O58: the member is a header, a well-formed stream of the input, and a footer that agrees with it. -/
theorem gzipRoundTrip : Obligations.GzipRoundTrip := by
  intro s t u hi hp ht herr hlt hi' hp' hu hle' hcopy hroom
  have hle := dataCommand_within hi ht herr
  rw [← State.member_eq] at hlt
  obtain ⟨t', ht', ⟨-, hres⟩, -⟩ := gzipCompress_ends hi hp hle
  obtain rfl : t' = t := by rw [ht] at ht'; cases ht'; rfl
  cases hres with
  | noHeader _ hf | tooLarge _ _ hf | noRoom _ _ hf => exact absurd herr (errCode_ne_of_failed hf)
  | done hnt _ _ hcrc hlen hout =>
    rw [lengthWord, if_pos hlt] at hlen
    obtain ⟨hinLen, hb⟩ := beginsWith_of_output hout hlen hlt hu hcopy
    obtain ⟨hb, hfooter⟩ := beginsWith_append hb
    obtain ⟨hheader, hblock⟩ := beginsWith_append hb
    rw [State.member_length] at hinLen
    rw [List.length_append, Nat.zero_add, State.footer, ← ofNat_input_length] at hfooter
    rw [Nat.zero_add] at hblock
    rw [← writtenHeader_bytes] at hheader hblock hfooter
    obtain ⟨hok, hexpand, hcarries⟩ := codedBlock_stream hnt hblock
    rw [← State.input_length] at hroom ⊢
    obtain ⟨v, hv, hs, -, hvcrc, hvlen, hvout⟩ :=
      gzipDecompressResult u (writtenHeader s.mtime) s.block.length _ _ hi' hp' hle' (writtenHeader_ok _)
        (by rw [hinLen, writtenHeader_bytes, gzipHeaderBytes_length]) hheader (List.cons_ne_nil _ _) hok hexpand
        hcarries hfooter hroom (input_length_lt s)
    exact ⟨v, hv, hs, hvlen.trans (ofNat_input_length s), hvout, hvcrc.trans hcrc.symm⟩

end Sys2Proof.Machine

namespace Sys2Proof.Machine

open Sys2Proof.Ref

/-! ### Where a stream code runs (60_exceptions.md R264) -/

theorem State.cmdState_of_decompressing {s : State} (h : s.decompressing = true) :
    s.cmdState = .busy .deflateDecompress ∨ s.cmdState = .busy .gzipDecompress := by
  unfold State.decompressing at h
  split at h
  · next hc => exact .inl hc
  · next hc => exact .inr hc
  · cases h

/-- At each place of a decompress command the decoder reads the code of that place. -/
theorem fetchSpace_of_places {s : State} :
    (s.atBlock = true → s.fetchSpace = some .block) ∧ (s.atLitlen = true → s.fetchSpace = some .litlen) ∧
      (∀ len, s.pendingLength = some len → s.fetchSpace = some .dist) ∧
      (s.atHeader = true → s.fetchSpace = some .gzip) := by
  refine ⟨fun h => ?_, fun h => ?_, fun len h => ?_, fun h => ?_⟩
  · simp only [State.atBlock, Bool.and_eq_true, decide_eq_true_eq] at h
    rcases State.cmdState_of_decompressing h.1 with hc | hc <;> simp [State.fetchSpace, hc, h.2]
  · simp only [State.atLitlen, Bool.and_eq_true, decide_eq_true_eq] at h
    rcases State.cmdState_of_decompressing h.1 with hc | hc <;> simp [State.fetchSpace, hc, h.2]
  · obtain ⟨hd, hp⟩ := (pendingLength_eq_some_iff s len).mp h
    rcases State.cmdState_of_decompressing hd with hc | hc <;> simp [State.fetchSpace, hc, hp]
  · simp only [State.atHeader, Bool.and_eq_true, decide_eq_true_eq] at h
    simp [State.fetchSpace, h.1, h.2]

theorem atPlace_stops {here : Bool} {s : State} (h : here ≠ true) (r : Except ErrKind State) :
    atPlace here s r = .fault .internalViolation := by
  rw [Bool.eq_false_of_not_eq_true h, atPlace_false]

theorem atDistance_stops {s : State} (h : ∀ len, s.pendingLength ≠ some len) (rule : Nat → Except ErrKind State) :
    atDistance s rule = .fault .internalViolation :=
  atDistance_none s rule (Option.eq_none_iff_forall_ne_some.mpr h)

/-- Out of its place a stream code is a violation, and a command word always is one. -/
theorem streamExec_stops {i : Instr} {s : State} (h : s.fetchSpace ≠ some i.space) :
    streamExec i s = .fault .internalViolation := by
  obtain ⟨hblock, hlitlen, hdist, hgzip⟩ := fetchSpace_of_places (s := s)
  cases i with
  | clear | deflateCompress | deflateDecompress | gzipCompress | gzipDecompress | crc32 | reservedCmd => rfl
  | blockStored | blockFixed | blockDynamicUnsupported | blockReserved => exact atPlace_stops (mt hblock h) _
  | dist0To15 | dist16To23 | dist24To27 | dist28To29 | distInvalid =>
    exact atDistance_stops (fun len => mt (hdist len) h) _
  | gzipMember => exact atPlace_stops (mt hgzip h) _
  | _ => exact atPlace_stops (mt hlitlen h) _

/-- Settles O11: in its place a stream code's rule is settled, and out of it the check of the place fails. -/
theorem streamCodesRunExactlyInPlace : Obligations.StreamCodesRunExactlyInPlace := by
  intro i s hi
  rw [← streamExec_eq_exec i s hi]
  exact ⟨streamExec_answers, streamExec_stops⟩

/-! ### What an engine step ends in (60_exceptions.md R264, R270) -/

/-- The command goes on at one of its places, with its flags as they were. -/
def Continues (s t : State) : Prop :=
  t.cmdState = s.cmdState ∧ t.PhaseOk ∧ t.status = s.status ∧ t.errCode = s.errCode

theorem Keeps.continues {s t : State} (h : Keeps s t) (hp : t.PhaseOk) : Continues s t :=
  ⟨h.cmdState, hp, by rw [h.frame]; rfl, h.errCode⟩

/-- Every move goes on in the command, completes it, or takes an error from the state in which the step began. -/
theorem EngineMove.continues_or_ends {s t : State} (h : EngineMove s t) (hp : s.PhaseOk) (hcode : s.errCode = 0#4) :
    Continues s t ∨ Succeeded t ∨ ∃ e, t = takeError false e s ∧ Failed e t := by
  cases h with
  | error e => exact .inr (.inr ⟨e, rfl, (takeError_failed false e s).1⟩)
  | finish hf =>
    obtain ⟨u, w, hu, rfl⟩ := hf
    exact .inr (.inl ⟨rfl, rfl, State.status_complete _, hu.errCode.trans hcode⟩)
  | checksum => exact .inr (.inl ⟨rfl, rfl, State.status_complete _, hcode⟩)
  | decode hd _ hk =>
    obtain ⟨hk, -, hplace⟩ := hk
    exact .inl (hk.continues (phaseOk_of_inStream (by rwa [State.decompressing, hk.cmdState]) hplace))
  | openMember h c hc =>
    have hplace : phaseFits s.cmdState .blockHeader = true := by rw [hc]; rfl
    exact .inl ⟨rfl, hplace, rfl, rfl⟩
  | @framing u hc _ hk =>
    have hplace : phaseFits u.cmdState .matching = true := by rw [hk.cmdState, hc]; rfl
    obtain ⟨hcmd, -, hstatus, herr⟩ := (hk.setPhase .matching).continues hplace
    exact .inl ⟨hcmd, hplace, hstatus, herr⟩
  | advance => exact .inl ⟨rfl, hp, rfl, rfl⟩
  | write hc hk hnext =>
    exact .inl (hk.continues (phaseOk_of_nextWriting (by rwa [State.compressing, hk.cmdState]) hnext))

/-- Settles O12: at a place of its command the engine answers a state, and what it answers is one of its moves. -/
theorem engineStepContinuesSucceedsOrErrs : Obligations.EngineStepContinuesSucceedsOrErrs := by
  intro s hb hp hstatus
  obtain ⟨t, ht⟩ := engineStep_answers hb hp
  have hmove := engineStep_moves ht
  exact ⟨t, ht, hmove.hostKept, hmove.continues_or_ends hp (hstatus.errCode_eq_zero hb)⟩

/-! ### Output beyond OUT_CAP (60_exceptions.md R262, case 2) -/

/-- Bytes appended one by one fail for capacity when one of them, `k` bytes on, has no room: the first of them fails so,
or the ones after it do. -/
theorem outAppend_bind_full {α : Type} {v : Byte} {k : Nat} {s : State} {f : State → Except ErrKind α}
    (h : s.cfg.fits (s.outPos + k) = false)
    (hrest : ∀ j u, k = j + 1 → outAppend v s = .ok u → u.cfg.fits (u.outPos + j) = false →
      f u = .error .capacityExceeded) :
    (outAppend v s >>= f) = .error .capacityExceeded := by
  cases hfit : s.cfg.fits s.outPos with
  | false => exact bind_error ((outAppend_error_iff v s _).mpr ⟨hfit, rfl⟩)
  | true =>
    obtain ⟨u, hu, hw, -, -⟩ := outAppend_wrote v hfit
    rw [hu, ok_bind]
    cases k with
    | zero => rw [Nat.add_zero, hfit] at h; cases h
    | succ j => exact hrest j u rfl hu (by rwa [hw.cfg, hw.outPos, Nat.add_assoc, Nat.add_comm 1 j])

theorem literal_full {width value : Nat} {s : State} (hr : s.canRead width = true) (h : s.cfg.fits s.outPos = false) :
    literal width value s = .error .capacityExceeded := by
  rw [literal, (skipBits_ok_iff _ s _).mpr ⟨hr, rfl⟩, ok_bind]
  exact (outAppend_error_iff _ _ _).mpr ⟨h, rfl⟩

/-- A copy some byte of which has no room. -/
theorem copyFrom_full {a n k : Nat} {s : State} (hk : k < n) (h : s.cfg.fits (s.outPos + k) = false) :
    copyFrom a n s = .error .capacityExceeded := by
  induction n generalizing a k s with
  | zero => exact absurd hk (Nat.not_lt_zero k)
  | succ n ih =>
    rw [copyFrom_succ]
    exact outAppend_bind_full h fun j u hj _ hfull => ih (k := j) (by omega) hfull

theorem distanceCode_full {len d k : Nat} {s : State} (hr : s.canRead (5 + distExtra d) = true)
    (hback : distBase d + s.field (s.rpos + 5) (distExtra d) ≤ s.outPos) (hk : k < len)
    (h : s.cfg.fits (s.outPos + k) = false) : distanceCode len d s = .error .capacityExceeded := by
  rw [distanceCode_copies hr rfl hback]
  exact bind_error (copyFrom_full hk h)

/-- Raw bytes one of which has no room, that byte and those before it being there to read. -/
theorem copyRaw_full {n k : Nat} {s : State} (hk : k < n) (hr : s.rpos + 8 * (k + 1) ≤ 8 * s.rlen + 7)
    (h : s.cfg.fits (s.outPos + k) = false) : copyRaw n s = .error .capacityExceeded := by
  induction n generalizing k s with
  | zero => exact absurd hk (Nat.not_lt_zero k)
  | succ n ih =>
    rw [copyRaw_succ, (readBits_ok_iff 8 s _).mpr ⟨(s.canRead_iff 8).mpr (by omega), rfl⟩, ok_bind]
    refine outAppend_bind_full h fun j u hj hu hfull => ih (k := j) (by omega) ?_ hfull
    obtain ⟨-, rfl⟩ := (outAppend_ok_iff _ _ _).mp hu
    show s.rpos + 8 + 8 * (j + 1) ≤ 8 * s.rlen + 7
    omega

/-- Settles O29: each of the three rules appends its bytes one by one, and one without room raises the error. -/
theorem fullOutputRaisesCapacityExceeded : Obligations.FullOutputRaisesCapacityExceeded := by
  refine fun s i => ⟨fun b hb hp hr hfull => ?_, fun d len k hd hlen hk hfull hr hback => ?_, ?_⟩
  · obtain ⟨value, -, hexec⟩ := exec_literalByte hb s
    rw [hexec, hp, atPlace_true, literal_full hr hfull]
    exact settle_error_failed _ s
  · rw [exec_distanceSymbol hd, atDistance_some s _ len hlen, distanceCode_full hr hback hk hfull]
    exact settle_error_failed _ s
  · rintro final k rfl hp hsum hk hfull hr
    have hraw : rawStart s (k + 1) = rawStart s 0 + 8 * (k + 1) := rfl
    have hcopy : copyRaw (storedLen s) (s.readAt (rawStart s 0) final) = .error .capacityExceeded :=
      copyRaw_full hk (by rwa [hraw] at hr) hfull
    rw [exec_blockStored hp, storedBlock_eq final (by omega), if_neg (not_not.mpr hsum), bind_error hcopy]
    exact settle_error_failed _ s

/-! ### Taking an error (60_exceptions.md R270) -/

/-- An error of a command that computes no CRC leaves CRC_RESULT. -/
theorem takeError_crcResult {s : State} (h : computesCrc s.cmdState = false) (atStart : Bool) (e : ErrKind) :
    (takeError atStart e s).crcResult = s.crcResult := by
  cases atStart with
  | false => rw [takeError_running_crcResult, h]; rfl
  | true => exact takeError_start_crcResult e s

/-- Settles O21: the flags of any error, and what each kind of error leaves of OUT and CRC_RESULT. -/
theorem errorEntry : Obligations.ErrorEntry := by
  intro atStart e s
  obtain ⟨hfailed, hkept⟩ := takeError_failed atStart e s
  refine ⟨hfailed, hkept, ?_, fun hop => takeError_crcResult ?_ atStart e⟩
  · rintro rfl
    exact ⟨fun _ => rfl, takeError_start_crcResult e s⟩
  · rcases hop with hop | hop <;> rw [hop] <;> rfl

end Sys2Proof.Machine

namespace Sys2Proof.Machine

open Sys2Proof.Ref

/-! ### A command in either pace (70_reset_and_hazards.md R311)

Of the parameters an operation reads only the capacities, so it commutes with the change of pace. -/

section Pace

variable {p : Pace}

/-! #### Rules that commute with a change of the state -/

section Commutes

variable {α β : Type} {g : α → α} {f : β → β} {x x' : Except ErrKind α} {y y' z z' : Except ErrKind β}

/-- A composition commutes with the change when its first operation does, and its second from each changed state. -/
theorem bind_commutes {k k' : α → Except ErrKind β} (hx : x' = g <$> x) (hk : ∀ a, k' (g a) = f <$> k a) :
    (x' >>= k') = f <$> (x >>= k) := by
  rw [hx, bind_map_left, map_bind]
  exact bind_congr hk

theorem ite_commutes {c : Prop} [Decidable c] (hy : y' = f <$> y) (hz : z' = f <$> z) :
    (if c then y' else z') = f <$> if c then y else z := by
  rw [hy, hz, apply_ite (f <$> ·)]

end Commutes

/-! #### The operations -/

@[simp] theorem withPace_cmdState (s : State) : (withPace p s).cmdState = s.cmdState := rfl
@[simp] theorem withPace_phase (s : State) : (withPace p s).phase = s.phase := rfl
@[simp] theorem withPace_fetchSpace (s : State) : (withPace p s).fetchSpace = s.fetchSpace := rfl

theorem outAppend_withPace (v : Byte) (s : State) : outAppend v (withPace p s) = withPace p <$> outAppend v s := by
  rw [outAppend_eq, outAppend_eq]
  exact ite_commutes rfl rfl

theorem emitByte_withPace (b : Byte) (s : State) : emitByte b (withPace p s) = withPace p <$> emitByte b s := by
  rw [emitByte_eq, emitByte_eq]
  exact ite_commutes rfl rfl

theorem skipBits_withPace (n : Nat) (s : State) : skipBits n (withPace p s) = withPace p <$> skipBits n s :=
  ite_commutes rfl rfl

theorem readBits_withPace (n : Nat) (s : State) :
    readBits n (withPace p s) = Prod.map id (withPace p) <$> readBits n s := by
  have hfield : (withPace p s).field s.rpos n = s.field s.rpos n :=
    State.field_congr (s := s) (t := withPace p s) rfl rfl rfl rfl _ _
  unfold readBits
  rw [← hfield]
  exact ite_commutes rfl rfl

theorem outAppendAll_withPace (bytes : List Byte) (s : State) :
    outAppendAll bytes (withPace p s) = withPace p <$> outAppendAll bytes s := by
  induction bytes generalizing s with
  | nil => rfl
  | cons v rest ih =>
    rw [outAppendAll_cons, outAppendAll_cons]
    exact bind_commutes (outAppend_withPace v s) ih

theorem writeBit_withPace (b : Bool) (s : State) : writeBit b (withPace p s) = withPace p <$> writeBit b s := by
  rw [writeBit_eq, writeBit_eq]
  exact ite_commutes (bind_commutes (emitByte_withPace _ s) fun _ => rfl) rfl

theorem writeBits_withPace (v n : Nat) (s : State) :
    writeBits v n (withPace p s) = withPace p <$> writeBits v n s := by
  induction n generalizing v s with
  | zero => rfl
  | succ n ih =>
    rw [writeBits_succ_bind, writeBits_succ_bind]
    exact bind_commutes (writeBit_withPace _ s) (ih _)

theorem writeBytes_withPace (bytes : List Byte) (s : State) :
    writeBytes bytes (withPace p s) = withPace p <$> writeBytes bytes s := by
  induction bytes generalizing s with
  | nil => rfl
  | cons b rest ih =>
    rw [writeBytes_cons, writeBytes_cons]
    exact bind_commutes (writeBits_withPace _ _ s) ih

theorem alignWriter_withPace (s : State) : alignWriter (withPace p s) = withPace p <$> alignWriter s := by
  rw [alignWriter_eq, alignWriter_eq]
  exact ite_commutes (bind_commutes (emitByte_withPace _ s) fun _ => rfl) rfl

theorem copyFrom_withPace (a k : Nat) (s : State) : copyFrom a k (withPace p s) = withPace p <$> copyFrom a k s := by
  induction k generalizing a s with
  | zero => rfl
  | succ k ih =>
    rw [copyFrom_succ, copyFrom_succ]
    exact bind_commutes (outAppend_withPace _ s) (ih _)

theorem copyBack_withPace (len dist : Nat) (s : State) :
    copyBack len dist (withPace p s) = withPace p <$> copyBack len dist s :=
  ite_commutes rfl (copyFrom_withPace _ len s)

theorem copyRaw_withPace (k : Nat) (s : State) : copyRaw k (withPace p s) = withPace p <$> copyRaw k s := by
  induction k generalizing s with
  | zero => rfl
  | succ k ih =>
    rw [copyRaw_succ, copyRaw_succ]
    exact bind_commutes (readBits_withPace 8 s) fun r => bind_commutes (outAppend_withPace _ r.2) ih

/-! #### The rules of a compress command -/

theorem putMatch_withPace (len dist : Nat) (s : State) :
    putMatch len dist (withPace p s) = withPace p <$> putMatch len dist s := by
  simp only [putMatch, putLitlen, writeBits_withPace, bind_map_left, map_bind]

theorem putToken_withPace (tok : Token) (s : State) :
    putToken tok (withPace p s) = withPace p <$> putToken tok s := by
  cases tok with
  | literal b => exact writeBits_withPace _ _ s
  | copy len dist => exact putMatch_withPace len dist s

theorem emitStored_withPace (data : List Byte) (s : State) :
    emitStored data (withPace p s) = withPace p <$> emitStored data s := by
  simp only [emitStored, writeBits_withPace, alignWriter_withPace, writeBytes_withPace, bind_map_left, map_bind]

theorem openFixed_withPace (s : State) : openFixed (withPace p s) = withPace p <$> openFixed s := by
  simp only [openFixed, writeBits_withPace, bind_map_left, map_bind]

theorem chooseBlock_withPace (s : State) : chooseBlock (withPace p s) = withPace p <$> chooseBlock s :=
  ite_commutes (ite_commutes rfl (bind_commutes (emitStored_withPace _ s) fun _ => rfl))
    (bind_commutes (openFixed_withPace s) fun _ => rfl)

theorem stepMatching_withPace (s : State) : stepMatching (withPace p s) = withPace p <$> stepMatching s :=
  ite_commutes rfl (chooseBlock_withPace s)

theorem stepEmitting_withPace (left : List Token) (s : State) :
    stepEmitting left (withPace p s) = withPace p <$> stepEmitting left s := by
  cases left with
  | nil => exact bind_commutes (writeBits_withPace _ _ s) fun _ => rfl
  | cons tok rest => exact bind_commutes (putToken_withPace tok s) fun _ => rfl

theorem stepFraming_withPace (s : State) : stepFraming (withPace p s) = withPace p <$> stepFraming s :=
  bind_commutes (outAppendAll_withPace _ s) fun _ => rfl

theorem stepClosing_withPace (s : State) : stepClosing (withPace p s) = withPace p <$> stepClosing s := by
  refine bind_commutes (alignWriter_withPace s) fun t => ?_
  dsimp only
  rw [withPace_cmdState]
  split
  · exact bind_commutes (outAppendAll_withPace _ t.closed) fun _ => rfl
  · rfl

/-! #### The rules of a decompress command -/

theorem finishMember_withPace (s : State) : finishMember (withPace p s) = withPace p <$> finishMember s := by
  rw [finishMember_eq, finishMember_eq]
  exact ite_commutes rfl (ite_commutes rfl rfl)

theorem endStream_withPace (s : State) : endStream (withPace p s) = withPace p <$> endStream s := by
  refine bind_commutes (g := withPace p) (x := checkNoTrailing s) (ite_commutes rfl rfl) fun t => ?_
  rw [withPace_cmdState]
  split
  · exact finishMember_withPace t
  · rfl

theorem endBlock_withPace (s : State) : endBlock (withPace p s) = withPace p <$> endBlock s :=
  ite_commutes (endStream_withPace s) rfl

theorem blockHeader_withPace (final : Bool) (s : State) :
    blockHeader final (withPace p s) = withPace p <$> blockHeader final s :=
  bind_commutes (skipBits_withPace 3 s) fun _ => rfl

theorem storedBody_withPace (s : State) : storedBody (withPace p s) = withPace p <$> storedBody s := by
  refine bind_commutes (readBits_withPace 16 (alignReader s)) fun len => ?_
  refine bind_commutes (readBits_withPace 16 len.2) fun nlen => ?_
  exact ite_commutes rfl (bind_commutes (copyRaw_withPace _ nlen.2) endBlock_withPace)

theorem literal_withPace (width value : Nat) (s : State) :
    literal width value (withPace p s) = withPace p <$> literal width value s :=
  bind_commutes (skipBits_withPace width s) (outAppend_withPace _)

theorem lengthCode_withPace (width symbol : Nat) (s : State) :
    lengthCode width symbol (withPace p s) = withPace p <$> lengthCode width symbol s :=
  bind_commutes (skipBits_withPace width s) fun t => bind_commutes (readBits_withPace _ t) fun _ => rfl

theorem distanceCode_withPace (len symbol : Nat) (s : State) :
    distanceCode len symbol (withPace p s) = withPace p <$> distanceCode len symbol s :=
  bind_commutes (skipBits_withPace 5 s) fun t => bind_commutes (readBits_withPace _ t) fun r =>
    bind_commutes (copyBack_withPace len _ r.2) fun _ => rfl

theorem checkHeaderCrc_withPace (stop h : Nat) (s : State) :
    checkHeaderCrc stop h (withPace p s) = Prod.map id (withPace p) <$> checkHeaderCrc stop h s := by
  rw [checkHeaderCrc_eq, checkHeaderCrc_eq]
  exact ite_commutes rfl (ite_commutes rfl rfl)

theorem optionalFields_withPace (flg : Byte) (stop : Nat) (s : State) :
    optionalFields flg stop (withPace p s) = Prod.map id (withPace p) <$> optionalFields flg stop s :=
  bind_commutes (id_map _).symm fun h => ite_commutes (checkHeaderCrc_withPace stop h s) rfl

theorem memberHeader_withPace (flg : Byte) (s : State) :
    memberHeader flg (withPace p s) = withPace p <$> memberHeader flg s :=
  ite_commutes rfl (bind_commutes (optionalFields_withPace flg _ s) fun _ => rfl)

/-! #### The engine's step, and the run of a command -/

section Steps

variable {s t : State}

/-- A rule that commutes with the change of pace is settled alike, its error taken alike. -/
theorem settle_withPace {r : Except ErrKind State} (h : settle s r = .next t) :
    settle (withPace p s) (withPace p <$> r) = .next (withPace p t) := by
  cases r with
  | ok u => cases h; rfl
  | error e => cases h; rfl

theorem atPlace_withPace {here : Bool} {r r' : Except ErrKind State} (hr : r' = withPace p <$> r)
    (h : atPlace here s r = .next t) : atPlace here (withPace p s) r' = .next (withPace p t) := by
  obtain ⟨rfl, h⟩ := atPlace_next h
  rw [hr]
  exact settle_withPace h

theorem atDistance_withPace {rule rule' : Nat → Except ErrKind State} (hr : ∀ len, rule' len = withPace p <$> rule len)
    (h : atDistance s rule = .next t) : atDistance (withPace p s) rule' = .next (withPace p t) := by
  cases hp : s.pendingLength with
  | none => rw [atDistance_none s rule hp] at h; cases h
  | some len =>
    rw [atDistance_some s rule len hp] at h
    rw [atDistance_some (withPace p s) rule' len hp, hr]
    exact settle_withPace h

theorem streamExec_withPace {i : Instr} (h : streamExec i s = .next t) :
    streamExec i (withPace p s) = .next (withPace p t) := by
  cases i with
  | clear | deflateCompress | deflateDecompress | gzipCompress | gzipDecompress | crc32 | reservedCmd => cases h
  | blockStored => exact atPlace_withPace (bind_commutes (blockHeader_withPace _ s) storedBody_withPace) h
  | blockFixed | blockDynamicUnsupported | blockReserved =>
    exact atPlace_withPace (bind_commutes (blockHeader_withPace _ s) fun _ => rfl) h
  | lit0To15 | lit16To79 | lit80To143 | lit144To159 | lit160To191 | lit192To255 =>
    exact atPlace_withPace (literal_withPace _ _ s) h
  | eob => exact atPlace_withPace (bind_commutes (skipBits_withPace 7 s) endBlock_withPace) h
  | len257 | len258To259 | len260To263 | len264To271 | len272To279 | len280To283 | len284To285 =>
    exact atPlace_withPace (lengthCode_withPace _ _ s) h
  | litlenInvalid => exact atPlace_withPace rfl h
  | dist0To15 | dist16To23 | dist24To27 | dist28To29 =>
    exact atDistance_withPace (fun len => distanceCode_withPace len _ s) h
  | distInvalid => exact atDistance_withPace (fun _ => rfl) h
  | gzipMember flg => exact atPlace_withPace (memberHeader_withPace flg s) h

/-- The decoder reads the same code. -/
theorem fetch_withPace (s : State) (sp : Space) : (withPace p s).fetch sp = s.fetch sp := by
  have hbits (q n : Nat) : (withPace p s).streamBits q n = s.streamBits q n := by
    rw [State.streamBits_eq_map, State.streamBits_eq_map]
    rfl
  rw [State.fetch, State.fetch, State.window, State.window, hbits]
  rfl

theorem stepStream_withPace {sp : Space} (h : stepStream sp s = .next t) :
    stepStream sp (withPace p s) = .next (withPace p t) := by
  cases hc : s.fetch sp with
  | none =>
    rw [stepStream_none sp s hc] at h
    cases h
    exact stepStream_none sp _ ((fetch_withPace s sp).trans hc)
  | some i =>
    rw [stepStream_some sp s i hc] at h
    rw [stepStream_some sp _ i ((fetch_withPace s sp).trans hc)]
    exact streamExec_withPace h

theorem engineStep_withPace (h : engineStep s = .next t) : engineStep (withPace p s) = .next (withPace p t) := by
  cases hf : s.fetchSpace with
  | some sp =>
    rw [engineStep_stream s sp hf] at h
    exact (engineStep_stream (withPace p s) sp hf).trans (stepStream_withPace h)
  | none =>
    simp only [engineStep, withPace_fetchSpace, withPace_phase, hf] at h ⊢
    cases hp : s.phase <;> simp only [hp] at h ⊢
    case framing => exact atPlace_withPace (stepFraming_withPace s) h
    case matching => exact atPlace_withPace (stepMatching_withPace s) h
    case emitting left => exact atPlace_withPace (stepEmitting_withPace left s) h
    case closing => exact atPlace_withPace (stepClosing_withPace s) h
    case checksum => exact atPlace_withPace rfl h
    all_goals cases h

theorem engineSteps_succ_next {k : Nat} {u : State} (h : engineStep s = .next u) :
    engineSteps (k + 1) s = engineSteps k u := by
  rw [engineSteps, h]

/-- The run of a command is a number of engine steps, and so it is in another pace. -/
theorem engineSteps_of_runEngine {fuel : Nat} (h : runEngine fuel s = .next t) :
    ∃ k, engineSteps k (withPace p s) = .next (withPace p t) := by
  induction fuel generalizing s with
  | zero => cases h; exact ⟨0, rfl⟩
  | succ fuel ih =>
    cases hb : s.busy with
    | false => rw [runEngine_idle _ s hb] at h; cases h; exact ⟨0, rfl⟩
    | true =>
      obtain ⟨u, hu, h⟩ := runEngine_succ_busy hb h
      obtain ⟨k, hk⟩ := ih h
      exact ⟨k + 1, (engineSteps_succ_next (engineStep_withPace hu)).trans hk⟩

end Steps

theorem startCommand_withPace (op : Op) (s : State) :
    startCommand op (withPace p s) = withPace p (startCommand op s) := by
  unfold startCommand
  rw [apply_ite (withPace p)]
  rfl

end Pace

/-- Settles O55: the run of the command is a number of engine steps, which do not read the pace. -/
theorem oneStepIsTheStepwiseRun : Obligations.OneStepIsTheStepwiseRun := by
  intro i op s hop hi hp
  obtain ⟨t, ht, -⟩ := everyCommandEnds i op s hop hi hp
  have hrun : runEngine (engineBound s.inLen.toNat) (startCommand op s) = .next t := by
    rw [← dataCommand_whole op s hi hp, ← exec_commandOp hop, ht]
  obtain ⟨k, hk⟩ := engineSteps_of_runEngine (p := .stepwise) hrun
  refine ⟨t, _, k, ht, ?_, hk⟩
  rw [exec_commandOp hop, dataCommand_stepwise op (withPace .stepwise s) hi rfl, startCommand_withPace]

end Sys2Proof.Machine

namespace Sys2Proof.Machine

/-! ### The host while BUSY (70_reset_and_hazards.md R300) -/

section Busy

variable {offset : Nat} {s : State}

/-- A CMD write of a BUSY block starts nothing, whatever its word. -/
theorem exec_cmd_busy {i : Instr} (hi : i.space = .cmd) (hb : s.busy = true) :
    exec i s = .fault .hostWriteWhileBusy := by
  cases i with
  | clear | deflateCompress | deflateDecompress | gzipCompress | gzipDecompress | crc32 | reservedCmd =>
    exact whenIdle_busy s _ hb
  | _ => cases hi

theorem hostWrite_busy (v : Word) (hb : s.busy = true) (ha : offset % 4 = 0) (hle : offset ≤ 0x7C) :
    hostWrite 4 offset v s = .fault .hostWriteWhileBusy := by
  rw [hostWrite, if_pos (regAccessOk_aligned ha hle)]
  split
  · exact exec_cmd_busy (decodeCmd_space v) hb
  · exact if_pos hb

theorem hostReadReg_busy (hb : s.busy = true) (ha : offset % 4 = 0) (hle : offset ≤ 0x7C) (hne : offset ≠ 0x04) :
    hostReadReg 4 offset s = .next s.answerFree := by
  rw [hostReadReg, if_pos (regAccessOk_aligned ha hle), if_pos (by simp [hb, hne])]

/-- A read of STATUS answers it in either command state. -/
theorem hostReadReg_status (s : State) : hostReadReg 4 0x04 s = .next (s.answer s.status) := by
  rw [hostReadReg, if_pos (regAccessOk_aligned rfl (by decide)), if_neg (by simp)]
  rfl

/-- Bit 0 of STATUS is BUSY (10_state.md R30). -/
theorem State.status_bit_zero (s : State) : s.status.getLsbD 0 = s.busy := by
  have hflag (b : Bool) (w : Word) : (if b then w else 0#32).getLsbD 0 = (b && w.getLsbD 0) := by
    cases b <;> simp
  rw [State.status, BitVec.getLsbD_or, BitVec.getLsbD_or, hflag, hflag, hflag]
  simp

end Busy

/-- Settles O17: on the host's turn each access of a BUSY block is the fault of a write, a free read, or STATUS. -/
theorem hostHazardsWhileBusy : Obligations.HostHazardsWhileBusy := by
  intro s a rest hb hs
  refine ⟨?_, fun h => ⟨Config.freeWord s.freeCount, ?_⟩, ?_⟩
  · rintro (⟨offset, v, rfl, ha, hle⟩ | ⟨offset, v, rfl, hlt⟩)
    · exact (step_writeReg_due (.inr rfl) hs).trans (hostWrite_busy v hb ha hle)
    · exact (step_due (.inr rfl) hs nofun nofun).trans (hostWriteIn_busy v hb hlt)
  · rcases h with ⟨offset, rfl, ha, hle, hne⟩ | ⟨offset, rfl, hlt⟩ | ⟨offset, rfl, hfits⟩
    · exact (step_due (.inr rfl) hs nofun nofun).trans (hostReadReg_busy hb ha hle hne)
    · exact (step_due (.inr rfl) hs nofun nofun).trans (hostReadIn_busy hb hlt)
    · exact (step_due (.inr rfl) hs nofun nofun).trans (hostReadOut_busy hb hfits)
  · rintro rfl
    exact ⟨(step_due (.inr rfl) hs nofun nofun).trans (hostReadReg_status _), s.status_bit_zero.trans hb⟩

/-! ### The reset event (70_reset_and_hazards.md R290, R291) -/

/-- Settles O19: a reset that is due is the whole step, and every register reads as in a reset state. -/
theorem resetAtAnyTime : Obligations.ResetAtAnyTime := by
  intro s after rest ht hs
  exact ⟨resetBlock { s with script := rest }, step_due ht hs nofun nofun, rfl, resetWith_regRead s.cfg 0x04, rfl, rfl,
    rfl, rfl, rfl, rfl, rfl, rfl, rfl, fun _ hge => State.regRead_reserved hge⟩

end Sys2Proof.Machine
